-- ==== Sys2Proof/Word.lean ====
section
/-! DEFINITION. Widths of the SPI radio controller's words (spec R12, R13). -/

namespace Sys2Proof

/-- A byte (R12). -/
abbrev Byte := BitVec 8

/-- A 16-bit value: PAN ID, short address, RSSI, and a register value of either width (R12). -/
abbrev Half := BitVec 16

/-- A chip register address, 0x00 to 0x3F (R12, R51). -/
abbrev RegAddr := BitVec 6

/-- A `TRX_CMD` or `TRX_STATUS` code, bits [4:0] of its register (R59, R87, R88). -/
abbrev TrxCode := BitVec 5

/-- `zeros(n)` of R13: n bytes of 0x00. -/
def zeros (n : Nat) : List Byte := List.replicate n 0#8

/-- The low byte of a 16-bit value, `v[7:0]` (R13). -/
def lowByte (v : Half) : Byte := v.setWidth 8

/-- The high byte of a 16-bit value, `v[15:8]` (R13). -/
def highByte (v : Half) : Byte := (v >>> 8).setWidth 8

/-- `hi << 8 | lo` (R91 (4)). -/
def ofBytes (lo hi : Byte) : Half := (hi.setWidth 16 <<< 8) ||| lo.setWidth 16

end Sys2Proof
end

