-- ==== Sys2Proof/Config.lean ====
section
/-! DEFINITION. What an implementation fixes (spec R8 to R11, R35) and the free values of the model
(opaque constants: the chip's unscripted answers, the parameters the spec leaves OPEN). -/

namespace Sys2Proof

/-- One or two bytes: the values `CMD_BYTES` and `VAL_BYTES` may take (R8). -/
inductive ByteCount where
  | one
  | two
deriving DecidableEq, Repr, Inhabited

/-- The number a `ByteCount` stands for. -/
def ByteCount.num : ByteCount → Nat
  | .one => 1
  | .two => 2

/-- `VAL16_ORDER` (R56). -/
inductive Val16Order where
  | lowFirst
  | highFirst
deriving DecidableEq, Repr, Inhabited

/-- The transport profile (R8); `CMD2` is the constant `Config.cmd2`. -/
structure Profile where
  cmdBytes   : ByteCount
  valBytes   : ByteCount
  readFlag   : Byte
  writeFlag  : Byte
  fbReadCmd  : Byte
  fbWriteCmd : Byte
  val16Order : Val16Order
deriving DecidableEq, Repr

/-- The chip map (R10): the register addresses of R58, the command codes of R87, the status codes of
R88 and every bit position of R59 the SRC uses, the lowest bit where a field has several. The widths of
the fields are those of R59 under every map (log 22). -/
structure ChipMap where
  trxStatus    : RegAddr
  trxState     : RegAddr
  trxCtrl1     : RegAddr
  phyTxPwr     : RegAddr
  phyEdLevel   : RegAddr
  phyCcCca     : RegAddr
  trxCtrl2     : RegAddr
  irqStatus    : RegAddr
  ccCtrl0      : RegAddr
  ccCtrl1      : RegAddr
  shortAddr0   : RegAddr
  shortAddr1   : RegAddr
  panId0       : RegAddr
  panId1       : RegAddr
  csmaSeed0    : RegAddr
  cmdTxStart     : TrxCode
  cmdForceTrxOff : TrxCode
  cmdRxOn        : TrxCode
  cmdPllOn       : TrxCode
  cmdRxAackOn    : TrxCode
  cmdTxAretOn    : TrxCode
  stTrxOff     : TrxCode
  stRxOn       : TrxCode
  stPllOn      : TrxCode
  stRxAackOn   : TrxCode
  stTxAretOn   : TrxCode
  statusLo     : Nat
  trxCmdLo     : Nat
  tracLo       : Nat
  autoCrcBit   : Nat
  spiCmdModeLo : Nat
  rxSafeBit    : Nat
  rcBit        : Nat
  oqpskBit     : Nat
  subModeBit   : Nat
  trxEndBit    : Nat
  ccaModeLo    : Nat
  channelLo    : Nat
  bandLo       : Nat
deriving DecidableEq, Repr

/-- `MAP_RF212`, the default chip map (R58, R59, R87, R88; 93_implementation_defined.md I2, I3, I6). -/
def ChipMap.rf212 : ChipMap :=
  { trxStatus := 0x01#6, trxState := 0x02#6, trxCtrl1 := 0x04#6, phyTxPwr := 0x05#6
    phyEdLevel := 0x07#6, phyCcCca := 0x08#6, trxCtrl2 := 0x0C#6, irqStatus := 0x0F#6
    ccCtrl0 := 0x13#6, ccCtrl1 := 0x14#6, shortAddr0 := 0x20#6, shortAddr1 := 0x21#6
    panId0 := 0x22#6, panId1 := 0x23#6, csmaSeed0 := 0x2D#6
    cmdTxStart := 0x02#5, cmdForceTrxOff := 0x03#5, cmdRxOn := 0x06#5, cmdPllOn := 0x09#5
    cmdRxAackOn := 0x16#5, cmdTxAretOn := 0x19#5
    stTrxOff := 0x08#5, stRxOn := 0x06#5, stPllOn := 0x09#5, stRxAackOn := 0x16#5
    stTxAretOn := 0x19#5
    statusLo := 0, trxCmdLo := 0, tracLo := 5, autoCrcBit := 5, spiCmdModeLo := 2, rxSafeBit := 7
    rcBit := 4, oqpskBit := 3, subModeBit := 2, trxEndBit := 3, ccaModeLo := 5, channelLo := 0
    bandLo := 0 }

/-- The field positions of a map are those R59 lists. -/
def ChipMap.fieldsAsR59 (m : ChipMap) : Bool :=
  m.statusLo == 0 && m.trxCmdLo == 0 && m.channelLo == 0 && m.bandLo == 0
    && m.tracLo == 5 && m.autoCrcBit == 5 && m.spiCmdModeLo == 2 && m.rxSafeBit == 7 && m.rcBit == 4
    && m.oqpskBit == 3 && m.subModeBit == 2 && m.trxEndBit == 3 && m.ccaModeLo == 5

/-- The six command codes of R87 are six different values and `TRX_CMD` lies within the byte written, so
that the byte says which command it is (log 21). -/
def ChipMap.codesDistinct (m : ChipMap) : Bool :=
  decide (m.trxCmdLo ≤ 3) && decide [m.cmdTxStart, m.cmdForceTrxOff, m.cmdRxOn, m.cmdPllOn, m.cmdRxAackOn, m.cmdTxAretOn].Nodup

/-- The registers of R58 are fifteen different addresses, as under `MAP_RF212`. -/
def ChipMap.addrsDistinct (m : ChipMap) : Bool :=
  decide [m.trxStatus, m.trxState, m.trxCtrl1, m.phyTxPwr, m.phyEdLevel, m.phyCcCca, m.trxCtrl2,
    m.irqStatus, m.ccCtrl0, m.ccCtrl1, m.shortAddr0, m.shortAddr1, m.panId0, m.panId1,
    m.csmaSeed0].Nodup

/-- `RX_STATE`, the configured receive-state (R11). -/
inductive RxState where
  | rxOn
  | rxAackOn
deriving DecidableEq, Repr

/-- The transmit status a `DataConfirm` reports (R89, R90). -/
inductive TxStatus where
  | success
  | channelAccessFailure
  | noAck
  | error
deriving DecidableEq, Repr

/-- `RSSI_BASE`, the five calibration constants, each an 8-bit two's-complement number of dBm (R217). -/
structure RssiBases where
  bpsk20     : Byte
  bpsk40     : Byte
  oqpskSub0  : Byte
  oqpskSub1  : Byte
  oqpskSub1Rc : Byte
deriving DecidableEq, Repr

/-- `CFG_RESET`, the configuration cache after SRC reset (R11, R22); its `txPower` is
`DEFAULT_TX_POWER`. -/
structure CfgReset where
  channel    : Byte
  band       : Byte
  modulation : Byte
  panId      : Half
  shortAddr  : Half
deriving DecidableEq, Repr

/-- Every parameter of the block (R8 to R11). `POLL_LIMIT` = INF is `pollLimit = none`. `tracMap` is
`TRAC_MAP`: entry t is the status of code t, and a code with no entry is Error (R89). -/
structure Config where
  profile    : Profile
  maxXfer    : Nat
  fbLimit    : Nat
  maxPhr     : Nat
  rxbufCap   : Nat
  pollLimit  : Option Nat
  cfgRetryMax : Nat
  map        : ChipMap
  rxState    : RxState
  spiCmdModeSel : BitVec 2
  ccaModeSel : BitVec 2
  defaultTxPower : Byte
  cfgReset   : CfgReset
  tracMap    : List TxStatus
  rssiBase   : RssiBases
  rxSizeExcludesFcs : Bool
  dataReqForcesPllOn : Bool
deriving DecidableEq, Repr

/-- The constraints on a profile's flags that a model checks at construction (R82). The register command
bytes of the profile are taken to be flag | address under every `CMD_BYTES`: where `CMD2` gives the command
word (`CMD_BYTES` = 2) R82 does not say which bytes of it the frame commands must differ from, and the model
tests nothing of `CMD2` (DESIGN CHOICE, log 30). -/
def Profile.valid (p : Profile) : Bool :=
  p.readFlag &&& 0x3F#8 == 0#8 && p.writeFlag &&& 0x3F#8 == 0#8 && p.readFlag != p.writeFlag
    && p.fbReadCmd != p.fbWriteCmd
    && p.fbReadCmd &&& 0xC0#8 != p.readFlag && p.fbReadCmd &&& 0xC0#8 != p.writeFlag
    && p.fbWriteCmd &&& 0xC0#8 != p.readFlag && p.fbWriteCmd &&& 0xC0#8 != p.writeFlag

/-- The constraints of R9, R22 and R82, checked where an SRC is constructed. -/
def Config.valid (c : Config) : Bool :=
  c.profile.valid && decide (4 ≤ c.maxXfer) && decide (4 ≤ c.fbLimit) && decide (c.fbLimit ≤ 256)
    && decide (c.maxPhr ≤ 255) && decide (c.maxPhr + 2 ≤ c.rxbufCap) && c.pollLimit != some 0
    && decide (c.cfgReset.band.toNat < 8)

/-- The profile has `CMD_BYTES` = 1 and `VAL_BYTES` = 1 (R163). -/
def Profile.bytewise (p : Profile) : Bool :=
  p.cmdBytes == .one && p.valBytes == .one

/-- Where SRC reset falls about a chunk (R260; log 18): every place between two steps of the sequencer, and
every byte boundary of a chunk. -/
inductive Cut where
  /-- Before the `CS_assert()` of the chunk's transaction; for a later chunk of it, before the chunk. -/
  | beforeSelect
  /-- After `CS_assert()`, or after the chunk before, and before this one begins. -/
  | beforeChunk
  /-- During the chunk, after n of its bytes have been shifted. -/
  | afterBytes (n : Nat)
  /-- After the chunk ended with its result, and before the next step that reaches the bus or a pin. -/
  | afterChunk
deriving DecidableEq, Repr, Inhabited

/-- The world's answer to one chunk (R7, R53): the transport's `ok`, the MISO bytes, whether an
active IRQ edge arrived meanwhile (R238), and whether SRC reset falls about it
(R260). -/
structure Draw where
  ok  : Bool
  rx  : List Byte
  irq : Bool
  cut : Option Cut
deriving DecidableEq, Repr, Inhabited

/-- FREE VALUE. The answer to the k-th chunk where none is scripted (R7, "under no law"; log 3). -/
opaque Config.freeDraw : Nat → Draw

/-- FREE VALUE. The i-th received byte of the k-th chunk where its answer lists fewer bytes (log 3). -/
opaque Config.freeByte : Nat → Nat → Byte

/-- OPEN parameter `CMD2`: the two bytes of a two-byte command word (R85; log 17). -/
opaque Config.cmd2 : RegAddr → Byte → Byte × Byte

/-- OPEN parameter `VAL16_ORDER` of the reference set (R56; log 17). -/
opaque Config.openVal16Order : Val16Order

/-- Profile A (R8). -/
def Profile.a : Profile :=
  { cmdBytes := .one, valBytes := .one, readFlag := 0x80#8, writeFlag := 0xC0#8
    fbReadCmd := 0x20#8, fbWriteCmd := 0x60#8, val16Order := Config.openVal16Order }

/-- REF, the reference parameter set (R9, R11, R89, R217). -/
def Config.ref : Config :=
  { profile := Profile.a, maxXfer := 64, fbLimit := 128, maxPhr := 127, rxbufCap := 129
    pollLimit := some 100, cfgRetryMax := 2, map := ChipMap.rf212, rxState := .rxAackOn
    spiCmdModeSel := 0b01#2, ccaModeSel := 0b01#2, defaultTxPower := 0x60#8
    cfgReset := { channel := 0x01#8, band := 0x00#8, modulation := 0x00#8
                  panId := 0xFFFF#16, shortAddr := 0xFFFF#16 }
    tracMap := [.success, .channelAccessFailure, .noAck]
    rssiBase := { bpsk20 := 0x9C#8, bpsk40 := 0x9D#8, oqpskSub0 := 0x9E#8, oqpskSub1 := 0x9F#8
                  oqpskSub1Rc := 0x9F#8 }
    rxSizeExcludesFcs := false, dataReqForcesPllOn := false }

end Sys2Proof
end

