-- ==== Sys2Proof/Syntax.lean ====
section
/-! DEFINITION. The instruction set: one constructor per row of spec/opcode_table.json, and the three
encoding spaces its rows belong to (R80, R87, R94). -/

namespace Sys2Proof

/-- Host commands (R95), SPI command bytes (R83) and `TRX_CMD` codes (R87). A register value is held
in 16 bits and is as wide as the profile's `VAL_BYTES` (R12). -/
inductive Instr where
  | init
  | sleep
  | wakeup
  | dataRequest (data : List Byte)
  | taskHandler
  | setChannel (ch : Byte)
  | setBand (band : Byte)
  | setModulation (mod : Byte)
  | setPanId (p : Half)
  | setShortAddress (a : Half)
  | setTxPower (power : Byte)
  | rssiBaseValue
  | readRegister (addr : Byte)
  | writeRegister (addr : Byte) (value : Half)
  | writeBytes (data : List Byte)
  | readBytes (n : Byte)
  | writeFrame (frame : List Byte)
  | readFrame
  | spiRegRead (a : RegAddr)
  | spiRegWrite (a : RegAddr) (v : Half)
  | spiFbRead
  | spiFbWrite (frame : List Byte)
  | txStart
  | forceTrxOff
  | rxOn
  | pllOn
  | rxAackOn
  | txAretOn
deriving DecidableEq, Repr

/-- An encoded instruction in its space: a host frame (R94), the MOSI bytes of an SPI transaction
(R84, R86), or the byte written to `TRX_STATE` (R87). -/
inductive Encoded where
  | hostFrame (bytes : List Byte)
  | spiTransfer (mosi : List Byte)
  | trxCommand (b : Byte)
deriving DecidableEq, Repr

end Sys2Proof
end

