-- ==== Sys2Proof/WellFormed.lean ====
section
/-! DEFINITION. Which instructions have an encoding under a parameter set (R12, R85, R91, R92). -/

namespace Sys2Proof

/-- A register value has `8 * VAL_BYTES` bits (R12). -/
def valueFits (c : Config) (v : Half) : Bool :=
  match c.profile.valBytes with
  | .one => decide (v.toNat < 256)
  | .two => true

/-- A list whose length a size byte can carry (R91 (5)). -/
def sizeFits (xs : List Byte) : Bool := decide (xs.length < 256)

/-- A frame whose length prefix n + 2 is one byte (R92). -/
def prefixFits (xs : List Byte) : Bool := decide (xs.length + 2 < 256)

/-- The command word of a register access is known: one byte (R85 leaves two bytes OPEN). -/
def commandWordKnown (c : Config) : Bool := c.profile.cmdBytes == .one

/-- The instruction is a well-formed one of the parameter set: its operands fit its encoding. An
argument whose reserved bits are set, a length 0 or an over-long frame is well-formed: it decodes and
the machine answers it (R91, R97). -/
def Instr.wf (c : Config) : Instr → Bool
  | .init => true
  | .sleep => true
  | .wakeup => true
  | .dataRequest data => sizeFits data
  | .taskHandler => true
  | .setChannel _ => true
  | .setBand _ => true
  | .setModulation _ => true
  | .setPanId _ => true
  | .setShortAddress _ => true
  | .setTxPower _ => true
  | .rssiBaseValue => true
  | .readRegister _ => true
  | .writeRegister _ v => valueFits c v
  | .writeBytes data => sizeFits data
  | .readBytes _ => true
  | .writeFrame frame => sizeFits frame
  | .readFrame => true
  | .spiRegRead _ => commandWordKnown c
  | .spiRegWrite _ v => commandWordKnown c && valueFits c v
  | .spiFbRead => true
  | .spiFbWrite frame => prefixFits frame
  | .txStart => true
  | .forceTrxOff => true
  | .rxOn => true
  | .pllOn => true
  | .rxAackOn => true
  | .txAretOn => true

end Sys2Proof
end

