-- ==== Sys2Proof/Decode.lean ====
section
/-! DEFINITION. Decoding of host frames (R91, R94 to R96), SPI transactions (R81 to R86) and
`TRX_STATE` bytes (R87), total and rejecting by name; the encoder; and the word of an opcode-table row. -/

namespace Sys2Proof

/-- Why bytes are no instruction. -/
inductive DecodeError where
  /-- The host opcode is not in R95 (R98 (1)). -/
  | unassignedOpcode (op : Byte)
  /-- The host frame has not the length R96 gives its opcode (log 10). -/
  | wrongLength
  /-- SPI bytes, or a `TRX_STATE` byte, of a form the SRC never forms (R83, R98 (3), (4)). -/
  | neverFormed
deriving DecidableEq, Repr

/-! ### Register words on SPI -/

/-- The command word of a register access (R81, R85). -/
def commandWord (c : Config) (a : RegAddr) (flag : Byte) : List Byte :=
  match c.profile.cmdBytes with
  | .one => [flag ||| a.setWidth 8]
  | .two => [(Config.cmd2 a flag).1, (Config.cmd2 a flag).2]

/-- `valbytes_V(v)`: the value bytes on the wire (R84, R56). -/
def valueBytes (c : Config) (v : Half) : List Byte :=
  match c.profile.valBytes, c.profile.val16Order with
  | .one, _ => [lowByte v]
  | .two, .lowFirst => [lowByte v, highByte v]
  | .two, .highFirst => [highByte v, lowByte v]

/-- The value a list of wire bytes holds, if it has `VAL_BYTES` bytes: the inverse of `valueBytes`. -/
def valueOfBytes (c : Config) (bs : List Byte) : Option Half :=
  match c.profile.valBytes, c.profile.val16Order, bs with
  | .one, _, [b] => some (b.setWidth 16)
  | .two, .lowFirst, [lo, hi] => some (ofBytes lo hi)
  | .two, .highFirst, [hi, lo] => some (ofBytes lo hi)
  | _, _, _ => none

/-- A register value in a host frame or in `retdata`: `VAL_BYTES` bytes, low byte first (R91 (3), R124). -/
def hostValueBytes (c : Config) (v : Half) : List Byte :=
  match c.profile.valBytes with
  | .one => [lowByte v]
  | .two => [lowByte v, highByte v]

/-! ### The frame buffer image -/

/-- `[n+2, f..., 0x00, 0x00]`, the frame-write buffer (R86, R92, R141). -/
def frameImage (f : List Byte) : List Byte :=
  BitVec.ofNat 8 (f.length + 2) :: (f ++ zeros 2)

/-- The frame an image carries: its length byte is 2 or more and counts what follows it, and the last
two bytes are the 0x00 placeholders (R92). -/
def frameOfImage : List Byte → Option (List Byte)
  | [] => none
  | p :: rest =>
    if 2 ≤ p.toNat ∧ rest.length = p.toNat ∧ rest.drop (p.toNat - 2) = zeros 2
    then some (rest.take (p.toNat - 2))
    else none

/-! ### Host frames -/

/-- The number of bytes of a host frame, from its first bytes alone (R96); none for an unassigned
opcode, and for a sized form whose size byte is missing. -/
def hostFrameLength (c : Config) : List Byte → Option Nat
  | [] => none
  | op :: rest =>
    match op.toNat with
    | 0x01 | 0x02 | 0x03 | 0x05 | 0x16 | 0x25 => some 1
    | 0x10 | 0x11 | 0x12 | 0x15 | 0x20 | 0x23 => some 2
    | 0x13 | 0x14 => some 3
    | 0x21 => some (2 + c.profile.valBytes.num)
    | 0x04 | 0x22 | 0x24 => rest.head?.map fun n => 2 + n.toNat
    | _ => none

/-- A frame with no argument. -/
def noArgs (i : Instr) : List Byte → Except DecodeError Instr
  | [] => .ok i
  | _ => .error .wrongLength

/-- A frame with one argument byte. -/
def byteArg (mk : Byte → Instr) : List Byte → Except DecodeError Instr
  | [b] => .ok (mk b)
  | _ => .error .wrongLength

/-- A frame with one 16-bit argument, low byte first (R94, R91 (4)). -/
def halfArg (mk : Half → Instr) : List Byte → Except DecodeError Instr
  | [lo, hi] => .ok (mk (ofBytes lo hi))
  | _ => .error .wrongLength

/-- A frame with a size byte and exactly that many data bytes (R91 (5)). -/
def sizedArg (mk : List Byte → Instr) : List Byte → Except DecodeError Instr
  | [] => .error .wrongLength
  | n :: data => if data.length = n.toNat then .ok (mk data) else .error .wrongLength

/-- WRITE_REGISTER's arguments: the address byte and `VAL_BYTES` value bytes, low first (R91 (3)). -/
def writeRegisterArgs (c : Config) : List Byte → Except DecodeError Instr
  | [a, lo] => if c.profile.valBytes = .one then .ok (.writeRegister a (lo.setWidth 16))
               else .error .wrongLength
  | [a, lo, hi] => if c.profile.valBytes = .two then .ok (.writeRegister a (ofBytes lo hi))
                   else .error .wrongLength
  | _ => .error .wrongLength

/-- A host frame (R95). -/
def decodeHost (c : Config) : List Byte → Except DecodeError Instr
  | [] => .error .wrongLength
  | op :: args =>
    match op.toNat with
    | 0x01 => noArgs .init args
    | 0x02 => noArgs .sleep args
    | 0x03 => noArgs .wakeup args
    | 0x04 => sizedArg .dataRequest args
    | 0x05 => noArgs .taskHandler args
    | 0x10 => byteArg .setChannel args
    | 0x11 => byteArg .setBand args
    | 0x12 => byteArg .setModulation args
    | 0x13 => halfArg .setPanId args
    | 0x14 => halfArg .setShortAddress args
    | 0x15 => byteArg .setTxPower args
    | 0x16 => noArgs .rssiBaseValue args
    | 0x20 => byteArg .readRegister args
    | 0x21 => writeRegisterArgs c args
    | 0x22 => sizedArg .writeBytes args
    | 0x23 => byteArg .readBytes args
    | 0x24 => sizedArg .writeFrame args
    | 0x25 => noArgs .readFrame args
    | _ => .error (.unassignedOpcode op)

/-! ### SPI transactions -/

/-- What a command byte of the profile says (R82, R83). -/
inductive SpiCommand where
  | regRead (a : RegAddr)
  | regWrite (a : RegAddr)
  | fbRead
  | fbWrite
deriving DecidableEq, Repr

/-- The command a first byte of a transaction stands for (R82: `byte & 0x3F` is the address). -/
def spiCommandOf (c : Config) (b : Byte) : Option SpiCommand :=
  if b = c.profile.fbReadCmd then some .fbRead
  else if b = c.profile.fbWriteCmd then some .fbWrite
  else if c.profile.cmdBytes = .two then none
  else if b &&& 0xC0#8 = c.profile.readFlag then some (.regRead (b.setWidth 6))
  else if b &&& 0xC0#8 = c.profile.writeFlag then some (.regWrite (b.setWidth 6))
  else none

/-- What follows the command byte (R84, R86, R93). A frame read is known by its command and the one
filler under which the length byte arrives; its later fillers depend on what the chip returns. -/
def decodeSpiFollow (c : Config) (follow : List Byte) : SpiCommand → Except DecodeError Instr
  | .regRead a =>
    if follow = zeros c.profile.valBytes.num then .ok (.spiRegRead a) else .error .neverFormed
  | .regWrite a =>
    match valueOfBytes c follow with
    | some v => .ok (.spiRegWrite a v)
    | none => .error .neverFormed
  | .fbRead => if follow = zeros 1 then .ok .spiFbRead else .error .neverFormed
  | .fbWrite =>
    match frameOfImage follow with
    | some f => .ok (.spiFbWrite f)
    | none => .error .neverFormed

/-- The MOSI bytes of a transaction. -/
def decodeSpi (c : Config) : List Byte → Except DecodeError Instr
  | [] => .error .neverFormed
  | b :: follow =>
    match spiCommandOf c b with
    | some k => decodeSpiFollow c follow k
    | none => .error .neverFormed

/-! ### TRX_CMD codes -/

/-- The byte written to `TRX_STATE` for a code: the code in the `TRX_CMD` field, every other bit 0; under
`MAP_RF212` it is `zext_8(cmd)` (R59). -/
def trxByte (c : Config) (code : TrxCode) : Byte := code.setWidth 8 <<< c.map.trxCmdLo

/-- A byte written to `TRX_STATE` (R87). -/
def decodeTrx (c : Config) (b : Byte) : Except DecodeError Instr :=
  if b = trxByte c c.map.cmdTxStart then .ok .txStart
  else if b = trxByte c c.map.cmdForceTrxOff then .ok .forceTrxOff
  else if b = trxByte c c.map.cmdRxOn then .ok .rxOn
  else if b = trxByte c c.map.cmdPllOn then .ok .pllOn
  else if b = trxByte c c.map.cmdRxAackOn then .ok .rxAackOn
  else if b = trxByte c c.map.cmdTxAretOn then .ok .txAretOn
  else .error .neverFormed

/-- The decoder, total on any bytes of any space. -/
def decode (c : Config) : Encoded → Except DecodeError Instr
  | .hostFrame bs => decodeHost c bs
  | .spiTransfer mosi => decodeSpi c mosi
  | .trxCommand b => decodeTrx c b

/-! ### The encoder -/

/-- A size byte and its data (R91 (5)). -/
def sized (xs : List Byte) : List Byte := BitVec.ofNat 8 xs.length :: xs

/-- The encoding of an instruction in its space (R84, R86, R87, R95). -/
def encode (c : Config) : Instr → Encoded
  | .init => .hostFrame [0x01#8]
  | .sleep => .hostFrame [0x02#8]
  | .wakeup => .hostFrame [0x03#8]
  | .dataRequest data => .hostFrame (0x04#8 :: sized data)
  | .taskHandler => .hostFrame [0x05#8]
  | .setChannel ch => .hostFrame [0x10#8, ch]
  | .setBand band => .hostFrame [0x11#8, band]
  | .setModulation mod => .hostFrame [0x12#8, mod]
  | .setPanId p => .hostFrame [0x13#8, lowByte p, highByte p]
  | .setShortAddress a => .hostFrame [0x14#8, lowByte a, highByte a]
  | .setTxPower power => .hostFrame [0x15#8, power]
  | .rssiBaseValue => .hostFrame [0x16#8]
  | .readRegister addr => .hostFrame [0x20#8, addr]
  | .writeRegister addr v => .hostFrame (0x21#8 :: addr :: hostValueBytes c v)
  | .writeBytes data => .hostFrame (0x22#8 :: sized data)
  | .readBytes n => .hostFrame [0x23#8, n]
  | .writeFrame frame => .hostFrame (0x24#8 :: sized frame)
  | .readFrame => .hostFrame [0x25#8]
  | .spiRegRead a =>
    .spiTransfer (commandWord c a c.profile.readFlag ++ zeros c.profile.valBytes.num)
  | .spiRegWrite a v =>
    .spiTransfer (commandWord c a c.profile.writeFlag ++ valueBytes c v)
  | .spiFbRead => .spiTransfer [c.profile.fbReadCmd, 0x00#8]
  | .spiFbWrite frame => .spiTransfer (c.profile.fbWriteCmd :: frameImage frame)
  | .txStart => .trxCommand (trxByte c c.map.cmdTxStart)
  | .forceTrxOff => .trxCommand (trxByte c c.map.cmdForceTrxOff)
  | .rxOn => .trxCommand (trxByte c c.map.cmdRxOn)
  | .pllOn => .trxCommand (trxByte c c.map.cmdPllOn)
  | .rxAackOn => .trxCommand (trxByte c c.map.cmdRxAackOn)
  | .txAretOn => .trxCommand (trxByte c c.map.cmdTxAretOn)

/-! ### Words of the opcode table -/

/-- The n bytes of w, least significant first. -/
def leBytes : Nat → Nat → List Byte
  | 0, _ => []
  | n + 1, w => BitVec.ofNat 8 w :: leBytes n (w / 256)

/-- xs, followed by 0x00 up to n bytes. -/
def padTo (n : Nat) (xs : List Byte) : List Byte := xs ++ zeros (n - xs.length)

/-- The MOSI bytes of an SPI row whose operands beyond xs are zero: value and filler bytes 0x00, the
image of the empty frame for a frame write (log 14). -/
def completeSpi (c : Config) (xs : List Byte) : SpiCommand → List Byte
  | .regRead _ => padTo (1 + c.profile.valBytes.num) xs
  | .regWrite _ => padTo (1 + c.profile.valBytes.num) xs
  | .fbRead => padTo 2 xs
  | .fbWrite => if xs.length = 1 then xs ++ frameImage [] else xs

/-- The encoded instruction that an opcode-table word stands for. The table numbers three spaces in
one column; a byte that is an assigned host opcode is read as a host frame, else a byte that is a
command byte of the profile as an SPI transaction, else as a `TRX_STATE` byte, and a byte that is none
of the three as a host frame with an unassigned opcode (log 13). -/
def tableWord (c : Config) (nbits w : Nat) : Encoded :=
  let xs := leBytes ((nbits + 7) / 8) w
  match hostFrameLength c (xs ++ zeros 2) with
  | some n => .hostFrame (padTo n xs)
  | none =>
    match xs with
    | [] => .hostFrame []
    | b :: rest =>
      match spiCommandOf c b with
      | some k => .spiTransfer (completeSpi c xs k)
      | none =>
        match decodeTrx c b, rest with
        | .ok _, [] => .trxCommand b
        | _, _ => .hostFrame xs

/-- The instruction the decoder reads from an opcode-table word, under the reference parameters. -/
def decodeTableWord (nbits w : Nat) : Option Instr :=
  match decode Config.ref (tableWord Config.ref nbits w) with
  | .ok i => some i
  | .error _ => none

end Sys2Proof
end

