-- ==== Sys2Proof/Machine/State.lean ====
section
/-! DEFINITION. The state of the SPI radio controller (spec R20 to R37) as plain data, what a step can
stop with, and the state after SRC reset (R36). -/

namespace Sys2Proof

/-- A byte array in which a byte nothing has written has no value (R24, R25, R37): pairs of index and
byte, indices strictly rising. -/
abbrev Memory := List Host.Cell

/-- The canonical form: indices strictly rising. An unlisted index reads as no value, so no entry can
equal what an unlisted index reads as. -/
abbrev Memory.wf (m : Memory) : Prop := (m.map Prod.fst).Pairwise (· < ·)

/-- Every listed index lies below n (R148). -/
abbrev Memory.below (m : Memory) (n : Nat) : Prop := ∀ k ∈ m.map Prod.fst, k < n

namespace Machine

/-- `opState` (R21). -/
inductive OpState where
  | initial
  | idle
  | sleep
  | transmittingWaitEnd
deriving DecidableEq, Repr

/-- The level of a line or output pin, with no electrical polarity (R31, R32). -/
inductive Level where
  | deasserted
  | asserted
deriving DecidableEq, Repr

/-- The events of `evq` (R236). -/
inductive Event where
  | dataConfirm (status : TxStatus)
  | dataIndication (buffer : List Byte) (size : Nat) (lqi : Byte) (rssi : Half)
deriving DecidableEq, Repr

/-- The errors a command is abandoned with, with the information each records (R230). -/
inductive Err where
  | transferFailed (chunk offset : Nat)
  | chipUnresponsive (expected last : TrxCode)
  | invalidState (opState : OpState)
  | frameTooLong (length : Nat)
  | frameInvalid (length : Byte)
  | invalidArgument (arg : Byte)
  | invalidCommand (opcode : Byte)
  | unsupportedProfile (profile : Profile)
deriving DecidableEq, Repr

/-- The commands `SetTrxState` takes (R160). -/
inductive TrxCmd where
  | forceTrxOff
  | rxOn
  | rxAackOn
  | pllOn
  | txAretOn
deriving DecidableEq, Repr

/-- The calls of `SetTrxState` in the pseudocodes of the commands, each with what the steps after it still
need: INIT's two (R166), SLEEP's (R169), WAKEUP's (R171), DATA_REQUEST's two (R173), WRITE_FRAME's (R140),
the re-apply of the receive path, of its invalid length and of the transmit-done path (R177, R180, R178),
and that of a `TRX_CMD` row run alone (log 12). -/
inductive StateCall where
  | initOff
  | initReceive
  | sleepOff
  | wakeupReceive
  | requestTransmit (data : List Byte)
  | requestPll (data : List Byte)
  | writeFramePll (frame : List Byte)
  | received
  | receivedInvalid (len : Byte)
  | transmitted
  | row (cmd : TrxCmd)
deriving DecidableEq, Repr

/-- The two phases of `SetTrxState` (R160). -/
inductive Phase where
  | forcedOff
  | target
deriving DecidableEq, Repr

/-- The step of a command's pseudocode (R30): its first step, or the status poll of a phase of one of its
`SetTrxState` calls. A model step runs a command to its completion or to a poll without a bound that has not
matched yet (R276), so no other step shows between two model steps (log 5). -/
inductive SeqStep where
  | start
  | waiting (call : StateCall) (phase : Phase)
deriving DecidableEq, Repr

/-- The sequencer position (R30): the command being executed, and the step of its pseudocode. -/
structure SeqPos where
  cmd  : Instr
  step : SeqStep
deriving DecidableEq, Repr

/-- What the outside of the block sees of the bus and the pins (R6, R99), oldest first in `trace`. -/
inductive BusEvent where
  /-- The chip-select line is driven. -/
  | cs (level : Level)
  /-- A chunk: the bytes sent, the bytes received (empty where `ok` is false, R53), and `ok`. -/
  | chunk (tx rx : List Byte) (ok : Bool)
  /-- A chunk that SRC reset cut after these bytes (R260). -/
  | cutChunk (sent : List Byte)
  /-- The RST pin is driven. -/
  | rst (level : Level)
deriving DecidableEq, Repr

/-- A completion as the host receives it: `[result] ++ retdata` and the events (R94). -/
structure Completion where
  result  : Byte
  retdata : List Byte
  events  : List Event
deriving DecidableEq, Repr

/-- What the outside presents to the block between commands (R245). A word is held by the host until the
SRC is free to take it (log 16). -/
inductive PortInput where
  /-- An encoded instruction: a host frame, or a row of the internal spaces run alone (log 11). -/
  | word (e : Encoded)
  /-- An active edge of the IRQ input (R238). -/
  | irqEdge
  /-- SRC reset (R260). -/
  | srcReset
  /-- An encoded instruction, and SRC reset before its command's first step that reaches the bus or a pin, or
  before its completion where it has none (R260; log 18). -/
  | wordCut (e : Encoded)
  /-- An encoded instruction, and an IRQ edge after its command's first step and after its last chunk where it has
  one, just before its completion, or where the step leaves it (R238, R239; log 4). -/
  | wordEdge (e : Encoded)
deriving DecidableEq, Repr

/-- The whole state: the state of R20, then what the model adds (see INVENTORY.md). -/
structure State where
  opState    : OpState
  channel    : Byte
  band       : Byte
  modulation : Byte
  panId      : Half
  shortAddr  : Half
  txPower    : Byte
  txbuf      : Memory
  rxbuf      : Memory
  busy       : Bool
  irqFlag    : Bool
  result     : Byte
  retdata    : List Byte
  evq        : List Event
  seq        : Option SeqPos
  cs         : Level
  pollCount  : Nat
  retryCount : Nat
  rst        : Level
  slpTr      : Level
  /-- The parameters (R35; log 1). -/
  cfg        : Config
  /-- What the last raise recorded, "model only" (R230). -/
  info       : Option Err
  /-- Bus and pin actions so far, oldest first (R6). -/
  trace      : List BusEvent
  /-- Completions delivered to the host so far, oldest first (R94). -/
  delivered  : List Completion
  /-- What the outside presents next, first first. -/
  port       : List PortInput
  /-- The answers to the next chunks, first first; beyond them the answers are free (log 3). -/
  chip       : List Draw
  /-- Chunks answered so far: the counter the free values are applied to (log 3). -/
  draws      : Nat
deriving DecidableEq, Repr

/-- What the machine stops with where the spec names a fault. -/
inductive Fault where
  /-- A buffer byte nothing has written was read (R37, U10). Raised by the named read of a buffer,
  `Memory.fetch`; no meaning raises it, because no host-visible path reads such a byte. Safe. -/
  | unwrittenByte (index : Nat)
deriving DecidableEq, Repr

/-- What a step refuses. -/
inductive Refusal where
  /-- An instruction with no meaning yet. Raised by an arm of `exec`; no arm raises it now. Safe. -/
  | notModelled (mnemonic : String)
  /-- A host frame whose length is not the one R96 gives, so no host command (log 10). Raised by
  `step`. Safe. -/
  | malformedFrame
  /-- SPI or `TRX_STATE` bytes the SRC never forms (R83, R98 (3), (4)). Raised by `step`. Safe. -/
  | neverFormed
deriving DecidableEq, Repr

/-- Why the steps of a command end early: a raise (R231), or the command does not complete in this model
step (SRC reset, R260; a wait without a bound, R276) and the state stands as it is. -/
inductive Abort where
  | raised (e : Err)
  | stopped
deriving DecidableEq, Repr

/-- An SRC constructed with parameters c, right after SRC reset (R36). -/
def State.boot (c : Config) : State :=
  { opState := .initial
    channel := c.cfgReset.channel, band := c.cfgReset.band, modulation := c.cfgReset.modulation
    panId := c.cfgReset.panId, shortAddr := c.cfgReset.shortAddr, txPower := c.defaultTxPower
    txbuf := [], rxbuf := [], busy := false, irqFlag := false, result := 0x00#8, retdata := []
    evq := [], seq := none, cs := .deasserted, pollCount := 0, retryCount := 0
    rst := .deasserted, slpTr := .deasserted
    cfg := c, info := none, trace := [], delivered := [], port := [], chip := [], draws := 0 }

/-- Constructing an SRC: the constraints of R9, R22 and R82 are checked, and with parameters that break one there
is no SRC (R82, R35; log 30). -/
def State.construct (c : Config) : Option State := if c.valid then some (State.boot c) else none

/-- The machine right after reset, with the reference parameters (log 2): what `State.construct` gives for
them (`construct_ref`). -/
def State.reset : State := State.boot Config.ref

end Machine

end Sys2Proof
end

