-- ==== Sys2Proof/Machine/Operands.lean ====
section
/-! DEFINITION. Operand forms (spec R91, R97), the fields of the chip registers the SRC writes and reads
(R59), the command and status codes (R87, R88), transaction status (R89) and the RSSI arithmetic
(R179, R217). -/

namespace Sys2Proof.Machine

/-! ### Host operands -/

/-- The bits [7:6] of a register address operand that must be 0 are 0 (R91 (1)). -/
def addrLegal (addr : Byte) : Bool := addr &&& 0xC0#8 == 0#8

/-- The register address of an operand, bits [5:0] (R91 (1)). -/
def addrOf (addr : Byte) : RegAddr := addr.setWidth 6

/-- The bits [7:3] of a band operand that must be 0 are 0 (R91 (2)). -/
def bandLegal (band : Byte) : Bool := band &&& 0xF8#8 == 0#8

/-- `length + 3 ≤ FB_LIMIT` (R97). -/
def frameFits (c : Config) (f : List Byte) : Bool := decide (f.length + 3 ≤ c.fbLimit)

/-! ### Received bytes -/

/-- Byte i of a received list. A chunk's answer is as long as what was sent, so no rule reads past its
end and the free value is never taken (log 23). -/
def byteAt (xs : List Byte) (i : Nat) : Byte := (xs[i]?).getD (Config.freeByte 0 i)

/-- `value`, assembled from the bytes received after the command word (R84, R125). -/
def assemble (c : Config) (rx : List Byte) : Half :=
  match c.profile.valBytes, c.profile.val16Order with
  | .one, _ => (byteAt rx c.profile.cmdBytes.num).setWidth 16
  | .two, .lowFirst => ofBytes (byteAt rx c.profile.cmdBytes.num) (byteAt rx (c.profile.cmdBytes.num + 1))
  | .two, .highFirst => ofBytes (byteAt rx (c.profile.cmdBytes.num + 1)) (byteAt rx c.profile.cmdBytes.num)

/-- The MOSI bytes of a register read exchange (R84, R93). -/
def readExchange (c : Config) (a : RegAddr) : List Byte :=
  commandWord c a c.profile.readFlag ++ zeros c.profile.valBytes.num

/-- The MOSI bytes of a register write exchange (R84). -/
def writeExchange (c : Config) (a : RegAddr) (v : Half) : List Byte :=
  commandWord c a c.profile.writeFlag ++ valueBytes c v

/-! ### Fields of chip registers (R59) -/

/-- The chip state field of a `TRX_STATUS` value, bits [4:0] under the default map. -/
def statusField (c : Config) (v : Byte) : TrxCode := (v >>> c.map.statusLo).setWidth 5

/-- The transaction-status field of a `TRX_STATE` value, bits [7:5] under the default map. -/
def tracField (c : Config) (v : Byte) : BitVec 3 := (v >>> c.map.tracLo).setWidth 3

/-- The end-of-transmission-or-reception bit of an `IRQ_STATUS` value. -/
def trxEnd (c : Config) (v : Byte) : Bool := v.getLsbD c.map.trxEndBit

/-- The byte Init writes to `TRX_CTRL_1`: auto-CRC on and the SPI command mode, other bits 0. -/
def trxCtrl1Value (c : Config) : Byte :=
  (1#8 <<< c.map.autoCrcBit) ||| (c.spiCmdModeSel.setWidth 8 <<< c.map.spiCmdModeLo)

/-- The byte written to `TRX_CTRL_2`: receive-safe mode on, the other bits those of the modulation. -/
def trxCtrl2Value (c : Config) (modulation : Byte) : Byte :=
  (1#8 <<< c.map.rxSafeBit) ||| (modulation &&& ~~~(1#8 <<< c.map.rxSafeBit))

/-- The byte written to `PHY_CC_CCA`: the CCA mode and the channel's low five bits. -/
def phyCcCcaValue (c : Config) (channel : Byte) : Byte :=
  (c.ccaModeSel.setWidth 8 <<< c.map.ccaModeLo) ||| ((channel &&& 0x1F#8) <<< c.map.channelLo)

/-- The byte written to `CC_CTRL_1`: the band, every other bit 0; the band itself under the default map. -/
def ccCtrl1Value (c : Config) (band : Byte) : Byte := band <<< c.map.bandLo

/-- The CSMA seed of a short address: the sum of its bytes modulo 256 (R211). -/
def seedOf (shortAddr : Half) : Byte := lowByte shortAddr + highByte shortAddr

/-! ### State commands (R87, R88) -/

/-- The code a state command is written as (R87). -/
def cmdCode (c : Config) : TrxCmd → TrxCode
  | .forceTrxOff => c.map.cmdForceTrxOff
  | .rxOn => c.map.cmdRxOn
  | .rxAackOn => c.map.cmdRxAackOn
  | .pllOn => c.map.cmdPllOn
  | .txAretOn => c.map.cmdTxAretOn

/-- `statusOf(command)`: the chip state a state command waits for (R88). -/
def statusOf (c : Config) : TrxCmd → TrxCode
  | .forceTrxOff => c.map.stTrxOff
  | .rxOn => c.map.stRxOn
  | .rxAackOn => c.map.stRxAackOn
  | .pllOn => c.map.stPllOn
  | .txAretOn => c.map.stTxAretOn

/-- The configured receive-state `RX_STATE` as a state command (R11). -/
def rxStateCmd (c : Config) : TrxCmd :=
  match c.rxState with
  | .rxOn => .rxOn
  | .rxAackOn => .rxAackOn

/-- The command a `SetTrxState` call issues (R140, R166, R169, R171, R173, R177, R178, R180). -/
def callCmd (c : Config) : StateCall → TrxCmd
  | .initOff => .forceTrxOff
  | .initReceive => rxStateCmd c
  | .sleepOff => .forceTrxOff
  | .wakeupReceive => rxStateCmd c
  | .requestTransmit _ => .txAretOn
  | .requestPll _ => .pllOn
  | .writeFramePll _ => .pllOn
  | .received => rxStateCmd c
  | .receivedInvalid _ => rxStateCmd c
  | .transmitted => rxStateCmd c
  | .row cmd => cmd

/-- The chip state a phase of a `SetTrxState` call waits for (R160). -/
def awaitedIn (c : Config) (call : StateCall) : Phase → TrxCode
  | .forcedOff => statusOf c .forceTrxOff
  | .target => statusOf c (callCmd c call)

/-- The status of a transaction-status code: `TRAC_MAP`, Error for an unmapped code (R89). -/
def tracStatus (c : Config) (t : BitVec 3) : TxStatus := (c.tracMap[t.toNat]?).getD .error

/-! ### RSSI (R179, R217) -/

/-- `RssiBase(mod)`: the constant the modulation bits select (R217). -/
def rssiBaseOf (c : Config) (modulation : Byte) : Byte :=
  match modulation.getLsbD c.map.oqpskBit, modulation.getLsbD c.map.subModeBit,
      modulation.getLsbD c.map.rcBit with
  | false, false, _ => c.rssiBase.bpsk20
  | false, true, _ => c.rssiBase.bpsk40
  | true, false, _ => c.rssiBase.oqpskSub0
  | true, true, false => c.rssiBase.oqpskSub1
  | true, true, true => c.rssiBase.oqpskSub1Rc

/-- `RssiOf(ed, mod)`: zero-extended energy plus sign-extended base, in 16 bits (R179). -/
def rssiOf (c : Config) (ed modulation : Byte) : Half :=
  ed.setWidth 16 + (rssiBaseOf c modulation).signExtend 16

/-! ### Received frames (R147) -/

/-- What the frame buffer holds after a frame read: the length byte, then the L frame bytes and the
LQI byte. -/
structure RxFrame where
  len  : Byte
  body : List Byte
deriving DecidableEq, Repr

/-- `rxbuf[0 .. L+2)` as the frame read wrote it (R145). -/
def RxFrame.image (f : RxFrame) : List Byte := f.len :: f.body

/-- `size`: L, or `max(L - 2, 0)` where the FCS is excluded (R147). -/
def rxSize (c : Config) (f : RxFrame) : Nat :=
  if c.rxSizeExcludesFcs then f.len.toNat - 2 else f.len.toNat

/-- The indication of a received frame: `buffer` = `rxbuf[1 .. 1 + size)`, `lqi` = `rxbuf[L + 1]`. -/
def indicationOf (c : Config) (f : RxFrame) (ed modulation : Byte) : Event :=
  .dataIndication ((f.image.drop 1).take (rxSize c f)) (rxSize c f)
    (byteAt f.image (f.len.toNat + 1)) (rssiOf c ed modulation)

end Sys2Proof.Machine
end

