-- ==== Sys2Proof/Machine/Flags.lean ====
section
/-! DEFINITION. The flags `busy` and `irqFlag` and the status `result` (spec R26 to R29): the block has
no condition codes. Here: the numbers of R21, R90 and R230, the legality table (R234), and accepting
and completing a command (R27, R29, R33, R231). -/

namespace Sys2Proof.Machine

/-- The encoding of `opState` (R21). -/
def OpState.code : OpState → BitVec 2
  | .initial => 0#2
  | .idle => 1#2
  | .sleep => 2#2
  | .transmittingWaitEnd => 3#2

/-- The number of a transmit status (R90). -/
def statusNumber : TxStatus → Byte
  | .success => 0x00#8
  | .channelAccessFailure => 0x01#8
  | .noAck => 0x02#8
  | .error => 0x03#8

/-- The completion code OK (R230). -/
def okCode : Byte := 0x00#8

/-- The completion code of an error (R230). -/
def Err.code : Err → Byte
  | .transferFailed _ _ => 0x01#8
  | .chipUnresponsive _ _ => 0x02#8
  | .invalidState _ => 0x03#8
  | .frameTooLong _ => 0x04#8
  | .frameInvalid _ => 0x05#8
  | .invalidArgument _ => 0x06#8
  | .invalidCommand _ => 0x07#8
  | .unsupportedProfile _ => 0x08#8

/-- A cell of the legality table (R234). -/
inductive Legality where
  | run
  | noop
  | refuse
deriving DecidableEq, Repr

/-- The legality of the configuration commands (R201). -/
def afterInit : OpState → Legality
  | .initial => .refuse
  | .idle => .run
  | .sleep => .run
  | .transmittingWaitEnd => .run

/-- The legality of every command in every operating state (R234). The rows of the two internal spaces
have no line in that table; run alone they have no state condition (log 11). -/
def legality (i : Instr) (st : OpState) : Legality :=
  match i with
  | .init => match st with
    | .initial => .run
    | .idle => .refuse
    | .sleep => .refuse
    | .transmittingWaitEnd => .refuse
  | .sleep => match st with
    | .initial => .refuse
    | .idle => .run
    | .sleep => .noop
    | .transmittingWaitEnd => .refuse
  | .wakeup => match st with
    | .initial => .refuse
    | .idle => .run
    | .sleep => .run
    | .transmittingWaitEnd => .refuse
  | .dataRequest _ => match st with
    | .initial => .refuse
    | .idle => .run
    | .sleep => .refuse
    | .transmittingWaitEnd => .refuse
  | .taskHandler => match st with
    | .initial => .noop
    | .idle => .run
    | .sleep => .noop
    | .transmittingWaitEnd => .run
  | .setChannel _ => afterInit st
  | .setBand _ => afterInit st
  | .setModulation _ => afterInit st
  | .setPanId _ => afterInit st
  | .setShortAddress _ => afterInit st
  | .setTxPower _ => afterInit st
  | .rssiBaseValue => .run
  | .readRegister _ => .run
  | .writeRegister _ _ => .run
  | .writeBytes _ => .run
  | .readBytes _ => .run
  | .writeFrame _ => .run
  | .readFrame => .run
  | .spiRegRead _ => .run
  | .spiRegWrite _ _ => .run
  | .spiFbRead => .run
  | .spiFbWrite _ => .run
  | .txStart => .run
  | .forceTrxOff => .run
  | .rxOn => .run
  | .pllOn => .run
  | .rxAackOn => .run
  | .txAretOn => .run

/-- An active edge of the IRQ input sets `irqFlag` and does nothing else (R238). -/
def irqEdge (s : State) : State := { s with irqFlag := true }

/-- A presented command is taken for its checks: `busy` set, the sequencer at its first step (R27, R30,
R233). -/
def take (i : Instr) (s : State) : State :=
  { s with busy := true, seq := some { cmd := i, step := .start } }

/-- A command that passed its checks is accepted (R15): `evq` is cleared (R33). -/
def accept (s : State) : State := { s with evq := [] }

/-- Completion: `result` and `retdata` written, `busy` cleared, the sequencer at none, and
`[result] ++ retdata` with `evq` delivered (R27, R29, R30, R94). -/
def complete (code : Byte) (ret : List Byte) (info : Option Err) (s : State) : State :=
  { s with
    result := code, retdata := ret, info := info, busy := false, seq := none
    delivered := s.delivered ++ [{ result := code, retdata := ret, events := s.evq }] }

/-- A check refuses the command: it completes with the error and `busy`, `result` and `retdata` are all of
the state that is written; `evq` keeps what an earlier command emitted, and the completion hands over no
event, because this command emitted none (R233, R236; log 9). -/
def refuse (e : Err) (s : State) : State :=
  { s with
    result := e.code, retdata := [], info := some e, busy := false, seq := none
    delivered := s.delivered ++ [{ result := e.code, retdata := [], events := [] }] }

end Sys2Proof.Machine
end

