-- ==== Sys2Proof/Machine/Ops.lean ====
section
/-! DEFINITION. The shared operations: the two buffers, SRC reset, a chunk and the chunk engine, register
accesses, the status poll, `SetTrxState`, `CfgWrite`, the frame sequences, raising an error and
completing a command. Every command's meaning is written over these. -/

namespace Sys2Proof

/-! ### Buffers (R24, R25, R37) -/

/-- The byte at index k; none where nothing has been written (R37). -/
def Memory.read : Memory → Nat → Option Byte
  | [], _ => none
  | (a, b) :: m, k => if a = k then some b else Memory.read m k

/-- The byte at index k, a fault where nothing has been written (R37, U10). -/
def Memory.fetch (m : Memory) (k : Nat) : Except Machine.Fault Byte :=
  match m.read k with
  | some b => .ok b
  | none => .error (.unwrittenByte k)

/-- Write b at index k, keeping the indices strictly rising. -/
def Memory.write : Memory → Nat → Byte → Memory
  | [], k, b => [(k, b)]
  | (a, c) :: m, k, b =>
    if k < a then (k, b) :: (a, c) :: m
    else if k = a then (k, b) :: m
    else (a, c) :: Memory.write m k b

/-- Write a byte list at indices k, k + 1, ... -/
def Memory.writeRange (m : Memory) : Nat → List Byte → Memory
  | _, [] => m
  | k, b :: bs => Memory.writeRange (m.write k b) (k + 1) bs

namespace Machine

/-! ### The world's answers (R7; log 3) -/

/-- The answer to the k-th chunk from now: scripted, or free. -/
def State.drawAt (s : State) (k : Nat) : Draw := (s.chip[k]?).getD (Config.freeDraw (s.draws + k))

/-- The n bytes received in the k-th chunk from now; a byte its answer does not list is free. -/
def State.rxAt (s : State) (k n : Nat) : List Byte :=
  (List.range n).map fun j => ((s.drawAt k).rx[j]?).getD (Config.freeByte (s.draws + k) j)

/-- The state after the next answer has been taken. -/
def State.takeDraw (s : State) : State := { s with chip := s.chip.drop 1, draws := s.draws + 1 }

/-- A bus or pin action takes place. -/
def State.log (s : State) (e : BusEvent) : State := { s with trace := s.trace ++ [e] }

/-! ### SRC reset (R260, R261) -/

/-- What the outside sees of SRC reset: an asserted chip-select or RST is deasserted. -/
def resetEdges (s : State) : List BusEvent :=
  (if s.cs = .asserted then [.cs .deasserted] else [])
    ++ (if s.rst = .asserted then [.rst .deasserted] else [])

/-- SRC reset: every piece of SRC state takes its reset value; the chip and the outside are untouched,
no completion is delivered (R260, R261, R36). -/
def srcReset (s : State) : State :=
  { State.boot s.cfg with
    trace := s.trace ++ resetEdges s, delivered := s.delivered, port := s.port, chip := s.chip
    draws := s.draws }

/-! ### Steps of the sequencer -/

/-- A piece of a command's pseudocode: it ends with a value, with a raise, or with the command
abandoned without completion; the state stands as it was then (R231 (4)). -/
abbrev Seq (α : Type) := EStateM Abort State α

/-- Read the parameters. -/
def config : Seq Config := fun s => .ok s.cfg s

/-- Read the state. -/
def current : Seq State := fun s => .ok s s

/-- `x[name] <- v`. -/
def update (f : State → State) : Seq Unit := fun s => .ok () (f s)

/-- `raise E(info)` (R231). -/
def raise {α : Type} (e : Err) : Seq α := fun s => .error (.raised e) s

/-- Run m and hand a raise of it to the caller, its state writes kept. -/
def attempt {α : Type} (m : Seq α) : Seq (Except Err α) := fun s =>
  match m s with
  | .ok a s' => .ok (.ok a) s'
  | .error (.raised e) s' => .ok (.error e) s'
  | .error .stopped s' => .error .stopped s'

/-- `emit Ev` (R14, R33). -/
def emit (e : Event) : Seq Unit := update fun s => { s with evq := s.evq ++ [e] }

/-- `x[opState] <- st`, at a commit point (R232). -/
def commit (st : OpState) : Seq Unit := update fun s => { s with opState := st }

/-- `pin(RST) <- level`. -/
def driveRst (l : Level) : Seq Unit := update fun s => { s with rst := l }.log (.rst l)

/-! ### Bus transactions (R52, R53, R121, R122) -/

/-- `CS_assert()`. SRC reset may fall just before it (R260; log 18). -/
def csAssert : Seq Unit := fun s =>
  if (s.drawAt 0).cut = some .beforeSelect then .error .stopped (srcReset s.takeDraw)
  else .ok () ({ s with cs := .asserted }.log (.cs .asserted))

/-- `CS_deassert()`. -/
def csDeassert : Seq Unit := update fun s => { s with cs := .deasserted }.log (.cs .deasserted)

/-- The state after a chunk: an IRQ edge that arrived meanwhile has set `irqFlag` (R238); bytes
received under a failed status carry no information (R53). -/
def State.afterChunk (s : State) (tx : List Byte) : State :=
  { s.takeDraw with
    irqFlag := s.irqFlag || (s.drawAt 0).irq
    trace := s.trace ++
      [.chunk tx (if (s.drawAt 0).ok then s.rxAt 0 tx.length else []) (s.drawAt 0).ok] }

/-- The state in which SRC reset falls about a chunk: not begun, cut at a byte boundary, its result discarded, or
ended (R260). -/
def State.cutAbout (s : State) (tx : List Byte) : Cut → State
  | .beforeSelect => s.takeDraw
  | .beforeChunk => s.takeDraw
  | .afterBytes n => s.takeDraw.log (.cutChunk (tx.take n))
  | .afterChunk => s.afterChunk tx

/-- `Xfer(tx) -> (ok, rx)`: one chunk (R14, R53), about which SRC reset may fall (R260). -/
def xfer (tx : List Byte) : Seq (Bool × List Byte) := fun s =>
  match (s.drawAt 0).cut with
  | some c => .error .stopped (srcReset (s.cutAbout tx c))
  | none => .ok ((s.drawAt 0).ok, s.rxAt 0 tx.length) (s.afterChunk tx)

/-- Consecutive pieces of at most m bytes, all but the last of exactly m, by `fuel` at most. -/
def splitChunks (m : Nat) : Nat → List Byte → List (List Byte)
  | 0, _ => []
  | fuel + 1, tx => if tx = [] then [] else tx.take m :: splitChunks m fuel (tx.drop m)

/-- The chunks of a segment (R121). -/
def chunksOf (m : Nat) (tx : List Byte) : List (List Byte) := splitChunks m tx.length tx

/-- The loop of `Seg`: k chunks and i bytes of the segment have been sent, `rx` received. -/
def sendChunks : List (List Byte) → Nat → Nat → List Byte → Seq (List Byte)
  | [], _, _, rx => pure rx
  | piece :: rest, k, i, rx => do
    let answer ← xfer piece
    if answer.1 then sendChunks rest (k + 1) (i + piece.length) (rx ++ answer.2)
    else do
      csDeassert
      raise (.transferFailed k i)

/-- `Seg(tx) -> rx` (R121). -/
def seg (tx : List Byte) : Seq (List Byte) := do
  let c ← config
  sendChunks (chunksOf c.maxXfer tx) 0 0 []

/-- `Transaction(tx) -> rx` (R121). -/
def transaction (tx : List Byte) : Seq (List Byte) := do
  csAssert
  let rx ← seg tx
  csDeassert
  pure rx

/-! ### Register accesses (R125, R127) -/

/-- `MemRead(a, VAL_BYTES)` (R125). -/
def memRead (a : RegAddr) : Seq Half := do
  let c ← config
  let rx ← transaction (readExchange c a)
  pure (assemble c rx)

/-- `MemWrite(a, VAL_BYTES, v)` (R127). -/
def memWrite (a : RegAddr) (v : Half) : Seq Unit := do
  let c ← config
  let _ ← transaction (writeExchange c a v)
  pure ()

/-- `MemRead(a, 1)` under an 8-bit profile: the value byte. -/
def memReadByte (a : RegAddr) : Seq Byte := do
  let v ← memRead a
  pure (lowByte v)

/-- `MemWrite(a, 1, v)` under an 8-bit profile. -/
def memWriteByte (a : RegAddr) (v : Byte) : Seq Unit := memWrite a (v.setWidth 16)

/-! ### State changes on the chip (R160, R161) -/

/-- The wait has used up a finite `POLL_LIMIT` (R161). -/
def pollLimitReached (c : Config) (polls : Nat) : Bool :=
  match c.pollLimit with
  | some n => decide (n ≤ polls)
  | none => false

/-- The model step ends in a wait without a bound: the sequencer stands at that poll, `busy` = 1 (R276,
R30; log 6). -/
def suspend {α : Type} (place : SeqStep) : Seq α := fun s =>
  .error .stopped { s with seq := s.seq.map fun p => { p with step := place } }

/-- The loop of `WaitState`, for n reads in this model step. -/
def pollLoop (place : SeqStep) (awaited : TrxCode) : Nat → Seq Unit
  | 0 => suspend place
  | n + 1 => do
    let c ← config
    let v ← memReadByte c.map.trxStatus
    update fun s => { s with pollCount := s.pollCount + 1 }
    let s ← current
    if statusField c v = awaited then pure ()
    else if pollLimitReached c s.pollCount then raise (.chipUnresponsive awaited (statusField c v))
    else pollLoop place awaited n

/-- How many reads of a wait one model step makes: `POLL_LIMIT`; under INF every scripted answer, and one
read at least (log 6). -/
def pollBudget (s : State) : Nat :=
  match s.cfg.pollLimit with
  | some n => n
  | none => max s.chip.length 1

/-- `WaitState(s)` (R161), at this place of the pseudocode. -/
def waitState (place : SeqStep) (awaited : TrxCode) : Seq Unit := do
  update fun s => { s with pollCount := 0 }
  let s ← current
  pollLoop place awaited (pollBudget s)

/-- A write of a code to `TRX_STATE` (R59, R87). -/
def writeTrxState (code : TrxCode) : Seq Unit := do
  let c ← config
  memWriteByte c.map.trxState (trxByte c code)

/-- A phase of a `SetTrxState` call: its command written, then confirmed (R160). -/
def statePhase (call : StateCall) (phase : Phase) (cmd : TrxCmd) : Seq Unit := do
  let c ← config
  writeTrxState (cmdCode c cmd)
  waitState (.waiting call phase) (awaitedIn c call phase)

/-- Phase 2 of a `SetTrxState` call, which `FORCE_TRX_OFF` does not have (R160). -/
def targetPhase (call : StateCall) : Seq Unit := do
  let c ← config
  if callCmd c call = .forceTrxOff then pure () else statePhase call .target (callCmd c call)

/-- `SetTrxState(cmd)`: forced off and confirmed, then the target and confirmed (R160). -/
def setTrxState (call : StateCall) : Seq Unit := do
  statePhase call .forcedOff .forceTrxOff
  targetPhase call

/-- A `SetTrxState` call taken up again at the poll of a phase, where a model step ended in it (R276). -/
def resumeCall (call : StateCall) (phase : Phase) : Seq Unit := do
  let s ← current
  pollLoop (.waiting call phase) (awaitedIn s.cfg call phase) (pollBudget s)
  match phase with
  | .forcedOff => targetPhase call
  | .target => pure ()

/-! ### Configuration writes with retry (R218) -/

/-- The loop of `CfgWrite` with n extra attempts left. -/
def cfgWriteLoop (a : RegAddr) (v : Byte) : Nat → Seq Unit
  | 0 => do
    let r ← attempt (memWriteByte a v)
    match r with
    | .ok _ => pure ()
    | .error e => do
      update fun s => { s with retryCount := s.retryCount + 1 }
      raise e
  | n + 1 => do
    let r ← attempt (memWriteByte a v)
    match r with
    | .ok _ => pure ()
    | .error _ => do
      update fun s => { s with retryCount := s.retryCount + 1 }
      cfgWriteLoop a v n

/-- `CfgWrite(a, v)` (R218). -/
def cfgWrite (a : RegAddr) (v : Byte) : Seq Unit := do
  update fun s => { s with retryCount := 0 }
  let c ← config
  cfgWriteLoop a v c.cfgRetryMax

/-- `WriteChannelRegs()` (R204). -/
def writeChannelRegs : Seq Unit := do
  let s ← current
  if s.band = 0#8 then cfgWrite s.cfg.map.phyCcCca (phyCcCcaValue s.cfg s.channel)
  else cfgWrite s.cfg.map.ccCtrl0 s.channel

/-- `WriteSeed()` (R211). -/
def writeSeed : Seq Unit := do
  let s ← current
  cfgWrite s.cfg.map.csmaSeed0 (seedOf s.shortAddr)

/-! ### Frames (R141, R142, R145, R146) -/

/-- The frame-write transaction: `txbuf` filled with the image, then sent (R141). -/
def frameBufferWrite (f : List Byte) : Seq Unit := do
  update fun s => { s with txbuf := s.txbuf.writeRange 0 (frameImage f) }
  let c ← config
  let _ ← transaction (c.profile.fbWriteCmd :: frameImage f)
  pure ()

/-- The transmit-start write: a plain register write (R142). -/
def transmitStart : Seq Unit := do
  let c ← config
  writeTrxState c.map.cmdTxStart

/-- `FrameWriteSeq(n, f)` (R141). -/
def frameWriteSeq (f : List Byte) : Seq Unit := do
  frameBufferWrite f
  transmitStart

/-- `FrameRead()` (R145), with the invalid length byte of R146. -/
def frameRead : Seq RxFrame := do
  csAssert
  let c ← config
  let hdr ← seg [c.profile.fbReadCmd, 0x00#8]
  let l := byteAt hdr 1
  if c.maxPhr < l.toNat then do
    csDeassert
    raise (.frameInvalid l)
  else do
    let body ← seg (zeros (l.toNat + 1))
    csDeassert
    let f : RxFrame := { len := l, body := body }
    update fun s => { s with rxbuf := s.rxbuf.writeRange 0 f.image }
    pure f

/-! ### Checks before bus traffic (R233) -/

/-- `UnsupportedProfile` unless `CMD_BYTES` = `VAL_BYTES` = 1 (R163, R201, R140). -/
def requireBytewise : Seq Unit := do
  let c ← config
  if c.profile.bytewise then pure ()
  else raise (.unsupportedProfile c.profile)

/-- `InvalidArgument` unless the argument is legal (R91, R97). -/
def requireArg (legal : Bool) (arg : Byte) : Seq Unit :=
  if legal then pure () else raise (.invalidArgument arg)

/-- `InvalidState` where the legality table says so (R234). -/
def requireState (i : Instr) : Seq Unit := do
  let s ← current
  match legality i s.opState with
  | .run => pure ()
  | .noop => pure ()
  | .refuse => raise (.invalidState s.opState)

/-- `FrameTooLong` where `length + 3 > FB_LIMIT` (R97). -/
def requireFrameFits (f : List Byte) : Seq Unit := do
  let c ← config
  if frameFits c f then pure () else raise (.frameTooLong f.length)

/-! ### Taking an error and completing a command (R231) -/

/-- How an accepted command ends: OK with its return bytes, an error with its code and no return bytes, or
not in this model step (R231, R260, R276). -/
def finish : EStateM.Result Abort State (List Byte) → State
  | .ok ret s => complete okCode ret none s
  | .error (.raised e) s => complete e.code [] (some e) s
  | .error .stopped s => s

/-- A command: its checks, before any bus traffic (R233); then, accepted, its pseudocode (R15, R16). -/
def command (i : Instr) (checks : Seq Unit) (body : Seq (List Byte)) (s : State) :
    Host.Outcome State Fault Refusal :=
  match checks (take i s) with
  | .ok _ t => .next (finish (body (accept t)))
  | .error (.raised e) t => .next (refuse e t)
  | .error .stopped t => .next t

/-- What becomes of bytes that are no instruction: an unassigned opcode is refused with `InvalidCommand`
(R98 (1), R233 (1)); bytes of no host command or row are none at all (R98; log 10, log 11). -/
def undecodable (e : DecodeError) (s : State) : Host.Outcome State Fault Refusal :=
  match e with
  | .unassignedOpcode op => .next (refuse (.invalidCommand op) s)
  | .wrongLength => .refused .malformedFrame
  | .neverFormed => .refused .neverFormed

/-- A command that SRC reset abandons before its first step that reaches the bus or a pin, or before its
completion where it has none: no later step runs and nothing is delivered (R260). Bytes that are no instruction
are none here too. -/
def abandoned (e : Encoded) (s : State) : Host.Outcome State Fault Refusal :=
  match decode s.cfg e with
  | .ok i => .next (srcReset (take i s))
  | .error err =>
    match err with
    | .unassignedOpcode _ => .next (srcReset s)
    | .wrongLength => .refused .malformedFrame
    | .neverFormed => .refused .neverFormed

/-- An IRQ edge before the completion that the outcome shows: no later step of the command reads or clears the flag
(R28, R239). -/
def thenEdge : Host.Outcome State Fault Refusal → Host.Outcome State Fault Refusal
  | .next t => .next (irqEdge t)
  | .fault f => .fault f
  | .refused r => .refused r

end Machine

end Sys2Proof
end

