-- ==== Sys2Proof/Machine/Configuration.lean ====
section
/-! DEFINITION. The configuration commands and RSSI_BASE_VALUE (spec R200 to R219). -/

namespace Sys2Proof.Machine

/-- SET_CHANNEL (R200). -/
def execSetChannel (ch : Byte) (s : State) : Host.Outcome State Fault Refusal :=
  command (.setChannel ch) (do
    requireBytewise
    requireState (.setChannel ch)) (do
    update fun s => { s with channel := ch }
    writeChannelRegs
    pure []) s

/-- SET_BAND (R205). -/
def execSetBand (band : Byte) (s : State) : Host.Outcome State Fault Refusal :=
  command (.setBand band) (do
    requireBytewise
    requireArg (bandLegal band) band
    requireState (.setBand band)) (do
    update fun s => { s with band := band }
    let c ← config
    cfgWrite c.map.ccCtrl1 (ccCtrl1Value c band)
    writeChannelRegs
    pure []) s

/-- SET_MODULATION (R207). -/
def execSetModulation (mod : Byte) (s : State) : Host.Outcome State Fault Refusal :=
  command (.setModulation mod) (do
    requireBytewise
    requireState (.setModulation mod)) (do
    update fun s => { s with modulation := mod }
    let c ← config
    cfgWrite c.map.trxCtrl2 (trxCtrl2Value c mod)
    pure []) s

/-- SET_PAN_ID (R209). -/
def execSetPanId (p : Half) (s : State) : Host.Outcome State Fault Refusal :=
  command (.setPanId p) (do
    requireBytewise
    requireState (.setPanId p)) (do
    update fun s => { s with panId := p }
    let c ← config
    cfgWrite c.map.panId0 (lowByte p)
    cfgWrite c.map.panId1 (highByte p)
    writeSeed
    pure []) s

/-- SET_SHORT_ADDRESS (R212). -/
def execSetShortAddress (a : Half) (s : State) : Host.Outcome State Fault Refusal :=
  command (.setShortAddress a) (do
    requireBytewise
    requireState (.setShortAddress a)) (do
    update fun s => { s with shortAddr := a }
    let c ← config
    cfgWrite c.map.shortAddr0 (lowByte a)
    cfgWrite c.map.shortAddr1 (highByte a)
    writeSeed
    pure []) s

/-- SET_TX_POWER (R214). -/
def execSetTxPower (power : Byte) (s : State) : Host.Outcome State Fault Refusal :=
  command (.setTxPower power) (do
    requireBytewise
    requireState (.setTxPower power)) (do
    update fun s => { s with txPower := power }
    let c ← config
    cfgWrite c.map.phyTxPwr power
    pure []) s

/-- RSSI_BASE_VALUE (R216). -/
def execRssiBaseValue (s : State) : Host.Outcome State Fault Refusal :=
  command .rssiBaseValue (pure ()) (do
    let s ← current
    pure [rssiBaseOf s.cfg s.modulation]) s

end Sys2Proof.Machine
end

