-- ==== Sys2Proof/Machine/FrameFifo.lean ====
section
/-! DEFINITION. The frame buffer FIFO adapter: WRITE_FRAME, READ_FRAME (spec R140 to R148), and the frame
rows of the SPI command bytes run alone (log 11). -/

namespace Sys2Proof.Machine

/-- WRITE_FRAME (R140). -/
def execWriteFrame (frame : List Byte) (s : State) : Host.Outcome State Fault Refusal :=
  command (.writeFrame frame) (do
    requireBytewise
    requireFrameFits frame) (do
    setTrxState (.writeFramePll frame)
    frameWriteSeq frame
    pure []) s

/-- READ_FRAME (R145). -/
def execReadFrame (s : State) : Host.Outcome State Fault Refusal :=
  command .readFrame (pure ()) (do
    let f ← frameRead
    pure f.image) s

/-- SPI_FB_READ: the frame read transaction (R86, R145). -/
def execSpiFbRead (s : State) : Host.Outcome State Fault Refusal :=
  command .spiFbRead (pure ()) (do
    let f ← frameRead
    pure f.image) s

/-- SPI_FB_WRITE: the frame write transaction, without the transmit start (R86, R141). -/
def execSpiFbWrite (frame : List Byte) (s : State) : Host.Outcome State Fault Refusal :=
  command (.spiFbWrite frame) (requireFrameFits frame) (do
    frameBufferWrite frame
    pure []) s

end Sys2Proof.Machine
end

