-- ==== Sys2Proof/Machine/StateMachine.lean ====
section
/-! DEFINITION. The transceiver state machine: INIT, SLEEP, WAKEUP, DATA_REQUEST, TASK_HANDLER
(spec R160 to R181), and the `TRX_CMD` rows run alone (log 12). What follows a `SetTrxState` call in a
command is a definition of its own, because a wait without a bound can end a model step there (R276). -/

namespace Sys2Proof.Machine

/-! ### INIT (R166) -/

/-- The steps of INIT after the chip was forced off. -/
def initConfigure : Seq Unit := do
  let s ← current
  cfgWrite s.cfg.map.trxCtrl1 (trxCtrl1Value s.cfg)
  cfgWrite s.cfg.map.trxCtrl2 (trxCtrl2Value s.cfg s.modulation)
  update fun s => { s with txPower := s.cfg.defaultTxPower }
  cfgWrite s.cfg.map.phyTxPwr s.cfg.defaultTxPower
  setTrxState .initReceive
  commit .idle

/-- INIT (R166, R167). -/
def execInit (s : State) : Host.Outcome State Fault Refusal :=
  command .init (do
    requireBytewise
    requireState .init) (do
    driveRst .asserted
    driveRst .deasserted
    setTrxState .initOff
    initConfigure
    pure []) s

/-! ### SLEEP and WAKEUP -/

/-- SLEEP (R169), a no-op in Sleep (R170). -/
def execSleep (s : State) : Host.Outcome State Fault Refusal :=
  command .sleep (do
    requireBytewise
    requireState .sleep) (do
    let s ← current
    if s.opState = .sleep then pure []
    else do
      setTrxState .sleepOff
      commit .sleep
      pure []) s

/-- WAKEUP (R171). -/
def execWakeup (s : State) : Host.Outcome State Fault Refusal :=
  command .wakeup (do
    requireBytewise
    requireState .wakeup) (do
    setTrxState .wakeupReceive
    commit .idle
    pure []) s

/-! ### DATA_REQUEST (R172 to R175) -/

/-- A raise of m also emits `DataConfirm(Error)` (R174). -/
def confirmOnError {α : Type} (m : Seq α) : Seq α := do
  let r ← attempt m
  match r with
  | .ok a => pure a
  | .error e => do
    emit (.dataConfirm .error)
    raise e

/-- The steps of DATA_REQUEST from the frame write on. -/
def requestSend (data : List Byte) : Seq Unit := do
  frameWriteSeq data
  commit .transmittingWaitEnd

/-- The steps of DATA_REQUEST after the chip reached `TX_ARET_ON`. -/
def requestArmed (data : List Byte) : Seq Unit := do
  let c ← config
  let _ ← memReadByte c.map.irqStatus
  if c.dataReqForcesPllOn then setTrxState (.requestPll data) else pure ()
  requestSend data

/-- DATA_REQUEST (R173). -/
def execDataRequest (data : List Byte) (s : State) : Host.Outcome State Fault Refusal :=
  command (.dataRequest data) (do
    requireBytewise
    requireState (.dataRequest data)
    requireFrameFits data) (do
    confirmOnError (do
      setTrxState (.requestTransmit data)
      requestArmed data)
    pure []) s

/-! ### TASK_HANDLER (R176) -/

/-- `ReceivePath()` (R177, R180). -/
def receivePath : Seq Unit := do
  let r ← attempt frameRead
  match r with
  | .ok f => do
    let c ← config
    let ed ← memReadByte c.map.phyEdLevel
    let s ← current
    emit (indicationOf c f ed s.modulation)
    setTrxState .received
  | .error (.frameInvalid l) => do
    setTrxState (.receivedInvalid l)
    raise (.frameInvalid l)
  | .error e => raise e

/-- `TransmitDonePath()` (R178). -/
def transmitDonePath : Seq Unit := do
  let c ← config
  let st ← memReadByte c.map.trxState
  commit .idle
  emit (.dataConfirm (tracStatus c (tracField c st)))
  setTrxState .transmitted

/-- What TASK_HANDLER does on the completion bit (R176): the receive path in Idle, the transmit-done
path in TransmittingWaitEnd; it is a no-op in Initial and Sleep. -/
def completionPath : OpState → Seq Unit
  | .initial => pure ()
  | .idle => receivePath
  | .sleep => pure ()
  | .transmittingWaitEnd => transmitDonePath

/-- TASK_HANDLER (R176). -/
def execTaskHandler (s : State) : Host.Outcome State Fault Refusal :=
  command .taskHandler (do
    requireBytewise
    requireState .taskHandler) (do
    update fun s => { s with irqFlag := false }
    let s ← current
    if s.opState = .initial ∨ s.opState = .sleep then pure []
    else do
      let irq ← memReadByte s.cfg.map.irqStatus
      if trxEnd s.cfg irq then do
        completionPath s.opState
        pure []
      else pure []) s

/-! ### The `TRX_CMD` rows, run alone (log 12) -/

/-- TX_START: the plain write of its code to `TRX_STATE` (R87, R142). -/
def execTxStart (s : State) : Host.Outcome State Fault Refusal :=
  command .txStart requireBytewise (do
    transmitStart
    pure []) s

/-- FORCE_TRX_OFF: `SetTrxState(FORCE_TRX_OFF)` (R87, R160). -/
def execForceTrxOff (s : State) : Host.Outcome State Fault Refusal :=
  command .forceTrxOff requireBytewise (do
    setTrxState (.row .forceTrxOff)
    pure []) s

/-- RX_ON: `SetTrxState(RX_ON)` (R87, R160, R162). -/
def execRxOn (s : State) : Host.Outcome State Fault Refusal :=
  command .rxOn requireBytewise (do
    setTrxState (.row .rxOn)
    pure []) s

/-- PLL_ON: `SetTrxState(PLL_ON)` (R87, R160, R162). -/
def execPllOn (s : State) : Host.Outcome State Fault Refusal :=
  command .pllOn requireBytewise (do
    setTrxState (.row .pllOn)
    pure []) s

/-- RX_AACK_ON: `SetTrxState(RX_AACK_ON)` (R87, R160, R162). -/
def execRxAackOn (s : State) : Host.Outcome State Fault Refusal :=
  command .rxAackOn requireBytewise (do
    setTrxState (.row .rxAackOn)
    pure []) s

/-- TX_ARET_ON: `SetTrxState(TX_ARET_ON)` (R87, R160, R162). -/
def execTxAretOn (s : State) : Host.Outcome State Fault Refusal :=
  command .txAretOn requireBytewise (do
    setTrxState (.row .txAretOn)
    pure []) s

end Sys2Proof.Machine
end

