-- ==== Sys2Proof/Machine/Transport.lean ====
section
/-! DEFINITION. The SPI master controller: READ_REGISTER, WRITE_REGISTER, WRITE_BYTES, READ_BYTES
(spec R120 to R131), and the register rows of the SPI command bytes run alone (log 11). -/

namespace Sys2Proof.Machine

/-- READ_REGISTER (R124). -/
def execReadRegister (addr : Byte) (s : State) : Host.Outcome State Fault Refusal :=
  command (.readRegister addr) (requireArg (addrLegal addr) addr) (do
    let v ← memRead (addrOf addr)
    let c ← config
    pure (hostValueBytes c v)) s

/-- WRITE_REGISTER (R126). -/
def execWriteRegister (addr : Byte) (value : Half) (s : State) : Host.Outcome State Fault Refusal :=
  command (.writeRegister addr value) (requireArg (addrLegal addr) addr) (do
    memWrite (addrOf addr) value
    pure []) s

/-- WRITE_BYTES (R128). -/
def execWriteBytes (data : List Byte) (s : State) : Host.Outcome State Fault Refusal :=
  command (.writeBytes data) (requireArg (decide (data ≠ [])) 0x00#8) (do
    let _ ← transaction data
    pure []) s

/-- READ_BYTES (R130). -/
def execReadBytes (n : Byte) (s : State) : Host.Outcome State Fault Refusal :=
  command (.readBytes n) (requireArg (decide (n ≠ 0#8)) n) (transaction (zeros n.toNat)) s

/-- SPI_REG_READ: the register read exchange of address a (R84, R125). -/
def execSpiRegRead (a : RegAddr) (s : State) : Host.Outcome State Fault Refusal :=
  command (.spiRegRead a) (pure ()) (do
    let v ← memRead a
    let c ← config
    pure (hostValueBytes c v)) s

/-- SPI_REG_WRITE: the register write exchange of address a (R84, R127). -/
def execSpiRegWrite (a : RegAddr) (v : Half) (s : State) : Host.Outcome State Fault Refusal :=
  command (.spiRegWrite a v) (pure ()) (do
    memWrite a v
    pure []) s

end Sys2Proof.Machine
end

