-- ==== Sys2Proof/Machine/Dispatch.lean ====
section
/-! DEFINITION. exec: one arm per constructor of Instr. -/

namespace Sys2Proof.Machine

def exec (i : Instr) (s : State) : Host.Outcome State Fault Refusal :=
  match i with
  | .init => Sys2Proof.Machine.execInit s
  | .sleep => Sys2Proof.Machine.execSleep s
  | .wakeup => Sys2Proof.Machine.execWakeup s
  | .dataRequest data => Sys2Proof.Machine.execDataRequest data s
  | .taskHandler => Sys2Proof.Machine.execTaskHandler s
  | .setChannel ch => Sys2Proof.Machine.execSetChannel ch s
  | .setBand band => Sys2Proof.Machine.execSetBand band s
  | .setModulation mod => Sys2Proof.Machine.execSetModulation mod s
  | .setPanId p => Sys2Proof.Machine.execSetPanId p s
  | .setShortAddress a => Sys2Proof.Machine.execSetShortAddress a s
  | .setTxPower power => Sys2Proof.Machine.execSetTxPower power s
  | .rssiBaseValue => Sys2Proof.Machine.execRssiBaseValue s
  | .readRegister addr => Sys2Proof.Machine.execReadRegister addr s
  | .writeRegister addr value => Sys2Proof.Machine.execWriteRegister addr value s
  | .writeBytes data => Sys2Proof.Machine.execWriteBytes data s
  | .readBytes n => Sys2Proof.Machine.execReadBytes n s
  | .writeFrame frame => Sys2Proof.Machine.execWriteFrame frame s
  | .readFrame => Sys2Proof.Machine.execReadFrame s
  | .spiRegRead a => Sys2Proof.Machine.execSpiRegRead a s
  | .spiRegWrite a v => Sys2Proof.Machine.execSpiRegWrite a v s
  | .spiFbRead => Sys2Proof.Machine.execSpiFbRead s
  | .spiFbWrite frame => Sys2Proof.Machine.execSpiFbWrite frame s
  | .txStart => Sys2Proof.Machine.execTxStart s
  | .forceTrxOff => Sys2Proof.Machine.execForceTrxOff s
  | .rxOn => Sys2Proof.Machine.execRxOn s
  | .pllOn => Sys2Proof.Machine.execPllOn s
  | .rxAackOn => Sys2Proof.Machine.execRxAackOn s
  | .txAretOn => Sys2Proof.Machine.execTxAretOn s

end Sys2Proof.Machine
end

