-- ==== Sys2Proof/Machine/Resume.lean ====
section
/-! DEFINITION. A command that a wait without a bound left running goes on (spec R276, R161, R30): the poll is
taken up where it stood, and the rest of the pseudocode follows it. -/

namespace Sys2Proof.Machine

/-- The steps of the command's pseudocode after a `SetTrxState` call. -/
def afterCall : StateCall → Seq Unit
  | .initOff => initConfigure
  | .initReceive => commit .idle
  | .sleepOff => commit .sleep
  | .wakeupReceive => commit .idle
  | .requestTransmit data => requestArmed data
  | .requestPll data => requestSend data
  | .writeFramePll frame => frameWriteSeq frame
  | .received => pure ()
  | .receivedInvalid len => raise (.frameInvalid len)
  | .transmitted => pure ()
  | .row _ => pure ()

/-- The call and what follows it, from the poll of a phase on. -/
def restOfCommand (call : StateCall) (phase : Phase) : Seq Unit := do
  resumeCall call phase
  afterCall call

/-- The command goes on from the poll of a phase of a call to its end; in DATA_REQUEST a raise emits
`DataConfirm(Error)` (R174). None of these commands returns bytes. -/
def resume (call : StateCall) (phase : Phase) : Seq (List Byte) := do
  match call with
  | .requestTransmit _ => confirmOnError (restOfCommand call phase)
  | .requestPll _ => confirmOnError (restOfCommand call phase)
  | .initOff => restOfCommand call phase
  | .initReceive => restOfCommand call phase
  | .sleepOff => restOfCommand call phase
  | .wakeupReceive => restOfCommand call phase
  | .writeFramePll _ => restOfCommand call phase
  | .received => restOfCommand call phase
  | .receivedInvalid _ => restOfCommand call phase
  | .transmitted => restOfCommand call phase
  | .row _ => restOfCommand call phase
  pure []

/-- The sequencer goes on from its position (R30); with none it has nothing to do. -/
def continueCommand (s : State) : Host.Outcome State Fault Refusal :=
  match s.seq with
  | none => .next s
  | some p =>
    match p.step with
    | .start => exec p.cmd s
    | .waiting call phase => .next (finish (resume call phase s))

end Sys2Proof.Machine
end

