-- ==== Sys2Proof/Machine/Step.lean ====
section
/-! DEFINITION. One step: the next thing the outside presents (spec R245) is taken from `port`. -/

namespace Sys2Proof.Machine

/-- An encoded instruction is taken: decoded and run from acceptance to completion. -/
def runWord (e : Encoded) (s : State) : Host.Outcome State Fault Refusal :=
  match decode s.cfg e with
  | .ok i => exec i s
  | .error err => undecodable err s

/-- One step. An IRQ edge or SRC reset that is presented next happens. Otherwise, while `busy` = 1 the
running command goes on (R276) and the host holds what it presents next (R245, R16; log 16); while `busy` = 0
a word is taken, and with nothing on `port` the sequencer waits (R262). -/
def step (s : State) : Host.Outcome State Fault Refusal :=
  match s.port with
  | [] => if s.busy then continueCommand s else .next s
  | .irqEdge :: rest => .next (irqEdge { s with port := rest })
  | .srcReset :: rest => .next (srcReset { s with port := rest })
  | .word e :: rest => if s.busy then continueCommand s else runWord e { s with port := rest }
  | .wordCut e :: rest => if s.busy then continueCommand s else abandoned e { s with port := rest }
  | .wordEdge e :: rest => if s.busy then continueCommand s else thenEdge (runWord e { s with port := rest })

/-- s with the instruction an opcode-table word stands for presented next, to a sequencer that is free
to take it (log 15). -/
def State.withFetchWord (s : State) (nbits w : Nat) : State :=
  { s with busy := false, seq := none, port := .word (tableWord s.cfg nbits w) :: s.port }

end Sys2Proof.Machine
end

