-- ==== Sys2Proof/Safety.lean ====
section
/-! DEFINITION. What counts as a safe state (the invariant a step keeps), and the words claims are stated
in: which answers let a chunk through, the bus events of exchanges, and the state a command leaves. -/

namespace Sys2Proof

/-! ### Construction (R82) -/

/-- What R82 asks of a profile, read for every address. -/
abbrev Profile.meetsR82 (p : Profile) : Prop :=
  p.readFlag &&& 0x3F#8 = 0x00#8 ∧ p.writeFlag &&& 0x3F#8 = 0x00#8 ∧ p.readFlag ≠ p.writeFlag
    ∧ p.fbReadCmd ≠ p.fbWriteCmd
    ∧ ∀ (a : RegAddr) (flag cmd : Byte), flag ∈ [p.readFlag, p.writeFlag] → cmd ∈ [p.fbReadCmd, p.fbWriteCmd] →
      cmd ≠ flag ||| a.setWidth 8

/-- What R9 and R22 ask of the parameters. -/
abbrev Config.meetsR9 (c : Config) : Prop :=
  4 ≤ c.maxXfer ∧ 4 ≤ c.fbLimit ∧ c.fbLimit ≤ 256 ∧ c.maxPhr ≤ 255 ∧ c.maxPhr + 2 ≤ c.rxbufCap
    ∧ c.pollLimit ≠ some 0 ∧ c.cfgReset.band.toNat < 8

end Sys2Proof

namespace Sys2Proof.Machine

/-! ### Answers of the chip -/

/-- The next n chunks go through: the transport reports `ok` and no SRC reset falls in them. -/
abbrev State.goThrough (s : State) (n : Nat) : Prop :=
  ∀ k, k < n → (s.drawAt k).ok = true ∧ (s.drawAt k).cut = none

/-- The transport reports a failure for the k-th chunk from now, and no SRC reset falls in it. -/
abbrev State.failsAt (s : State) (k : Nat) : Prop :=
  (s.drawAt k).ok = false ∧ (s.drawAt k).cut = none

/-- An IRQ edge arrives during one of the next n chunks. -/
def State.edgeWithin (s : State) (n : Nat) : Bool := (List.range n).any fun k => (s.drawAt k).irq

/-- No SRC reset falls in the chunks that lie between s and t. -/
abbrev State.uncutUntil (s t : State) : Prop :=
  ∀ k, k < t.draws - s.draws → (s.drawAt k).cut = none

/-- Byte j received in the k-th chunk from now. -/
def State.miso (s : State) (k j : Nat) : Byte :=
  ((s.drawAt k).rx[j]?).getD (Config.freeByte (s.draws + k) j)

/-- The second byte received in the k-th chunk from now: the value byte of an 8-bit register read, the
length byte of a frame read. -/
def State.secondByte (s : State) (k : Nat) : Byte := s.miso k 1

/-- The chip state the k-th chunk from now reads, where it is a status poll. -/
def State.polled (s : State) (k : Nat) : TrxCode := (s.secondByte k >>> s.cfg.map.statusLo).setWidth 5

/-- The value bytes of the register read that the k-th chunk from now carries, as the host gets them: low
byte first (R84, R124). -/
def State.registerBytes (s : State) (k : Nat) : List Byte :=
  match s.cfg.profile.valBytes, s.cfg.profile.val16Order with
  | .one, _ => [s.miso k s.cfg.profile.cmdBytes.num]
  | .two, .lowFirst => [s.miso k s.cfg.profile.cmdBytes.num, s.miso k (s.cfg.profile.cmdBytes.num + 1)]
  | .two, .highFirst => [s.miso k (s.cfg.profile.cmdBytes.num + 1), s.miso k s.cfg.profile.cmdBytes.num]

/-! ### Exchanges on the bus -/

/-- The two MOSI bytes of an 8-bit register write (R84, profile with `CMD_BYTES` = `VAL_BYTES` = 1). -/
def regWrite (c : Config) (a : RegAddr) (v : Byte) : List Byte :=
  [c.profile.writeFlag ||| a.setWidth 8, v]

/-- The two MOSI bytes of an 8-bit register read (R84). -/
def regRead (c : Config) (a : RegAddr) : List Byte :=
  [c.profile.readFlag ||| a.setWidth 8, 0x00#8]

/-- The two MOSI bytes of a write of a command code to `TRX_STATE` (R59, R87). -/
def stateWrite (c : Config) (code : TrxCode) : List Byte := regWrite c c.map.trxState (trxByte c code)

/-- The chunk events of pieces that go through, the first answered by the k-th answer from s. -/
def State.chunkEvents (s : State) : Nat → List (List Byte) → List BusEvent
  | _, [] => []
  | k, p :: ps => .chunk p (s.rxAt k p.length) true :: s.chunkEvents (k + 1) ps

/-- The bytes received in pieces that go through. -/
def State.received (s : State) : Nat → List (List Byte) → List Byte
  | _, [] => []
  | k, p :: ps => s.rxAt k p.length ++ s.received (k + 1) ps

/-- A transaction of these pieces, all of which go through. -/
def State.transfer (s : State) (k : Nat) (ps : List (List Byte)) : List BusEvent :=
  .cs .asserted :: (s.chunkEvents k ps ++ [.cs .deasserted])

/-- The bus events of one-chunk transactions that go through, one per byte list, in order. -/
def State.exchanges (s : State) : Nat → List (List Byte) → List BusEvent
  | _, [] => []
  | k, tx :: txs => s.transfer k [tx] ++ s.exchanges (k + 1) txs

/-- A transaction of these pieces and one more, on which it fails: chip-select is deasserted at once and
nothing received in the failed chunk is kept (R122). -/
def State.brokenTransfer (s : State) (k : Nat) (ps : List (List Byte)) (p : List Byte) :
    List BusEvent :=
  .cs .asserted :: (s.chunkEvents k ps ++ [.chunk p [] false, .cs .deasserted])

/-- What the bus shows of the k-th chunk from now, about which SRC reset falls (R260). -/
def State.cutEvents (s : State) (k : Nat) (p : List Byte) : Cut → List BusEvent
  | .beforeSelect => []
  | .beforeChunk => []
  | .afterBytes n => [.cutChunk (p.take n)]
  | .afterChunk => [.chunk p (if (s.drawAt k).ok then s.rxAt k p.length else []) (s.drawAt k).ok]

/-- `ps` is data split as R121 says: every piece but the last of exactly m bytes, the last of 1 to m. -/
abbrev IsChunking (m : Nat) (data : List Byte) (ps : List (List Byte)) : Prop :=
  ps.flatten = data ∧ (∀ p ∈ ps.dropLast, p.length = m) ∧ ∀ p ∈ ps, 1 ≤ p.length ∧ p.length ≤ m

/-- The four exchanges of `SetTrxState` when each poll matches at once, and of the forced-off command
its first two (R160). -/
def trxExchanges (c : Config) (cmd : TrxCmd) : List (List Byte) :=
  [stateWrite c c.map.cmdForceTrxOff, regRead c c.map.trxStatus]
    ++ if cmd = .forceTrxOff then [] else [stateWrite c (cmdCode c cmd), regRead c c.map.trxStatus]

/-- The polls of a `SetTrxState` whose exchanges begin at the k-th chunk match at once (R161). -/
abbrev State.pollsMatch (s : State) (k : Nat) (cmd : TrxCmd) : Prop :=
  s.polled (k + 1) = s.cfg.map.stTrxOff
    ∧ (cmd ≠ .forceTrxOff → s.polled (k + 3) = statusOf s.cfg cmd)

/-! ### What a command leaves -/

/-- s after n chunks that went through with these bus and pin events, chip-select deasserted: the answers
are used up, and `irqFlag` is set where an edge arrived. -/
def State.afterBus (s : State) (n : Nat) (evs : List BusEvent) : State :=
  { s with
    cs := .deasserted, irqFlag := s.irqFlag || s.edgeWithin n, trace := s.trace ++ evs
    chip := s.chip.drop n, draws := s.draws + n }

/-- s with a command completed: the code, the return bytes, what a raise recorded, the events, all
handed to the host, and the sequencer free (R29, R33, R94). -/
def State.answered (s : State) (code : Byte) (ret : List Byte) (info : Option Err)
    (evs : List Event) : State :=
  { s with
    result := code, retdata := ret, info := info, evq := evs, busy := false, seq := none
    delivered := s.delivered ++ [{ result := code, retdata := ret, events := evs }] }

/-- s with an accepted command completed OK that emitted nothing. -/
def State.answeredOk (s : State) (ret : List Byte) : State := s.answered 0x00#8 ret none []

/-- s with an accepted command completed with an error that emitted nothing. -/
def State.answeredErr (s : State) (e : Err) : State := s.answered e.code [] (some e) []

/-- s with a command refused by a check, the completion handing these events over: nothing but the
completion is written, and `evq` is as it was (R15, R33, R233). -/
def State.refused (s : State) (e : Err) (evs : List Event) : State :=
  { s with
    result := e.code, retdata := [], info := some e, busy := false, seq := none
    delivered := s.delivered ++ [{ result := e.code, retdata := [], events := evs }] }

/-- A check refuses the command i with e: no bus traffic, and nothing but the completion is written. Which
events that completion hands over is not said here (log 9; `ChecksComeInOrderBeforeBusTraffic` says it). -/
abbrev refusedBy (i : Instr) (s : State) (e : Err) : Prop := ∃ evs, exec i s = .next (s.refused e evs)

/-- How a command ends after a last piece of it answered r, where `kept` is the error it completes with if
that piece raises none (R180), or none for OK: a raise of the piece is the command's own; a piece that SRC
reset or a wait without a bound stopped leaves the state as it stood. -/
def endsWith (r : EStateM.Result Abort State Unit) (kept : Option Err) : State :=
  match r with
  | .ok _ v => v.answered ((kept.map Err.code).getD 0x00#8) [] kept v.evq
  | .error (.raised e) v => v.answered e.code [] (some e) v.evq
  | .error .stopped v => v

/-! ### A chip that does not respond (R161) -/

/-- From the k-th chunk on, a `SetTrxState` writes the forced-off command, and none of the `POLL_LIMIT` = n
reads after it shows `TRX_OFF`. -/
abbrev State.neverOff (s : State) (k n : Nat) : Prop :=
  s.cfg.pollLimit = some n ∧ (∀ j, j < 1 + n → (s.drawAt (k + j)).ok = true ∧ (s.drawAt (k + j)).cut = none)
    ∧ ∀ j, j < n → s.polled (k + 1 + j) ≠ s.cfg.map.stTrxOff

/-- The exchanges of such a `SetTrxState`. -/
def offExchanges (c : Config) (n : Nat) : List (List Byte) :=
  stateWrite c c.map.cmdForceTrxOff :: List.replicate n (regRead c c.map.trxStatus)

/-- From the k-th chunk on, a `SetTrxState` finds the chip off at once, and none of the `POLL_LIMIT` = n reads
after the target command shows the state it waits for. -/
abbrev State.neverReaches (s : State) (k : Nat) (cmd : TrxCmd) (n : Nat) : Prop :=
  s.cfg.pollLimit = some n ∧ cmd ≠ .forceTrxOff
    ∧ (∀ j, j < 3 + n → (s.drawAt (k + j)).ok = true ∧ (s.drawAt (k + j)).cut = none)
    ∧ s.polled (k + 1) = s.cfg.map.stTrxOff ∧ ∀ j, j < n → s.polled (k + 3 + j) ≠ statusOf s.cfg cmd

/-- The exchanges of such a `SetTrxState`. -/
def reachExchanges (c : Config) (cmd : TrxCmd) (n : Nat) : List (List Byte) :=
  [stateWrite c c.map.cmdForceTrxOff, regRead c c.map.trxStatus, stateWrite c (cmdCode c cmd)]
    ++ List.replicate n (regRead c c.map.trxStatus)

/-- s after a command whose first exchanges were those, with these pin events before them. -/
def State.afterNeverOff (s : State) (pins : List BusEvent) (n : Nat) : State :=
  { s.afterBus (1 + n) (pins ++ s.exchanges 0 (offExchanges s.cfg n)) with pollCount := n }

/-- s after a command whose first exchanges were those. -/
def State.afterNeverReaches (s : State) (cmd : TrxCmd) (n : Nat) : State :=
  { s.afterBus (3 + n) (s.exchanges 0 (reachExchanges s.cfg cmd n)) with pollCount := n }

/-- The error of the first, with the last code read. -/
def State.offError (s : State) (k n : Nat) : Err := .chipUnresponsive s.cfg.map.stTrxOff (s.polled (k + n))

/-- The error of the second, with the last code read. -/
def State.reachError (s : State) (k : Nat) (cmd : TrxCmd) (n : Nat) : Err :=
  .chipUnresponsive (statusOf s.cfg cmd) (s.polled (k + 2 + n))

/-- s after SRC reset, with these events on the bus and pins and the outside as it was, n chunks further on
(R260, R261). -/
def State.afterReset (s : State) (n : Nat) (evs : List BusEvent) : State :=
  { State.boot s.cfg with
    trace := s.trace ++ evs, delivered := s.delivered, port := s.port
    chip := s.chip.drop n, draws := s.draws + n }

/-- s completed OK in t. -/
abbrev State.completedOk (s t : State) : Prop :=
  ∃ ret evs, t.delivered = s.delivered ++ [{ result := 0x00#8, retdata := ret, events := evs }]

/-! ### Bus framing (R52, R53, R122) -/

/-- Where a list of bus events stands: no transaction open; one open and no chunk sent yet; one open after
chunks that went through; one open after a chunk that failed or was cut. -/
inductive BusLine where
  | released
  | opened
  | sending
  | broken
deriving DecidableEq, Repr

/-- The bus line after an event; none where the event has no place there. Chip-select released before a chunk
was sent is the work of SRC reset alone (R260; `EveryTransactionIsFramed`). -/
def framedEvent : BusLine → BusEvent → Option BusLine
  | .released, .cs .asserted => some .opened
  | .released, .rst _ => some .released
  | .opened, .chunk _ _ ok => some (if ok then .sending else .broken)
  | .opened, .cutChunk _ => some .broken
  | .opened, .cs .deasserted => some .released
  | .sending, .chunk _ _ ok => some (if ok then .sending else .broken)
  | .sending, .cutChunk _ => some .broken
  | .sending, .cs .deasserted => some .released
  | .broken, .cs .deasserted => some .released
  | _, _ => none

/-- The bus line after a list of events. -/
def framed : BusLine → List BusEvent → Option BusLine
  | l, [] => some l
  | l, e :: es => (framedEvent l e).bind fun l' => framed l' es

/-- A chunk sends 1 to `MAX_XFER` bytes and receives as many, none of which are kept where it failed (R53). -/
def chunkFits (c : Config) : BusEvent → Bool
  | .chunk tx rx ok =>
    decide (1 ≤ tx.length ∧ tx.length ≤ c.maxXfer ∧ rx.length = if ok then tx.length else 0)
  | .cutChunk sent => decide (sent.length ≤ c.maxXfer)
  | .cs _ => true
  | .rst _ => true

/-- The event is no chunk that failed. -/
def notFailed : BusEvent → Bool
  | .chunk _ _ ok => ok
  | .cutChunk _ => true
  | .cs _ => true
  | .rst _ => true

/-- The bytes of the chunks, sent whole, in order. -/
def chunksSent (es : List BusEvent) : List (List Byte) :=
  es.filterMap fun e => match e with
    | .chunk tx _ _ => some tx
    | .cutChunk _ => none
    | .cs _ => none
    | .rst _ => none

/-! ### What kinds of steps a command takes -/

/-- The commands that call `CfgWrite` (R218). -/
def usesCfgWrite : Instr → Bool
  | .init => true
  | .setChannel _ | .setBand _ | .setModulation _ | .setPanId _ | .setShortAddress _ | .setTxPower _ => true
  | .sleep | .wakeup | .dataRequest _ | .taskHandler | .rssiBaseValue => false
  | .readRegister _ | .writeRegister _ _ | .writeBytes _ | .readBytes _ => false
  | .writeFrame _ | .readFrame => false
  | .spiRegRead _ | .spiRegWrite _ _ | .spiFbRead | .spiFbWrite _ => false
  | .txStart | .forceTrxOff | .rxOn | .pllOn | .rxAackOn | .txAretOn => false

/-- The commands that call `SetTrxState`, and so `WaitState` (R160). -/
def usesWaitState : Instr → Bool
  | .init | .sleep | .wakeup | .dataRequest _ | .taskHandler | .writeFrame _ => true
  | .forceTrxOff | .rxOn | .pllOn | .rxAackOn | .txAretOn => true
  | .setChannel _ | .setBand _ | .setModulation _ | .setPanId _ | .setShortAddress _ | .setTxPower _ => false
  | .rssiBaseValue | .readRegister _ | .writeRegister _ _ | .writeBytes _ | .readBytes _ => false
  | .readFrame | .spiRegRead _ | .spiRegWrite _ _ | .spiFbRead | .spiFbWrite _ | .txStart => false

/-- The MOSI bytes of `WriteChannelRegs()` for a band and a channel (R204). -/
def channelWrite (c : Config) (band channel : Byte) : List Byte :=
  if band = 0x00#8 then regWrite c c.map.phyCcCca (phyCcCcaValue c channel)
  else regWrite c c.map.ccCtrl0 channel

/-- The register writes of a configuration command, in the order its rule lists them (R200 to R214). -/
def configWrites (s : State) : Instr → List (List Byte)
  | .setChannel ch => [channelWrite s.cfg s.band ch]
  | .setBand b => [regWrite s.cfg s.cfg.map.ccCtrl1 (ccCtrl1Value s.cfg b), channelWrite s.cfg b s.channel]
  | .setModulation m => [regWrite s.cfg s.cfg.map.trxCtrl2 (trxCtrl2Value s.cfg m)]
  | .setPanId p =>
    [regWrite s.cfg s.cfg.map.panId0 (lowByte p), regWrite s.cfg s.cfg.map.panId1 (highByte p),
      regWrite s.cfg s.cfg.map.csmaSeed0 (lowByte s.shortAddr + highByte s.shortAddr)]
  | .setShortAddress a =>
    [regWrite s.cfg s.cfg.map.shortAddr0 (lowByte a), regWrite s.cfg s.cfg.map.shortAddr1 (highByte a),
      regWrite s.cfg s.cfg.map.csmaSeed0 (lowByte a + highByte a)]
  | .setTxPower p => [regWrite s.cfg s.cfg.map.phyTxPwr p]
  | .init | .sleep | .wakeup | .dataRequest _ | .taskHandler | .rssiBaseValue => []
  | .readRegister _ | .writeRegister _ _ | .writeBytes _ | .readBytes _ | .writeFrame _ | .readFrame => []
  | .spiRegRead _ | .spiRegWrite _ _ | .spiFbRead | .spiFbWrite _ => []
  | .txStart | .forceTrxOff | .rxOn | .pllOn | .rxAackOn | .txAretOn => []

/-- The cache with a configuration command's new value (R202). -/
def withCache (s : State) : Instr → State
  | .setChannel ch => { s with channel := ch }
  | .setBand b => { s with band := b }
  | .setModulation m => { s with modulation := m }
  | .setPanId p => { s with panId := p }
  | .setShortAddress a => { s with shortAddr := a }
  | .setTxPower p => { s with txPower := p }
  | .init | .sleep | .wakeup | .dataRequest _ | .taskHandler | .rssiBaseValue => s
  | .readRegister _ | .writeRegister _ _ | .writeBytes _ | .readBytes _ | .writeFrame _ | .readFrame => s
  | .spiRegRead _ | .spiRegWrite _ _ | .spiFbRead | .spiFbWrite _ => s
  | .txStart | .forceTrxOff | .rxOn | .pllOn | .rxAackOn | .txAretOn => s

/-- The six configuration commands (R201). -/
def isConfiguration : Instr → Bool
  | .setChannel _ | .setBand _ | .setModulation _ | .setPanId _ | .setShortAddress _ | .setTxPower _ => true
  | .init | .sleep | .wakeup | .dataRequest _ | .taskHandler | .rssiBaseValue => false
  | .readRegister _ | .writeRegister _ _ | .writeBytes _ | .readBytes _ | .writeFrame _ | .readFrame => false
  | .spiRegRead _ | .spiRegWrite _ _ | .spiFbRead | .spiFbWrite _ => false
  | .txStart | .forceTrxOff | .rxOn | .pllOn | .rxAackOn | .txAretOn => false

/-! ### The checks of R233, as a table -/

/-- The commands that need a profile with `CMD_BYTES` = `VAL_BYTES` = 1 (R163, R201, R140; the `TRX_CMD`
rows as the commands that write them, log 12). -/
def needsBytewise : Instr → Bool
  | .init | .sleep | .wakeup | .dataRequest _ | .taskHandler => true
  | .setChannel _ | .setBand _ | .setModulation _ | .setPanId _ | .setShortAddress _ | .setTxPower _ => true
  | .rssiBaseValue => false
  | .readRegister _ | .writeRegister _ _ | .writeBytes _ | .readBytes _ => false
  | .writeFrame _ => true
  | .readFrame => false
  | .spiRegRead _ | .spiRegWrite _ _ | .spiFbRead | .spiFbWrite _ => false
  | .txStart | .forceTrxOff | .rxOn | .pllOn | .rxAackOn | .txAretOn => true

/-- The argument R91 and R97 refuse, if the command has one. -/
def badArgument : Instr → Option Byte
  | .readRegister a => if a.toNat < 64 then none else some a
  | .writeRegister a _ => if a.toNat < 64 then none else some a
  | .setBand b => if b.toNat < 8 then none else some b
  | .writeBytes data => if data = [] then some 0x00#8 else none
  | .readBytes n => if n = 0x00#8 then some n else none
  | .init | .sleep | .wakeup | .dataRequest _ | .taskHandler => none
  | .setChannel _ | .setModulation _ | .setPanId _ | .setShortAddress _ | .setTxPower _ => none
  | .rssiBaseValue | .writeFrame _ | .readFrame => none
  | .spiRegRead _ | .spiRegWrite _ _ | .spiFbRead | .spiFbWrite _ => none
  | .txStart | .forceTrxOff | .rxOn | .pllOn | .rxAackOn | .txAretOn => none

/-- The frame of a command that sends one. -/
def frameOf : Instr → Option (List Byte)
  | .dataRequest f | .writeFrame f | .spiFbWrite f => some f
  | .init | .sleep | .wakeup | .taskHandler => none
  | .setChannel _ | .setBand _ | .setModulation _ | .setPanId _ | .setShortAddress _ | .setTxPower _ => none
  | .rssiBaseValue | .readRegister _ | .writeRegister _ _ | .writeBytes _ | .readBytes _ => none
  | .readFrame | .spiRegRead _ | .spiRegWrite _ _ | .spiFbRead => none
  | .txStart | .forceTrxOff | .rxOn | .pllOn | .rxAackOn | .txAretOn => none

/-- The first error of R233 (2) to (5), before any bus traffic. -/
def precheck (c : Config) (i : Instr) (st : OpState) : Option Err :=
  if needsBytewise i = true ∧ c.profile.bytewise = false then
    some (.unsupportedProfile c.profile)
  else match badArgument i with
    | some a => some (.invalidArgument a)
    | none =>
      if legality i st = .refuse then some (.invalidState st)
      else match frameOf i with
        | some f => if c.fbLimit < f.length + 3 then some (.frameTooLong f.length) else none
        | none => none

/-! ### The forced-off rule (R162), as a scan of bus events -/

/-- Where a scan of bus events stands: `fresh` after chip-select was asserted and before the first
chunk; `forced` where the last state command was the forced-off one; `off` where a poll since then has
shown `TRX_OFF`. -/
structure ScanState where
  fresh  : Bool
  forced : Bool
  off    : Bool
deriving DecidableEq, Repr

/-- The first chunk of a transaction in the scan; none where it is a state command R162 forbids: a write
of `TRX_STATE` with a code other than `FORCE_TRX_OFF` and `TX_START` while the chip has not been
forced off and confirmed off. -/
def scanFirst (c : Config) (q : ScanState) (tx rx : List Byte) (ok : Bool) : Option ScanState :=
  match tx with
  | [w, v] =>
    if w = c.profile.writeFlag ||| c.map.trxState.setWidth 8 then
      if v = trxByte c c.map.cmdForceTrxOff then some { fresh := false, forced := true, off := false }
      else if v = trxByte c c.map.cmdTxStart then some { q with fresh := false }
      else if q.off then some { fresh := false, forced := false, off := false }
      else none
    else if w = c.profile.readFlag ||| c.map.trxStatus.setWidth 8 then
      match ok, rx with
      | true, [_, r] =>
        some { q with fresh := false, off := q.off || (q.forced && statusField c r == c.map.stTrxOff) }
      | _, _ => some { q with fresh := false }
    else some { q with fresh := false }
  | _ => some { q with fresh := false }

/-- One bus event of the scan. -/
def scanEvent (c : Config) (q : ScanState) : BusEvent → Option ScanState
  | .cs .asserted => some { q with fresh := true }
  | .cs .deasserted => some { q with fresh := false }
  | .rst _ => some q
  | .cutChunk _ => some { q with fresh := false }
  | .chunk tx rx ok => if q.fresh then scanFirst c q tx rx ok else some q

/-- The scan of a list of bus events. -/
def scan (c : Config) : ScanState → List BusEvent → Option ScanState
  | q, [] => some q
  | q, e :: es =>
    match scanEvent c q e with
    | some q' => scan c q' es
    | none => none

/-- The commands whose own bytes reach the bus unframed or as a plain register write (R120, R272): the
host's, not the state machine's. -/
def rawTransport : Instr → Bool
  | .writeRegister _ _ | .writeBytes _ | .readBytes _ | .spiRegWrite _ _ => true
  | .init | .sleep | .wakeup | .dataRequest _ | .taskHandler => false
  | .setChannel _ | .setBand _ | .setModulation _ | .setPanId _ | .setShortAddress _ | .setTxPower _ => false
  | .rssiBaseValue | .readRegister _ | .writeFrame _ | .readFrame => false
  | .spiRegRead _ | .spiFbRead | .spiFbWrite _ => false
  | .txStart | .forceTrxOff | .rxOn | .pllOn | .rxAackOn | .txAretOn => false

/-- The register writes of INIT that `CfgWrite` makes, in order (R166). -/
def initWrites (s : State) : List (List Byte) :=
  [regWrite s.cfg s.cfg.map.trxCtrl1 (trxCtrl1Value s.cfg),
    regWrite s.cfg s.cfg.map.trxCtrl2 (trxCtrl2Value s.cfg s.modulation),
    regWrite s.cfg s.cfg.map.phyTxPwr s.cfg.defaultTxPower]

/-! ### The invariant between steps -/

/-- The command a `SetTrxState` call belongs to. -/
def StateCall.command : StateCall → Instr
  | .initOff => .init
  | .initReceive => .init
  | .sleepOff => .sleep
  | .wakeupReceive => .wakeup
  | .requestTransmit data => .dataRequest data
  | .requestPll data => .dataRequest data
  | .writeFramePll frame => .writeFrame frame
  | .received => .taskHandler
  | .receivedInvalid _ => .taskHandler
  | .transmitted => .taskHandler
  | .row .forceTrxOff => .forceTrxOff
  | .row .rxOn => .rxOn
  | .row .pllOn => .pllOn
  | .row .rxAackOn => .rxAackOn
  | .row .txAretOn => .txAretOn

/-- A place a command can be left running at: the poll of one of its own `SetTrxState` calls, the command
having passed its checks; a DATA_REQUEST has emitted nothing yet (R30, R276). -/
def placeOk (s : State) (p : SeqPos) : Bool :=
  match p.step with
  | .start => false
  | .waiting call _ =>
    call.command == p.cmd && precheck s.cfg p.cmd s.opState == none
      && (match p.cmd with
        | .dataRequest _ => s.evq == []
        | _ => true)

/-- The invariant between steps: the parameters meet R9, R22 and R82; the buffers are canonical and
within their capacities (R24, R25, R148); bits 7:3 of `band` are 0 (R22); no transaction is open (R52);
RST and SLP_TR are deasserted (R32); the sequencer position is none exactly when `busy` = 0, and else the
poll of a call of its command (R30); a command is left running only under `POLL_LIMIT` = INF (R276);
`result` is a code of R230, and `retdata` is empty after an error (R29); `evq` holds one event at most (R33). -/
structure State.Inv (s : State) : Prop where
  cfg_valid     : s.cfg.valid = true
  txbuf_wf      : s.txbuf.wf
  txbuf_below   : s.txbuf.below s.cfg.fbLimit
  rxbuf_wf      : s.rxbuf.wf
  rxbuf_below   : s.rxbuf.below s.cfg.rxbufCap
  band_low      : s.band.toNat < 8
  cs_idle       : s.cs = .deasserted
  rst_idle      : s.rst = .deasserted
  slpTr_idle    : s.slpTr = .deasserted
  seq_busy      : s.seq.isSome = s.busy
  seq_place     : ∀ p, s.seq = some p → placeOk s p = true
  busy_unbounded : s.busy = true → s.cfg.pollLimit = none
  result_code   : s.result.toNat ≤ 8
  error_no_data : s.result ≠ 0x00#8 → s.retdata = []
  evq_short     : s.evq.length ≤ 1

end Sys2Proof.Machine
end

