-- ==== Sys2Proof/Certificates/Slice0/Obligations.lean ====
section
/-! DEFINITION. The statements for the provers, over every state unless a hypothesis says otherwise. Words
used below: "goes through" is `State.goThrough`, "uncut" is `State.uncutUntil` (no SRC reset fell in the
command), "left busy" is a command that a model step leaves in a wait without a bound (R276), which keeps
`busy` = 1 and which the next step goes on with (log 6). A command that a check refuses leaves `evq` as it was
(R15, R33, R233); a statement in the form `refusedBy` does not say which events its completion hands over
(log 9). -/

open Sys2Proof Sys2Proof.Machine

/-! ### Reset and the step -/

/-- R36: every piece of state after SRC reset, for every parameter set, and the REF values of the cache.
The fields the model adds (`info`, `trace`, `delivered`, `port`, `chip`, `draws`) are its own (log 19, 15, 3)
and not claimed here. -/
def Obligations.ResetLeavesTheSpecValues : Prop :=
  (∀ c : Config,
    (State.boot c).opState = .initial
    ∧ (State.boot c).channel = c.cfgReset.channel ∧ (State.boot c).band = c.cfgReset.band
    ∧ (State.boot c).modulation = c.cfgReset.modulation ∧ (State.boot c).panId = c.cfgReset.panId
    ∧ (State.boot c).shortAddr = c.cfgReset.shortAddr ∧ (State.boot c).txPower = c.defaultTxPower
    ∧ (∀ k, (State.boot c).txbuf.read k = none ∧ (State.boot c).rxbuf.read k = none)
    ∧ (State.boot c).busy = false ∧ (State.boot c).irqFlag = false ∧ (State.boot c).result = 0x00#8
    ∧ (State.boot c).retdata = [] ∧ (State.boot c).evq = [] ∧ (State.boot c).seq = none
    ∧ (State.boot c).cs = .deasserted ∧ (State.boot c).pollCount = 0 ∧ (State.boot c).retryCount = 0
    ∧ (State.boot c).rst = .deasserted ∧ (State.boot c).slpTr = .deasserted)
  ∧ State.reset = State.boot Config.ref
  ∧ State.reset.channel = 0x01#8 ∧ State.reset.band = 0x00#8 ∧ State.reset.modulation = 0x00#8
  ∧ State.reset.panId = 0xFFFF#16 ∧ State.reset.shortAddr = 0xFFFF#16 ∧ State.reset.txPower = 0x60#8

/-- Constructing an SRC checks the constraints of R82, R9 and R22: it gives the state after reset exactly where they
all hold, R82's read for every address, and no SRC otherwise; then every address has two different command bytes that
decode back to it. What construction gives meets the invariant, and `State.reset` is what it gives for REF. Under
`CMD_BYTES` = 2 the bytes compared are flag | address all the same, which is the model's choice (log 30). -/
def Obligations.ResetMeetsTheInvariant : Prop :=
  (∀ c : Config, (c.profile.meetsR82 ∧ c.meetsR9 → State.construct c = some (State.boot c))
    ∧ (¬ (c.profile.meetsR82 ∧ c.meetsR9) → State.construct c = none))
  ∧ (∀ (c : Config) (s : State), State.construct c = some s →
      s.Inv ∧ ∀ a : RegAddr,
        c.profile.readFlag ||| a.setWidth 8 ≠ c.profile.writeFlag ||| a.setWidth 8
        ∧ (c.profile.readFlag ||| a.setWidth 8) &&& 0x3F#8 = a.setWidth 8
        ∧ (c.profile.writeFlag ||| a.setWidth 8) &&& 0x3F#8 = a.setWidth 8)
  ∧ State.construct Config.ref = some State.reset ∧ State.reset.Inv

/-- Every step keeps the invariant, from every state that meets it. -/
def Obligations.EveryStepKeepsTheInvariant : Prop :=
  ∀ s t : State, s.Inv → step s = .next t → t.Inv

/-- When the next thing presented is a word that decodes to i and the sequencer is free, a step is exec of i
on the state with the word taken from `port`; nothing else is added around exec. -/
def Obligations.StepRunsTheDecodedInstruction : Prop :=
  ∀ (s : State) (e : Encoded) (rest : List PortInput) (i : Instr),
    s.port = .word e :: rest → s.busy = false → decode s.cfg e = .ok i →
    step s = exec i { s with port := rest }

/-- R262: after SRC reset the sequencer waits for a host command, `opState` is Initial, and the IRQ input is
live at once. -/
def Obligations.WaitsForACommandAfterReset : Prop :=
  ∀ c : Config,
    (State.boot c).busy = false ∧ (State.boot c).opState = .initial
    ∧ step (State.boot c) = .next (State.boot c)
    ∧ (∀ rest, step { State.boot c with port := .irqEdge :: rest }
        = .next { State.boot c with irqFlag := true, port := rest })
    ∧ ∀ e rest i, decode c e = .ok i →
        step { State.boot c with port := .word e :: rest } = exec i { State.boot c with port := rest }

/-- While `busy` = 1: with a word presented, or with nothing presented, a step is exactly that the running command goes
on (R276, R16): the word is held by the host and not taken. An IRQ edge only sets the flag, and SRC reset frees the
sequencer. That the model keeps the word on `port` is its own form of R245 (log 16), and so is that an edge or a reset
presented next comes before the sequencer's next reads (log 6): these parts are the model's choice. What
`continueCommand` does to a command in a wait is `WaitGoesOnWhereItStood`. -/
def Obligations.BusySequencerAcceptsNoCommand : Prop :=
  ∀ (s : State) (rest : List PortInput), s.busy = true →
    (∀ e, s.port = .word e :: rest →
      step s = continueCommand s ∧ ∃ t, continueCommand s = .next t ∧ t.port = .word e :: rest)
    ∧ (∀ e, s.port = .wordCut e :: rest →
      step s = continueCommand s ∧ ∃ t, continueCommand s = .next t ∧ t.port = .wordCut e :: rest)
    ∧ (∀ e, s.port = .wordEdge e :: rest →
      step s = continueCommand s ∧ ∃ t, continueCommand s = .next t ∧ t.port = .wordEdge e :: rest)
    ∧ (s.port = .irqEdge :: rest → step s = .next { s with irqFlag := true, port := rest })
    ∧ (s.port = .srcReset :: rest → ∃ t, step s = .next t ∧ t.busy = false ∧ t.seq = none)
    ∧ (s.port = [] → step s = continueCommand s ∧ ∃ t, continueCommand s = .next t ∧ t.port = [])

/-- R260, R261 for a step on SRC reset, for a command that SRC reset abandons before its first bus or pin step, and for
one that it cuts about a chunk: all SRC state takes its reset value, nothing is delivered, no further chunk is taken,
the parameters and what is outside stay, and chip-select is released. Through WRITE_REGISTER, each place about a
chunk: before chip-select, before the chunk, in it after some of its bytes, and after it ended, when its bytes and its
result are on record. That each answer of the chip, or the word, carries such a reset is the model's form of the event
(log 18). -/
def Obligations.ResetAbandonsTheCommand : Prop :=
  (∀ (s : State) (rest : List PortInput), s.port = .srcReset :: rest →
    step s = .next { State.boot s.cfg with
      trace := s.trace ++ (if s.cs = .asserted then [.cs .deasserted] else [])
        ++ (if s.rst = .asserted then [.rst .deasserted] else [])
      delivered := s.delivered
      port := rest
      chip := s.chip
      draws := s.draws })
  ∧ (∀ (s : State) (e : Encoded) (rest : List PortInput) (i : Instr), s.port = .wordCut e :: rest →
    s.busy = false → s.cs = .deasserted → s.rst = .deasserted → decode s.cfg e = .ok i →
    step s = .next (State.afterReset { s with port := rest } 0 []))
  ∧ (∀ (addr : Byte) (v : Half) (s : State) (c : Cut), s.cfg.valid = true → addr.toNat < 64 → s.cs = .deasserted →
    s.rst = .deasserted → (s.drawAt 0).cut = some c →
    exec (.writeRegister addr v) s = .next (s.afterReset 1
      (if c = .beforeSelect then []
       else .cs .asserted :: (s.cutEvents 0 (writeExchange s.cfg (addr.setWidth 6) v) c ++ [.cs .deasserted]))))
  ∧ ∀ (i : Instr) (s t : State), exec i s = .next t → ¬ s.uncutUntil t →
      (∀ k, k + 1 < t.draws - s.draws → (s.drawAt k).cut = none)
      ∧ (∃ es, t.trace = s.trace ++ es ∧ (s.cs = .deasserted → framed .released es = some .released))
      ∧ t = { State.boot s.cfg with
          trace := t.trace
          delivered := s.delivered
          port := s.port
          chip := s.chip.drop (t.draws - s.draws)
          draws := t.draws }

/-- R238: an active edge sets `irqFlag` and does nothing else; an edge during a command sets it too; only
TASK_HANDLER (and SRC reset) clears it, at its first step, so that a later edge stands (R239). An edge after the last
chunk, or in a command without one, leaves the flag at 1 too and changes nothing else; so TASK_HANDLER completes with
`irqFlag` = 1 in Initial and Sleep, where it has no bus traffic. That the word, or an answer of the chip, carries the
edge is the model's form of the event (log 4). -/
def Obligations.OnlyTaskHandlerClearsTheIrqFlag : Prop :=
  (∀ (s : State) (rest : List PortInput), s.port = .irqEdge :: rest →
    step s = .next { s with irqFlag := true, port := rest })
  ∧ (∀ (i : Instr) (s t : State), i ≠ .taskHandler → exec i s = .next t → s.uncutUntil t →
      t.irqFlag = (s.irqFlag || s.edgeWithin (t.draws - s.draws)))
  ∧ (∀ s t : State, s.cfg.profile.bytewise = true → exec .taskHandler s = .next t → s.uncutUntil t →
      t.irqFlag = s.edgeWithin (t.draws - s.draws))
  ∧ (∀ (s : State) (e : Encoded) (rest : List PortInput) (i : Instr), s.port = .wordEdge e :: rest →
      s.busy = false → decode s.cfg e = .ok i →
      ∃ t, exec i { s with port := rest } = .next t ∧ step s = .next { t with irqFlag := true })
  ∧ ∀ (s : State) (e : Encoded) (rest : List PortInput), s.port = .wordEdge e :: rest → s.busy = false →
      s.cfg.profile.bytewise = true → decode s.cfg e = .ok .taskHandler →
      s.opState = .initial ∨ s.opState = .sleep →
      step s = .next (State.answeredOk { s with irqFlag := true, port := rest } [])

/-! ### Encoding -/

/-- Words written out bit by bit from R83, R86, R87 and R95 decode to the instructions they stand for. -/
def Obligations.WrittenOutWordsDecode : Prop :=
  decode Config.ref (.hostFrame [0b00000001#8]) = .ok .init
  ∧ decode Config.ref (.hostFrame [0b00000100#8, 0x02#8, 0x41#8, 0x88#8]) = .ok (.dataRequest [0x41#8, 0x88#8])
  ∧ decode Config.ref (.hostFrame [0b00010011#8, 0xEF#8, 0xBE#8]) = .ok (.setPanId 0xBEEF#16)
  ∧ decode Config.ref (.hostFrame [0b00100001#8, 0x08#8, 0x25#8]) = .ok (.writeRegister 0x08#8 0x0025#16)
  ∧ decode Config.ref (.hostFrame [0b00100101#8]) = .ok .readFrame
  ∧ decode Config.ref (.spiTransfer [0b10001111#8, 0x00#8]) = .ok (.spiRegRead 0b001111#6)
  ∧ decode Config.ref (.spiTransfer [0b11101101#8, 0x46#8]) = .ok (.spiRegWrite 0b101101#6 0x0046#16)
  ∧ decode Config.ref (.spiTransfer [0b00100000#8, 0x00#8]) = .ok .spiFbRead
  ∧ decode Config.ref (.spiTransfer [0b01100000#8, 0x03#8, 0x55#8, 0x00#8, 0x00#8]) = .ok (.spiFbWrite [0x55#8])
  ∧ decode Config.ref (.trxCommand 0b00011001#8) = .ok .txAretOn
  ∧ decode Config.ref (.hostFrame [0x30#8]) = .error (.unassignedOpcode 0x30#8)

/-- Decoding the encoding of a well-formed instruction gives it back, for every instruction, every operand
and every valid parameter set whose command codes differ. -/
def Obligations.DecodeOfEncodeIsTheInstruction : Prop :=
  ∀ (c : Config) (i : Instr), c.valid = true → c.map.codesDistinct = true → i.wf c = true →
    decode c (encode c i) = .ok i

/-- Whatever decodes is well-formed and is exactly the encoding of what it decodes to: no bit of a word is
ignored and no word has two readings within its space. -/
def Obligations.EncodeOfDecodeIsTheWord : Prop :=
  ∀ (c : Config) (e : Encoded) (i : Instr), c.valid = true → decode c e = .ok i →
    encode c i = e ∧ i.wf c = true

/-- R96: the length of a host frame, told from its first byte, or for 0x04, 0x22 and 0x24 from its first two;
every frame that decodes has that length; and the length of an SPI register exchange is fixed by the profile. -/
def Obligations.HostFrameLengthsAreFixedByTheOpcode : Prop :=
  ∀ c : Config,
    (∀ op rest, op ∈ [0x01#8, 0x02#8, 0x03#8, 0x05#8, 0x16#8, 0x25#8] →
      hostFrameLength c (op :: rest) = some 1)
    ∧ (∀ op rest, op ∈ [0x10#8, 0x11#8, 0x12#8, 0x15#8, 0x20#8, 0x23#8] →
      hostFrameLength c (op :: rest) = some 2)
    ∧ (∀ op rest, op ∈ [0x13#8, 0x14#8] → hostFrameLength c (op :: rest) = some 3)
    ∧ (∀ rest, hostFrameLength c (0x21#8 :: rest) = some (2 + c.profile.valBytes.num))
    ∧ (∀ op n rest, op ∈ [0x04#8, 0x22#8, 0x24#8] →
      hostFrameLength c (op :: n :: rest) = some (2 + n.toNat))
    ∧ (∀ bs i, decode c (.hostFrame bs) = .ok i → hostFrameLength c (bs.take 2) = some bs.length)
    ∧ ∀ a v, (readExchange c a).length = c.profile.cmdBytes.num + c.profile.valBytes.num
      ∧ (writeExchange c a v).length = c.profile.cmdBytes.num + c.profile.valBytes.num

/-- R92: the frame-write buffer is the one-byte prefix n + 2, which does not wrap, the frame and two 0x00
bytes, n + 3 bytes in all; n = 4 gives the spec's worked example. -/
def Obligations.LengthPrefixCountsTheCrcBytes : Prop :=
  (∀ (c : Config) (f : List Byte), c.valid = true → f.length + 3 ≤ c.fbLimit →
    (frameImage f).length = f.length + 3
    ∧ ((frameImage f)[0]?).map BitVec.toNat = some (f.length + 2)
    ∧ (frameImage f).drop 1 = f ++ [0x00#8, 0x00#8])
  ∧ ∀ f0 f1 f2 f3 : Byte, frameImage [f0, f1, f2, f3] = [0x06#8, f0, f1, f2, f3, 0x00#8, 0x00#8]

/-- A host frame with an opcode R95 does not assign completes with `InvalidCommand`: no bus traffic, no other state
change than the completion, and the completion hands over no event (log 9). -/
def Obligations.UnassignedOpcodeIsInvalidCommand : Prop :=
  ∀ (s : State) (op : Byte) (args : List Byte) (rest : List PortInput),
    s.port = .word (.hostFrame (op :: args)) :: rest → s.busy = false →
    op ∉ [0x01#8, 0x02#8, 0x03#8, 0x04#8, 0x05#8, 0x10#8, 0x11#8, 0x12#8, 0x13#8, 0x14#8, 0x15#8, 0x16#8,
      0x20#8, 0x21#8, 0x22#8, 0x23#8, 0x24#8, 0x25#8] →
    step s = .next (State.refused { s with port := rest } (.invalidCommand op) [])

/-- The codes of R230, R90 and R21. -/
def Obligations.CodesOfErrorsStatusesAndStates : Prop :=
  okCode = 0x00#8
  ∧ (∀ k o, (Err.transferFailed k o).code = 0x01#8) ∧ (∀ x l, (Err.chipUnresponsive x l).code = 0x02#8)
  ∧ (∀ st, (Err.invalidState st).code = 0x03#8) ∧ (∀ n, (Err.frameTooLong n).code = 0x04#8)
  ∧ (∀ l, (Err.frameInvalid l).code = 0x05#8) ∧ (∀ a, (Err.invalidArgument a).code = 0x06#8)
  ∧ (∀ op, (Err.invalidCommand op).code = 0x07#8) ∧ (∀ p, (Err.unsupportedProfile p).code = 0x08#8)
  ∧ [TxStatus.success, .channelAccessFailure, .noAck, .error].map statusNumber = [0x00#8, 0x01#8, 0x02#8, 0x03#8]
  ∧ [OpState.initial, .idle, .sleep, .transmittingWaitEnd].map OpState.code = [0#2, 1#2, 2#2, 3#2]

/-! ### Checks before bus traffic -/

/-- R233 (2) to (5): the first error in that order completes the command, with no bus traffic and no state
written but the completion; `evq` is as it was. The completion hands over no event, because a refused command
emitted none: that is log 9. The SPI and `TRX_CMD` rows are checked as log 11 and log 12 say. -/
def Obligations.ChecksComeInOrderBeforeBusTraffic : Prop :=
  ∀ (i : Instr) (s : State) (e : Err), precheck s.cfg i s.opState = some e →
    exec i s = .next (s.refused e [])

/-- R163: the state-machine and configuration commands need `CMD_BYTES` = `VAL_BYTES` = 1, whatever their flag and
command bytes are. Which events a refused command's completion hands over is not said (log 9). -/
def Obligations.EightBitProfileIsRequired : Prop :=
  ∀ (i : Instr) (s : State),
    (isConfiguration i = true ∨ i ∈ [.init, .sleep, .wakeup, .taskHandler] ∨ ∃ d, i = .dataRequest d) →
    ¬ (s.cfg.profile.cmdBytes = .one ∧ s.cfg.profile.valBytes = .one) →
    refusedBy i s (.unsupportedProfile s.cfg.profile)

/-- R234, R170, R175, R167, cell by cell: "IS" completes with `InvalidState`, "no-op" completes OK (TASK_HANDLER
clearing `irqFlag`), both with no bus traffic; every other cell runs, so it never completes with code 0x03; and INIT
is legal in Initial alone, to which nothing but SRC reset returns. A refused command leaves `evq` as it was, and a
refused DATA_REQUEST hands over no event (R175). The rows of the internal spaces, which R234 has no line for, never
complete with code 0x03 either: that part is the model's choice (log 11, log 12). Which events another refused
command's completion hands over is not said (log 9). -/
def Obligations.LegalityTableOfCommandsAndStates : Prop :=
  (∀ s : State, s.cfg.profile.bytewise = true →
    (s.opState ≠ .initial → refusedBy .init s (.invalidState s.opState))
    ∧ (s.opState = .initial ∨ s.opState = .transmittingWaitEnd →
        refusedBy .sleep s (.invalidState s.opState)
        ∧ refusedBy .wakeup s (.invalidState s.opState))
    ∧ (s.opState = .sleep → exec .sleep s = .next (s.answeredOk []))
    ∧ (∀ d, s.opState ≠ .idle → exec (.dataRequest d) s = .next (s.refused (.invalidState s.opState) []))
    ∧ (s.opState = .initial ∨ s.opState = .sleep →
        exec .taskHandler s = .next (State.answeredOk { s with irqFlag := false } []))
    ∧ (s.opState = .initial → ∀ i, isConfiguration i = true → badArgument i = none →
        refusedBy i s (.invalidState .initial)))
  ∧ (∀ (i : Instr) (s t : State) (x : Completion), exec i s = .next t → t.delivered = s.delivered ++ [x] →
      (i = .init → s.opState = .initial)
      → (i = .sleep → s.opState = .idle ∨ s.opState = .sleep)
      → (i = .wakeup → s.opState = .idle ∨ s.opState = .sleep)
      → (∀ d, i = .dataRequest d → s.opState = .idle)
      → (isConfiguration i = true → s.opState ≠ .initial)
      → x.result ≠ 0x03#8)
  ∧ ∀ (i : Instr) (s t : State), exec i s = .next t → s.uncutUntil t → t.opState = .initial →
      s.opState = .initial

/-- R201: the configuration commands run in Idle, Sleep and TransmittingWaitEnd (they then complete OK or with
`TransferFailed`), are refused in Initial and under another profile with the cache unchanged, and never change
`opState`. Which events a refused command's completion hands over is not said (log 9). -/
def Obligations.ConfigurationCommandsNeedInit : Prop :=
  ∀ (i : Instr) (s : State), isConfiguration i = true → badArgument i = none →
    (s.cfg.profile.bytewise = true → s.opState = .initial →
      refusedBy i s (.invalidState .initial))
    ∧ (s.cfg.profile.bytewise = false →
      refusedBy i s (.unsupportedProfile s.cfg.profile))
    ∧ (s.cfg.profile.bytewise = true → s.opState ≠ .initial → ∀ t, exec i s = .next t → s.uncutUntil t →
      t.busy = false ∧ (t.result = 0x00#8 ∨ t.result = 0x01#8) ∧ t.opState = s.opState)

/-! ### SPI master controller -/

/-- R124, R125: READ_REGISTER in every `opState` and under every profile: an address above 0x3F is refused; else one
chunk of `CMD_BYTES` + `VAL_BYTES` bytes, whose value bytes are returned low byte first, or `TransferFailed`. Which
events a refused command's completion hands over is not said (log 9). -/
def Obligations.ReadRegisterIsOneExchange : Prop :=
  ∀ (addr : Byte) (s : State), s.cfg.valid = true →
    (64 ≤ addr.toNat → refusedBy (.readRegister addr) s (.invalidArgument addr))
    ∧ (addr.toNat < 64 →
      (s.goThrough 1 → exec (.readRegister addr) s =
        .next ((s.afterBus 1 (s.transfer 0 [readExchange s.cfg (addr.setWidth 6)])).answeredOk
          (s.registerBytes 0)))
      ∧ (s.failsAt 0 → exec (.readRegister addr) s =
        .next ((s.afterBus 1 (s.brokenTransfer 0 [] (readExchange s.cfg (addr.setWidth 6)))).answeredErr
          (.transferFailed 0 0))))

/-- R126, R127: WRITE_REGISTER in every `opState` and under every profile: an address above 0x3F is refused; else
one chunk with the command word and the value bytes, or `TransferFailed`. Which events a refused command's
completion hands over is not said (log 9). -/
def Obligations.WriteRegisterIsOneExchange : Prop :=
  ∀ (addr : Byte) (v : Half) (s : State), s.cfg.valid = true →
    (64 ≤ addr.toNat → refusedBy (.writeRegister addr v) s (.invalidArgument addr))
    ∧ (addr.toNat < 64 →
      (s.goThrough 1 → exec (.writeRegister addr v) s =
        .next ((s.afterBus 1 (s.transfer 0 [writeExchange s.cfg (addr.setWidth 6) v])).answeredOk []))
      ∧ (s.failsAt 0 → exec (.writeRegister addr v) s =
        .next ((s.afterBus 1 (s.brokenTransfer 0 [] (writeExchange s.cfg (addr.setWidth 6) v))).answeredErr
          (.transferFailed 0 0))))

/-- The rows SPI_REG_READ and SPI_REG_WRITE run alone: the exchange of R84 for their address, completed as a
command. That a row runs alone is the model's choice (log 11). -/
def Obligations.SpiRegisterRowsAreTheExchanges : Prop :=
  ∀ (a : RegAddr) (v : Half) (s : State), s.cfg.valid = true → s.goThrough 1 →
    exec (.spiRegRead a) s =
      .next ((s.afterBus 1 (s.transfer 0 [readExchange s.cfg a])).answeredOk (s.registerBytes 0))
    ∧ exec (.spiRegWrite a v) s =
      .next ((s.afterBus 1 (s.transfer 0 [writeExchange s.cfg a v])).answeredOk [])

/-- R128, R121: WRITE_BYTES sends its data unframed in one transaction, in chunks of exactly `MAX_XFER` bytes but
for the last, in every `opState` and under every profile; a failed chunk ends it with the chunk's number and offset;
no data is an `InvalidArgument`. Which events a refused command's completion hands over is not said (log 9). -/
def Obligations.WriteBytesSendsChunks : Prop :=
  ∀ s : State, s.cfg.valid = true →
    refusedBy (.writeBytes []) s (.invalidArgument 0x00#8)
    ∧ ∀ (data : List Byte) (ps : List (List Byte)), data ≠ [] → IsChunking s.cfg.maxXfer data ps →
      ps.length = (data.length + s.cfg.maxXfer - 1) / s.cfg.maxXfer
      ∧ (s.goThrough ps.length → exec (.writeBytes data) s =
        .next ((s.afterBus ps.length (s.transfer 0 ps)).answeredOk []))
      ∧ ∀ sent p unsent, ps = sent ++ p :: unsent → s.goThrough sent.length → s.failsAt sent.length →
        exec (.writeBytes data) s =
          .next ((s.afterBus (sent.length + 1) (s.brokenTransfer 0 sent p)).answeredErr
            (.transferFailed sent.length (sent.length * s.cfg.maxXfer)))

/-- R130: READ_BYTES clocks n bytes of 0x00 out in one transaction and returns the n bytes received; a failed chunk
ends it with nothing returned; n = 0 is an `InvalidArgument`. Which events a refused command's completion hands over
is not said (log 9). -/
def Obligations.ReadBytesReturnsWhatArrives : Prop :=
  ∀ s : State, s.cfg.valid = true →
    refusedBy (.readBytes 0x00#8) s (.invalidArgument 0x00#8)
    ∧ ∀ (n : Byte) (ps : List (List Byte)), n ≠ 0x00#8 →
      IsChunking s.cfg.maxXfer (List.replicate n.toNat 0x00#8) ps →
      (s.goThrough ps.length → exec (.readBytes n) s =
        .next ((s.afterBus ps.length (s.transfer 0 ps)).answeredOk (s.received 0 ps)))
      ∧ (s.received 0 ps).length = n.toNat
      ∧ ∀ sent p unsent, ps = sent ++ p :: unsent → s.goThrough sent.length → s.failsAt sent.length →
        exec (.readBytes n) s =
          .next ((s.afterBus (sent.length + 1) (s.brokenTransfer 0 sent p)).answeredErr
            (.transferFailed sent.length (sent.length * s.cfg.maxXfer)))

/-- R52, R53: whatever the chip answers, and also where SRC reset cuts the command, what any instruction and any
step adds to the bus is a sequence of whole transactions, each of one or more chunks of 1 to `MAX_XFER` bytes, a
failed or cut chunk followed at once by the release of chip-select; RST moves only while none is open. Only SRC reset
can release chip-select before a chunk was sent, and then no further transaction follows. -/
def Obligations.EveryTransactionIsFramed : Prop :=
  ∀ (i : Instr) (s t : State), s.cfg.valid = true → s.cs = .deasserted →
    exec i s = .next t ∨ step s = .next t →
    t.cs = .deasserted ∧ ∃ es, t.trace = s.trace ++ es ∧ framed .released es = some .released
      ∧ (∀ e ∈ es, chunkFits s.cfg e = true)
      ∧ ∀ before after, es = before ++ .cs .asserted :: .cs .deasserted :: after →
        ¬ s.uncutUntil t ∧ ∀ e ∈ after, e = .rst .deasserted

/-- R122, R131: where no `CfgWrite` is involved, a failed chunk is the command's last: chip-select is released,
nothing further reaches the bus, and the command completes with `TransferFailed` and no return bytes. -/
def Obligations.FailedChunkEndsTheCommand : Prop :=
  ∀ (i : Instr) (s t : State), usesCfgWrite i = false → exec i s = .next t → s.uncutUntil t →
    ∃ es, t.trace = s.trace ++ es ∧
      ((∀ e ∈ es, notFailed e = true)
       ∨ ∃ before tx evs, es = before ++ [.chunk tx [] false, .cs .deasserted]
          ∧ (∀ e ∈ before, notFailed e = true)
          ∧ t.delivered = s.delivered ++ [{ result := 0x01#8, retdata := [], events := evs }])

/-! ### Frame buffer FIFO adapter -/

/-- WRITE_FRAME in every `opState`, and the row SPI_FB_WRITE run alone (log 11): with every chunk going through
and every poll matching at once, the whole next state. The image is sent in one transaction, chunked; then
TX_START is a plain register write (R142). Where `POLL_LIMIT` reads of a phase never show the awaited state, the
command completes with `ChipUnresponsive` and nothing further reaches the bus: no frame is sent. -/
def Obligations.WriteFrameSendsTheImage : Prop :=
  ∀ (f : List Byte) (ps : List (List Byte)) (s : State), s.cfg.valid = true → f.length + 3 ≤ s.cfg.fbLimit →
    IsChunking s.cfg.maxXfer
      (s.cfg.profile.fbWriteCmd :: BitVec.ofNat 8 (f.length + 2) :: (f ++ [0x00#8, 0x00#8])) ps →
    (s.cfg.profile.bytewise = true → s.goThrough (5 + ps.length) → s.pollsMatch 0 .pllOn →
      exec (.writeFrame f) s = .next (State.answeredOk
        { s.afterBus (5 + ps.length)
            (s.exchanges 0 (trxExchanges s.cfg .pllOn) ++ s.transfer 4 ps
              ++ s.transfer (4 + ps.length)
                  [stateWrite s.cfg s.cfg.map.cmdTxStart])
          with
          txbuf := s.txbuf.writeRange 0 (frameImage f)
          pollCount := 1 } []))
    ∧ (s.cfg.profile.bytewise = true → ∀ n,
      (s.neverOff 0 n → exec (.writeFrame f) s = .next ((s.afterNeverOff [] n).answeredErr (s.offError 0 n)))
      ∧ (s.neverReaches 0 .pllOn n → exec (.writeFrame f) s =
        .next ((s.afterNeverReaches .pllOn n).answeredErr (s.reachError 0 .pllOn n))))
    ∧ (s.goThrough ps.length →
      exec (.spiFbWrite f) s = .next (State.answeredOk
        { s.afterBus ps.length (s.transfer 0 ps) with txbuf := s.txbuf.writeRange 0 (frameImage f) } []))

/-- R145, R146: READ_FRAME in every `opState` and under every profile.
L is the second byte of the header chunk: above `MAX_PHR` the read ends there with `FrameInvalid` and `rxbuf` as it
was; else L + 1 more bytes are read, and `rxbuf` and the return bytes are L and what arrived. A failed chunk of
either segment leaves `rxbuf` as it was. -/
def Obligations.ReadFrameTakesTheLengthFirst : Prop :=
  ∀ s : State, s.cfg.valid = true →
    (s.failsAt 0 → exec .readFrame s =
      .next ((s.afterBus 1 (s.brokenTransfer 0 [] [s.cfg.profile.fbReadCmd, 0x00#8])).answeredErr
        (.transferFailed 0 0)))
    ∧ (s.goThrough 1 → s.cfg.maxPhr < (s.secondByte 0).toNat → exec .readFrame s =
      .next ((s.afterBus 1 (s.transfer 0 [[s.cfg.profile.fbReadCmd, 0x00#8]])).answeredErr
        (.frameInvalid (s.secondByte 0))))
    ∧ ∀ ps, (s.secondByte 0).toNat ≤ s.cfg.maxPhr →
      IsChunking s.cfg.maxXfer (List.replicate ((s.secondByte 0).toNat + 1) 0x00#8) ps →
      (s.goThrough (1 + ps.length) → exec .readFrame s =
        .next (State.answeredOk
          { s.afterBus (1 + ps.length) (s.transfer 0 ([s.cfg.profile.fbReadCmd, 0x00#8] :: ps)) with
            rxbuf := s.rxbuf.writeRange 0 (s.secondByte 0 :: s.received 1 ps) }
          (s.secondByte 0 :: s.received 1 ps)))
      ∧ ∀ sent p unsent, ps = sent ++ p :: unsent → s.goThrough (1 + sent.length) →
        s.failsAt (1 + sent.length) → exec .readFrame s =
          .next ((s.afterBus (2 + sent.length)
              (s.brokenTransfer 0 ([s.cfg.profile.fbReadCmd, 0x00#8] :: sent) p)).answeredErr
            (.transferFailed sent.length (sent.length * s.cfg.maxXfer)))

/-- The row SPI_FB_READ run alone, which is the model's choice (log 11): in every `opState` and under every profile it
is the frame read of R145. The whole next state where every chunk goes through, and the invalid length byte. -/
def Obligations.SpiFrameReadRowIsTheFrameRead : Prop :=
  ∀ s : State, s.cfg.valid = true →
    (s.goThrough 1 → s.cfg.maxPhr < (s.secondByte 0).toNat → exec .spiFbRead s =
      .next ((s.afterBus 1 (s.transfer 0 [[s.cfg.profile.fbReadCmd, 0x00#8]])).answeredErr
        (.frameInvalid (s.secondByte 0))))
    ∧ ∀ ps, (s.secondByte 0).toNat ≤ s.cfg.maxPhr →
      IsChunking s.cfg.maxXfer (List.replicate ((s.secondByte 0).toNat + 1) 0x00#8) ps →
      s.goThrough (1 + ps.length) → exec .spiFbRead s =
        .next (State.answeredOk
          { s.afterBus (1 + ps.length) (s.transfer 0 ([s.cfg.profile.fbReadCmd, 0x00#8] :: ps)) with
            rxbuf := s.rxbuf.writeRange 0 (s.secondByte 0 :: s.received 1 ps) }
          (s.secondByte 0 :: s.received 1 ps))

/-- Every byte of `txbuf`: a command that sends no frame changes none; one that sends the frame f either changes
none or leaves bytes 0 to n + 2 holding the image, and every byte from n + 3 on reads as before. The frame commands
are WRITE_FRAME and DATA_REQUEST, and SPI_FB_WRITE run alone, which is the model's choice (log 11). -/
def Obligations.TransmitBufferFrame : Prop :=
  ∀ (i : Instr) (s t : State), exec i s = .next t → s.uncutUntil t →
    (frameOf i = none → ∀ k, t.txbuf.read k = s.txbuf.read k)
    ∧ ∀ f, frameOf i = some f →
      (∀ k, f.length + 3 ≤ k → t.txbuf.read k = s.txbuf.read k)
      ∧ ((∀ k, t.txbuf.read k = s.txbuf.read k)
         ∨ ∀ k, k < f.length + 3 → t.txbuf.read k = (frameImage f)[k]?)

/-- Every byte of `rxbuf`: only READ_FRAME, SPI_FB_READ and TASK_HANDLER in Idle change any; with L the length byte
their frame read received, bytes from L + 2 on read as before, and bytes 0 to L + 1 either all read as before or
are L and what the read received after it. That SPI_FB_READ runs alone is the model's choice (log 11). -/
def Obligations.ReceiveBufferFrame : Prop :=
  ∀ (i : Instr) (s t : State), s.cfg.valid = true → exec i s = .next t → s.uncutUntil t →
    (i ∉ [.readFrame, .spiFbRead] → ¬ (i = .taskHandler ∧ s.opState = .idle) →
      ∀ k, t.rxbuf.read k = s.rxbuf.read k)
    ∧ ∀ h : Nat, (i ∈ [.readFrame, .spiFbRead] ∧ h = 0) ∨ (i = .taskHandler ∧ h = 1) →
      (∀ k, (s.secondByte h).toNat + 2 ≤ k → t.rxbuf.read k = s.rxbuf.read k)
      ∧ ((∀ k, t.rxbuf.read k = s.rxbuf.read k)
         ∨ ∀ ps, IsChunking s.cfg.maxXfer (List.replicate ((s.secondByte h).toNat + 1) 0x00#8) ps →
            ∀ k, k < (s.secondByte h).toNat + 2 →
              t.rxbuf.read k = (s.secondByte h :: s.received (h + 1) ps)[k]?)

/-! ### Transceiver state machine -/

/-- R161: `WaitState` reads `TRX_STATUS` until bits [4:0] show the awaited code, at most `POLL_LIMIT` times. With
p reads, the p-th the first that matches, it returns; with `POLL_LIMIT` reads none of which matches it raises
`ChipUnresponsive` with the last code; a failed read is not retried. Under `POLL_LIMIT` = INF it reads on;
how many reads one model step makes of it is the model's choice (log 6), and `WaitGoesOnWhereItStood` says what the
next step does. -/
def Obligations.WaitStatePollsUntilTheLimit : Prop :=
  ∀ (place : SeqStep) (awaited : TrxCode) (s : State), s.cfg.valid = true → s.cfg.profile.bytewise = true →
    (∀ p, 1 ≤ p → (∀ n, s.cfg.pollLimit = some n → p ≤ n) →
      (s.cfg.pollLimit = none → p ≤ max s.chip.length 1) →
      s.goThrough p → (∀ k, k + 1 < p → s.polled k ≠ awaited) → s.polled (p - 1) = awaited →
      waitState place awaited s = .ok ()
        { s.afterBus p (s.exchanges 0 (List.replicate p (regRead s.cfg s.cfg.map.trxStatus))) with
          pollCount := p })
    ∧ (∀ n, s.cfg.pollLimit = some n → s.goThrough n → (∀ k, k < n → s.polled k ≠ awaited) →
      waitState place awaited s = .error (.raised (.chipUnresponsive awaited (s.polled (n - 1))))
        { s.afterBus n (s.exchanges 0 (List.replicate n (regRead s.cfg s.cfg.map.trxStatus))) with
          pollCount := n })
    ∧ ∀ p, (∀ n, s.cfg.pollLimit = some n → p < n) →
      (s.cfg.pollLimit = none → p < max s.chip.length 1) → s.goThrough p → (∀ k, k < p → s.polled k ≠ awaited) → s.failsAt p →
      waitState place awaited s = .error (.raised (.transferFailed 0 0))
        { s.afterBus (p + 1)
            (s.exchanges 0 (List.replicate p (regRead s.cfg s.cfg.map.trxStatus))
              ++ s.brokenTransfer p [] (regRead s.cfg s.cfg.map.trxStatus)) with
          pollCount := p }

/-- The rows FORCE_TRX_OFF, RX_ON, PLL_ON, RX_AACK_ON and TX_ARET_ON, run alone as `SetTrxState` (log 12), each poll
matching at once: the forced-off write and its poll, then the target and its poll (R160). TX_START, run alone, is
its plain register write (R142). Where `POLL_LIMIT` reads of a phase never show the awaited state, `ChipUnresponsive`
with nothing further on the bus. The whole next state in each case. -/
def Obligations.StateCommandRowsForceOffFirst : Prop :=
  ∀ s : State, s.cfg.valid = true → s.cfg.profile.bytewise = true →
    (∀ (i : Instr) (cmd : TrxCmd),
      (i, cmd) ∈ [(Instr.forceTrxOff, TrxCmd.forceTrxOff), (.rxOn, .rxOn), (.pllOn, .pllOn),
        (.rxAackOn, .rxAackOn), (.txAretOn, .txAretOn)] →
      s.goThrough (if cmd = .forceTrxOff then 2 else 4) → s.pollsMatch 0 cmd →
      exec i s = .next (State.answeredOk
        { s.afterBus (if cmd = .forceTrxOff then 2 else 4) (s.exchanges 0 (trxExchanges s.cfg cmd)) with
          pollCount := 1 } []))
    ∧ (∀ (i : Instr) (cmd : TrxCmd) (n : Nat),
      (i, cmd) ∈ [(Instr.forceTrxOff, TrxCmd.forceTrxOff), (.rxOn, .rxOn), (.pllOn, .pllOn),
        (.rxAackOn, .rxAackOn), (.txAretOn, .txAretOn)] →
      (s.neverOff 0 n → exec i s = .next ((s.afterNeverOff [] n).answeredErr (s.offError 0 n)))
      ∧ (s.neverReaches 0 cmd n →
        exec i s = .next ((s.afterNeverReaches cmd n).answeredErr (s.reachError 0 cmd n))))
    ∧ (s.goThrough 1 → exec .txStart s =
      .next ((s.afterBus 1 (s.transfer 0
        [stateWrite s.cfg s.cfg.map.cmdTxStart])).answeredOk []))

/-- INIT in Initial, each poll matching at once and each write going through at the first attempt: the reset pulse,
then the nine transactions of R166 in order, and the whole next state. -/
def Obligations.InitBringsTheChipToTheReceiveState : Prop :=
  ∀ s : State, s.cfg.valid = true → s.cfg.profile.bytewise = true → s.opState = .initial → s.goThrough 9 →
    s.pollsMatch 0 .forceTrxOff → s.pollsMatch 5 (rxStateCmd s.cfg) →
    exec .init s = .next (State.answeredOk
      { s.afterBus 9
          ([.rst .asserted, .rst .deasserted]
            ++ s.exchanges 0
              (trxExchanges s.cfg .forceTrxOff
                ++ [regWrite s.cfg s.cfg.map.trxCtrl1 (trxCtrl1Value s.cfg),
                    regWrite s.cfg s.cfg.map.trxCtrl2 (trxCtrl2Value s.cfg s.modulation),
                    regWrite s.cfg s.cfg.map.phyTxPwr s.cfg.defaultTxPower]
                ++ trxExchanges s.cfg (rxStateCmd s.cfg)))
        with
        opState := .idle
        txPower := s.cfg.defaultTxPower
        rst := .deasserted
        pollCount := 1
        retryCount := 0 } [])

/-- R165, in every run of INIT, whatever the chip answers and whatever fails: the first chunk is the write of
FORCE_TRX_OFF to `TRX_STATE`; every write to the three registers INIT configures comes after a status read that
went through and showed `TRX_OFF`; an INIT that completes OK leaves `opState` = Idle. -/
def Obligations.InitForcesOffBeforeConfiguring : Prop :=
  ∀ (s t : State) (es : List BusEvent), s.cfg.valid = true → s.cfg.profile.bytewise = true →
    s.cfg.map.addrsDistinct = true → s.opState = .initial → exec .init s = .next t → t.trace = s.trace ++ es →
    (∀ before tx rx ok after, es = before ++ .chunk tx rx ok :: after → chunksSent before = [] →
      tx = stateWrite s.cfg s.cfg.map.cmdForceTrxOff)
    ∧ (∀ before a v rx ok after, a ∈ [s.cfg.map.trxCtrl1, s.cfg.map.trxCtrl2, s.cfg.map.phyTxPwr] →
      es = before ++ .chunk (regWrite s.cfg a v) rx ok :: after →
      ∃ b r, .chunk (regRead s.cfg s.cfg.map.trxStatus) [b, r] true ∈ before
        ∧ statusField s.cfg r = s.cfg.map.stTrxOff)
    ∧ (s.completedOk t → t.opState = .idle)

/-- R162, over everything an instruction puts on the bus, whatever the chip answers: a write of `TRX_STATE` with a code
other than FORCE_TRX_OFF and TX_START comes only after the chip was forced off and a status read since then showed
`TRX_OFF`. Left aside are the host's own register writes and raw bytes, which R272 says bypass the rule. A command that
goes on after a wait without a bound starts from the phase it stood in (R276); where an instruction, or a command that
went on, is left at the poll of a forced-off phase, its scan ends with the forced-off command as the last one issued, so
that the next scan starts from what holds. A command left in a wait has the 8-bit profile (`seq_place` of `State.Inv`,
R163, R140), which the second clause assumes. -/
def Obligations.ForcedOffPhaseIsNeverSkipped : Prop :=
  (∀ (i : Instr) (s t : State), rawTransport i = false → s.cfg.valid = true →
    s.cfg.map.addrsDistinct = true → exec i s = .next t →
    ∃ es q, t.trace = s.trace ++ es
      ∧ scan s.cfg { fresh := false, forced := false, off := false } es = some q
      ∧ ∀ j call, t.seq = some { cmd := j, step := .waiting call .forcedOff } → q.forced = true)
  ∧ ∀ (s t : State) (i : Instr) (call : StateCall) (phase : Phase), s.cfg.valid = true →
    s.cfg.profile.bytewise = true → s.cfg.map.addrsDistinct = true → s.seq = some { cmd := i, step := .waiting call phase } →
    continueCommand s = .next t →
    ∃ es q, t.trace = s.trace ++ es
      ∧ scan s.cfg { fresh := false, forced := phase == .forcedOff, off := false } es = some q
      ∧ ∀ j call', t.seq = some { cmd := j, step := .waiting call' .forcedOff } → q.forced = true

/-- SLEEP in Idle and WAKEUP in Idle or Sleep, each poll matching at once: the whole next state (R169, R171). Where
`POLL_LIMIT` reads of a phase never show the awaited state, the command completes with
`ChipUnresponsive(expected, last)`, nothing further reaches the bus, and `opState` is as it was (R160, R161). -/
def Obligations.SleepAndWakeupComplete : Prop :=
  ∀ s : State, s.cfg.valid = true → s.cfg.profile.bytewise = true →
    (s.opState = .idle →
      (s.goThrough 2 → s.pollsMatch 0 .forceTrxOff → exec .sleep s = .next (State.answeredOk
        { s.afterBus 2 (s.exchanges 0 (trxExchanges s.cfg .forceTrxOff)) with
          opState := .sleep
          pollCount := 1 } []))
      ∧ ∀ n, s.neverOff 0 n → exec .sleep s = .next ((s.afterNeverOff [] n).answeredErr (s.offError 0 n)))
    ∧ (s.opState = .idle ∨ s.opState = .sleep →
      (s.goThrough 4 → s.pollsMatch 0 (rxStateCmd s.cfg) → exec .wakeup s = .next (State.answeredOk
        { s.afterBus 4 (s.exchanges 0 (trxExchanges s.cfg (rxStateCmd s.cfg))) with
          opState := .idle
          pollCount := 1 } []))
      ∧ ∀ n,
        (s.neverOff 0 n → exec .wakeup s = .next ((s.afterNeverOff [] n).answeredErr (s.offError 0 n)))
        ∧ (s.neverReaches 0 (rxStateCmd s.cfg) n → exec .wakeup s =
          .next ((s.afterNeverReaches (rxStateCmd s.cfg) n).answeredErr
            (s.reachError 0 (rxStateCmd s.cfg) n))))

/-- DATA_REQUEST in Idle with both values of `DATAREQ_FORCES_PLL_ON`, each poll matching at once: the state
commands, the IRQ status read between them and the frame, the frame, TX_START, and the whole next state (R173,
R172). -/
def Obligations.DataRequestHandsTheFrameOver : Prop :=
  ∀ (data : List Byte) (ps : List (List Byte)) (s : State), s.cfg.valid = true →
    s.cfg.profile.bytewise = true → s.opState = .idle → data.length + 3 ≤ s.cfg.fbLimit →
    IsChunking s.cfg.maxXfer
      (s.cfg.profile.fbWriteCmd :: BitVec.ofNat 8 (data.length + 2) :: (data ++ [0x00#8, 0x00#8])) ps →
    (s.cfg.dataReqForcesPllOn = false → s.goThrough (6 + ps.length) → s.pollsMatch 0 .txAretOn →
      exec (.dataRequest data) s = .next (State.answeredOk
        { s.afterBus (6 + ps.length)
            (s.exchanges 0 (trxExchanges s.cfg .txAretOn ++ [regRead s.cfg s.cfg.map.irqStatus])
              ++ s.transfer 5 ps
              ++ s.transfer (5 + ps.length)
                  [stateWrite s.cfg s.cfg.map.cmdTxStart])
          with
          opState := .transmittingWaitEnd
          txbuf := s.txbuf.writeRange 0 (frameImage data)
          pollCount := 1 } []))
    ∧ (s.cfg.dataReqForcesPllOn = true → s.goThrough (10 + ps.length) → s.pollsMatch 0 .txAretOn →
      s.pollsMatch 5 .pllOn →
      exec (.dataRequest data) s = .next (State.answeredOk
        { s.afterBus (10 + ps.length)
            (s.exchanges 0 (trxExchanges s.cfg .txAretOn ++ [regRead s.cfg s.cfg.map.irqStatus]
                ++ trxExchanges s.cfg .pllOn)
              ++ s.transfer 9 ps
              ++ s.transfer (9 + ps.length)
                  [stateWrite s.cfg s.cfg.map.cmdTxStart])
          with
          opState := .transmittingWaitEnd
          txbuf := s.txbuf.writeRange 0 (frameImage data)
          pollCount := 1 } []))

/-- R174: a DATA_REQUEST that passed its checks and did not complete OK (and was not left busy) completed with
`TransferFailed` or `ChipUnresponsive`, emitted `DataConfirm(Error)`, and left `opState` = Idle; one that completed
OK emitted nothing and left TransmittingWaitEnd. Where the chip never shows a state of the first `SetTrxState`, the
whole next state. -/
def Obligations.FailedDataRequestIsConfirmed : Prop :=
  ∀ (data : List Byte) (s : State), s.cfg.profile.bytewise = true → s.opState = .idle →
    data.length + 3 ≤ s.cfg.fbLimit →
    (∀ t, exec (.dataRequest data) s = .next t → s.uncutUntil t → t.busy = false →
      (t.result = 0x00#8 ∧ t.opState = .transmittingWaitEnd
        ∧ t.delivered = s.delivered ++ [{ result := 0x00#8, retdata := [], events := [] }])
      ∨ ((t.result = 0x01#8 ∨ t.result = 0x02#8) ∧ t.opState = .idle
        ∧ t.delivered = s.delivered ++
            [{ result := t.result, retdata := [], events := [.dataConfirm .error] }]))
    ∧ (s.cfg.valid = true → ∀ n,
      (s.neverOff 0 n → exec (.dataRequest data) s = .next ((s.afterNeverOff [] n).answered 0x02#8 []
        (some (s.offError 0 n)) [.dataConfirm .error]))
      ∧ (s.neverReaches 0 .txAretOn n → exec (.dataRequest data) s =
        .next ((s.afterNeverReaches .txAretOn n).answered 0x02#8 [] (some (s.reachError 0 .txAretOn n))
          [.dataConfirm .error])))

/-- TASK_HANDLER in Idle or TransmittingWaitEnd, the `TRX_END` bit read as 0: one transaction, `irqFlag` cleared at
the start, nothing else; and a failed IRQ status read completes with `TransferFailed` (R176). -/
def Obligations.TaskHandlerWithNothingCompleted : Prop :=
  ∀ s : State, s.cfg.valid = true → s.cfg.profile.bytewise = true →
    s.opState = .idle ∨ s.opState = .transmittingWaitEnd →
    (s.goThrough 1 → (s.secondByte 0).getLsbD s.cfg.map.trxEndBit = false →
      exec .taskHandler s = .next (State.answeredOk (State.afterBus { s with irqFlag := false } 1
        (s.transfer 0 [regRead s.cfg s.cfg.map.irqStatus])) []))
    ∧ (s.failsAt 0 →
      exec .taskHandler s = .next (State.answeredErr (State.afterBus { s with irqFlag := false } 1
        (s.brokenTransfer 0 [] (regRead s.cfg s.cfg.map.irqStatus))) (.transferFailed 0 0)))

/-- R178, TASK_HANDLER in TransmittingWaitEnd with `TRX_END` set: once the transaction status was read, `opState` is
Idle and exactly one `DataConfirm` with the mapped status is emitted, whatever the re-apply does, and the command
ends as the re-apply of the receive-state ends; a failed read leaves TransmittingWaitEnd and emits nothing; with
each poll matching at once, the whole next state. -/
def Obligations.TransmitDoneIsConfirmedOnce : Prop :=
  ∀ s : State, s.cfg.valid = true → s.cfg.profile.bytewise = true → s.opState = .transmittingWaitEnd →
    s.goThrough 1 → (s.secondByte 0).getLsbD s.cfg.map.trxEndBit = true →
    (s.goThrough 2 → exec .taskHandler s = .next (endsWith
      (setTrxState .transmitted
        { State.afterBus { accept (take .taskHandler s) with irqFlag := false } 2
            (s.exchanges 0 [regRead s.cfg s.cfg.map.irqStatus, regRead s.cfg s.cfg.map.trxState])
          with
          opState := .idle
          evq := [.dataConfirm (tracStatus s.cfg ((s.secondByte 1 >>> s.cfg.map.tracLo).setWidth 3))] }) none))
    ∧ (s.goThrough 2 → ∀ t, exec .taskHandler s = .next t → s.uncutUntil t →
      t.opState = .idle
      ∧ t.evq = [.dataConfirm (tracStatus s.cfg ((s.secondByte 1 >>> s.cfg.map.tracLo).setWidth 3))])
    ∧ (s.failsAt 1 →
      exec .taskHandler s = .next (State.answeredErr (State.afterBus { s with irqFlag := false } 2
        (s.exchanges 0 [regRead s.cfg s.cfg.map.irqStatus]
          ++ s.brokenTransfer 1 [] (regRead s.cfg s.cfg.map.trxState))) (.transferFailed 0 0)))
    ∧ (s.goThrough 6 → s.pollsMatch 2 (rxStateCmd s.cfg) →
      exec .taskHandler s = .next (State.answered
        { State.afterBus { s with irqFlag := false } 6
            (s.exchanges 0 ([regRead s.cfg s.cfg.map.irqStatus, regRead s.cfg s.cfg.map.trxState]
              ++ trxExchanges s.cfg (rxStateCmd s.cfg)))
          with
          opState := .idle
          pollCount := 1 }
        0x00#8 [] none
        [.dataConfirm (tracStatus s.cfg ((s.secondByte 1 >>> s.cfg.map.tracLo).setWidth 3))]))

/-- R177, TASK_HANDLER in Idle with `TRX_END` set and an accepted length byte L (the second byte of chunk 1): with
everything going through, the whole next state; once the frame and the energy level were read, the indication is
emitted whatever the re-apply does, and the command ends as the re-apply of the receive-state ends; a failed read
before that emits nothing. `opState` stays Idle. -/
def Obligations.ReceptionIsIndicatedOnce : Prop :=
  ∀ (s : State) (ps : List (List Byte)) (lqi : Byte), s.cfg.valid = true → s.cfg.profile.bytewise = true →
    s.opState = .idle → (s.secondByte 0).getLsbD s.cfg.map.trxEndBit = true →
    (s.secondByte 1).toNat ≤ s.cfg.maxPhr →
    IsChunking s.cfg.maxXfer (List.replicate ((s.secondByte 1).toNat + 1) 0x00#8) ps →
    (s.received 2 ps)[(s.secondByte 1).toNat]? = some lqi →
    (s.goThrough (3 + ps.length) → exec .taskHandler s = .next (endsWith
      (setTrxState .received
        { State.afterBus { accept (take .taskHandler s) with irqFlag := false } (3 + ps.length)
            (s.exchanges 0 [regRead s.cfg s.cfg.map.irqStatus]
              ++ s.transfer 1 ([s.cfg.profile.fbReadCmd, 0x00#8] :: ps)
              ++ s.exchanges (2 + ps.length) [regRead s.cfg s.cfg.map.phyEdLevel])
          with
          rxbuf := s.rxbuf.writeRange 0 (s.secondByte 1 :: s.received 2 ps)
          evq := [.dataIndication
            ((s.received 2 ps).take
              (if s.cfg.rxSizeExcludesFcs then (s.secondByte 1).toNat - 2 else (s.secondByte 1).toNat))
            (if s.cfg.rxSizeExcludesFcs then (s.secondByte 1).toNat - 2 else (s.secondByte 1).toNat)
            lqi (rssiOf s.cfg (s.secondByte (2 + ps.length)) s.modulation)] }) none))
    ∧ (∀ t, s.goThrough (3 + ps.length) → exec .taskHandler s = .next t → s.uncutUntil t →
      t.opState = .idle ∧ t.evq =
        [.dataIndication
          ((s.received 2 ps).take
            (if s.cfg.rxSizeExcludesFcs then (s.secondByte 1).toNat - 2 else (s.secondByte 1).toNat))
          (if s.cfg.rxSizeExcludesFcs then (s.secondByte 1).toNat - 2 else (s.secondByte 1).toNat)
          lqi (rssiOf s.cfg (s.secondByte (2 + ps.length)) s.modulation)])
    ∧ (∀ t k, k < 3 + ps.length → s.goThrough k → s.failsAt k → exec .taskHandler s = .next t →
      t.opState = .idle ∧ t.evq = [] ∧ t.result = 0x01#8)
    ∧ (s.goThrough (7 + ps.length) → s.pollsMatch (3 + ps.length) (rxStateCmd s.cfg) →
      exec .taskHandler s = .next (State.answered
        { State.afterBus { s with irqFlag := false } (7 + ps.length)
            (s.exchanges 0 [regRead s.cfg s.cfg.map.irqStatus]
              ++ s.transfer 1 ([s.cfg.profile.fbReadCmd, 0x00#8] :: ps)
              ++ s.exchanges (2 + ps.length) (regRead s.cfg s.cfg.map.phyEdLevel
                  :: trxExchanges s.cfg (rxStateCmd s.cfg)))
          with
          rxbuf := s.rxbuf.writeRange 0 (s.secondByte 1 :: s.received 2 ps)
          pollCount := 1 }
        0x00#8 [] none
        [.dataIndication
          ((s.received 2 ps).take
            (if s.cfg.rxSizeExcludesFcs then (s.secondByte 1).toNat - 2 else (s.secondByte 1).toNat))
          (if s.cfg.rxSizeExcludesFcs then (s.secondByte 1).toNat - 2 else (s.secondByte 1).toNat)
          lqi (rssiOf s.cfg (s.secondByte (2 + ps.length)) s.modulation)]))

/-- R180, TASK_HANDLER in Idle with `TRX_END` set and a length byte L above `MAX_PHR`: `SetTrxState(RX_STATE)` is
still performed, from the state after the header transaction; where it succeeds, at whatever poll, the command
completes with `FrameInvalid(L)`, and where it raises, with its error. Nothing is emitted and `opState` stays Idle.
With each poll matching at once, and with the first write failing, the whole next state. -/
def Obligations.InvalidLengthInTheReceivePath : Prop :=
  ∀ s : State, s.cfg.valid = true → s.cfg.profile.bytewise = true → s.opState = .idle → s.goThrough 2 →
    (s.secondByte 0).getLsbD s.cfg.map.trxEndBit = true → s.cfg.maxPhr < (s.secondByte 1).toNat →
    exec .taskHandler s = .next (endsWith
      (setTrxState (.receivedInvalid (s.secondByte 1))
        (State.afterBus { accept (take .taskHandler s) with irqFlag := false } 2
          (s.exchanges 0 [regRead s.cfg s.cfg.map.irqStatus]
            ++ s.transfer 1 [[s.cfg.profile.fbReadCmd, 0x00#8]])))
      (some (.frameInvalid (s.secondByte 1))))
    ∧ (s.goThrough 6 → s.pollsMatch 2 (rxStateCmd s.cfg) →
      exec .taskHandler s = .next (State.answeredErr
        { State.afterBus { s with irqFlag := false } 6
            (s.exchanges 0 [regRead s.cfg s.cfg.map.irqStatus]
              ++ s.transfer 1 [[s.cfg.profile.fbReadCmd, 0x00#8]]
              ++ s.exchanges 2 (trxExchanges s.cfg (rxStateCmd s.cfg)))
          with pollCount := 1 } (.frameInvalid (s.secondByte 1))))
    ∧ (s.failsAt 2 →
      exec .taskHandler s = .next (State.answeredErr
        (State.afterBus { s with irqFlag := false } 3
          (s.exchanges 0 [regRead s.cfg s.cfg.map.irqStatus]
            ++ s.transfer 1 [[s.cfg.profile.fbReadCmd, 0x00#8]]
            ++ s.brokenTransfer 2 [] (stateWrite s.cfg s.cfg.map.cmdForceTrxOff)))
        (.transferFailed 0 0)))
    ∧ ∀ t, exec .taskHandler s = .next t → s.uncutUntil t → t.opState = .idle ∧ t.evq = []

/-- R181: the `opState` transitions, and no others. An uncut run moves `opState` only as the table says, and by the
condition its row gives; every failure and every other command leaves it. -/
def Obligations.OperatingStateTransitions : Prop :=
  ∀ (i : Instr) (s t : State), exec i s = .next t → s.uncutUntil t →
    (i = .init → (s.completedOk t → s.opState = .initial ∧ t.opState = .idle)
      ∧ (¬ s.completedOk t → t.opState = s.opState))
    ∧ (i = .sleep → (s.completedOk t → (s.opState = .idle ∨ s.opState = .sleep) ∧ t.opState = .sleep)
      ∧ (¬ s.completedOk t → t.opState = s.opState))
    ∧ (i = .wakeup → (s.completedOk t → (s.opState = .idle ∨ s.opState = .sleep) ∧ t.opState = .idle)
      ∧ (¬ s.completedOk t → t.opState = s.opState))
    ∧ (∀ d, i = .dataRequest d → (s.completedOk t → s.opState = .idle ∧ t.opState = .transmittingWaitEnd)
      ∧ (¬ s.completedOk t → t.opState = s.opState))
    ∧ (i = .taskHandler → s.cfg.valid = true → s.cfg.profile.bytewise = true →
      (s.opState = .transmittingWaitEnd ∧ s.goThrough 2
          ∧ (s.secondByte 0).getLsbD s.cfg.map.trxEndBit = true → t.opState = .idle)
      ∧ (¬ (s.opState = .transmittingWaitEnd ∧ s.goThrough 2
          ∧ (s.secondByte 0).getLsbD s.cfg.map.trxEndBit = true) → t.opState = s.opState))
    ∧ ((i ∉ [.init, .sleep, .wakeup, .taskHandler] ∧ ∀ d, i ≠ .dataRequest d) → t.opState = s.opState)

/-! ### Received frames, statuses and RSSI -/

/-- R147: `size` is L, or max(L - 2, 0) where the FCS is excluded; `buffer` is the first `size` bytes after the length
byte, `lqi` the byte after the L frame bytes. -/
def Obligations.IndicationOfAReceivedFrame : Prop :=
  ∀ (c : Config) (len ed modulation : Byte) (frame : List Byte) (lqi : Byte), frame.length = len.toNat →
    indicationOf c { len := len, body := frame ++ [lqi] } ed modulation =
      (if c.rxSizeExcludesFcs then
        .dataIndication (frame.take (max (len.toNat - 2) 0)) (max (len.toNat - 2) 0) lqi (rssiOf c ed modulation)
      else .dataIndication frame len.toNat lqi (rssiOf c ed modulation))

/-- R179: the RSSI value is the exact sum of the unsigned energy level and the signed base; it lies from the base to
the base + 255. -/
def Obligations.RssiIsTheExactSum : Prop :=
  ∀ (c : Config) (ed modulation : Byte),
    (rssiOf c ed modulation).toInt = (ed.toNat : Int) + (rssiBaseOf c modulation).toInt
    ∧ (rssiBaseOf c modulation).toInt ≤ (rssiOf c ed modulation).toInt
    ∧ (rssiOf c ed modulation).toInt ≤ (rssiBaseOf c modulation).toInt + 255

/-- R216, R217: RSSI_BASE_VALUE in every `opState` and under every profile: one byte, the constant that the bits of
the cached modulation select, no bus traffic and no other effect; under the bit positions of R59 these are bits 3, 2
and 4. -/
def Obligations.RssiBaseValueIsPure : Prop :=
  ∀ s : State,
    exec .rssiBaseValue s = .next (s.answeredOk [rssiBaseOf s.cfg s.modulation])
    ∧ (s.cfg.map.fieldsAsR59 = true →
      (s.modulation.getLsbD 3 = false → s.modulation.getLsbD 2 = false →
        exec .rssiBaseValue s = .next (s.answeredOk [s.cfg.rssiBase.bpsk20]))
      ∧ (s.modulation.getLsbD 3 = false → s.modulation.getLsbD 2 = true →
        exec .rssiBaseValue s = .next (s.answeredOk [s.cfg.rssiBase.bpsk40]))
      ∧ (s.modulation.getLsbD 3 = true → s.modulation.getLsbD 2 = false →
        exec .rssiBaseValue s = .next (s.answeredOk [s.cfg.rssiBase.oqpskSub0]))
      ∧ (s.modulation.getLsbD 3 = true → s.modulation.getLsbD 2 = true → s.modulation.getLsbD 4 = false →
        exec .rssiBaseValue s = .next (s.answeredOk [s.cfg.rssiBase.oqpskSub1]))
      ∧ (s.modulation.getLsbD 3 = true → s.modulation.getLsbD 2 = true → s.modulation.getLsbD 4 = true →
        exec .rssiBaseValue s = .next (s.answeredOk [s.cfg.rssiBase.oqpskSub1Rc])))
    ∧ [Config.ref.rssiBase.bpsk20, Config.ref.rssiBase.bpsk40, Config.ref.rssiBase.oqpskSub0,
        Config.ref.rssiBase.oqpskSub1, Config.ref.rssiBase.oqpskSub1Rc].map BitVec.toInt
      = [-100, -99, -98, -97, -97]

/-- R89: the REF mapping of the transaction status, taken from bits [7:5]; under every mapping an unmapped code is
Error. -/
def Obligations.TransactionStatusMapping : Prop :=
  (∀ v : Byte,
    tracField Config.ref v = (v >>> 5).setWidth 3
    ∧ tracStatus Config.ref (tracField Config.ref v) =
      if (v >>> 5) = 0#8 then .success else if (v >>> 5) = 1#8 then .channelAccessFailure
      else if (v >>> 5) = 2#8 then .noAck else .error)
  ∧ ∀ (c : Config) (t : BitVec 3), c.tracMap.length ≤ t.toNat → tracStatus c t = .error

/-- The bytes the SRC writes, under the bit positions of R59: `TRX_CTRL_1`, `TRX_CTRL_2`, `PHY_CC_CCA`, `TRX_STATE`,
`CC_CTRL_1`, and the fields it reads. -/
def Obligations.RegisterFieldsOfTheChipMap : Prop :=
  ∀ (c : Config) (v : Byte), c.map.fieldsAsR59 = true →
    trxCtrl1Value c = 0x20#8 ||| (c.spiCmdModeSel.setWidth 8 <<< 2)
    ∧ trxCtrl2Value c v = 0x80#8 ||| (v &&& 0x7F#8)
    ∧ phyCcCcaValue c v = (c.ccaModeSel.setWidth 8 <<< 5) ||| (v &&& 0x1F#8)
    ∧ (∀ code : TrxCode, trxByte c code = code.setWidth 8) ∧ ccCtrl1Value c v = v
    ∧ statusField c v = v.extractLsb' 0 5 ∧ tracField c v = v.extractLsb' 5 3 ∧ trxEnd c v = v.getLsbD 3

/-! ### Configuration -/

/-- SET_CHANNEL after INIT, the write going through at the first attempt: the cache keeps all 8 bits, and one register
write carries the channel, chosen by the band as R204 says. The whole next state. -/
def Obligations.SetChannelWritesTheBandsRegister : Prop :=
  ∀ (ch : Byte) (s : State), s.cfg.valid = true → s.cfg.profile.bytewise = true → s.opState ≠ .initial →
    s.goThrough 1 →
    (s.band = 0x00#8 → exec (.setChannel ch) s = .next (State.answeredOk
      { s.afterBus 1 (s.transfer 0 [regWrite s.cfg s.cfg.map.phyCcCca (phyCcCcaValue s.cfg ch)]) with
        channel := ch
        retryCount := 0 } []))
    ∧ (s.band ≠ 0x00#8 → exec (.setChannel ch) s = .next (State.answeredOk
      { s.afterBus 1 (s.transfer 0 [regWrite s.cfg s.cfg.map.ccCtrl0 ch]) with
        channel := ch
        retryCount := 0 } []))

/-- SET_BAND after INIT with bits 7:3 clear, both writes going through at the first attempt: the band, then the
cached channel into the register the NEW band uses. The whole next state; and a set bit of 7:3 is refused first.
Which events a refused command's completion hands over is not said (log 9). -/
def Obligations.SetBandRewritesTheChannel : Prop :=
  ∀ (b : Byte) (s : State), s.cfg.valid = true → s.cfg.profile.bytewise = true →
    (8 ≤ b.toNat → refusedBy (.setBand b) s (.invalidArgument b))
    ∧ (b.toNat < 8 → s.opState ≠ .initial → s.goThrough 2 →
      (b = 0x00#8 → exec (.setBand b) s = .next (State.answeredOk
        { s.afterBus 2 (s.exchanges 0 [regWrite s.cfg s.cfg.map.ccCtrl1 (b <<< s.cfg.map.bandLo),
            regWrite s.cfg s.cfg.map.phyCcCca (phyCcCcaValue s.cfg s.channel)]) with
          band := b
          retryCount := 0 } []))
      ∧ (b ≠ 0x00#8 → exec (.setBand b) s = .next (State.answeredOk
        { s.afterBus 2 (s.exchanges 0 [regWrite s.cfg s.cfg.map.ccCtrl1 (b <<< s.cfg.map.bandLo),
            regWrite s.cfg s.cfg.map.ccCtrl0 s.channel]) with
          band := b
          retryCount := 0 } [])))

/-- SET_MODULATION and SET_TX_POWER after INIT, the write going through at the first attempt: the whole next state. -/
def Obligations.SetModulationAndPowerWriteThrough : Prop :=
  ∀ (v : Byte) (s : State), s.cfg.valid = true → s.cfg.profile.bytewise = true → s.opState ≠ .initial →
    s.goThrough 1 →
    exec (.setModulation v) s = .next (State.answeredOk
      { s.afterBus 1 (s.transfer 0 [regWrite s.cfg s.cfg.map.trxCtrl2 (trxCtrl2Value s.cfg v)]) with
        modulation := v
        retryCount := 0 } [])
    ∧ exec (.setTxPower v) s = .next (State.answeredOk
      { s.afterBus 1 (s.transfer 0 [regWrite s.cfg s.cfg.map.phyTxPwr v]) with
        txPower := v
        retryCount := 0 } [])

/-- SET_PAN_ID and SET_SHORT_ADDRESS after INIT, the writes going through at the first attempt: the low byte, the high
byte, and the CSMA seed, the sum modulo 256 of the two bytes of the short address (R211), which for SET_PAN_ID is the
cached one. The whole next state. -/
def Obligations.AddressCommandsWriteTheSeed : Prop :=
  ∀ (v : Half) (s : State), s.cfg.valid = true → s.cfg.profile.bytewise = true → s.opState ≠ .initial →
    s.goThrough 3 →
    exec (.setPanId v) s = .next (State.answeredOk
      { s.afterBus 3 (s.exchanges 0 [regWrite s.cfg s.cfg.map.panId0 (lowByte v),
          regWrite s.cfg s.cfg.map.panId1 (highByte v),
          regWrite s.cfg s.cfg.map.csmaSeed0
            (BitVec.ofNat 8 ((s.shortAddr.toNat % 256 + s.shortAddr.toNat / 256) % 256))]) with
        panId := v
        retryCount := 0 } [])
    ∧ exec (.setShortAddress v) s = .next (State.answeredOk
      { s.afterBus 3 (s.exchanges 0 [regWrite s.cfg s.cfg.map.shortAddr0 (lowByte v),
          regWrite s.cfg s.cfg.map.shortAddr1 (highByte v),
          regWrite s.cfg s.cfg.map.csmaSeed0
            (BitVec.ofNat 8 ((v.toNat % 256 + v.toNat / 256) % 256))]) with
        shortAddr := v
        retryCount := 0 } [])

/-- R218: `CfgWrite` itself, as INIT and the configuration commands use it, and seen through the configuration
commands of one register write w: with m failed attempts, m at most
`CFG_RETRY_MAX`, and then one that goes through, the command completes OK after m + 1 identical transactions; with
1 + `CFG_RETRY_MAX` failed attempts it completes with `TransferFailed`, the cache keeping the new value. No command
outside INIT and the configuration commands counts a retry. -/
def Obligations.ConfigurationWriteIsRetried : Prop :=
  (∀ (a : RegAddr) (v : Byte) (s : State), s.cfg.valid = true → s.cfg.profile.bytewise = true →
    (∀ m, m ≤ s.cfg.cfgRetryMax → (∀ k, k < m → s.failsAt k) →
      (s.drawAt m).ok = true → (s.drawAt m).cut = none →
      cfgWrite a v s = .ok ()
        { s.afterBus (m + 1)
            ((List.replicate m (s.brokenTransfer 0 [] (regWrite s.cfg a v))).flatten
              ++ s.transfer m [regWrite s.cfg a v]) with
          retryCount := m })
    ∧ ((∀ k, k ≤ s.cfg.cfgRetryMax → s.failsAt k) →
      cfgWrite a v s = .error (.raised (.transferFailed 0 0))
        { s.afterBus (s.cfg.cfgRetryMax + 1)
            (List.replicate (s.cfg.cfgRetryMax + 1) (s.brokenTransfer 0 [] (regWrite s.cfg a v))).flatten with
          retryCount := s.cfg.cfgRetryMax + 1 }))
  ∧ (∀ (i : Instr) (w : List Byte) (s : State), s.cfg.valid = true → s.cfg.profile.bytewise = true →
    s.opState ≠ .initial → isConfiguration i = true → configWrites s i = [w] →
    (∀ m, m ≤ s.cfg.cfgRetryMax → (∀ k, k < m → s.failsAt k) →
      (s.drawAt m).ok = true → (s.drawAt m).cut = none →
      exec i s = .next (State.answeredOk
        { State.afterBus (withCache s i) (m + 1)
            ((List.replicate m (s.brokenTransfer 0 [] w)).flatten ++ s.transfer m [w]) with
          retryCount := m } []))
    ∧ ((∀ k, k ≤ s.cfg.cfgRetryMax → s.failsAt k) →
      exec i s = .next (State.answeredErr
        { State.afterBus (withCache s i) (s.cfg.cfgRetryMax + 1)
            (List.replicate (s.cfg.cfgRetryMax + 1) (s.brokenTransfer 0 [] w)).flatten with
          retryCount := s.cfg.cfgRetryMax + 1 } (.transferFailed 0 0))))
  ∧ ∀ (i : Instr) (s t : State), usesCfgWrite i = false → exec i s = .next t → s.uncutUntil t →
    t.retryCount = s.retryCount

/-- R202: whatever the chip answers, a configuration command that passed its checks has written its cache field and
no other; its register writes stand on the bus in the order its rule lists them, each repeated 1 to
1 + `CFG_RETRY_MAX` times; it completes OK when all are done, or else with `TransferFailed` after the last allowed
attempt of the one that failed, the later ones not written. -/
def Obligations.ConfigurationIsWrittenThroughInOrder : Prop :=
  ∀ (i : Instr) (s t : State), s.cfg.valid = true → s.cfg.profile.bytewise = true → s.opState ≠ .initial →
    isConfiguration i = true → badArgument i = none → exec i s = .next t → s.uncutUntil t →
    t.channel = (withCache s i).channel ∧ t.band = (withCache s i).band
    ∧ t.modulation = (withCache s i).modulation ∧ t.panId = (withCache s i).panId
    ∧ t.shortAddr = (withCache s i).shortAddr ∧ t.txPower = (withCache s i).txPower
    ∧ ∃ (ns : List Nat) (es : List BusEvent), t.trace = s.trace ++ es
      ∧ ns.length ≤ (configWrites s i).length ∧ (∀ n ∈ ns, 1 ≤ n ∧ n ≤ 1 + s.cfg.cfgRetryMax)
      ∧ chunksSent es = (List.zipWith (fun n w => List.replicate n w) ns (configWrites s i)).flatten
      ∧ ((ns.length = (configWrites s i).length
          ∧ t.delivered = s.delivered ++ [{ result := 0x00#8, retdata := [], events := [] }])
         ∨ (ns.getLast? = some (1 + s.cfg.cfgRetryMax)
          ∧ t.delivered = s.delivered ++ [{ result := 0x01#8, retdata := [], events := [] }]))

/-! ### Completion, events and frames -/

/-- Every instruction, from every state, answers a next state; and unless SRC reset cut it or it was left busy, it
completes exactly once, with a code of R230, the host getting `result`, `retdata` and the events it emitted (none if
a check refused it, log 9), nothing returned with an error, and the sequencer free. Under a valid parameter set with
a finite `POLL_LIMIT` nothing is left busy. For the SPI and `TRX_CMD` rows, which are no commands of the host, that
they run alone and complete is the model's choice (log 11, log 12). -/
def Obligations.EveryCommandCompletesOnce : Prop :=
  ∀ (i : Instr) (s : State), ∃ t, exec i s = .next t
    ∧ (s.cfg.valid = true → s.cfg.pollLimit ≠ none → t.busy = false)
    ∧ (s.uncutUntil t → t.busy = false →
      t.delivered = s.delivered ++
        [(⟨t.result, t.retdata, if precheck s.cfg i s.opState = none then t.evq else []⟩ : Completion)]
      ∧ t.seq = none ∧ t.result.toNat ≤ 8 ∧ (t.result ≠ 0x00#8 → t.retdata = [])
      ∧ (t.info = none → t.result = 0x00#8) ∧ ∀ e, t.info = some e → t.result = e.code ∧ t.result ≠ 0x00#8)
    ∧ (s.uncutUntil t → t.busy = true →
      t.delivered = s.delivered ∧ t.result = s.result ∧ t.retdata = s.retdata
      ∧ ∃ call phase, t.seq = some { cmd := i, step := .waiting call phase } ∧ call.command = i)

/-- R33: `evq` is emptied when a command is accepted, that is when it has passed its checks (R15), and delivered with
its completion; only DATA_REQUEST and TASK_HANDLER emit, and no command emits more than one event; after reset it is
empty. A command that a check refuses is not accepted and leaves it as it was (R233). -/
def Obligations.OnlyTwoCommandsEmitEvents : Prop :=
  (∀ c : Config, (State.boot c).evq = [])
  ∧ ∀ (i : Instr) (s t : State), exec i s = .next t → s.uncutUntil t →
    (precheck s.cfg i s.opState = none →
      t.evq.length ≤ 1
      ∧ (i ≠ .taskHandler → (∀ d, i ≠ .dataRequest d) → t.evq = [])
      ∧ (t.busy = false → ∃ x, t.delivered = s.delivered ++ [x] ∧ x.events = t.evq))
    ∧ (precheck s.cfg i s.opState ≠ none → t.evq = s.evq)

/-- The frame of every instruction, whatever the chip answers: each cache field changes only under its own command
(and `txPower` under INIT); the parameters, SLP_TR and what is presented next never change; RST is driven only in
INIT, no other instruction putting an RST event on the trace (R32), and ends deasserted; the poll and retry counts
change only under the commands that poll and retry; the trace only grows; the answers are used in order, and INIT's,
the configuration commands' and RSSI_BASE_VALUE's `opState` is as `OperatingStateTransitions` says. -/
def Obligations.CacheAndPinsFrame : Prop :=
  ∀ (i : Instr) (s t : State), exec i s = .next t → s.uncutUntil t →
    ((∀ ch, i ≠ .setChannel ch) → t.channel = s.channel)
    ∧ ((∀ b, i ≠ .setBand b) → t.band = s.band)
    ∧ ((∀ m, i ≠ .setModulation m) → t.modulation = s.modulation)
    ∧ ((∀ p, i ≠ .setPanId p) → t.panId = s.panId)
    ∧ ((∀ a, i ≠ .setShortAddress a) → t.shortAddr = s.shortAddr)
    ∧ ((∀ p, i ≠ .setTxPower p) → i ≠ .init → t.txPower = s.txPower)
    ∧ t.cfg = s.cfg ∧ t.port = s.port ∧ t.slpTr = s.slpTr
    ∧ (i ≠ .init → t.rst = s.rst) ∧ (t.rst = s.rst ∨ t.rst = .deasserted)
    ∧ (usesWaitState i = false → t.pollCount = s.pollCount)
    ∧ (usesCfgWrite i = false → t.retryCount = s.retryCount)
    ∧ s.draws ≤ t.draws ∧ t.chip = s.chip.drop (t.draws - s.draws)
    ∧ ∃ es, t.trace = s.trace ++ es ∧ ∀ l, .rst l ∈ es → i = .init

/-! ### INIT's retries, and waits that go on -/

/-- INIT in Initial, whatever the chip answers: it completes OK, with `TransferFailed` or with `ChipUnresponsive`;
each of its three configuration writes is sent at most 1 + `CFG_RETRY_MAX` times; any other failed chunk, so any of
`SetTrxState`, is not retried and is the last. The whole next state where its first chunk fails (M3), where the chip
is never seen off, and where the first configuration write fails at every attempt (M4). The register addresses of
the chip map are assumed different where chunks are counted. -/
def Obligations.InitRetriesOnlyItsConfigurationWrites : Prop :=
  ∀ s : State, s.cfg.valid = true → s.cfg.profile.bytewise = true → s.opState = .initial →
    (s.failsAt 0 → exec .init s = .next (State.answeredErr
      { s.afterBus 1 ([.rst .asserted, .rst .deasserted]
          ++ s.brokenTransfer 0 [] (stateWrite s.cfg s.cfg.map.cmdForceTrxOff)) with
        rst := .deasserted } (.transferFailed 0 0)))
    ∧ (∀ n, s.neverOff 0 n → exec .init s = .next (State.answeredErr
      { s.afterNeverOff [.rst .asserted, .rst .deasserted] n with rst := .deasserted } (s.offError 0 n)))
    ∧ (s.goThrough 2 → s.pollsMatch 0 .forceTrxOff → (∀ k, k ≤ s.cfg.cfgRetryMax → s.failsAt (2 + k)) →
      exec .init s = .next (State.answeredErr
        { s.afterBus (2 + (s.cfg.cfgRetryMax + 1))
            ([.rst .asserted, .rst .deasserted] ++ s.exchanges 0 (trxExchanges s.cfg .forceTrxOff)
              ++ (List.replicate (s.cfg.cfgRetryMax + 1) (s.brokenTransfer 0 []
                (regWrite s.cfg s.cfg.map.trxCtrl1 (trxCtrl1Value s.cfg)))).flatten) with
          rst := .deasserted
          pollCount := 1
          retryCount := s.cfg.cfgRetryMax + 1 } (.transferFailed 0 0)))
    ∧ ∀ (t : State) (es : List BusEvent), s.cfg.map.addrsDistinct = true → exec .init s = .next t →
      s.uncutUntil t → t.trace = s.trace ++ es →
      (t.busy = false → t.result = 0x00#8 ∧ t.opState = .idle
        ∨ (t.result = 0x01#8 ∨ t.result = 0x02#8) ∧ t.opState = .initial)
      ∧ (∀ w ∈ initWrites s, (chunksSent es).count w ≤ 1 + s.cfg.cfgRetryMax)
      ∧ ∀ before tx rest, es = before ++ .chunk tx [] false :: rest → tx ∉ initWrites s →
        rest = [.cs .deasserted] ∧ t.result = 0x01#8

/-- R276, R161, R30, under `POLL_LIMIT` = INF: a command that a model step leaves in a wait goes on where it stood. If
every answer a has been used when the command is left busy, then going on with further answers b leaves what the
command would have left, had it had a and b at once. A step while it waits that reads no match leaves it at the same
place, the reads counted; for SLEEP, a step whose p-th read is the first that matches completes the command. How many
reads one step makes is the model's choice (log 6). -/
def Obligations.WaitGoesOnWhereItStood : Prop :=
  (∀ (i : Instr) (s t : State) (a b : List Draw), s.cfg.valid = true →
    exec i { s with chip := a } = .next t → t.busy = true → t.draws = s.draws + a.length → b ≠ [] →
    continueCommand { t with chip := b } = exec i { s with chip := a ++ b })
  ∧ ∀ (s : State), s.cfg.valid = true → s.cfg.profile.bytewise = true → s.cfg.pollLimit = none →
    s.busy = true → (s.port = [] ∨ ∃ e rest, s.port = .word e :: rest) →
    (∀ i call phase, s.seq = some { cmd := i, step := .waiting call phase } →
      s.goThrough (max s.chip.length 1) →
      (∀ k, k < max s.chip.length 1 → s.polled k ≠ awaitedIn s.cfg call phase) →
      step s = .next
        { s.afterBus (max s.chip.length 1)
            (s.exchanges 0 (List.replicate (max s.chip.length 1) (regRead s.cfg s.cfg.map.trxStatus))) with
          pollCount := s.pollCount + max s.chip.length 1 })
    ∧ ∀ p, s.seq = some { cmd := .sleep, step := .waiting .sleepOff .forcedOff } →
      1 ≤ p → p ≤ max s.chip.length 1 → s.goThrough p →
      (∀ k, k + 1 < p → s.polled k ≠ s.cfg.map.stTrxOff) → s.polled (p - 1) = s.cfg.map.stTrxOff →
      step s = .next (State.answered
        { s.afterBus p (s.exchanges 0 (List.replicate p (regRead s.cfg s.cfg.map.trxStatus))) with
          opState := .sleep
          pollCount := s.pollCount + p } 0x00#8 [] none s.evq)
end

