-- ==== Sys2Proof/Laws/State.lean ====
section
/-! SUPPORT. One lemma per field per named update of State: what the update makes of the field. -/

namespace Sys2Proof.Machine

/-! ### State.log -/

@[simp] theorem log_opState (s : State) (e : BusEvent) :
    (s.log e).opState = s.opState := rfl
@[simp] theorem log_channel (s : State) (e : BusEvent) :
    (s.log e).channel = s.channel := rfl
@[simp] theorem log_band (s : State) (e : BusEvent) :
    (s.log e).band = s.band := rfl
@[simp] theorem log_modulation (s : State) (e : BusEvent) :
    (s.log e).modulation = s.modulation := rfl
@[simp] theorem log_panId (s : State) (e : BusEvent) :
    (s.log e).panId = s.panId := rfl
@[simp] theorem log_shortAddr (s : State) (e : BusEvent) :
    (s.log e).shortAddr = s.shortAddr := rfl
@[simp] theorem log_txPower (s : State) (e : BusEvent) :
    (s.log e).txPower = s.txPower := rfl
@[simp] theorem log_txbuf (s : State) (e : BusEvent) :
    (s.log e).txbuf = s.txbuf := rfl
@[simp] theorem log_rxbuf (s : State) (e : BusEvent) :
    (s.log e).rxbuf = s.rxbuf := rfl
@[simp] theorem log_busy (s : State) (e : BusEvent) :
    (s.log e).busy = s.busy := rfl
@[simp] theorem log_irqFlag (s : State) (e : BusEvent) :
    (s.log e).irqFlag = s.irqFlag := rfl
@[simp] theorem log_result (s : State) (e : BusEvent) :
    (s.log e).result = s.result := rfl
@[simp] theorem log_retdata (s : State) (e : BusEvent) :
    (s.log e).retdata = s.retdata := rfl
@[simp] theorem log_evq (s : State) (e : BusEvent) :
    (s.log e).evq = s.evq := rfl
@[simp] theorem log_seq (s : State) (e : BusEvent) :
    (s.log e).seq = s.seq := rfl
@[simp] theorem log_cs (s : State) (e : BusEvent) :
    (s.log e).cs = s.cs := rfl
@[simp] theorem log_pollCount (s : State) (e : BusEvent) :
    (s.log e).pollCount = s.pollCount := rfl
@[simp] theorem log_retryCount (s : State) (e : BusEvent) :
    (s.log e).retryCount = s.retryCount := rfl
@[simp] theorem log_rst (s : State) (e : BusEvent) :
    (s.log e).rst = s.rst := rfl
@[simp] theorem log_slpTr (s : State) (e : BusEvent) :
    (s.log e).slpTr = s.slpTr := rfl
@[simp] theorem log_cfg (s : State) (e : BusEvent) :
    (s.log e).cfg = s.cfg := rfl
@[simp] theorem log_info (s : State) (e : BusEvent) :
    (s.log e).info = s.info := rfl
@[simp] theorem log_trace (s : State) (e : BusEvent) :
    (s.log e).trace = s.trace ++ [e] := rfl
@[simp] theorem log_delivered (s : State) (e : BusEvent) :
    (s.log e).delivered = s.delivered := rfl
@[simp] theorem log_port (s : State) (e : BusEvent) :
    (s.log e).port = s.port := rfl
@[simp] theorem log_chip (s : State) (e : BusEvent) :
    (s.log e).chip = s.chip := rfl
@[simp] theorem log_draws (s : State) (e : BusEvent) :
    (s.log e).draws = s.draws := rfl

/-! ### State.takeDraw -/

@[simp] theorem takeDraw_opState (s : State) :
    s.takeDraw.opState = s.opState := rfl
@[simp] theorem takeDraw_channel (s : State) :
    s.takeDraw.channel = s.channel := rfl
@[simp] theorem takeDraw_band (s : State) :
    s.takeDraw.band = s.band := rfl
@[simp] theorem takeDraw_modulation (s : State) :
    s.takeDraw.modulation = s.modulation := rfl
@[simp] theorem takeDraw_panId (s : State) :
    s.takeDraw.panId = s.panId := rfl
@[simp] theorem takeDraw_shortAddr (s : State) :
    s.takeDraw.shortAddr = s.shortAddr := rfl
@[simp] theorem takeDraw_txPower (s : State) :
    s.takeDraw.txPower = s.txPower := rfl
@[simp] theorem takeDraw_txbuf (s : State) :
    s.takeDraw.txbuf = s.txbuf := rfl
@[simp] theorem takeDraw_rxbuf (s : State) :
    s.takeDraw.rxbuf = s.rxbuf := rfl
@[simp] theorem takeDraw_busy (s : State) :
    s.takeDraw.busy = s.busy := rfl
@[simp] theorem takeDraw_irqFlag (s : State) :
    s.takeDraw.irqFlag = s.irqFlag := rfl
@[simp] theorem takeDraw_result (s : State) :
    s.takeDraw.result = s.result := rfl
@[simp] theorem takeDraw_retdata (s : State) :
    s.takeDraw.retdata = s.retdata := rfl
@[simp] theorem takeDraw_evq (s : State) :
    s.takeDraw.evq = s.evq := rfl
@[simp] theorem takeDraw_seq (s : State) :
    s.takeDraw.seq = s.seq := rfl
@[simp] theorem takeDraw_cs (s : State) :
    s.takeDraw.cs = s.cs := rfl
@[simp] theorem takeDraw_pollCount (s : State) :
    s.takeDraw.pollCount = s.pollCount := rfl
@[simp] theorem takeDraw_retryCount (s : State) :
    s.takeDraw.retryCount = s.retryCount := rfl
@[simp] theorem takeDraw_rst (s : State) :
    s.takeDraw.rst = s.rst := rfl
@[simp] theorem takeDraw_slpTr (s : State) :
    s.takeDraw.slpTr = s.slpTr := rfl
@[simp] theorem takeDraw_cfg (s : State) :
    s.takeDraw.cfg = s.cfg := rfl
@[simp] theorem takeDraw_info (s : State) :
    s.takeDraw.info = s.info := rfl
@[simp] theorem takeDraw_trace (s : State) :
    s.takeDraw.trace = s.trace := rfl
@[simp] theorem takeDraw_delivered (s : State) :
    s.takeDraw.delivered = s.delivered := rfl
@[simp] theorem takeDraw_port (s : State) :
    s.takeDraw.port = s.port := rfl
@[simp] theorem takeDraw_chip (s : State) :
    s.takeDraw.chip = s.chip.drop 1 := rfl
@[simp] theorem takeDraw_draws (s : State) :
    s.takeDraw.draws = s.draws + 1 := rfl

/-! ### State.afterChunk -/

@[simp] theorem afterChunk_opState (s : State) (tx : List Byte) :
    (s.afterChunk tx).opState = s.opState := rfl
@[simp] theorem afterChunk_channel (s : State) (tx : List Byte) :
    (s.afterChunk tx).channel = s.channel := rfl
@[simp] theorem afterChunk_band (s : State) (tx : List Byte) :
    (s.afterChunk tx).band = s.band := rfl
@[simp] theorem afterChunk_modulation (s : State) (tx : List Byte) :
    (s.afterChunk tx).modulation = s.modulation := rfl
@[simp] theorem afterChunk_panId (s : State) (tx : List Byte) :
    (s.afterChunk tx).panId = s.panId := rfl
@[simp] theorem afterChunk_shortAddr (s : State) (tx : List Byte) :
    (s.afterChunk tx).shortAddr = s.shortAddr := rfl
@[simp] theorem afterChunk_txPower (s : State) (tx : List Byte) :
    (s.afterChunk tx).txPower = s.txPower := rfl
@[simp] theorem afterChunk_txbuf (s : State) (tx : List Byte) :
    (s.afterChunk tx).txbuf = s.txbuf := rfl
@[simp] theorem afterChunk_rxbuf (s : State) (tx : List Byte) :
    (s.afterChunk tx).rxbuf = s.rxbuf := rfl
@[simp] theorem afterChunk_busy (s : State) (tx : List Byte) :
    (s.afterChunk tx).busy = s.busy := rfl
@[simp] theorem afterChunk_irqFlag (s : State) (tx : List Byte) :
    (s.afterChunk tx).irqFlag = (s.irqFlag || (s.drawAt 0).irq) := rfl
@[simp] theorem afterChunk_result (s : State) (tx : List Byte) :
    (s.afterChunk tx).result = s.result := rfl
@[simp] theorem afterChunk_retdata (s : State) (tx : List Byte) :
    (s.afterChunk tx).retdata = s.retdata := rfl
@[simp] theorem afterChunk_evq (s : State) (tx : List Byte) :
    (s.afterChunk tx).evq = s.evq := rfl
@[simp] theorem afterChunk_seq (s : State) (tx : List Byte) :
    (s.afterChunk tx).seq = s.seq := rfl
@[simp] theorem afterChunk_cs (s : State) (tx : List Byte) :
    (s.afterChunk tx).cs = s.cs := rfl
@[simp] theorem afterChunk_pollCount (s : State) (tx : List Byte) :
    (s.afterChunk tx).pollCount = s.pollCount := rfl
@[simp] theorem afterChunk_retryCount (s : State) (tx : List Byte) :
    (s.afterChunk tx).retryCount = s.retryCount := rfl
@[simp] theorem afterChunk_rst (s : State) (tx : List Byte) :
    (s.afterChunk tx).rst = s.rst := rfl
@[simp] theorem afterChunk_slpTr (s : State) (tx : List Byte) :
    (s.afterChunk tx).slpTr = s.slpTr := rfl
@[simp] theorem afterChunk_cfg (s : State) (tx : List Byte) :
    (s.afterChunk tx).cfg = s.cfg := rfl
@[simp] theorem afterChunk_info (s : State) (tx : List Byte) :
    (s.afterChunk tx).info = s.info := rfl
@[simp] theorem afterChunk_trace (s : State) (tx : List Byte) :
    (s.afterChunk tx).trace = s.trace ++ [.chunk tx (if (s.drawAt 0).ok then s.rxAt 0 tx.length else []) (s.drawAt 0).ok] := rfl
@[simp] theorem afterChunk_delivered (s : State) (tx : List Byte) :
    (s.afterChunk tx).delivered = s.delivered := rfl
@[simp] theorem afterChunk_port (s : State) (tx : List Byte) :
    (s.afterChunk tx).port = s.port := rfl
@[simp] theorem afterChunk_chip (s : State) (tx : List Byte) :
    (s.afterChunk tx).chip = s.chip.drop 1 := rfl
@[simp] theorem afterChunk_draws (s : State) (tx : List Byte) :
    (s.afterChunk tx).draws = s.draws + 1 := rfl

/-! ### irqEdge -/

@[simp] theorem irqEdge_opState (s : State) :
    (irqEdge s).opState = s.opState := rfl
@[simp] theorem irqEdge_channel (s : State) :
    (irqEdge s).channel = s.channel := rfl
@[simp] theorem irqEdge_band (s : State) :
    (irqEdge s).band = s.band := rfl
@[simp] theorem irqEdge_modulation (s : State) :
    (irqEdge s).modulation = s.modulation := rfl
@[simp] theorem irqEdge_panId (s : State) :
    (irqEdge s).panId = s.panId := rfl
@[simp] theorem irqEdge_shortAddr (s : State) :
    (irqEdge s).shortAddr = s.shortAddr := rfl
@[simp] theorem irqEdge_txPower (s : State) :
    (irqEdge s).txPower = s.txPower := rfl
@[simp] theorem irqEdge_txbuf (s : State) :
    (irqEdge s).txbuf = s.txbuf := rfl
@[simp] theorem irqEdge_rxbuf (s : State) :
    (irqEdge s).rxbuf = s.rxbuf := rfl
@[simp] theorem irqEdge_busy (s : State) :
    (irqEdge s).busy = s.busy := rfl
@[simp] theorem irqEdge_irqFlag (s : State) :
    (irqEdge s).irqFlag = true := rfl
@[simp] theorem irqEdge_result (s : State) :
    (irqEdge s).result = s.result := rfl
@[simp] theorem irqEdge_retdata (s : State) :
    (irqEdge s).retdata = s.retdata := rfl
@[simp] theorem irqEdge_evq (s : State) :
    (irqEdge s).evq = s.evq := rfl
@[simp] theorem irqEdge_seq (s : State) :
    (irqEdge s).seq = s.seq := rfl
@[simp] theorem irqEdge_cs (s : State) :
    (irqEdge s).cs = s.cs := rfl
@[simp] theorem irqEdge_pollCount (s : State) :
    (irqEdge s).pollCount = s.pollCount := rfl
@[simp] theorem irqEdge_retryCount (s : State) :
    (irqEdge s).retryCount = s.retryCount := rfl
@[simp] theorem irqEdge_rst (s : State) :
    (irqEdge s).rst = s.rst := rfl
@[simp] theorem irqEdge_slpTr (s : State) :
    (irqEdge s).slpTr = s.slpTr := rfl
@[simp] theorem irqEdge_cfg (s : State) :
    (irqEdge s).cfg = s.cfg := rfl
@[simp] theorem irqEdge_info (s : State) :
    (irqEdge s).info = s.info := rfl
@[simp] theorem irqEdge_trace (s : State) :
    (irqEdge s).trace = s.trace := rfl
@[simp] theorem irqEdge_delivered (s : State) :
    (irqEdge s).delivered = s.delivered := rfl
@[simp] theorem irqEdge_port (s : State) :
    (irqEdge s).port = s.port := rfl
@[simp] theorem irqEdge_chip (s : State) :
    (irqEdge s).chip = s.chip := rfl
@[simp] theorem irqEdge_draws (s : State) :
    (irqEdge s).draws = s.draws := rfl

/-! ### take -/

@[simp] theorem take_opState (i : Instr) (s : State) :
    (take i s).opState = s.opState := rfl
@[simp] theorem take_channel (i : Instr) (s : State) :
    (take i s).channel = s.channel := rfl
@[simp] theorem take_band (i : Instr) (s : State) :
    (take i s).band = s.band := rfl
@[simp] theorem take_modulation (i : Instr) (s : State) :
    (take i s).modulation = s.modulation := rfl
@[simp] theorem take_panId (i : Instr) (s : State) :
    (take i s).panId = s.panId := rfl
@[simp] theorem take_shortAddr (i : Instr) (s : State) :
    (take i s).shortAddr = s.shortAddr := rfl
@[simp] theorem take_txPower (i : Instr) (s : State) :
    (take i s).txPower = s.txPower := rfl
@[simp] theorem take_txbuf (i : Instr) (s : State) :
    (take i s).txbuf = s.txbuf := rfl
@[simp] theorem take_rxbuf (i : Instr) (s : State) :
    (take i s).rxbuf = s.rxbuf := rfl
@[simp] theorem take_busy (i : Instr) (s : State) :
    (take i s).busy = true := rfl
@[simp] theorem take_irqFlag (i : Instr) (s : State) :
    (take i s).irqFlag = s.irqFlag := rfl
@[simp] theorem take_result (i : Instr) (s : State) :
    (take i s).result = s.result := rfl
@[simp] theorem take_retdata (i : Instr) (s : State) :
    (take i s).retdata = s.retdata := rfl
@[simp] theorem take_evq (i : Instr) (s : State) :
    (take i s).evq = s.evq := rfl
@[simp] theorem take_seq (i : Instr) (s : State) :
    (take i s).seq = some { cmd := i, step := .start } := rfl
@[simp] theorem take_cs (i : Instr) (s : State) :
    (take i s).cs = s.cs := rfl
@[simp] theorem take_pollCount (i : Instr) (s : State) :
    (take i s).pollCount = s.pollCount := rfl
@[simp] theorem take_retryCount (i : Instr) (s : State) :
    (take i s).retryCount = s.retryCount := rfl
@[simp] theorem take_rst (i : Instr) (s : State) :
    (take i s).rst = s.rst := rfl
@[simp] theorem take_slpTr (i : Instr) (s : State) :
    (take i s).slpTr = s.slpTr := rfl
@[simp] theorem take_cfg (i : Instr) (s : State) :
    (take i s).cfg = s.cfg := rfl
@[simp] theorem take_info (i : Instr) (s : State) :
    (take i s).info = s.info := rfl
@[simp] theorem take_trace (i : Instr) (s : State) :
    (take i s).trace = s.trace := rfl
@[simp] theorem take_delivered (i : Instr) (s : State) :
    (take i s).delivered = s.delivered := rfl
@[simp] theorem take_port (i : Instr) (s : State) :
    (take i s).port = s.port := rfl
@[simp] theorem take_chip (i : Instr) (s : State) :
    (take i s).chip = s.chip := rfl
@[simp] theorem take_draws (i : Instr) (s : State) :
    (take i s).draws = s.draws := rfl

/-! ### accept -/

@[simp] theorem accept_opState (s : State) :
    (accept s).opState = s.opState := rfl
@[simp] theorem accept_channel (s : State) :
    (accept s).channel = s.channel := rfl
@[simp] theorem accept_band (s : State) :
    (accept s).band = s.band := rfl
@[simp] theorem accept_modulation (s : State) :
    (accept s).modulation = s.modulation := rfl
@[simp] theorem accept_panId (s : State) :
    (accept s).panId = s.panId := rfl
@[simp] theorem accept_shortAddr (s : State) :
    (accept s).shortAddr = s.shortAddr := rfl
@[simp] theorem accept_txPower (s : State) :
    (accept s).txPower = s.txPower := rfl
@[simp] theorem accept_txbuf (s : State) :
    (accept s).txbuf = s.txbuf := rfl
@[simp] theorem accept_rxbuf (s : State) :
    (accept s).rxbuf = s.rxbuf := rfl
@[simp] theorem accept_busy (s : State) :
    (accept s).busy = s.busy := rfl
@[simp] theorem accept_irqFlag (s : State) :
    (accept s).irqFlag = s.irqFlag := rfl
@[simp] theorem accept_result (s : State) :
    (accept s).result = s.result := rfl
@[simp] theorem accept_retdata (s : State) :
    (accept s).retdata = s.retdata := rfl
@[simp] theorem accept_evq (s : State) :
    (accept s).evq = [] := rfl
@[simp] theorem accept_seq (s : State) :
    (accept s).seq = s.seq := rfl
@[simp] theorem accept_cs (s : State) :
    (accept s).cs = s.cs := rfl
@[simp] theorem accept_pollCount (s : State) :
    (accept s).pollCount = s.pollCount := rfl
@[simp] theorem accept_retryCount (s : State) :
    (accept s).retryCount = s.retryCount := rfl
@[simp] theorem accept_rst (s : State) :
    (accept s).rst = s.rst := rfl
@[simp] theorem accept_slpTr (s : State) :
    (accept s).slpTr = s.slpTr := rfl
@[simp] theorem accept_cfg (s : State) :
    (accept s).cfg = s.cfg := rfl
@[simp] theorem accept_info (s : State) :
    (accept s).info = s.info := rfl
@[simp] theorem accept_trace (s : State) :
    (accept s).trace = s.trace := rfl
@[simp] theorem accept_delivered (s : State) :
    (accept s).delivered = s.delivered := rfl
@[simp] theorem accept_port (s : State) :
    (accept s).port = s.port := rfl
@[simp] theorem accept_chip (s : State) :
    (accept s).chip = s.chip := rfl
@[simp] theorem accept_draws (s : State) :
    (accept s).draws = s.draws := rfl

/-! ### complete -/

@[simp] theorem complete_opState (r : Byte) (d : List Byte) (e : Option Err) (s : State) :
    (complete r d e s).opState = s.opState := rfl
@[simp] theorem complete_channel (r : Byte) (d : List Byte) (e : Option Err) (s : State) :
    (complete r d e s).channel = s.channel := rfl
@[simp] theorem complete_band (r : Byte) (d : List Byte) (e : Option Err) (s : State) :
    (complete r d e s).band = s.band := rfl
@[simp] theorem complete_modulation (r : Byte) (d : List Byte) (e : Option Err) (s : State) :
    (complete r d e s).modulation = s.modulation := rfl
@[simp] theorem complete_panId (r : Byte) (d : List Byte) (e : Option Err) (s : State) :
    (complete r d e s).panId = s.panId := rfl
@[simp] theorem complete_shortAddr (r : Byte) (d : List Byte) (e : Option Err) (s : State) :
    (complete r d e s).shortAddr = s.shortAddr := rfl
@[simp] theorem complete_txPower (r : Byte) (d : List Byte) (e : Option Err) (s : State) :
    (complete r d e s).txPower = s.txPower := rfl
@[simp] theorem complete_txbuf (r : Byte) (d : List Byte) (e : Option Err) (s : State) :
    (complete r d e s).txbuf = s.txbuf := rfl
@[simp] theorem complete_rxbuf (r : Byte) (d : List Byte) (e : Option Err) (s : State) :
    (complete r d e s).rxbuf = s.rxbuf := rfl
@[simp] theorem complete_busy (r : Byte) (d : List Byte) (e : Option Err) (s : State) :
    (complete r d e s).busy = false := rfl
@[simp] theorem complete_irqFlag (r : Byte) (d : List Byte) (e : Option Err) (s : State) :
    (complete r d e s).irqFlag = s.irqFlag := rfl
@[simp] theorem complete_result (r : Byte) (d : List Byte) (e : Option Err) (s : State) :
    (complete r d e s).result = r := rfl
@[simp] theorem complete_retdata (r : Byte) (d : List Byte) (e : Option Err) (s : State) :
    (complete r d e s).retdata = d := rfl
@[simp] theorem complete_evq (r : Byte) (d : List Byte) (e : Option Err) (s : State) :
    (complete r d e s).evq = s.evq := rfl
@[simp] theorem complete_seq (r : Byte) (d : List Byte) (e : Option Err) (s : State) :
    (complete r d e s).seq = none := rfl
@[simp] theorem complete_cs (r : Byte) (d : List Byte) (e : Option Err) (s : State) :
    (complete r d e s).cs = s.cs := rfl
@[simp] theorem complete_pollCount (r : Byte) (d : List Byte) (e : Option Err) (s : State) :
    (complete r d e s).pollCount = s.pollCount := rfl
@[simp] theorem complete_retryCount (r : Byte) (d : List Byte) (e : Option Err) (s : State) :
    (complete r d e s).retryCount = s.retryCount := rfl
@[simp] theorem complete_rst (r : Byte) (d : List Byte) (e : Option Err) (s : State) :
    (complete r d e s).rst = s.rst := rfl
@[simp] theorem complete_slpTr (r : Byte) (d : List Byte) (e : Option Err) (s : State) :
    (complete r d e s).slpTr = s.slpTr := rfl
@[simp] theorem complete_cfg (r : Byte) (d : List Byte) (e : Option Err) (s : State) :
    (complete r d e s).cfg = s.cfg := rfl
@[simp] theorem complete_info (r : Byte) (d : List Byte) (e : Option Err) (s : State) :
    (complete r d e s).info = e := rfl
@[simp] theorem complete_trace (r : Byte) (d : List Byte) (e : Option Err) (s : State) :
    (complete r d e s).trace = s.trace := rfl
@[simp] theorem complete_delivered (r : Byte) (d : List Byte) (e : Option Err) (s : State) :
    (complete r d e s).delivered = s.delivered ++ [{ result := r, retdata := d, events := s.evq }] := rfl
@[simp] theorem complete_port (r : Byte) (d : List Byte) (e : Option Err) (s : State) :
    (complete r d e s).port = s.port := rfl
@[simp] theorem complete_chip (r : Byte) (d : List Byte) (e : Option Err) (s : State) :
    (complete r d e s).chip = s.chip := rfl
@[simp] theorem complete_draws (r : Byte) (d : List Byte) (e : Option Err) (s : State) :
    (complete r d e s).draws = s.draws := rfl

/-! ### State.afterBus -/

@[simp] theorem afterBus_opState (s : State) (n : Nat) (evs : List BusEvent) :
    (s.afterBus n evs).opState = s.opState := rfl
@[simp] theorem afterBus_channel (s : State) (n : Nat) (evs : List BusEvent) :
    (s.afterBus n evs).channel = s.channel := rfl
@[simp] theorem afterBus_band (s : State) (n : Nat) (evs : List BusEvent) :
    (s.afterBus n evs).band = s.band := rfl
@[simp] theorem afterBus_modulation (s : State) (n : Nat) (evs : List BusEvent) :
    (s.afterBus n evs).modulation = s.modulation := rfl
@[simp] theorem afterBus_panId (s : State) (n : Nat) (evs : List BusEvent) :
    (s.afterBus n evs).panId = s.panId := rfl
@[simp] theorem afterBus_shortAddr (s : State) (n : Nat) (evs : List BusEvent) :
    (s.afterBus n evs).shortAddr = s.shortAddr := rfl
@[simp] theorem afterBus_txPower (s : State) (n : Nat) (evs : List BusEvent) :
    (s.afterBus n evs).txPower = s.txPower := rfl
@[simp] theorem afterBus_txbuf (s : State) (n : Nat) (evs : List BusEvent) :
    (s.afterBus n evs).txbuf = s.txbuf := rfl
@[simp] theorem afterBus_rxbuf (s : State) (n : Nat) (evs : List BusEvent) :
    (s.afterBus n evs).rxbuf = s.rxbuf := rfl
@[simp] theorem afterBus_busy (s : State) (n : Nat) (evs : List BusEvent) :
    (s.afterBus n evs).busy = s.busy := rfl
@[simp] theorem afterBus_irqFlag (s : State) (n : Nat) (evs : List BusEvent) :
    (s.afterBus n evs).irqFlag = (s.irqFlag || s.edgeWithin n) := rfl
@[simp] theorem afterBus_result (s : State) (n : Nat) (evs : List BusEvent) :
    (s.afterBus n evs).result = s.result := rfl
@[simp] theorem afterBus_retdata (s : State) (n : Nat) (evs : List BusEvent) :
    (s.afterBus n evs).retdata = s.retdata := rfl
@[simp] theorem afterBus_evq (s : State) (n : Nat) (evs : List BusEvent) :
    (s.afterBus n evs).evq = s.evq := rfl
@[simp] theorem afterBus_seq (s : State) (n : Nat) (evs : List BusEvent) :
    (s.afterBus n evs).seq = s.seq := rfl
@[simp] theorem afterBus_cs (s : State) (n : Nat) (evs : List BusEvent) :
    (s.afterBus n evs).cs = .deasserted := rfl
@[simp] theorem afterBus_pollCount (s : State) (n : Nat) (evs : List BusEvent) :
    (s.afterBus n evs).pollCount = s.pollCount := rfl
@[simp] theorem afterBus_retryCount (s : State) (n : Nat) (evs : List BusEvent) :
    (s.afterBus n evs).retryCount = s.retryCount := rfl
@[simp] theorem afterBus_rst (s : State) (n : Nat) (evs : List BusEvent) :
    (s.afterBus n evs).rst = s.rst := rfl
@[simp] theorem afterBus_slpTr (s : State) (n : Nat) (evs : List BusEvent) :
    (s.afterBus n evs).slpTr = s.slpTr := rfl
@[simp] theorem afterBus_cfg (s : State) (n : Nat) (evs : List BusEvent) :
    (s.afterBus n evs).cfg = s.cfg := rfl
@[simp] theorem afterBus_info (s : State) (n : Nat) (evs : List BusEvent) :
    (s.afterBus n evs).info = s.info := rfl
@[simp] theorem afterBus_trace (s : State) (n : Nat) (evs : List BusEvent) :
    (s.afterBus n evs).trace = s.trace ++ evs := rfl
@[simp] theorem afterBus_delivered (s : State) (n : Nat) (evs : List BusEvent) :
    (s.afterBus n evs).delivered = s.delivered := rfl
@[simp] theorem afterBus_port (s : State) (n : Nat) (evs : List BusEvent) :
    (s.afterBus n evs).port = s.port := rfl
@[simp] theorem afterBus_chip (s : State) (n : Nat) (evs : List BusEvent) :
    (s.afterBus n evs).chip = s.chip.drop n := rfl
@[simp] theorem afterBus_draws (s : State) (n : Nat) (evs : List BusEvent) :
    (s.afterBus n evs).draws = s.draws + n := rfl

/-! ### State.answered -/

@[simp] theorem answered_opState (s : State) (r : Byte) (d : List Byte) (e : Option Err) (evs : List Event) :
    (s.answered r d e evs).opState = s.opState := rfl
@[simp] theorem answered_channel (s : State) (r : Byte) (d : List Byte) (e : Option Err) (evs : List Event) :
    (s.answered r d e evs).channel = s.channel := rfl
@[simp] theorem answered_band (s : State) (r : Byte) (d : List Byte) (e : Option Err) (evs : List Event) :
    (s.answered r d e evs).band = s.band := rfl
@[simp] theorem answered_modulation (s : State) (r : Byte) (d : List Byte) (e : Option Err) (evs : List Event) :
    (s.answered r d e evs).modulation = s.modulation := rfl
@[simp] theorem answered_panId (s : State) (r : Byte) (d : List Byte) (e : Option Err) (evs : List Event) :
    (s.answered r d e evs).panId = s.panId := rfl
@[simp] theorem answered_shortAddr (s : State) (r : Byte) (d : List Byte) (e : Option Err) (evs : List Event) :
    (s.answered r d e evs).shortAddr = s.shortAddr := rfl
@[simp] theorem answered_txPower (s : State) (r : Byte) (d : List Byte) (e : Option Err) (evs : List Event) :
    (s.answered r d e evs).txPower = s.txPower := rfl
@[simp] theorem answered_txbuf (s : State) (r : Byte) (d : List Byte) (e : Option Err) (evs : List Event) :
    (s.answered r d e evs).txbuf = s.txbuf := rfl
@[simp] theorem answered_rxbuf (s : State) (r : Byte) (d : List Byte) (e : Option Err) (evs : List Event) :
    (s.answered r d e evs).rxbuf = s.rxbuf := rfl
@[simp] theorem answered_busy (s : State) (r : Byte) (d : List Byte) (e : Option Err) (evs : List Event) :
    (s.answered r d e evs).busy = false := rfl
@[simp] theorem answered_irqFlag (s : State) (r : Byte) (d : List Byte) (e : Option Err) (evs : List Event) :
    (s.answered r d e evs).irqFlag = s.irqFlag := rfl
@[simp] theorem answered_result (s : State) (r : Byte) (d : List Byte) (e : Option Err) (evs : List Event) :
    (s.answered r d e evs).result = r := rfl
@[simp] theorem answered_retdata (s : State) (r : Byte) (d : List Byte) (e : Option Err) (evs : List Event) :
    (s.answered r d e evs).retdata = d := rfl
@[simp] theorem answered_evq (s : State) (r : Byte) (d : List Byte) (e : Option Err) (evs : List Event) :
    (s.answered r d e evs).evq = evs := rfl
@[simp] theorem answered_seq (s : State) (r : Byte) (d : List Byte) (e : Option Err) (evs : List Event) :
    (s.answered r d e evs).seq = none := rfl
@[simp] theorem answered_cs (s : State) (r : Byte) (d : List Byte) (e : Option Err) (evs : List Event) :
    (s.answered r d e evs).cs = s.cs := rfl
@[simp] theorem answered_pollCount (s : State) (r : Byte) (d : List Byte) (e : Option Err) (evs : List Event) :
    (s.answered r d e evs).pollCount = s.pollCount := rfl
@[simp] theorem answered_retryCount (s : State) (r : Byte) (d : List Byte) (e : Option Err) (evs : List Event) :
    (s.answered r d e evs).retryCount = s.retryCount := rfl
@[simp] theorem answered_rst (s : State) (r : Byte) (d : List Byte) (e : Option Err) (evs : List Event) :
    (s.answered r d e evs).rst = s.rst := rfl
@[simp] theorem answered_slpTr (s : State) (r : Byte) (d : List Byte) (e : Option Err) (evs : List Event) :
    (s.answered r d e evs).slpTr = s.slpTr := rfl
@[simp] theorem answered_cfg (s : State) (r : Byte) (d : List Byte) (e : Option Err) (evs : List Event) :
    (s.answered r d e evs).cfg = s.cfg := rfl
@[simp] theorem answered_info (s : State) (r : Byte) (d : List Byte) (e : Option Err) (evs : List Event) :
    (s.answered r d e evs).info = e := rfl
@[simp] theorem answered_trace (s : State) (r : Byte) (d : List Byte) (e : Option Err) (evs : List Event) :
    (s.answered r d e evs).trace = s.trace := rfl
@[simp] theorem answered_delivered (s : State) (r : Byte) (d : List Byte) (e : Option Err) (evs : List Event) :
    (s.answered r d e evs).delivered = s.delivered ++ [{ result := r, retdata := d, events := evs }] := rfl
@[simp] theorem answered_port (s : State) (r : Byte) (d : List Byte) (e : Option Err) (evs : List Event) :
    (s.answered r d e evs).port = s.port := rfl
@[simp] theorem answered_chip (s : State) (r : Byte) (d : List Byte) (e : Option Err) (evs : List Event) :
    (s.answered r d e evs).chip = s.chip := rfl
@[simp] theorem answered_draws (s : State) (r : Byte) (d : List Byte) (e : Option Err) (evs : List Event) :
    (s.answered r d e evs).draws = s.draws := rfl

/-! ### refuse -/

@[simp] theorem refuse_opState (e : Err) (s : State) :
    (refuse e s).opState = s.opState := rfl
@[simp] theorem refuse_channel (e : Err) (s : State) :
    (refuse e s).channel = s.channel := rfl
@[simp] theorem refuse_band (e : Err) (s : State) :
    (refuse e s).band = s.band := rfl
@[simp] theorem refuse_modulation (e : Err) (s : State) :
    (refuse e s).modulation = s.modulation := rfl
@[simp] theorem refuse_panId (e : Err) (s : State) :
    (refuse e s).panId = s.panId := rfl
@[simp] theorem refuse_shortAddr (e : Err) (s : State) :
    (refuse e s).shortAddr = s.shortAddr := rfl
@[simp] theorem refuse_txPower (e : Err) (s : State) :
    (refuse e s).txPower = s.txPower := rfl
@[simp] theorem refuse_txbuf (e : Err) (s : State) :
    (refuse e s).txbuf = s.txbuf := rfl
@[simp] theorem refuse_rxbuf (e : Err) (s : State) :
    (refuse e s).rxbuf = s.rxbuf := rfl
@[simp] theorem refuse_busy (e : Err) (s : State) :
    (refuse e s).busy = false := rfl
@[simp] theorem refuse_irqFlag (e : Err) (s : State) :
    (refuse e s).irqFlag = s.irqFlag := rfl
@[simp] theorem refuse_result (e : Err) (s : State) :
    (refuse e s).result = e.code := rfl
@[simp] theorem refuse_retdata (e : Err) (s : State) :
    (refuse e s).retdata = [] := rfl
@[simp] theorem refuse_evq (e : Err) (s : State) :
    (refuse e s).evq = s.evq := rfl
@[simp] theorem refuse_seq (e : Err) (s : State) :
    (refuse e s).seq = none := rfl
@[simp] theorem refuse_cs (e : Err) (s : State) :
    (refuse e s).cs = s.cs := rfl
@[simp] theorem refuse_pollCount (e : Err) (s : State) :
    (refuse e s).pollCount = s.pollCount := rfl
@[simp] theorem refuse_retryCount (e : Err) (s : State) :
    (refuse e s).retryCount = s.retryCount := rfl
@[simp] theorem refuse_rst (e : Err) (s : State) :
    (refuse e s).rst = s.rst := rfl
@[simp] theorem refuse_slpTr (e : Err) (s : State) :
    (refuse e s).slpTr = s.slpTr := rfl
@[simp] theorem refuse_cfg (e : Err) (s : State) :
    (refuse e s).cfg = s.cfg := rfl
@[simp] theorem refuse_info (e : Err) (s : State) :
    (refuse e s).info = some e := rfl
@[simp] theorem refuse_trace (e : Err) (s : State) :
    (refuse e s).trace = s.trace := rfl
@[simp] theorem refuse_delivered (e : Err) (s : State) :
    (refuse e s).delivered = s.delivered ++ [{ result := e.code, retdata := [], events := [] }] := rfl
@[simp] theorem refuse_port (e : Err) (s : State) :
    (refuse e s).port = s.port := rfl
@[simp] theorem refuse_chip (e : Err) (s : State) :
    (refuse e s).chip = s.chip := rfl
@[simp] theorem refuse_draws (e : Err) (s : State) :
    (refuse e s).draws = s.draws := rfl

/-! ### State.refused -/

@[simp] theorem refused_opState (s : State) (e : Err) (evs : List Event) :
    (s.refused e evs).opState = s.opState := rfl
@[simp] theorem refused_channel (s : State) (e : Err) (evs : List Event) :
    (s.refused e evs).channel = s.channel := rfl
@[simp] theorem refused_band (s : State) (e : Err) (evs : List Event) :
    (s.refused e evs).band = s.band := rfl
@[simp] theorem refused_modulation (s : State) (e : Err) (evs : List Event) :
    (s.refused e evs).modulation = s.modulation := rfl
@[simp] theorem refused_panId (s : State) (e : Err) (evs : List Event) :
    (s.refused e evs).panId = s.panId := rfl
@[simp] theorem refused_shortAddr (s : State) (e : Err) (evs : List Event) :
    (s.refused e evs).shortAddr = s.shortAddr := rfl
@[simp] theorem refused_txPower (s : State) (e : Err) (evs : List Event) :
    (s.refused e evs).txPower = s.txPower := rfl
@[simp] theorem refused_txbuf (s : State) (e : Err) (evs : List Event) :
    (s.refused e evs).txbuf = s.txbuf := rfl
@[simp] theorem refused_rxbuf (s : State) (e : Err) (evs : List Event) :
    (s.refused e evs).rxbuf = s.rxbuf := rfl
@[simp] theorem refused_busy (s : State) (e : Err) (evs : List Event) :
    (s.refused e evs).busy = false := rfl
@[simp] theorem refused_irqFlag (s : State) (e : Err) (evs : List Event) :
    (s.refused e evs).irqFlag = s.irqFlag := rfl
@[simp] theorem refused_result (s : State) (e : Err) (evs : List Event) :
    (s.refused e evs).result = e.code := rfl
@[simp] theorem refused_retdata (s : State) (e : Err) (evs : List Event) :
    (s.refused e evs).retdata = [] := rfl
@[simp] theorem refused_evq (s : State) (e : Err) (evs : List Event) :
    (s.refused e evs).evq = s.evq := rfl
@[simp] theorem refused_seq (s : State) (e : Err) (evs : List Event) :
    (s.refused e evs).seq = none := rfl
@[simp] theorem refused_cs (s : State) (e : Err) (evs : List Event) :
    (s.refused e evs).cs = s.cs := rfl
@[simp] theorem refused_pollCount (s : State) (e : Err) (evs : List Event) :
    (s.refused e evs).pollCount = s.pollCount := rfl
@[simp] theorem refused_retryCount (s : State) (e : Err) (evs : List Event) :
    (s.refused e evs).retryCount = s.retryCount := rfl
@[simp] theorem refused_rst (s : State) (e : Err) (evs : List Event) :
    (s.refused e evs).rst = s.rst := rfl
@[simp] theorem refused_slpTr (s : State) (e : Err) (evs : List Event) :
    (s.refused e evs).slpTr = s.slpTr := rfl
@[simp] theorem refused_cfg (s : State) (e : Err) (evs : List Event) :
    (s.refused e evs).cfg = s.cfg := rfl
@[simp] theorem refused_info (s : State) (e : Err) (evs : List Event) :
    (s.refused e evs).info = some e := rfl
@[simp] theorem refused_trace (s : State) (e : Err) (evs : List Event) :
    (s.refused e evs).trace = s.trace := rfl
@[simp] theorem refused_delivered (s : State) (e : Err) (evs : List Event) :
    (s.refused e evs).delivered = s.delivered ++ [{ result := e.code, retdata := [], events := evs }] := rfl
@[simp] theorem refused_port (s : State) (e : Err) (evs : List Event) :
    (s.refused e evs).port = s.port := rfl
@[simp] theorem refused_chip (s : State) (e : Err) (evs : List Event) :
    (s.refused e evs).chip = s.chip := rfl
@[simp] theorem refused_draws (s : State) (e : Err) (evs : List Event) :
    (s.refused e evs).draws = s.draws := rfl

/-! ### srcReset -/

@[simp] theorem srcReset_opState (s : State) : (srcReset s).opState = .initial := rfl
@[simp] theorem srcReset_channel (s : State) : (srcReset s).channel = s.cfg.cfgReset.channel := rfl
@[simp] theorem srcReset_band (s : State) : (srcReset s).band = s.cfg.cfgReset.band := rfl
@[simp] theorem srcReset_modulation (s : State) : (srcReset s).modulation = s.cfg.cfgReset.modulation := rfl
@[simp] theorem srcReset_panId (s : State) : (srcReset s).panId = s.cfg.cfgReset.panId := rfl
@[simp] theorem srcReset_shortAddr (s : State) : (srcReset s).shortAddr = s.cfg.cfgReset.shortAddr := rfl
@[simp] theorem srcReset_txPower (s : State) : (srcReset s).txPower = s.cfg.defaultTxPower := rfl
@[simp] theorem srcReset_txbuf (s : State) : (srcReset s).txbuf = [] := rfl
@[simp] theorem srcReset_rxbuf (s : State) : (srcReset s).rxbuf = [] := rfl
@[simp] theorem srcReset_busy (s : State) : (srcReset s).busy = false := rfl
@[simp] theorem srcReset_irqFlag (s : State) : (srcReset s).irqFlag = false := rfl
@[simp] theorem srcReset_result (s : State) : (srcReset s).result = 0x00#8 := rfl
@[simp] theorem srcReset_retdata (s : State) : (srcReset s).retdata = [] := rfl
@[simp] theorem srcReset_evq (s : State) : (srcReset s).evq = [] := rfl
@[simp] theorem srcReset_seq (s : State) : (srcReset s).seq = none := rfl
@[simp] theorem srcReset_cs (s : State) : (srcReset s).cs = .deasserted := rfl
@[simp] theorem srcReset_pollCount (s : State) : (srcReset s).pollCount = 0 := rfl
@[simp] theorem srcReset_retryCount (s : State) : (srcReset s).retryCount = 0 := rfl
@[simp] theorem srcReset_rst (s : State) : (srcReset s).rst = .deasserted := rfl
@[simp] theorem srcReset_slpTr (s : State) : (srcReset s).slpTr = .deasserted := rfl
@[simp] theorem srcReset_cfg (s : State) : (srcReset s).cfg = s.cfg := rfl
@[simp] theorem srcReset_info (s : State) : (srcReset s).info = none := rfl
@[simp] theorem srcReset_trace (s : State) : (srcReset s).trace = s.trace ++ resetEdges s := rfl
@[simp] theorem srcReset_delivered (s : State) : (srcReset s).delivered = s.delivered := rfl
@[simp] theorem srcReset_port (s : State) : (srcReset s).port = s.port := rfl
@[simp] theorem srcReset_chip (s : State) : (srcReset s).chip = s.chip := rfl
@[simp] theorem srcReset_draws (s : State) : (srcReset s).draws = s.draws := rfl

/-! ### An edge before a completion (R239) -/

@[simp] theorem thenEdge_next (t : State) : thenEdge (.next t) = .next (irqEdge t) := rfl

/-- An outcome with an edge is a next state exactly where the outcome is. -/
theorem thenEdge_eq_next {o : Host.Outcome State Fault Refusal} {t : State} :
    thenEdge o = .next t ↔ ∃ u, o = .next u ∧ t = irqEdge u := by
  cases o <;> simp [thenEdge, eq_comm]

/-! ### Construction (R82) -/

theorem construct_valid {c : Config} (h : c.valid = true) : State.construct c = some (State.boot c) := by
  simp [State.construct, h]

theorem construct_invalid {c : Config} (h : c.valid = false) : State.construct c = none := by
  simp [State.construct, h]

/-- The machine right after reset is what constructing an SRC with the reference parameters gives. -/
theorem construct_ref : State.construct Config.ref = some State.reset := construct_valid (by decide)

/-! ### Answers after an update -/

/-- The answers seen from a state depend on `chip` and `draws` alone. -/
theorem drawAt_congr {s t : State} (hc : t.chip = s.chip) (hd : t.draws = s.draws) (k : Nat) :
    t.drawAt k = s.drawAt k := by
  simp [State.drawAt, hc, hd]

theorem rxAt_congr {s t : State} (hc : t.chip = s.chip) (hd : t.draws = s.draws) (k n : Nat) :
    t.rxAt k n = s.rxAt k n := by
  simp [State.rxAt, drawAt_congr hc hd, hd]

/-- Taking n answers makes the (n + k)-th answer the k-th. -/
theorem drawAt_drop {s t : State} {n : Nat} (hc : t.chip = s.chip.drop n)
    (hd : t.draws = s.draws + n) (k : Nat) : t.drawAt k = s.drawAt (n + k) := by
  simp [State.drawAt, hc, hd, Nat.add_assoc]

theorem rxAt_drop {s t : State} {n : Nat} (hc : t.chip = s.chip.drop n)
    (hd : t.draws = s.draws + n) (k m : Nat) : t.rxAt k m = s.rxAt (n + k) m := by
  simp [State.rxAt, drawAt_drop hc hd, hd, Nat.add_assoc]

/-- A received list is as long as what was sent. -/
@[simp] theorem rxAt_length (s : State) (k n : Nat) : (s.rxAt k n).length = n := by
  simp [State.rxAt]

/-- The value byte of a two-byte exchange is the second byte received. -/
theorem byteAt_rxAt_one (s : State) (k : Nat) : byteAt (s.rxAt k 2) 1 = s.secondByte k := rfl

end Sys2Proof.Machine
end

