-- ==== Sys2Proof/Laws/Seq.lean ====
section
/-! SUPPORT. The sequencer's pieces: what each primitive answers, and how a sequence of two answers, so
that no later proof unfolds them. -/

namespace Sys2Proof.Machine

@[simp] theorem pure_run {α : Type} (a : α) (s : State) : (pure a : Seq α) s = .ok a s := rfl

/-- A sequence of two pieces. -/
theorem bind_run {α β : Type} (m : Seq α) (f : α → Seq β) (s : State) :
    (m >>= f) s = match m s with
      | .ok a s' => f a s'
      | .error e s' => .error e s' := by
  change EStateM.bind m f s = _
  unfold EStateM.bind
  split <;> simp_all

theorem bind_ok {α β : Type} {m : Seq α} {f : α → Seq β} {s s' : State} {a : α}
    (h : m s = .ok a s') : (m >>= f) s = f a s' := by
  rw [bind_run, h]

theorem bind_error {α β : Type} {m : Seq α} {f : α → Seq β} {s s' : State} {e : Abort}
    (h : m s = .error e s') : (m >>= f) s = .error e s' := by
  rw [bind_run, h]

@[simp] theorem config_run (s : State) : config s = .ok s.cfg s := rfl

@[simp] theorem current_run (s : State) : current s = .ok s s := rfl

@[simp] theorem config_bind {β : Type} (f : Config → Seq β) (s : State) :
    (config >>= f) s = f s.cfg s := rfl

@[simp] theorem current_bind {β : Type} (f : State → Seq β) (s : State) :
    (current >>= f) s = f s s := rfl

@[simp] theorem update_run (g : State → State) (s : State) : update g s = .ok () (g s) := rfl

@[simp] theorem update_bind {β : Type} (g : State → State) (f : Unit → Seq β) (s : State) :
    (update g >>= f) s = f () (g s) := rfl

@[simp] theorem pure_bind_run {α β : Type} (a : α) (f : α → Seq β) (s : State) :
    ((pure a : Seq α) >>= f) s = f a s := rfl

@[simp] theorem raise_run {α : Type} (e : Err) (s : State) :
    (raise e : Seq α) s = .error (.raised e) s := rfl

@[simp] theorem raise_bind {α β : Type} (e : Err) (f : α → Seq β) (s : State) :
    ((raise e : Seq α) >>= f) s = .error (.raised e) s := rfl

theorem attempt_ok {α : Type} {m : Seq α} {s s' : State} {a : α} (h : m s = .ok a s') :
    attempt m s = .ok (.ok a) s' := by
  simp [attempt, h]

theorem attempt_raised {α : Type} {m : Seq α} {s s' : State} {e : Err}
    (h : m s = .error (.raised e) s') : attempt m s = .ok (.error e) s' := by
  simp [attempt, h]

theorem attempt_stopped {α : Type} {m : Seq α} {s s' : State}
    (h : m s = .error .stopped s') : attempt m s = .error .stopped s' := by
  simp [attempt, h]

@[simp] theorem requireBytewise_ok {s : State} (h : s.cfg.profile.bytewise = true) :
    requireBytewise s = .ok () s := by
  simp [requireBytewise, h]

theorem requireBytewise_refused {s : State} (h : s.cfg.profile.bytewise = false) :
    requireBytewise s = .error (.raised (.unsupportedProfile s.cfg.profile)) s := by
  simp [requireBytewise, h]

/-- A command that the legality table runs, or makes a no-op, passes that check (R234). -/
theorem requireState_ok {i : Instr} {s : State} (h : legality i s.opState ≠ .refuse) :
    requireState i s = .ok () s := by
  simp only [requireState, current_bind]
  cases hl : legality i s.opState with
  | run => rfl
  | noop => rfl
  | refuse => exact absurd hl h

theorem requireState_refused {i : Instr} {s : State} (h : legality i s.opState = .refuse) :
    requireState i s = .error (.raised (.invalidState s.opState)) s := by
  simp [requireState, h]

theorem requireArg_ok (arg : Byte) (s : State) : requireArg true arg s = .ok () s := rfl

theorem requireArg_refused (arg : Byte) (s : State) :
    requireArg false arg s = .error (.raised (.invalidArgument arg)) s := rfl

theorem requireFrameFits_ok {f : List Byte} {s : State} (h : frameFits s.cfg f = true) :
    requireFrameFits f s = .ok () s := by
  simp [requireFrameFits, h]

theorem requireFrameFits_refused {f : List Byte} {s : State} (h : frameFits s.cfg f = false) :
    requireFrameFits f s = .error (.raised (.frameTooLong f.length)) s := by
  simp [requireFrameFits, h]

/-! ### Whole commands -/

/-- A command whose checks pass runs its pseudocode, accepted (R15, R233). -/
theorem command_accepted {i : Instr} {checks : Seq Unit} {body : Seq (List Byte)} {s : State}
    (h : checks (take i s) = .ok () (take i s)) :
    command i checks body s = .next (finish (body (accept (take i s)))) := by
  simp [command, h]

/-- A command that a check refuses completes with the error alone, and hands over no event (R233). -/
theorem command_refused {i : Instr} {checks : Seq Unit} {body : Seq (List Byte)} {s : State} {e : Err}
    (h : checks (take i s) = .error (.raised e) (take i s)) :
    command i checks body s = .next (s.refused e []) := by
  simp only [command, h]
  rfl

/-- A command whose pseudocode ends OK completes OK. -/
@[simp] theorem finish_ok (ret : List Byte) (t : State) :
    finish (.ok ret t) = complete okCode ret none t := rfl

/-- A command whose pseudocode raises completes with the error. -/
@[simp] theorem finish_raised (e : Err) (t : State) :
    finish (.error (.raised e) t) = complete e.code [] (some e) t := rfl

/-- A command that SRC reset, or a wait without a bound, keeps from completing leaves the state as it stood. -/
@[simp] theorem finish_stopped (t : State) : finish (.error .stopped t) = t := rfl

end Sys2Proof.Machine
end

