-- ==== Sys2Proof/Laws/Transport.lean ====
section
/-! SUPPORT. The chunk engine and the register accesses: how a segment is split (spec R121), and what each
answers where its chunks go through, from which every command's success is assembled. -/

namespace Sys2Proof.Machine

/-! ### Splitting into chunks -/

theorem splitChunks_flatten {m : Nat} (hm : 1 ≤ m) (fuel : Nat) (tx : List Byte)
    (h : tx.length ≤ fuel) : (splitChunks m fuel tx).flatten = tx := by
  induction fuel generalizing tx with
  | zero =>
    rw [List.length_eq_zero_iff.1 (Nat.le_zero.1 h)]
    rfl
  | succ n ih =>
    rw [splitChunks]
    split
    · simp [*]
    · rw [List.flatten_cons, ih (tx.drop m) (by simp; omega), List.take_append_drop]

theorem splitChunks_bounds {m : Nat} (hm : 1 ≤ m) (fuel : Nat) (tx p : List Byte)
    (h : p ∈ splitChunks m fuel tx) : 1 ≤ p.length ∧ p.length ≤ m := by
  induction fuel generalizing tx with
  | zero => simp [splitChunks] at h
  | succ n ih =>
    rw [splitChunks] at h
    split at h
    · simp at h
    · rename_i hne
      rcases List.mem_cons.1 h with rfl | h
      · have := List.length_pos_iff.2 hne
        simp; omega
      · exact ih _ h

theorem splitChunks_exact {m : Nat} (fuel : Nat) (tx p : List Byte)
    (h : p ∈ (splitChunks m fuel tx).dropLast) : p.length = m := by
  induction fuel generalizing tx with
  | zero => simp [splitChunks] at h
  | succ n ih =>
    rw [splitChunks] at h
    split at h
    · simp at h
    · cases n with
      | zero => simp [splitChunks] at h
      | succ n =>
        by_cases hd : tx.drop m = []
        · simp [splitChunks, hd] at h
        · rw [List.dropLast_cons_of_ne_nil (by rw [splitChunks, if_neg hd]; simp)] at h
          rcases List.mem_cons.1 h with rfl | h
          · have : m < tx.length := by simpa using hd
            simp; omega
          · exact ih _ h

/-- The chunks of a segment are its bytes, all but the last of exactly m, the last of 1 to m (R121). -/
theorem chunksOf_isChunking {m : Nat} (hm : 1 ≤ m) (tx : List Byte) :
    IsChunking m tx (chunksOf m tx) :=
  ⟨splitChunks_flatten hm _ tx le_rfl, fun _ h => splitChunks_exact _ tx _ h,
    fun _ h => splitChunks_bounds hm _ tx _ h⟩

theorem chunksOf_ne_nil {m : Nat} {tx : List Byte} (h : tx ≠ []) : chunksOf m tx ≠ [] := by
  obtain ⟨b, bs, rfl⟩ := List.exists_cons_of_ne_nil h
  simp [chunksOf, splitChunks]

/-- A segment no longer than `MAX_XFER` is one chunk. -/
theorem chunksOf_one {m : Nat} {tx : List Byte} (h1 : 1 ≤ tx.length) (h2 : tx.length ≤ m) :
    chunksOf m tx = [tx] := by
  obtain ⟨b, bs, rfl⟩ := List.exists_cons_of_ne_nil (List.length_pos_iff.1 h1)
  simp only [chunksOf, List.length_cons, splitChunks, List.take_of_length_le h2,
    List.drop_eq_nil_of_le h2]
  cases bs.length <;> simp [splitChunks]

/-- There is only one way to split a segment as R121 says. -/
theorem isChunking_unique {m : Nat} {tx : List Byte} {ps : List (List Byte)}
    (h : IsChunking m tx ps) : ps = chunksOf m tx := by
  have key : ∀ (fuel : Nat) (tx : List Byte) (ps : List (List Byte)), tx.length ≤ fuel →
      IsChunking m tx ps → ps = splitChunks m fuel tx := by
    intro fuel
    induction fuel with
    | zero =>
      intro tx ps hl h
      cases ps with
      | nil => rfl
      | cons p ps =>
        have h1 := (h.2.2 p (by simp)).1
        have h2 := congrArg List.length h.1
        simp at h2
        omega
    | succ n ih =>
      intro tx ps hl h
      cases ps with
      | nil => simp [splitChunks, ← h.1]
      | cons p ps =>
        obtain ⟨hf, he, hb⟩ := h
        have hp := hb p (by simp)
        have hne : tx ≠ [] := by
          rintro rfl
          simp only [List.flatten_cons, List.append_eq_nil_iff] at hf
          simp [hf.1] at hp
        rw [splitChunks, if_neg hne]
        cases ps with
        | nil =>
          simp only [List.flatten_cons, List.flatten_nil, List.append_nil] at hf
          subst hf
          rw [List.take_of_length_le hp.2, List.drop_eq_nil_of_le hp.2]
          cases n <;> simp [splitChunks]
        | cons q qs =>
          have hpm : p.length = m := he p (by simp)
          have hf' : p ++ (q :: qs).flatten = tx := by simpa using hf
          have ht : tx.take m = p := by rw [← hf', ← hpm]; simp
          have hd : tx.drop m = (q :: qs).flatten := by rw [← hf', ← hpm]; simp
          rw [ht, hd]
          congr 1
          refine ih _ _ ?_ ⟨rfl, fun x hx => he x ?_, fun x hx => hb x (by simp [hx])⟩
          · rw [← hd]; simp; omega
          · rw [List.dropLast_cons_of_ne_nil (by simp)]
            exact List.mem_cons_of_mem _ hx
  exact key _ tx ps le_rfl h

/-! ### States further along the answers -/

/-- t has used up n more answers than s, under the same parameters. -/
structure Later (s t : State) (n : Nat) : Prop where
  chip  : t.chip = s.chip.drop n
  draws : t.draws = s.draws + n
  cfg   : t.cfg = s.cfg

theorem Later.drawAt {s t : State} {n : Nat} (h : Later s t n) (k : Nat) :
    t.drawAt k = s.drawAt (n + k) := drawAt_drop h.chip h.draws k

theorem Later.rxAt {s t : State} {n : Nat} (h : Later s t n) (k m : Nat) :
    t.rxAt k m = s.rxAt (n + k) m := rxAt_drop h.chip h.draws k m

theorem Later.secondByte {s t : State} {n : Nat} (h : Later s t n) (k : Nat) :
    t.secondByte k = s.secondByte (n + k) := by
  simp [State.secondByte, State.miso, h.drawAt, h.draws, Nat.add_assoc]

theorem Later.polled {s t : State} {n : Nat} (h : Later s t n) (k : Nat) :
    t.polled k = s.polled (n + k) := by
  simp [State.polled, h.secondByte, h.cfg]

theorem Later.goThrough {s t : State} {n m : Nat} (h : Later s t n) (hs : s.goThrough (n + m)) :
    t.goThrough m := fun k hk => by
  rw [h.drawAt]
  exact hs (n + k) (by omega)

theorem Later.chunkEvents {s t : State} {n : Nat} (h : Later s t n) (k : Nat)
    (ps : List (List Byte)) : t.chunkEvents k ps = s.chunkEvents (n + k) ps := by
  induction ps generalizing k with
  | nil => rfl
  | cons p ps ih => simp [State.chunkEvents, h.rxAt, ih, Nat.add_assoc]

theorem Later.received {s t : State} {n : Nat} (h : Later s t n) (k : Nat)
    (ps : List (List Byte)) : t.received k ps = s.received (n + k) ps := by
  induction ps generalizing k with
  | nil => rfl
  | cons p ps ih => simp [State.received, h.rxAt, ih, Nat.add_assoc]

theorem Later.transfer {s t : State} {n : Nat} (h : Later s t n) (k : Nat)
    (ps : List (List Byte)) : t.transfer k ps = s.transfer (n + k) ps := by
  simp [State.transfer, h.chunkEvents]

theorem Later.exchanges {s t : State} {n : Nat} (h : Later s t n) (k : Nat)
    (txs : List (List Byte)) : t.exchanges k txs = s.exchanges (n + k) txs := by
  induction txs generalizing k with
  | nil => rfl
  | cons p ps ih => simp [State.exchanges, h.transfer, ih, Nat.add_assoc]

theorem Later.edgeWithin {s t : State} {n : Nat} (h : Later s t n) (m : Nat) :
    (s.edgeWithin n || t.edgeWithin m) = s.edgeWithin (n + m) := by
  simp [State.edgeWithin, List.range_add, List.any_map, Function.comp_def, h.drawAt]

theorem goThrough_le {s : State} {n m : Nat} (h : s.goThrough n) (hm : m ≤ n) : s.goThrough m :=
  fun k hk => h k (by omega)

theorem received_length (s : State) (k : Nat) (ps : List (List Byte)) :
    (s.received k ps).length = ps.flatten.length := by
  induction ps generalizing k with
  | nil => rfl
  | cons p ps ih => simp [State.received, ih]

/-! ### Chunks, segments and transactions that go through -/

/-- The state after chunks that went through, chip-select as it was. -/
def State.ran (s : State) (n : Nat) (evs : List BusEvent) : State :=
  { s with
    irqFlag := s.irqFlag || s.edgeWithin n, trace := s.trace ++ evs
    chip := s.chip.drop n, draws := s.draws + n }

theorem later_ran (s : State) (n : Nat) (evs : List BusEvent) : Later s (s.ran n evs) n :=
  ⟨rfl, rfl, rfl⟩

theorem later_afterBus (s : State) (n : Nat) (evs : List BusEvent) : Later s (s.afterBus n evs) n :=
  ⟨rfl, rfl, rfl⟩

theorem ran_ran (s : State) (n m : Nat) (e f : List BusEvent) :
    (s.ran n e).ran m f = s.ran (n + m) (e ++ f) := by
  have h := (later_ran s n e).edgeWithin m
  simp [State.ran, ← h, Nat.add_assoc, Bool.or_assoc]

theorem xfer_ok {s : State} (h : s.goThrough 1) (tx : List Byte) :
    xfer tx s = .ok (true, s.rxAt 0 tx.length) (s.ran 1 (s.chunkEvents 0 [tx])) := by
  obtain ⟨h1, h2⟩ := h 0 (by omega)
  simp [xfer, h1, h2, State.afterChunk, State.takeDraw, State.ran, State.chunkEvents, State.edgeWithin]

theorem sendChunks_ok {s : State} (ps : List (List Byte)) (k i : Nat) (rx : List Byte)
    (h : s.goThrough ps.length) :
    sendChunks ps k i rx s = .ok (rx ++ s.received 0 ps) (s.ran ps.length (s.chunkEvents 0 ps)) := by
  induction ps generalizing s k i rx with
  | nil => simp [sendChunks, State.received, State.chunkEvents, State.ran, State.edgeWithin]
  | cons p ps ih =>
    have hl := later_ran s 1 (s.chunkEvents 0 [p])
    have hh : s.goThrough (1 + ps.length) := by simpa [Nat.add_comm] using h
    simp only [sendChunks]
    rw [bind_ok (xfer_ok (goThrough_le hh (by omega)) p)]
    simp only [if_true]
    rw [ih _ _ _ (hl.goThrough hh), ran_ran, hl.received, hl.chunkEvents]
    simp [State.received, State.chunkEvents, Nat.add_comm]

theorem seg_ok {s : State} (tx : List Byte) (h : s.goThrough (chunksOf s.cfg.maxXfer tx).length) :
    seg tx s = .ok (s.received 0 (chunksOf s.cfg.maxXfer tx))
      (s.ran (chunksOf s.cfg.maxXfer tx).length (s.chunkEvents 0 (chunksOf s.cfg.maxXfer tx))) := by
  simp [seg, sendChunks_ok _ _ _ _ h]

theorem csAssert_ok {s : State} (h : s.goThrough 1) :
    csAssert s = .ok () ({ s with cs := .asserted }.log (.cs .asserted)) := by
  simp [csAssert, (h 0 (by omega)).2]

/-- A transaction whose chunks go through (R121). -/
theorem transaction_ok {s : State} {tx : List Byte} (hne : tx ≠ [])
    (h : s.goThrough (chunksOf s.cfg.maxXfer tx).length) :
    transaction tx s = .ok (s.received 0 (chunksOf s.cfg.maxXfer tx))
      (s.afterBus (chunksOf s.cfg.maxXfer tx).length (s.transfer 0 (chunksOf s.cfg.maxXfer tx))) := by
  have hpos : 1 ≤ (chunksOf s.cfg.maxXfer tx).length :=
    List.length_pos_iff.2 (chunksOf_ne_nil hne)
  have hl : Later s ({ s with cs := .asserted }.log (.cs .asserted)) 0 := ⟨rfl, rfl, rfl⟩
  have hg := hl.goThrough (m := (chunksOf s.cfg.maxXfer tx).length) (by simpa using h)
  simp only [transaction]
  rw [bind_ok (csAssert_ok (goThrough_le h hpos)), bind_ok (seg_ok tx hg)]
  simp only [csDeassert, update_bind, pure_run]
  simp only [log_cfg, hl.received, hl.chunkEvents, Nat.zero_add]
  congr 1
  have he := hl.edgeWithin (chunksOf s.cfg.maxXfer tx).length
  simp only [State.edgeWithin, List.range_zero, List.any_nil, Bool.false_or, Nat.zero_add] at he
  simp [State.ran, State.log, State.afterBus, State.transfer, State.edgeWithin]
  exact congrArg _ he

/-- A transaction of one chunk that goes through. -/
theorem transaction_one {s : State} {tx : List Byte} (h1 : 1 ≤ tx.length)
    (h2 : tx.length ≤ s.cfg.maxXfer) (h : s.goThrough 1) :
    transaction tx s = .ok (s.rxAt 0 tx.length) (s.afterBus 1 (s.transfer 0 [tx])) := by
  have hc := chunksOf_one h1 h2
  have := transaction_ok (s := s) (tx := tx) (List.length_pos_iff.1 h1) (by rw [hc]; exact h)
  rw [this, hc]
  simp [State.received]

/-! ### Register accesses that go through, 8-bit profile -/

theorem bytewise_iff (p : Profile) :
    p.bytewise = true ↔ p.cmdBytes = .one ∧ p.valBytes = .one := by
  simp [Profile.bytewise]

theorem readExchange_bytewise {c : Config} (h : c.profile.bytewise = true) (a : RegAddr) :
    readExchange c a = regRead c a := by
  obtain ⟨h1, h2⟩ := (bytewise_iff _).1 h
  simp [readExchange, commandWord, h1, h2, regRead, zeros, ByteCount.num]

theorem writeExchange_bytewise {c : Config} (h : c.profile.bytewise = true) (a : RegAddr) (v : Byte) :
    writeExchange c a (v.setWidth 16) = regWrite c a v := by
  obtain ⟨h1, h2⟩ := (bytewise_iff _).1 h
  simp [writeExchange, commandWord, valueBytes, h1, h2, regWrite, lowByte]

theorem assemble_bytewise {c : Config} (h : c.profile.bytewise = true) (rx : List Byte) :
    lowByte (assemble c rx) = byteAt rx 1 := by
  obtain ⟨h1, h2⟩ := (bytewise_iff _).1 h
  simp [assemble, h1, h2, lowByte, ByteCount.num]

theorem memReadByte_ok {s : State} (hb : s.cfg.profile.bytewise = true) (hx : 2 ≤ s.cfg.maxXfer)
    (h : s.goThrough 1) (a : RegAddr) :
    memReadByte a s = .ok (s.secondByte 0) (s.afterBus 1 (s.transfer 0 [regRead s.cfg a])) := by
  have ht := transaction_one (s := s) (tx := regRead s.cfg a) (by simp [regRead])
    (by simpa [regRead] using hx) h
  simp only [memReadByte, memRead, bind_run, config_run, readExchange_bytewise hb, ht, pure_run]
  simp [assemble_bytewise hb, regRead, byteAt_rxAt_one]

theorem memWriteByte_ok {s : State} (hb : s.cfg.profile.bytewise = true) (hx : 2 ≤ s.cfg.maxXfer)
    (h : s.goThrough 1) (a : RegAddr) (v : Byte) :
    memWriteByte a v s = .ok () (s.afterBus 1 (s.transfer 0 [regWrite s.cfg a v])) := by
  have ht := transaction_one (s := s) (tx := regWrite s.cfg a v) (by simp [regWrite])
    (by simpa [regWrite] using hx) h
  simp only [memWriteByte, memWrite, config_run, bind_run, writeExchange_bytewise hb, ht, pure_run]

theorem writeTrxState_ok {s : State} (hb : s.cfg.profile.bytewise = true) (hx : 2 ≤ s.cfg.maxXfer)
    (h : s.goThrough 1) (code : TrxCode) :
    writeTrxState code s =
      .ok () (s.afterBus 1 (s.transfer 0 [stateWrite s.cfg code])) := by
  simp only [writeTrxState, config_bind]
  exact memWriteByte_ok hb hx h _ _

/-! ### Waits, state changes and configuration writes that go through at once -/

/-- A wait whose first poll matches (R161). -/
theorem waitState_ok {s : State} (hb : s.cfg.profile.bytewise = true) (hx : 2 ≤ s.cfg.maxXfer)
    (h : s.goThrough 1) (hl : 0 < pollBudget s) {awaited : TrxCode} (hm : s.polled 0 = awaited)
    (place : SeqStep) : waitState place awaited s =
      .ok () { s.afterBus 1 (s.transfer 0 [regRead s.cfg s.cfg.map.trxStatus]) with pollCount := 1 } := by
  obtain ⟨n, hn⟩ : ∃ n, pollBudget { s with pollCount := 0 } = n + 1 :=
    ⟨pollBudget s - 1, by change pollBudget s = _; omega⟩
  have hg : State.goThrough { s with pollCount := 0 } 1 := h
  have hr := memReadByte_ok (s := { s with pollCount := 0 }) hb hx hg s.cfg.map.trxStatus
  simp only [waitState, update_bind, current_bind, hn, pollLoop, config_bind]
  rw [bind_ok hr]
  simp only [update_bind, current_bind]
  have hm' : statusField s.cfg (State.secondByte { s with pollCount := 0 } 0) = awaited := hm
  simp only [hm', if_true, pure_run]
  rfl

/-- The poll bound allows a first read (R9). -/
theorem pollBudget_pos {s : State} (h : s.cfg.pollLimit ≠ some 0) : 0 < pollBudget s := by
  unfold pollBudget
  split
  · rename_i n hn
    have : n ≠ 0 := fun h0 => h (by rw [hn, h0])
    omega
  · omega

/-- A configuration write that goes through at the first attempt (R218). -/
theorem cfgWrite_ok {s : State} (hb : s.cfg.profile.bytewise = true) (hx : 2 ≤ s.cfg.maxXfer)
    (h : s.goThrough 1) (a : RegAddr) (v : Byte) :
    cfgWrite a v s =
      .ok () { s.afterBus 1 (s.transfer 0 [regWrite s.cfg a v]) with retryCount := 0 } := by
  have hg : State.goThrough { s with retryCount := 0 } 1 := h
  have hw := memWriteByte_ok (s := { s with retryCount := 0 }) hb hx hg a v
  simp only [cfgWrite, update_bind, config_bind]
  cases s.cfg.cfgRetryMax <;>
    (simp only [cfgWriteLoop]; rw [bind_ok (attempt_ok hw)]; rfl)

end Sys2Proof.Machine
end

