-- ==== Sys2Proof/Laws/Sequences.lean ====
section
/-! SUPPORT. The named sequences where the chip answers at once: `SetTrxState`, the frame write, the
frame read (spec R141, R145, R160). -/

namespace Sys2Proof.Machine

/-- What a valid parameter set gives the register accesses. -/
theorem valid_limits {c : Config} (h : c.valid = true) :
    c.profile.valid = true ∧ 4 ≤ c.maxXfer ∧ 4 ≤ c.fbLimit ∧ c.fbLimit ≤ 256 ∧ c.maxPhr ≤ 255
      ∧ c.maxPhr + 2 ≤ c.rxbufCap ∧ c.pollLimit ≠ some 0 ∧ c.cfgReset.band.toNat < 8 := by
  simpa [Config.valid, and_assoc] using h

theorem afterBus_afterBus (s : State) (n m : Nat) (e f : List BusEvent) :
    (s.afterBus n e).afterBus m f = s.afterBus (n + m) (e ++ f) := by
  have h := (later_afterBus s n e).edgeWithin m
  simp [State.afterBus, ← h, Nat.add_assoc, Bool.or_assoc]

/-- s with `pollCount` at n. -/
def State.withPolls (s : State) (n : Nat) : State := { s with pollCount := n }

theorem later_withPolls {s t : State} {k : Nat} (h : Later s t k) (n : Nat) :
    Later s (t.withPolls n) k := ⟨h.chip, h.draws, h.cfg⟩

theorem Later.afterBus {s t : State} {n : Nat} (h : Later s t n) (m : Nat) (e : List BusEvent) :
    Later s (t.afterBus m e) (n + m) :=
  ⟨by simp [h.chip], by simp [h.draws, Nat.add_assoc], h.cfg⟩

theorem withPolls_afterBus (s : State) (p n : Nat) (e : List BusEvent) :
    (s.withPolls p).afterBus n e = (s.afterBus n e).withPolls p := rfl

theorem withPolls_withPolls (s : State) (p q : Nat) : (s.withPolls p).withPolls q = s.withPolls q := rfl

theorem exchanges_append (s : State) (k : Nat) (xs ys : List (List Byte)) :
    s.exchanges k (xs ++ ys) = s.exchanges k xs ++ s.exchanges (k + xs.length) ys := by
  induction xs generalizing k with
  | nil => rfl
  | cons x xs ih => simp [State.exchanges, ih, Nat.add_assoc, Nat.add_comm 1]

/-- A read of a wait that goes through and shows another state, the limit not used up: the wait goes on (R161). -/
theorem pollLoop_miss {s : State} (hb : s.cfg.profile.bytewise = true) (hx : 2 ≤ s.cfg.maxXfer)
    (h : s.goThrough 1) {place : SeqStep} {awaited : TrxCode} (hm : s.polled 0 ≠ awaited)
    (hl : pollLimitReached s.cfg (s.pollCount + 1) = false) (n : Nat) :
    pollLoop place awaited (n + 1) s = pollLoop place awaited n
      ((s.afterBus 1 (s.exchanges 0 [regRead s.cfg s.cfg.map.trxStatus])).withPolls (s.pollCount + 1)) := by
  simp only [pollLoop, config_bind]
  rw [bind_ok (memReadByte_ok hb hx h s.cfg.map.trxStatus)]
  have hm' : ¬ statusField s.cfg (s.secondByte 0) = awaited := hm
  simp only [update_bind, current_bind, hm', if_false, afterBus_pollCount, hl]
  rfl

/-- m such reads (R161, R276). -/
theorem pollLoop_misses {s : State} (hb : s.cfg.profile.bytewise = true) (hx : 2 ≤ s.cfg.maxXfer)
    {place : SeqStep} {awaited : TrxCode} (m n : Nat) (h : s.goThrough m)
    (hm : ∀ k, k < m → s.polled k ≠ awaited)
    (hl : ∀ k, k < m → pollLimitReached s.cfg (s.pollCount + k + 1) = false) :
    pollLoop place awaited (m + n) s = pollLoop place awaited n
      (if m = 0 then s else
        (s.afterBus m (s.exchanges 0 (List.replicate m (regRead s.cfg s.cfg.map.trxStatus)))).withPolls
          (s.pollCount + m)) := by
  induction m generalizing n with
  | zero => simp
  | succ m ih =>
    rw [Nat.add_assoc, ih (1 + n) (goThrough_le h (Nat.le_succ m)) (fun k hk => hm k (by omega))
      fun k hk => hl k (by omega), Nat.add_comm 1 n]
    have key : ∀ t : State, Later s t m → t.pollCount = s.pollCount + m →
        pollLoop place awaited (n + 1) t = pollLoop place awaited n
          ((t.afterBus 1 (s.exchanges m [regRead s.cfg s.cfg.map.trxStatus])).withPolls
            (s.pollCount + m + 1)) := by
      intro t l hp
      rw [pollLoop_miss (s := t) (by rwa [l.cfg]) (by rwa [l.cfg]) (l.goThrough (m := 1) h)
        (by rw [l.polled]; exact hm m (by omega)) (by rw [hp, l.cfg]; exact hl m (by omega)) n]
      rw [l.exchanges, l.cfg, hp]
      rfl
    by_cases h0 : m = 0
    · subst h0
      simp only [if_true]
      exact key s ⟨rfl, rfl, rfl⟩ rfl
    · rw [if_neg h0, if_neg (Nat.succ_ne_zero m), key _ (later_withPolls (later_afterBus s m _) _) rfl]
      rw [withPolls_afterBus, afterBus_afterBus, withPolls_withPolls, List.replicate_succ', exchanges_append]
      simp [Nat.add_assoc]

/-- One phase of `SetTrxState`: its command written, and the first poll matching. -/
theorem statePhase_ok {s : State} (hv : s.cfg.valid = true) (hb : s.cfg.profile.bytewise = true)
    {call : StateCall} {phase : Phase} {cmd : TrxCmd} (h : s.goThrough 2)
    (hm : s.polled 1 = awaitedIn s.cfg call phase) :
    statePhase call phase cmd s =
      .ok () ((s.afterBus 2 (s.exchanges 0 [stateWrite s.cfg (cmdCode s.cfg cmd),
        regRead s.cfg s.cfg.map.trxStatus])).withPolls 1) := by
  obtain ⟨-, hx, -, -, -, -, hp, -⟩ := valid_limits hv
  have hx2 : 2 ≤ s.cfg.maxXfer := by omega
  have h1 := writeTrxState_ok hb hx2 (goThrough_le h (by omega)) (cmdCode s.cfg cmd)
  have l1 := later_afterBus s 1 (s.transfer 0 [stateWrite s.cfg (cmdCode s.cfg cmd)])
  have h2 := waitState_ok (s := s.afterBus 1 (s.transfer 0 [stateWrite s.cfg (cmdCode s.cfg cmd)]))
    hb hx2 (l1.goThrough (m := 1) h) (pollBudget_pos hp) (awaited := awaitedIn s.cfg call phase)
    (by rw [l1.polled]; exact hm) (.waiting call phase)
  simp only [statePhase, config_bind]
  rw [bind_ok h1, h2, l1.transfer, afterBus_afterBus]
  simp only [afterBus_cfg, State.exchanges, List.append_nil]
  rfl

/-- `SetTrxState` with both polls matching at once (R160). -/
theorem setTrxState_ok {s : State} (hv : s.cfg.valid = true) (hb : s.cfg.profile.bytewise = true)
    {call : StateCall} (h : s.goThrough (trxExchanges s.cfg (callCmd s.cfg call)).length)
    (hm : s.pollsMatch 0 (callCmd s.cfg call)) :
    setTrxState call s = .ok () ((s.afterBus (trxExchanges s.cfg (callCmd s.cfg call)).length
      (s.exchanges 0 (trxExchanges s.cfg (callCmd s.cfg call)))).withPolls 1) := by
  have h1 := statePhase_ok hv hb (call := call) (phase := .forcedOff) (cmd := .forceTrxOff)
    (goThrough_le h (by simp [trxExchanges])) hm.1
  have l1 := later_withPolls (later_afterBus s 2 (s.exchanges 0
    [stateWrite s.cfg (cmdCode s.cfg .forceTrxOff), regRead s.cfg s.cfg.map.trxStatus])) 1
  simp only [setTrxState]
  rw [bind_ok h1]
  simp only [targetPhase, config_bind]
  rw [l1.cfg]
  by_cases hc : callCmd s.cfg call = .forceTrxOff
  · simp [hc, trxExchanges, cmdCode]
  · simp only [hc, if_false]
    have hg4 : s.goThrough 4 := by simpa [trxExchanges, hc] using h
    have h2 := statePhase_ok (s := (s.afterBus 2 (s.exchanges 0
        [stateWrite s.cfg (cmdCode s.cfg .forceTrxOff),
          regRead s.cfg s.cfg.map.trxStatus])).withPolls 1) hv hb (call := call) (phase := .target)
      (cmd := callCmd s.cfg call) (l1.goThrough (m := 2) hg4)
      (by rw [l1.polled, l1.cfg]; exact hm.2 hc)
    refine h2.trans ?_
    rw [l1.exchanges, withPolls_afterBus, afterBus_afterBus, withPolls_withPolls, l1.cfg]
    simp [trxExchanges, hc, State.exchanges, cmdCode]

/-- The frame-write transaction with every chunk going through (R141). -/
theorem frameBufferWrite_ok {s : State} {f : List Byte}
    (h : s.goThrough (chunksOf s.cfg.maxXfer (s.cfg.profile.fbWriteCmd :: frameImage f)).length) :
    frameBufferWrite f s = .ok () { s.afterBus
      (chunksOf s.cfg.maxXfer (s.cfg.profile.fbWriteCmd :: frameImage f)).length
      (s.transfer 0 (chunksOf s.cfg.maxXfer (s.cfg.profile.fbWriteCmd :: frameImage f)))
      with txbuf := s.txbuf.writeRange 0 (frameImage f) } := by
  have ht := transaction_ok (s := { s with txbuf := s.txbuf.writeRange 0 (frameImage f) })
    (tx := s.cfg.profile.fbWriteCmd :: frameImage f) (by simp) h
  have l0 : Later s { s with txbuf := s.txbuf.writeRange 0 (frameImage f) } 0 := ⟨rfl, rfl, rfl⟩
  rw [l0.transfer, Nat.zero_add] at ht
  simp only [frameBufferWrite, update_bind, config_bind]
  rw [bind_ok ht, pure_run]
  rfl

/-- The frame read with an accepted length byte and every chunk going through (R145). -/
theorem frameRead_ok {s : State} (hx : 2 ≤ s.cfg.maxXfer)
    (hl : (s.secondByte 0).toNat ≤ s.cfg.maxPhr)
    (h : s.goThrough (1 + (chunksOf s.cfg.maxXfer (zeros ((s.secondByte 0).toNat + 1))).length)) :
    frameRead s =
      .ok { len := s.secondByte 0
            body := s.received 1 (chunksOf s.cfg.maxXfer (zeros ((s.secondByte 0).toNat + 1))) }
        { s.afterBus (1 + (chunksOf s.cfg.maxXfer (zeros ((s.secondByte 0).toNat + 1))).length)
            (s.transfer 0 ([s.cfg.profile.fbReadCmd, 0x00#8]
              :: chunksOf s.cfg.maxXfer (zeros ((s.secondByte 0).toNat + 1))))
          with rxbuf := s.rxbuf.writeRange 0 (s.secondByte 0
              :: s.received 1 (chunksOf s.cfg.maxXfer (zeros ((s.secondByte 0).toNat + 1)))) } := by
  have hg1 : s.goThrough 1 := goThrough_le h (by omega)
  have l0 : Later s ({ s with cs := .asserted }.log (.cs .asserted)) 0 := ⟨rfl, rfl, rfl⟩
  have hc2 : chunksOf s.cfg.maxXfer [s.cfg.profile.fbReadCmd, 0x00#8]
      = [[s.cfg.profile.fbReadCmd, 0x00#8]] := chunksOf_one (by simp) (by simpa using hx)
  have h1 := seg_ok (s := { s with cs := .asserted }.log (.cs .asserted))
    [s.cfg.profile.fbReadCmd, 0x00#8] (by
      simp only [log_cfg, hc2]; exact l0.goThrough (m := 1) (by simpa using hg1))
  simp only [log_cfg, hc2, List.length_singleton] at h1
  simp only [frameRead]
  rw [bind_ok (csAssert_ok hg1), config_bind, log_cfg, bind_ok h1]
  have hby : byteAt (({ s with cs := .asserted }.log (.cs .asserted)).received 0
      [[s.cfg.profile.fbReadCmd, 0x00#8]]) 1 = s.secondByte 0 := by
    rw [l0.received]
    simp only [State.received, List.append_nil]
    exact byteAt_rxAt_one s 0
  rw [hby, if_neg (Nat.not_lt.2 hl)]
  obtain ⟨S, hS⟩ : ∃ S : State, S = ({ s with cs := .asserted }.log (.cs .asserted)).ran 1
      (({ s with cs := .asserted }.log (.cs .asserted)).chunkEvents 0 [[s.cfg.profile.fbReadCmd, 0x00#8]]) :=
    ⟨_, rfl⟩
  have l1 : Later s S 1 := by subst hS; exact ⟨rfl, rfl, rfl⟩
  have h2 := seg_ok (s := S) (zeros ((s.secondByte 0).toNat + 1))
    (by rw [l1.cfg]; exact l1.goThrough h)
  rw [l1.cfg, l1.received, l1.chunkEvents] at h2
  rw [← hS, bind_ok h2]
  simp only [csDeassert, update_bind, pure_run, RxFrame.image]
  subst hS
  rw [l0.chunkEvents, ran_ran]
  congr 1
  have he := l0.edgeWithin
    (1 + (chunksOf s.cfg.maxXfer (zeros ((s.secondByte 0).toNat + 1))).length)
  simp only [State.edgeWithin, List.range_zero, List.any_nil, Bool.false_or, Nat.zero_add] at he
  simp [State.ran, State.log, State.afterBus, State.transfer, State.chunkEvents, State.edgeWithin]
  exact congrArg _ he

end Sys2Proof.Machine
end

