-- ==== Sys2Proof/Laws/Outcomes.lean ====
section
/-! SUPPORT. Everything a piece of a command can do, whatever the chip answers: it ends (OK or with a raise), it
is left in a wait without a bound, or SRC reset cuts it. One lemma per shared operation, over any relation F that its updates
respect, so that a frame or an invariant is proved once for all commands. -/

namespace Sys2Proof.Machine

/-! ### What every piece leaves -/

/-- No SRC reset falls in the next n chunks. -/
abbrev State.uncutFor (s : State) (n : Nat) : Prop := ∀ k, k < n → (s.drawAt k).cut = none

/-- The bus events es are whole transactions, and each chunk fits (R52, R53). -/
structure Framed (c : Config) (es : List BusEvent) : Prop where
  whole : framed .released es = some .released
  fits  : 1 ≤ c.maxXfer → ∀ e ∈ es, chunkFits c e = true

/-- t is s after n uncut chunks: what is presented and delivered is as it was, no line is left asserted, and
the trace has grown by whole transactions. -/
structure Base (s t : State) (n : Nat) : Prop where
  later     : Later s t n
  uncut     : s.uncutFor n
  delivered : t.delivered = s.delivered
  port      : t.port = s.port
  slpTr     : t.slpTr = s.slpTr
  cs        : s.cs = .deasserted → t.cs = .deasserted
  rst       : s.rst = .deasserted → t.rst = .deasserted
  trace     : ∃ es, t.trace = s.trace ++ es ∧ Framed s.cfg es

/-- t is what SRC reset left of s when it cut the n-th of its next chunks (R260). -/
structure CutFrom (s t : State) (n : Nat) : Prop where
  uncut : ∀ k, k + 1 < n → (s.drawAt k).cut = none
  cut   : 0 < n ∧ (s.drawAt (n - 1)).cut ≠ none
  state : ∃ es, t = { State.boot s.cfg with
                        trace := s.trace ++ es
                        delivered := s.delivered
                        port := s.port
                        chip := s.chip.drop n
                        draws := s.draws + n }
    ∧ (s.cs = .deasserted → s.rst = .deasserted → Framed s.cfg es)

theorem framed_append (l : BusLine) (es fs : List BusEvent) :
    framed l (es ++ fs) = (framed l es).bind fun l' => framed l' fs := by
  induction es generalizing l with
  | nil => rfl
  | cons e es ih =>
    simp only [List.cons_append, framed]
    cases framedEvent l e with
    | none => rfl
    | some l' => exact ih l'

theorem Framed.nil (c : Config) : Framed c [] := ⟨rfl, by simp⟩

theorem Framed.append {c : Config} {es fs : List BusEvent} (h : Framed c es) (h' : Framed c fs) :
    Framed c (es ++ fs) := by
  refine ⟨by rw [framed_append, h.whole]; exact h'.whole, fun hx e he => ?_⟩
  rcases List.mem_append.1 he with he | he
  · exact h.fits hx e he
  · exact h'.fits hx e he

theorem Base.refl (s : State) : Base s s 0 :=
  ⟨⟨rfl, rfl, rfl⟩, fun _ h => absurd h (Nat.not_lt_zero _), rfl, rfl, rfl, id, id, [], by simp, Framed.nil _⟩

theorem Later.trans {s t u : State} {n m : Nat} (h : Later s t n) (h' : Later t u m) :
    Later s u (n + m) :=
  ⟨by rw [h'.chip, h.chip, List.drop_drop], by rw [h'.draws, h.draws, Nat.add_assoc],
    h'.cfg.trans h.cfg⟩

theorem Later.uncutFor {s t : State} {n m : Nat} (h : Later s t n) (hs : s.uncutFor n)
    (ht : t.uncutFor m) : s.uncutFor (n + m) := fun k hk => by
  by_cases hn : k < n
  · exact hs k hn
  · have := ht (k - n) (by omega)
    rwa [h.drawAt, Nat.add_sub_cancel' (by omega)] at this

theorem Base.trans {s t u : State} {n m : Nat} (h : Base s t n) (h' : Base t u m) :
    Base s u (n + m) := by
  obtain ⟨es, he, hf⟩ := h.trace
  obtain ⟨fs, he', hf'⟩ := h'.trace
  refine ⟨h.later.trans h'.later, h.later.uncutFor h.uncut h'.uncut, h'.delivered.trans h.delivered,
    h'.port.trans h.port, h'.slpTr.trans h.slpTr, fun hc => h'.cs (h.cs hc), fun hc => h'.rst (h.rst hc),
    es ++ fs, by rw [he', he, List.append_assoc], hf.append ?_⟩
  rw [h.later.cfg] at hf'
  exact hf'

theorem Base.cutFrom {s t u : State} {n m : Nat} (h : Base s t n) (h' : CutFrom t u m) :
    CutFrom s u (n + m) := by
  obtain ⟨es, he, hf⟩ := h.trace
  obtain ⟨fs, hu, hf'⟩ := h'.state
  have hm := h'.cut.1
  refine ⟨fun k hk => ?_, ⟨by omega, ?_⟩, es ++ fs, ?_, fun hc hr => hf.append ?_⟩
  · by_cases hn : k < n
    · exact h.uncut k hn
    · have := h'.uncut (k - n) (by omega)
      rwa [h.later.drawAt, Nat.add_sub_cancel' (by omega)] at this
  · have := h'.cut.2
    rw [h.later.drawAt] at this
    rwa [show n + m - 1 = n + (m - 1) by omega]
  · rw [hu, h.later.cfg, he, h.delivered, h.port, h.later.chip, h.later.draws, List.drop_drop,
      List.append_assoc, Nat.add_assoc]
  · have := hf' (h.cs hc) (h.rst hr)
    rwa [h.later.cfg] at this

/-! ### The outcomes of a piece -/

/-- From every state, m ends with `Base` and F, or stands in a wait without a bound after `Base` and F (R276), or is cut by SRC
reset (R260). -/
def Runs {α : Type} (F : State → State → Prop) (m : Seq α) : Prop :=
  ∀ s, ∃ n, match m s with
    | .ok _ t => Base s t n ∧ F s t
    | .error (.raised _) t => Base s t n ∧ F s t
    | .error .stopped t =>
      (∃ u a, Base s u n ∧ F s u ∧ (s.cfg.pollLimit = none ∨ s.cfg.pollLimit = some 0)
        ∧ t = { u with seq := u.seq.map fun p => { p with step := a } })
      ∨ CutFrom s t n

/-- F holds of a state and itself, composes, and holds where only the bus moved. -/
structure BusClosed (F : State → State → Prop) : Prop where
  refl  : ∀ s, F s s
  trans : ∀ s t u, F s t → F t u → F s u
  bus   : ∀ s n es, s.uncutFor n → F s (s.afterBus n es)

variable {α β : Type} {F : State → State → Prop}

theorem Runs.bind (hF : ∀ s t u, F s t → F t u → F s u) {m : Seq α} {f : α → Seq β}
    (hm : Runs F m) (hf : ∀ a, Runs F (f a)) : Runs F (m >>= f) := by
  intro s
  obtain ⟨n, hn⟩ := hm s
  rw [bind_run]
  cases hms : m s with
  | ok a t =>
    rw [hms] at hn
    obtain ⟨hb, hFst⟩ := hn
    obtain ⟨k, hk⟩ := hf a t
    refine ⟨n + k, ?_⟩
    simp only
    cases hfs : f a t with
    | ok b u => rw [hfs] at hk; exact ⟨hb.trans hk.1, hF _ _ _ hFst hk.2⟩
    | error e u =>
      rw [hfs] at hk
      cases e with
      | raised e => exact ⟨hb.trans hk.1, hF _ _ _ hFst hk.2⟩
      | stopped =>
        rcases hk with ⟨w, a, hw, hFw, hp, rfl⟩ | hk
        · exact .inl ⟨w, a, hb.trans hw, hF _ _ _ hFst hFw, by rwa [hb.later.cfg] at hp, rfl⟩
        · exact .inr (hb.cutFrom hk)
  | error e t =>
    rw [hms] at hn
    refine ⟨n, ?_⟩
    cases e <;> exact hn

theorem Runs.pure (hF : ∀ s, F s s) (a : α) : Runs F (Pure.pure a : Seq α) := fun s =>
  ⟨0, Base.refl s, hF s⟩

theorem Runs.raise (hF : ∀ s, F s s) (e : Err) : Runs F (raise e : Seq α) := fun s =>
  ⟨0, Base.refl s, hF s⟩

theorem Runs.config_bind {f : Config → Seq β} (h : ∀ c, Runs F (f c)) : Runs F (config >>= f) :=
  fun s => h s.cfg s

theorem Runs.current_bind {f : State → Seq β} (h : ∀ s, Runs F (f s)) : Runs F (current >>= f) :=
  fun s => h s s

/-- An update that touches neither the bus, the pins, the answers nor what is outside. -/
theorem Runs.update {g : State → State} (hF : ∀ s, F s (g s)) (hb : ∀ s, Base s (g s) 0) :
    Runs F (update g) := fun s => ⟨0, hb s, hF s⟩

theorem Runs.attempt {m : Seq α} (h : Runs F m) : Runs F (attempt m) := by
  intro s
  obtain ⟨n, hn⟩ := h s
  refine ⟨n, ?_⟩
  unfold Machine.attempt
  cases hms : m s with
  | ok a t => rw [hms] at hn; exact hn
  | error e t =>
    rw [hms] at hn
    cases e <;> exact hn

theorem Runs.mono {G : State → State → Prop} {m : Seq α} (h : Runs F m) (hFG : ∀ s t, F s t → G s t) :
    Runs G m := by
  intro s
  obtain ⟨n, hn⟩ := h s
  refine ⟨n, ?_⟩
  cases hms : m s with
  | ok a t => rw [hms] at hn; exact ⟨hn.1, hFG _ _ hn.2⟩
  | error e t =>
    rw [hms] at hn
    cases e with
    | raised e => exact ⟨hn.1, hFG _ _ hn.2⟩
    | stopped =>
      rcases hn with ⟨u, a, h1, h2, h3⟩ | hn
      · exact .inl ⟨u, a, h1, hFG _ _ h2, h3⟩
      · exact .inr hn

/-! ### Chunks that do not go through -/

/-- The loop of `Seg` on a chunk that fails: chip-select is released and nothing more is sent (R122). -/
theorem sendChunks_failed {s : State} (sent : List (List Byte)) (p : List Byte)
    (unsent : List (List Byte)) (k i : Nat) (rx : List Byte) (h : s.goThrough sent.length)
    (hf : s.failsAt sent.length) :
    sendChunks (sent ++ p :: unsent) k i rx s =
      .error (.raised (.transferFailed (k + sent.length) (i + sent.flatten.length)))
        { s.ran (sent.length + 1) (s.chunkEvents 0 sent ++ [.chunk p [] false, .cs .deasserted]) with
          cs := .deasserted } := by
  induction sent generalizing s k i rx with
  | nil =>
    obtain ⟨h1, h2⟩ := hf
    simp only [List.length_nil] at h1 h2
    simp only [List.nil_append, sendChunks]
    have hx : xfer p s = .ok (false, s.rxAt 0 p.length) (s.afterChunk p) := by simp [xfer, h1, h2]
    rw [bind_ok hx]
    simp [csDeassert, State.log, State.afterChunk, h1, State.ran, State.takeDraw, State.chunkEvents,
      State.edgeWithin]
  | cons q qs ih =>
    have hl := later_ran s 1 (s.chunkEvents 0 [q])
    have hh : s.goThrough (1 + qs.length) := by simpa [Nat.add_comm] using h
    have hf' : (s.ran 1 (s.chunkEvents 0 [q])).failsAt qs.length := by
      have := hf
      simp only [List.length_cons] at this
      simpa [State.failsAt, hl.drawAt, Nat.add_comm] using this
    simp only [List.cons_append, sendChunks]
    rw [bind_ok (xfer_ok (goThrough_le hh (by omega)) q)]
    simp only [if_true]
    rw [ih _ _ _ (hl.goThrough hh) hf', hl.chunkEvents]
    have hr := ran_ran s 1 (qs.length + 1) (s.chunkEvents 0 [q])
      (s.chunkEvents (1 + 0) qs ++ [.chunk p [] false, .cs .deasserted])
    rw [hr]
    simp [State.chunkEvents, Nat.add_comm, Nat.add_assoc]

theorem Later.cutEvents {s t : State} {n : Nat} (h : Later s t n) (k : Nat) (p : List Byte) (c : Cut) :
    t.cutEvents k p c = s.cutEvents (n + k) p c := by
  cases c <;> simp [State.cutEvents, h.drawAt, h.rxAt]

/-- After them chip-select can be released, from an open transaction. -/
theorem framed_cutEvents (s : State) (k : Nat) (p : List Byte) (c : Cut) {l : BusLine}
    (h : l = .opened ∨ l = .sending) :
    framed l (s.cutEvents k p c ++ [.cs .deasserted]) = some .released := by
  rcases h with rfl | rfl <;> cases c <;> simp [State.cutEvents, framed, framedEvent] <;>
    cases (s.drawAt k).ok <;> rfl

theorem fits_cutEvents {c : Config} (s : State) (k : Nat) {p : List Byte} (cut : Cut)
    (h : 1 ≤ p.length ∧ p.length ≤ c.maxXfer) : ∀ e ∈ s.cutEvents k p cut, chunkFits c e = true := by
  cases cut with
  | beforeSelect => simp [State.cutEvents]
  | beforeChunk => simp [State.cutEvents]
  | afterBytes n => simp [State.cutEvents, chunkFits]; omega
  | afterChunk =>
    simp only [State.cutEvents, List.mem_singleton, forall_eq, chunkFits, decide_eq_true_eq]
    cases (s.drawAt k).ok <;> simp [h]

/-- Everything the state in which SRC reset falls about a chunk is. -/
theorem cutAbout_facts (s : State) (p : List Byte) (c : Cut) :
    Later s (s.cutAbout p c) 1 ∧ (s.cutAbout p c).delivered = s.delivered ∧ (s.cutAbout p c).port = s.port
      ∧ (s.cutAbout p c).cs = s.cs ∧ (s.cutAbout p c).rst = s.rst
      ∧ (s.cutAbout p c).trace = s.trace ++ s.cutEvents 0 p c := by
  cases c <;> exact ⟨⟨rfl, rfl, rfl⟩, rfl, rfl, rfl, rfl, by simp [State.cutAbout, State.cutEvents]⟩

/-- The loop of `Seg` on a chunk about which SRC reset falls (R260). -/
theorem sendChunks_cut {s : State} (sent : List (List Byte)) (p : List Byte)
    (unsent : List (List Byte)) (k i : Nat) (rx : List Byte) (h : s.goThrough sent.length) {c : Cut}
    (hc : (s.drawAt sent.length).cut = some c) :
    ∃ u, sendChunks (sent ++ p :: unsent) k i rx s = .error .stopped (srcReset u)
      ∧ Later s u (sent.length + 1) ∧ u.delivered = s.delivered ∧ u.port = s.port ∧ u.cs = s.cs
      ∧ u.rst = s.rst
      ∧ u.trace = s.trace ++ (s.chunkEvents 0 sent ++ s.cutEvents sent.length p c) := by
  induction sent generalizing s k i rx with
  | nil =>
    simp only [List.length_nil] at hc
    obtain ⟨f1, f2, f3, f4, f5, f6⟩ := cutAbout_facts s p c
    refine ⟨s.cutAbout p c, ?_, f1, f2, f3, f4, f5, by simpa [State.chunkEvents] using f6⟩
    simp only [List.nil_append, sendChunks]
    exact bind_error (by simp [xfer, hc])
  | cons q qs ih =>
    have hl := later_ran s 1 (s.chunkEvents 0 [q])
    have hh : s.goThrough (1 + qs.length) := by simpa [Nat.add_comm] using h
    have hc' : ((s.ran 1 (s.chunkEvents 0 [q])).drawAt qs.length).cut = some c := by
      rw [hl.drawAt, Nat.add_comm]
      exact hc
    obtain ⟨u, h1, h2, h3, h4, h5, h6, h7⟩ :=
      ih (k + 1) (i + q.length) (rx ++ s.rxAt 0 q.length) (hl.goThrough hh) hc'
    refine ⟨u, ?_, ?_, h3, h4, h5, h6, ?_⟩
    · simp only [List.cons_append, sendChunks]
      rw [bind_ok (xfer_ok (goThrough_le hh (by omega)) q)]
      simpa using h1
    · have := hl.trans h2
      rwa [Nat.add_comm 1] at this
    · rw [h7, hl.chunkEvents, hl.cutEvents]
      simp [State.ran, State.chunkEvents, Nat.add_comm]

/-- The first of the next n chunks that does not go through, if there is one. -/
theorem first_stop (s : State) (n : Nat) :
    s.goThrough n ∨ ∃ j, j < n ∧ s.goThrough j ∧ (s.failsAt j ∨ ∃ c, (s.drawAt j).cut = some c) := by
  induction n with
  | zero => exact .inl fun _ h => absurd h (Nat.not_lt_zero _)
  | succ n ih =>
    rcases ih with h | ⟨j, hj, h⟩
    · cases hc : (s.drawAt n).cut with
      | some c => exact .inr ⟨n, by omega, h, .inr ⟨c, hc⟩⟩
      | none =>
        cases ho : (s.drawAt n).ok with
        | false => exact .inr ⟨n, by omega, h, .inl ⟨ho, hc⟩⟩
        | true =>
          left
          intro k hk
          by_cases he : k = n
          · subst he; exact ⟨ho, hc⟩
          · exact h k (by omega)
    · exact .inr ⟨j, by omega, h⟩

end Sys2Proof.Machine
end

