-- ==== Sys2Proof/Laws/Runs.lean ====
section
/-! SUPPORT. `Runs` for each shared operation: a transaction, register accesses, waits, state changes,
configuration writes and the frame sequences. -/

namespace Sys2Proof.Machine

variable {F : State → State → Prop}

/-! ### Framing of transactions -/

theorem framed_chunkEvents (s : State) (k : Nat) (ps : List (List Byte)) :
    framed .sending (s.chunkEvents k ps) = some .sending := by
  induction ps generalizing k with
  | nil => rfl
  | cons p ps ih => simpa [State.chunkEvents, framed, framedEvent] using ih (k + 1)

theorem framed_chunkEvents_opened (s : State) (k : Nat) {ps : List (List Byte)} (h : ps ≠ []) :
    framed .opened (s.chunkEvents k ps) = some .sending := by
  obtain ⟨p, ps, rfl⟩ := List.exists_cons_of_ne_nil h
  simpa [State.chunkEvents, framed, framedEvent] using framed_chunkEvents s (k + 1) ps

theorem fits_chunkEvents {c : Config} (s : State) (k : Nat) {ps : List (List Byte)}
    (h : ∀ p ∈ ps, 1 ≤ p.length ∧ p.length ≤ c.maxXfer) :
    ∀ e ∈ s.chunkEvents k ps, chunkFits c e = true := by
  induction ps generalizing k with
  | nil => simp [State.chunkEvents]
  | cons p ps ih =>
    intro e he
    rcases List.mem_cons.1 he with rfl | he
    · simpa [chunkFits, State.rxAt] using h p (by simp)
    · exact ih (k + 1) (fun q hq => h q (by simp [hq])) e he

theorem framed_transfer (s : State) (k : Nat) {ps : List (List Byte)} (h : ps ≠ []) :
    framed .released (s.transfer k ps) = some .released := by
  simp [State.transfer, framed, framedEvent, framed_append, framed_chunkEvents_opened s k h]

theorem framed_brokenTransfer (s : State) (k : Nat) (ps : List (List Byte)) (p : List Byte) :
    framed .released (s.brokenTransfer k ps p) = some .released := by
  by_cases h : ps = []
  · subst h; rfl
  · simp [State.brokenTransfer, framed, framedEvent, framed_append, framed_chunkEvents_opened s k h]

theorem Framed.transfer {c : Config} (s : State) (k : Nat) {ps : List (List Byte)} (h : ps ≠ [])
    (hf : 1 ≤ c.maxXfer → ∀ p ∈ ps, 1 ≤ p.length ∧ p.length ≤ c.maxXfer) :
    Framed c (s.transfer k ps) := by
  refine ⟨framed_transfer s k h, fun hx e he => ?_⟩
  simp only [State.transfer, List.mem_cons, List.mem_append, List.not_mem_nil, or_false] at he
  rcases he with rfl | he | rfl
  · rfl
  · exact fits_chunkEvents s k (hf hx) e he
  · rfl

theorem Framed.brokenTransfer {c : Config} (s : State) (k : Nat) {ps : List (List Byte)} {p : List Byte}
    (hf : 1 ≤ c.maxXfer → ∀ q ∈ ps ++ [p], 1 ≤ q.length ∧ q.length ≤ c.maxXfer) :
    Framed c (s.brokenTransfer k ps p) := by
  refine ⟨framed_brokenTransfer s k ps p, fun hx e he => ?_⟩
  simp only [State.brokenTransfer, List.mem_cons, List.mem_append, List.not_mem_nil, or_false] at he
  rcases he with rfl | he | rfl | rfl
  · rfl
  · exact fits_chunkEvents s k (fun q hq => hf hx q (by simp [hq])) e he
  · have := hf hx p (by simp)
    simpa [chunkFits] using this
  · rfl

/-! ### Transactions that fail or are cut -/

/-- A transaction whose chunk after `sent` fails (R122). -/
theorem transaction_failed {s : State} {tx : List Byte} {sent : List (List Byte)} {p : List Byte}
    {unsent : List (List Byte)} (hc : chunksOf s.cfg.maxXfer tx = sent ++ p :: unsent)
    (h : s.goThrough sent.length) (hf : s.failsAt sent.length) :
    transaction tx s = .error (.raised (.transferFailed sent.length sent.flatten.length))
      (s.afterBus (sent.length + 1) (s.brokenTransfer 0 sent p)) := by
  have l0 : Later s ({ s with cs := .asserted }.log (.cs .asserted)) 0 := ⟨rfl, rfl, rfl⟩
  have ha : csAssert s = .ok () ({ s with cs := .asserted }.log (.cs .asserted)) := by
    have : (s.drawAt 0).cut = none := by
      by_cases h0 : sent.length = 0
      · have := hf.2; rwa [h0] at this
      · exact (h 0 (by omega)).2
    simp [csAssert, this]
  have hs := sendChunks_failed (s := { s with cs := .asserted }.log (.cs .asserted)) sent p unsent 0 0 []
    (l0.goThrough (m := sent.length) (by simpa using h)) (by simpa [State.failsAt, l0.drawAt] using hf)
  simp only [transaction]
  rw [bind_ok ha]
  have hseg : seg tx ({ s with cs := .asserted }.log (.cs .asserted)) =
      .error (.raised (.transferFailed sent.length sent.flatten.length))
        (s.afterBus (sent.length + 1) (s.brokenTransfer 0 sent p)) := by
    simp only [seg, config_bind, log_cfg, hc, hs, Nat.zero_add]
    congr 1
    have he := l0.edgeWithin (sent.length + 1)
    simp only [State.edgeWithin, List.range_zero, List.any_nil, Bool.false_or, Nat.zero_add] at he
    rw [l0.chunkEvents]
    simp [State.ran, State.log, State.afterBus, State.brokenTransfer, State.edgeWithin]
    exact congrArg _ he
  exact bind_error hseg

/-- A transaction that SRC reset cuts, before it or in the chunk after `sent` (R260). -/
theorem transaction_cut {s : State} {tx : List Byte} {sent : List (List Byte)} {p : List Byte}
    {unsent : List (List Byte)} (hc : chunksOf s.cfg.maxXfer tx = sent ++ p :: unsent)
    (h : s.goThrough sent.length) {c : Cut} (hcut : (s.drawAt sent.length).cut = some c) :
    ∃ t, transaction tx s = .error .stopped t ∧ CutFrom s t (sent.length + 1) := by
  have hpieces : 1 ≤ s.cfg.maxXfer → ∀ q ∈ sent ++ p :: unsent, 1 ≤ q.length ∧ q.length ≤ s.cfg.maxXfer := by
    intro hx q hq
    rw [← hc] at hq
    exact (chunksOf_isChunking hx tx).2.2 q hq
  have huncut : ∀ k, k + 1 < sent.length + 1 → (s.drawAt k).cut = none := fun k hk => (h k (by omega)).2
  by_cases hb : (s.drawAt 0).cut = some .beforeSelect
  · have h0 : sent.length = 0 := by
      by_contra hne
      have := (h 0 (by omega)).2
      rw [hb] at this
      cases this
    refine ⟨srcReset s.takeDraw, ?_, huncut, ⟨by omega, ?_⟩, resetEdges s.takeDraw, ?_, fun hcs hr => ?_⟩
    · simp only [transaction]
      exact bind_error (by simp [csAssert, hb])
    · simp [hcut]
    · simp [srcReset, State.takeDraw, h0]
    · have : resetEdges s.takeDraw = [] := by simp [resetEdges, State.takeDraw, hcs, hr]
      rw [this]
      exact Framed.nil _
  · have l0 : Later s ({ s with cs := .asserted }.log (.cs .asserted)) 0 := ⟨rfl, rfl, rfl⟩
    obtain ⟨u, h1, h2, h3, h4, h5, h6, h7⟩ :=
      sendChunks_cut (s := { s with cs := .asserted }.log (.cs .asserted)) sent p unsent 0 0 []
        (l0.goThrough (m := sent.length) (by simpa using h)) (c := c) (by rw [l0.drawAt]; simpa using hcut)
    have hu := l0.trans h2
    rw [Nat.zero_add] at hu
    refine ⟨srcReset u, ?_, huncut, ⟨by omega, by simp [hcut]⟩,
      .cs .asserted :: (s.chunkEvents 0 sent ++ s.cutEvents sent.length p c ++ resetEdges u), ?_,
      fun hcs hr => ?_⟩
    · simp only [transaction]
      rw [bind_ok (show csAssert s = .ok () ({ s with cs := .asserted }.log (.cs .asserted)) by
        simp [csAssert, hb])]
      refine bind_error ?_
      simp only [seg, config_bind, log_cfg, hc]
      exact h1
    · rw [l0.chunkEvents, l0.cutEvents] at h7
      simp [srcReset, h7, h3, h4, hu.chip, hu.draws, hu.cfg, State.log]
    · have he : resetEdges u = [.cs .deasserted] := by
        simp [resetEdges, h5, h6, State.log, hr]
      rw [he]
      refine ⟨?_, fun hx e he => ?_⟩
      · by_cases hs : sent = []
        · subst hs
          simpa [framed, framedEvent, State.chunkEvents] using
            framed_cutEvents s 0 p c (l := .opened) (.inl rfl)
        · simpa [framed, framedEvent, framed_append, framed_chunkEvents_opened s 0 hs] using
            framed_cutEvents s sent.length p c (l := .sending) (.inr rfl)
      · simp only [List.mem_cons, List.mem_append, List.not_mem_nil, or_false] at he
        rcases he with rfl | (he | he) | rfl
        · rfl
        · exact fits_chunkEvents s 0 (fun q hq => hpieces hx q (by simp [hq])) e he
        · exact fits_cutEvents s _ c (hpieces hx p (by simp)) e he
        · rfl

/-! ### Base of bus moves -/

theorem Base.afterBus {s : State} {n : Nat} {es : List BusEvent} (hu : s.uncutFor n)
    (hf : Framed s.cfg es) : Base s (s.afterBus n es) n :=
  ⟨later_afterBus s n es, hu, rfl, rfl, rfl, fun _ => rfl, id, es, rfl, hf⟩

/-- Everything a transaction can do. -/
theorem transaction_runs (hF : BusClosed F) {tx : List Byte} (hne : tx ≠ []) : Runs F (transaction tx) := by
  intro s
  have hpieces : 1 ≤ s.cfg.maxXfer → ∀ q ∈ chunksOf s.cfg.maxXfer tx, 1 ≤ q.length ∧ q.length ≤ s.cfg.maxXfer :=
    fun hx q hq => (chunksOf_isChunking hx tx).2.2 q hq
  rcases first_stop s (chunksOf s.cfg.maxXfer tx).length with h | ⟨j, hj, h, hj'⟩
  · refine ⟨(chunksOf s.cfg.maxXfer tx).length, ?_⟩
    rw [transaction_ok hne h]
    exact ⟨Base.afterBus (fun k hk => (h k hk).2) (Framed.transfer s 0 (chunksOf_ne_nil hne) hpieces),
      hF.bus s _ _ fun k hk => (h k hk).2⟩
  · obtain ⟨sent, p, unsent, hc, hl⟩ : ∃ sent p unsent,
        chunksOf s.cfg.maxXfer tx = sent ++ p :: unsent ∧ sent.length = j := by
      refine ⟨(chunksOf s.cfg.maxXfer tx).take j, (chunksOf s.cfg.maxXfer tx)[j],
        (chunksOf s.cfg.maxXfer tx).drop (j + 1), ?_, by simp; omega⟩
      rw [List.cons_getElem_drop_succ, List.take_append_drop]
    subst hl
    refine ⟨sent.length + 1, ?_⟩
    rcases hj' with hf | ⟨c, hcut⟩
    · rw [transaction_failed hc h hf]
      have hu : s.uncutFor (sent.length + 1) := fun k hk => by
        by_cases he : k = sent.length
        · subst he; exact hf.2
        · exact (h k (by omega)).2
      refine ⟨Base.afterBus hu (Framed.brokenTransfer s 0 fun hx q hq => ?_), hF.bus s _ _ hu⟩
      refine hpieces hx q ?_
      rw [hc]
      simp only [List.mem_append, List.mem_cons, List.not_mem_nil, or_false] at hq ⊢
      tauto
    · obtain ⟨t, ht, hct⟩ := transaction_cut hc h hcut
      rw [ht]
      exact .inr hct

/-! ### Register accesses, waits and state changes -/

theorem commandWord_ne_nil (c : Config) (a : RegAddr) (f : Byte) : commandWord c a f ≠ [] := by
  unfold commandWord
  split <;> simp

theorem readExchange_ne_nil (c : Config) (a : RegAddr) : readExchange c a ≠ [] := by
  simp [readExchange, commandWord_ne_nil]

theorem writeExchange_ne_nil (c : Config) (a : RegAddr) (v : Half) : writeExchange c a v ≠ [] := by
  simp [writeExchange, commandWord_ne_nil]

theorem memRead_runs (hF : BusClosed F) (a : RegAddr) : Runs F (memRead a) :=
  .config_bind fun _ => .bind hF.trans
    (transaction_runs hF (readExchange_ne_nil _ _)) fun _ => .pure hF.refl _

theorem memWrite_runs (hF : BusClosed F) (a : RegAddr) (v : Half) : Runs F (memWrite a v) :=
  .config_bind fun _ => .bind hF.trans
    (transaction_runs hF (writeExchange_ne_nil _ _ _)) fun _ => .pure hF.refl _

theorem memReadByte_runs (hF : BusClosed F) (a : RegAddr) : Runs F (memReadByte a) :=
  .bind hF.trans (memRead_runs hF a) fun _ => .pure hF.refl _

theorem memWriteByte_runs (hF : BusClosed F) (a : RegAddr) (v : Byte) : Runs F (memWriteByte a v) :=
  memWrite_runs hF a _

theorem writeTrxState_runs (hF : BusClosed F) (code : TrxCode) : Runs F (writeTrxState code) :=
  .config_bind fun _ => memWriteByte_runs hF _ _

theorem Base.of_fields {s t : State} (h : Later s t 0) (h1 : t.delivered = s.delivered)
    (h2 : t.port = s.port) (h3 : t.slpTr = s.slpTr) (h4 : t.cs = s.cs) (h5 : t.rst = s.rst)
    (h6 : t.trace = s.trace) : Base s t 0 :=
  ⟨h, fun _ h => absurd h (Nat.not_lt_zero _), h1, h2, h3, fun h => h4.trans h, fun h => h5.trans h,
    [], by simp [h6], Framed.nil _⟩

/-- A register read leaves `pollCount` alone. -/
theorem memReadByte_pollCount {a : RegAddr} {s t : State} {v : Byte} (h : memReadByte a s = .ok v t) :
    t.pollCount = s.pollCount := by
  obtain ⟨n, hn⟩ := memReadByte_runs (F := fun a b => b.pollCount = a.pollCount)
    ⟨fun _ => rfl, fun _ _ _ h h' => h'.trans h, fun _ _ _ _ => rfl⟩ a s
  rw [h] at hn
  exact hn.2

/-- The outcomes of a piece from one state. -/
def RunsFrom {α : Type} (F : State → State → Prop) (m : Seq α) (s : State) : Prop :=
  ∃ n, match m s with
    | .ok _ t => Base s t n ∧ F s t
    | .error (.raised _) t => Base s t n ∧ F s t
    | .error .stopped t =>
      (∃ u a, Base s u n ∧ F s u ∧ (s.cfg.pollLimit = none ∨ s.cfg.pollLimit = some 0)
        ∧ t = { u with seq := u.seq.map fun p => { p with step := a } })
      ∨ CutFrom s t n

theorem runsFrom_trans (hF : BusClosed F) {α : Type} {m : Seq α} {s t : State} {n : Nat}
    (hb : Base s t n) (hf : F s t) (h : RunsFrom F m t) :
    ∃ n, match m t with
      | .ok _ u => Base s u n ∧ F s u
      | .error (.raised _) u => Base s u n ∧ F s u
      | .error .stopped u =>
        (∃ w a, Base s w n ∧ F s w ∧ (s.cfg.pollLimit = none ∨ s.cfg.pollLimit = some 0)
          ∧ u = { w with seq := w.seq.map fun p => { p with step := a } })
        ∨ CutFrom s u n := by
  obtain ⟨k, hk⟩ := h
  refine ⟨n + k, ?_⟩
  cases hm : m t with
  | ok a u => rw [hm] at hk; exact ⟨hb.trans hk.1, hF.trans _ _ _ hf hk.2⟩
  | error e u =>
    rw [hm] at hk
    cases e with
    | raised e => exact ⟨hb.trans hk.1, hF.trans _ _ _ hf hk.2⟩
    | stopped =>
      rcases hk with ⟨w, a, hw, hFw, hp, rfl⟩ | hk
      · exact .inl ⟨w, a, hb.trans hw, hF.trans _ _ _ hf hFw, by rwa [hb.later.cfg] at hp, rfl⟩
      · exact .inr (hb.cutFrom hk)

theorem pollLoop_runs (hF : BusClosed F) (hp : ∀ s n, F s { s with pollCount := n })
    (place : SeqStep) (awaited : TrxCode) (n : Nat) (s : State)
    (hn : ∀ l, s.cfg.pollLimit = some l → l = 0 ∨ l = s.pollCount + n ∧ 0 < n) :
    RunsFrom F (pollLoop place awaited n) s := by
  induction n generalizing s with
  | zero =>
    refine ⟨0, .inl ⟨s, place, Base.refl s, hF.refl s, ?_, rfl⟩⟩
    cases h : s.cfg.pollLimit with
    | none => exact .inl rfl
    | some l =>
      rcases hn l h with rfl | h
      · exact .inr rfl
      · omega
  | succ n ih =>
    obtain ⟨k, hk⟩ := memReadByte_runs hF s.cfg.map.trxStatus s
    unfold RunsFrom
    simp only [pollLoop, config_bind]
    rw [bind_run]
    cases hm : memReadByte s.cfg.map.trxStatus s with
    | error e t =>
      rw [hm] at hk
      exact ⟨k, by cases e <;> exact hk⟩
    | ok v t =>
      rw [hm] at hk
      obtain ⟨hb, hf⟩ := hk
      have hup : Base t { t with pollCount := t.pollCount + 1 } 0 :=
        Base.of_fields ⟨rfl, rfl, rfl⟩ rfl rfl rfl rfl rfl rfl
      have hb' : Base s { t with pollCount := t.pollCount + 1 } k := hb.trans hup
      have hf' : F s { t with pollCount := t.pollCount + 1 } := hF.trans _ _ _ hf (hp t _)
      have hpc := memReadByte_pollCount hm
      simp only [update_bind, current_bind]
      by_cases h1 : statusField s.cfg v = awaited
      · simp only [h1, if_true]
        exact ⟨k, hb', hf'⟩
      · simp only [h1, if_false]
        by_cases h2 : pollLimitReached s.cfg (t.pollCount + 1) = true
        · simp only [h2, if_true]
          exact ⟨k, hb', hf'⟩
        · simp only [h2]
          refine runsFrom_trans hF hb' hf' (ih { t with pollCount := t.pollCount + 1 } ?_)
          intro l hl
          have hl' : s.cfg.pollLimit = some l := by rw [← hb.later.cfg]; exact hl
          have h3 : ¬ l ≤ t.pollCount + 1 := by simpa [pollLimitReached, hl'] using h2
          rcases hn l hl' with h | ⟨h, -⟩
          · exact .inl h
          · right
            simp only
            omega

/-- Everything a wait can do (R161, R276). -/
theorem waitState_runs (hF : BusClosed F) (hp : ∀ s n, F s { s with pollCount := n })
    (place : SeqStep) (awaited : TrxCode) : Runs F (waitState place awaited) := by
  intro s
  obtain ⟨t, ht⟩ : ∃ t : State, t = { s with pollCount := 0 } := ⟨_, rfl⟩
  have hb : Base s t 0 := by
    subst ht
    exact Base.of_fields ⟨rfl, rfl, rfl⟩ rfl rfl rfl rfl rfl rfl
  have hf : F s t := by
    subst ht
    exact hp s 0
  have h0 : t.pollCount = 0 := by
    subst ht
    rfl
  have h := pollLoop_runs hF hp place awaited (pollBudget t) t fun l hl => by
    have : pollBudget t = l := by simp [pollBudget, hl]
    omega
  have hw : waitState place awaited s = pollLoop place awaited (pollBudget t) t := by
    subst ht
    rfl
  rw [hw]
  exact runsFrom_trans hF hb hf h

/-- Everything a phase of a state change can do (R160). -/
theorem statePhase_runs (hF : BusClosed F) (hp : ∀ s n, F s { s with pollCount := n }) (call : StateCall)
    (phase : Phase) (cmd : TrxCmd) : Runs F (statePhase call phase cmd) :=
  .config_bind fun _ => .bind hF.trans (writeTrxState_runs hF _) fun _ => waitState_runs hF hp _ _

theorem targetPhase_runs (hF : BusClosed F) (hp : ∀ s n, F s { s with pollCount := n })
    (call : StateCall) : Runs F (targetPhase call) :=
  .config_bind fun _ => by
    split
    · exact .pure hF.refl _
    · exact statePhase_runs hF hp _ _ _

/-- Everything a state change can do (R160). -/
theorem setTrxState_runs (hF : BusClosed F) (hp : ∀ s n, F s { s with pollCount := n })
    (call : StateCall) : Runs F (setTrxState call) :=
  .bind hF.trans (statePhase_runs hF hp _ _ _) fun _ => targetPhase_runs hF hp _

theorem RunsFrom.bind (hF : BusClosed F) {α β : Type} {m : Seq α} {f : α → Seq β} {s : State}
    (hm : RunsFrom F m s) (hf : ∀ a, Runs F (f a)) : RunsFrom F (m >>= f) s := by
  obtain ⟨n, hn⟩ := hm
  unfold RunsFrom
  rw [bind_run]
  cases hms : m s with
  | ok a t =>
    rw [hms] at hn
    exact runsFrom_trans hF hn.1 hn.2 (hf a t)
  | error e t =>
    rw [hms] at hn
    exact ⟨n, by cases e <;> exact hn⟩

/-- Everything a state change taken up again can do, where polling has no bound (R276). -/
theorem resumeCall_runs (hF : BusClosed F) (hp : ∀ s n, F s { s with pollCount := n }) (call : StateCall)
    (phase : Phase) {s : State} (h : s.cfg.pollLimit = none) : RunsFrom F (resumeCall call phase) s := by
  refine RunsFrom.bind hF (m := pollLoop (.waiting call phase) (awaitedIn s.cfg call phase) (pollBudget s))
    (pollLoop_runs hF hp _ _ _ s fun l hl => by simp [h] at hl) fun _ => ?_
  cases phase with
  | forcedOff => exact targetPhase_runs hF hp call
  | target => exact .pure hF.refl _

/-! ### Configuration writes -/

theorem cfgWriteLoop_runs (hF : BusClosed F) (hr : ∀ s n, F s { s with retryCount := n })
    (a : RegAddr) (v : Byte) (n : Nat) : Runs F (cfgWriteLoop a v n) := by
  have hu : Runs F (update fun s => { s with retryCount := s.retryCount + 1 }) :=
    .update (fun s => hr s _) fun s => Base.of_fields ⟨rfl, rfl, rfl⟩ rfl rfl rfl rfl rfl rfl
  induction n with
  | zero =>
    refine .bind hF.trans (memWriteByte_runs hF a v).attempt fun r => ?_
    cases r with
    | ok _ => exact .pure hF.refl _
    | error e => exact .bind hF.trans hu fun _ => .raise hF.refl _
  | succ n ih =>
    refine .bind hF.trans (memWriteByte_runs hF a v).attempt fun r => ?_
    cases r with
    | ok _ => exact .pure hF.refl _
    | error e => exact .bind hF.trans hu fun _ => ih

/-- Everything a configuration write can do (R218). -/
theorem cfgWrite_runs (hF : BusClosed F) (hr : ∀ s n, F s { s with retryCount := n })
    (a : RegAddr) (v : Byte) : Runs F (cfgWrite a v) :=
  .bind hF.trans
    (.update (fun s => hr s _) fun _ => Base.of_fields ⟨rfl, rfl, rfl⟩ rfl rfl rfl rfl rfl rfl)
    fun _ => .config_bind fun _ => cfgWriteLoop_runs hF hr a v _

theorem writeChannelRegs_runs (hF : BusClosed F) (hr : ∀ s n, F s { s with retryCount := n }) :
    Runs F writeChannelRegs :=
  .current_bind fun _ => by
    split
    · exact cfgWrite_runs hF hr _ _
    · exact cfgWrite_runs hF hr _ _

theorem writeSeed_runs (hF : BusClosed F) (hr : ∀ s n, F s { s with retryCount := n }) :
    Runs F writeSeed :=
  .current_bind fun _ => cfgWrite_runs hF hr _ _

/-! ### Frames -/

/-- Everything a frame write can do (R141). -/
theorem frameBufferWrite_runs (hF : BusClosed F) (f : List Byte)
    (ht : ∀ s, F s { s with txbuf := s.txbuf.writeRange 0 (frameImage f) }) :
    Runs F (frameBufferWrite f) :=
  .bind hF.trans
    (.update ht fun s => Base.of_fields ⟨rfl, rfl, rfl⟩ rfl rfl rfl rfl rfl rfl)
    fun _ => .config_bind fun _ => .bind hF.trans (transaction_runs hF (by simp)) fun _ =>
      .pure hF.refl _

theorem transmitStart_runs (hF : BusClosed F) : Runs F transmitStart :=
  .config_bind fun _ => writeTrxState_runs hF _

theorem frameWriteSeq_runs (hF : BusClosed F) (f : List Byte)
    (ht : ∀ s, F s { s with txbuf := s.txbuf.writeRange 0 (frameImage f) }) :
    Runs F (frameWriteSeq f) :=
  .bind hF.trans (frameBufferWrite_runs hF f ht) fun _ => transmitStart_runs hF

end Sys2Proof.Machine
end

