-- ==== Sys2Proof/Laws/FrameRead.lean ====
section
/-! SUPPORT. Everything a frame read can do (spec R145, R146): the one transaction of two segments. -/

namespace Sys2Proof.Machine

variable {F : State → State → Prop}

theorem chunkEvents_append (s : State) (k : Nat) (ps qs : List (List Byte)) :
    s.chunkEvents k (ps ++ qs) = s.chunkEvents k ps ++ s.chunkEvents (k + ps.length) qs := by
  induction ps generalizing k with
  | nil => simp [State.chunkEvents]
  | cons p ps ih => simp [State.chunkEvents, ih, Nat.add_assoc, Nat.add_comm]

/-- t is s inside a transaction it opened: n chunks have gone through, with the pieces ps. -/
structure Inside (s t : State) (n : Nat) (ps : List (List Byte)) : Prop where
  count : n = ps.length
  through : s.goThrough n
  state : t = ({ s with cs := .asserted }.log (.cs .asserted)).ran n (s.chunkEvents 0 ps)

theorem Inside.later {s t : State} {n : Nat} {ps : List (List Byte)} (h : Inside s t n ps) :
    Later s t n := by
  rw [h.state]
  exact ⟨rfl, rfl, rfl⟩

theorem edgeWithin_opened (s : State) (n : Nat) :
    ({ s with cs := .asserted }.log (.cs .asserted)).edgeWithin n = s.edgeWithin n := by
  have l0 : Later s ({ s with cs := .asserted }.log (.cs .asserted)) 0 := ⟨rfl, rfl, rfl⟩
  have he := l0.edgeWithin n
  simpa [State.edgeWithin] using he

/-- Chip-select released inside a transaction: the transaction is complete. -/
theorem Inside.release {s t : State} {n : Nat} {ps : List (List Byte)} (h : Inside s t n ps) :
    ({ t with cs := .deasserted }.log (.cs .deasserted)) = s.afterBus n (s.transfer 0 ps) := by
  rw [h.state]
  simp only [State.ran, edgeWithin_opened]
  simp [State.log, State.afterBus, State.transfer]

theorem received_append (s : State) (k : Nat) (ps qs : List (List Byte)) :
    s.received k (ps ++ qs) = s.received k ps ++ s.received (k + ps.length) qs := by
  induction ps generalizing k with
  | nil => simp [State.received]
  | cons p ps ih => simp [State.received, ih, Nat.add_assoc, Nat.add_comm]

/-- A list with an element at j, cut there. -/
theorem split_at_index {α : Type} {xs : List α} {j : Nat} (h : j < xs.length) :
    ∃ before x after, xs = before ++ x :: after ∧ before.length = j :=
  ⟨xs.take j, xs[j], xs.drop (j + 1), by rw [List.cons_getElem_drop_succ, List.take_append_drop],
    by simp; omega⟩

/-- A segment inside a transaction: it goes through; or a chunk of it fails, and the transaction is broken off;
or SRC reset cuts it. -/
theorem Inside.seg {s t : State} {n : Nat} {ps : List (List Byte)} (h : Inside s t n ps) (tx : List Byte)
    (hps : ps ≠ [] ∨ (s.drawAt 0).cut ≠ some .beforeSelect) :
    (∃ u, Machine.seg tx t = .ok (s.received n (chunksOf s.cfg.maxXfer tx)) u
        ∧ Inside s u (n + (chunksOf s.cfg.maxXfer tx).length) (ps ++ chunksOf s.cfg.maxXfer tx))
    ∨ (∃ sent p unsent, chunksOf s.cfg.maxXfer tx = sent ++ p :: unsent ∧ s.goThrough (n + sent.length)
        ∧ s.failsAt (n + sent.length)
        ∧ Machine.seg tx t = .error (.raised (.transferFailed sent.length sent.flatten.length))
            (s.afterBus (n + sent.length + 1) (s.brokenTransfer 0 (ps ++ sent) p)))
    ∨ ∃ sent p unsent u, chunksOf s.cfg.maxXfer tx = sent ++ p :: unsent
        ∧ Machine.seg tx t = .error .stopped u
        ∧ ((1 ≤ s.cfg.maxXfer → ∀ q ∈ ps, 1 ≤ q.length ∧ q.length ≤ s.cfg.maxXfer) →
            CutFrom s u (n + sent.length + 1)) := by
  have hl := h.later
  have hseg : Machine.seg tx t = sendChunks (chunksOf s.cfg.maxXfer tx) 0 0 [] t := by
    simp only [Machine.seg, config_bind, hl.cfg]
  rw [hseg]
  rcases first_stop t (chunksOf s.cfg.maxXfer tx).length with hg | ⟨j, hj, hg, hj'⟩
  · left
    refine ⟨_, by rw [sendChunks_ok _ _ _ _ hg, hl.received]; rfl, by rw [h.count]; simp, ?_, ?_⟩
    · intro k hk
      by_cases hk' : k < n
      · exact h.through k hk'
      · have := hg (k - n) (by omega)
        rwa [hl.drawAt, Nat.add_sub_cancel' (by omega)] at this
    · rw [hl.chunkEvents, h.state, ran_ran, chunkEvents_append, h.count]
      simp
  · have hgo : s.goThrough (n + j) := by
      intro k hk
      by_cases hk' : k < n
      · exact h.through k hk'
      · have := hg (k - n) (by omega)
        rwa [hl.drawAt, Nat.add_sub_cancel' (by omega)] at this
    obtain ⟨sent, p, unsent, hc, rfl⟩ := split_at_index hj
    right
    rcases hj' with hf | ⟨c, hcut⟩
    · left
      refine ⟨sent, p, unsent, hc, hgo, by simpa [State.failsAt, hl.drawAt] using hf, ?_⟩
      rw [hc, sendChunks_failed sent p unsent 0 0 [] hg hf, hl.chunkEvents, h.state]
      simp only [Nat.zero_add, ran_ran, Nat.add_zero]
      congr 1
      simp only [State.ran, edgeWithin_opened]
      simp [State.log, State.afterBus, State.brokenTransfer, chunkEvents_append, h.count, Nat.add_assoc]
    · right
      obtain ⟨u, h1, h2, h3, h4, h5, h6, h7⟩ := sendChunks_cut sent p unsent 0 0 [] hg hcut
      have hu := hl.trans h2
      refine ⟨sent, p, unsent, srcReset u, hc, by rw [hc]; exact h1, fun hfit => ?_⟩
      have hpieces : 1 ≤ s.cfg.maxXfer → ∀ q ∈ ps ++ (sent ++ [p]), 1 ≤ q.length ∧ q.length ≤ s.cfg.maxXfer := by
        intro hx q hq
        rcases List.mem_append.1 hq with hq | hq
        · exact hfit hx q hq
        · refine (chunksOf_isChunking hx tx).2.2 q ?_
          rw [hc]
          simp only [List.mem_append, List.mem_cons, List.not_mem_nil, or_false] at hq ⊢
          tauto
      have hcs : u.cs = .asserted := by rw [h5, h.state]; rfl
      have hrst : u.rst = s.rst := by rw [h6, h.state]; rfl
      have htr : u.trace = s.trace ++ (.cs .asserted ::
          (s.chunkEvents 0 (ps ++ sent) ++ s.cutEvents (n + sent.length) p c)) := by
        rw [h7, hl.chunkEvents, hl.cutEvents, h.state]
        simp [State.ran, State.log, chunkEvents_append, h.count]
      have hdel : u.delivered = s.delivered := by rw [h3, h.state]; rfl
      have hport : u.port = s.port := by rw [h4, h.state]; rfl
      rw [hl.drawAt] at hcut
      refine ⟨fun k hk => (hgo k (by omega)).2, ⟨by omega, ?_⟩,
        .cs .asserted :: (s.chunkEvents 0 (ps ++ sent) ++ s.cutEvents (n + sent.length) p c)
          ++ resetEdges u, ?_, fun _ hr => ?_⟩
      · rw [show n + sent.length + 1 - 1 = n + sent.length by omega, hcut]
        simp
      · simp [srcReset, htr, hdel, hport, hu.chip, hu.draws, hu.cfg, Nat.add_assoc]
      · have he : resetEdges u = [.cs .deasserted] := by simp [resetEdges, hcs, hrst, hr]
        rw [he]
        refine ⟨?_, fun hx e he => ?_⟩
        · by_cases hs : ps ++ sent = []
          · rw [hs]
            simpa [framed, framedEvent, State.chunkEvents] using
              framed_cutEvents s _ p c (l := .opened) (.inl rfl)
          · simpa [framed, framedEvent, framed_append, framed_chunkEvents_opened s 0 hs] using
              framed_cutEvents s _ p c (l := .sending) (.inr rfl)
        · simp only [List.mem_cons, List.mem_append, List.not_mem_nil, or_false] at he
          rcases he with (rfl | (he | he)) | rfl
          · rfl
          · exact fits_chunkEvents s 0 (fun q hq => hpieces hx q (by
              simp only [List.mem_append] at hq ⊢; tauto)) e he
          · exact fits_cutEvents s _ c (hpieces hx p (by simp)) e he
          · rfl

/-- Everything a frame read can do: `rxbuf` changes only where the whole read went through, to the accepted
length byte and what was received after it. -/
theorem frameRead_runs (hF : BusClosed F)
    (hr : ∀ (s : State) (l : Byte) (body : List Byte), l.toNat ≤ s.cfg.maxPhr →
      (1 ≤ s.cfg.maxXfer → body.length = l.toNat + 1) →
      F s { s with rxbuf := s.rxbuf.writeRange 0 (l :: body) }) : Runs F frameRead := by
  intro s
  by_cases hb : (s.drawAt 0).cut = some .beforeSelect
  · refine ⟨1, ?_⟩
    have : frameRead s = .error .stopped (srcReset s.takeDraw) := by
      simp only [frameRead]
      exact bind_error (by simp [csAssert, hb])
    rw [this]
    refine .inr ⟨fun k hk => absurd hk (by omega), ⟨by omega, by simp [hb]⟩, resetEdges s.takeDraw,
      by simp [srcReset, State.takeDraw], fun hcs hr => ?_⟩
    have : resetEdges s.takeDraw = [] := by simp [resetEdges, State.takeDraw, hcs, hr]
    rw [this]
    exact Framed.nil _
  · have h0 : Inside s ({ s with cs := .asserted }.log (.cs .asserted)) 0 [] :=
      ⟨rfl, fun _ h => absurd h (Nat.not_lt_zero _), by
        simp [State.ran, State.chunkEvents, State.edgeWithin, State.log]⟩
    have hfr : frameRead s = (do
        let hdr ← Machine.seg [s.cfg.profile.fbReadCmd, 0x00#8]
        let l := byteAt hdr 1
        if s.cfg.maxPhr < l.toNat then do
          csDeassert
          raise (.frameInvalid l)
        else do
          let body ← Machine.seg (zeros (l.toNat + 1))
          csDeassert
          let f : RxFrame := { len := l, body := body }
          update fun s => { s with rxbuf := s.rxbuf.writeRange 0 f.image }
          pure f) ({ s with cs := .asserted }.log (.cs .asserted)) := by
      simp only [frameRead]
      rw [bind_ok (show csAssert s = .ok () ({ s with cs := .asserted }.log (.cs .asserted)) by
        simp [csAssert, hb])]
      rfl
    rw [hfr]
    have fit : ∀ tx, 1 ≤ s.cfg.maxXfer → ∀ q ∈ chunksOf s.cfg.maxXfer tx,
        1 ≤ q.length ∧ q.length ≤ s.cfg.maxXfer := fun tx hx q hq => (chunksOf_isChunking hx tx).2.2 q hq
    have broken : ∀ (n : Nat) (ps sent : List (List Byte)) (p : List Byte) (unsent : List (List Byte))
        (tx : List Byte), chunksOf s.cfg.maxXfer tx = sent ++ p :: unsent →
        (1 ≤ s.cfg.maxXfer → ∀ q ∈ ps, 1 ≤ q.length ∧ q.length ≤ s.cfg.maxXfer) →
        s.goThrough (n + sent.length) → s.failsAt (n + sent.length) →
        Base s (s.afterBus (n + sent.length + 1) (s.brokenTransfer 0 (ps ++ sent) p)) (n + sent.length + 1)
          ∧ F s (s.afterBus (n + sent.length + 1) (s.brokenTransfer 0 (ps ++ sent) p)) := by
      intro n ps sent p unsent tx hc hps hgo hfa
      have hu : s.uncutFor (n + sent.length + 1) := fun k hk => by
        by_cases he : k = n + sent.length
        · subst he; exact hfa.2
        · exact (hgo k (by omega)).2
      refine ⟨Base.afterBus hu (Framed.brokenTransfer s 0 fun hx q hq => ?_), hF.bus s _ _ hu⟩
      simp only [List.mem_append, List.mem_cons, List.not_mem_nil, or_false] at hq
      rcases hq with (hq | hq) | hq
      · exact hps hx q hq
      · exact fit tx hx q (by rw [hc]; simp [hq])
      · exact fit tx hx q (by rw [hc]; simp [hq])
    rcases h0.seg [s.cfg.profile.fbReadCmd, 0x00#8] (.inr hb) with
      ⟨u, h1, hi⟩ | ⟨sent, p, unsent, hc, hgo, hfa, h1⟩ | ⟨sent, p, unsent, u, hc, h1, h2⟩
    · rw [bind_ok h1]
      simp only
      generalize byteAt (s.received 0 (chunksOf s.cfg.maxXfer [s.cfg.profile.fbReadCmd, 0x00#8])) 1 = l
      simp only [List.nil_append, Nat.zero_add] at hi
      have hne : chunksOf s.cfg.maxXfer [s.cfg.profile.fbReadCmd, 0x00#8] ≠ [] := chunksOf_ne_nil (by simp)
      by_cases hlen : s.cfg.maxPhr < l.toNat
      · refine ⟨(chunksOf s.cfg.maxXfer [s.cfg.profile.fbReadCmd, 0x00#8]).length, ?_⟩
        simp only [hlen, if_true, csDeassert, update_bind, raise_run, hi.release]
        exact ⟨Base.afterBus (fun k hk => (hi.through k hk).2) (Framed.transfer s 0 hne (fit _)),
          hF.bus s _ _ fun k hk => (hi.through k hk).2⟩
      · simp only [hlen, if_false]
        rcases hi.seg (zeros (l.toNat + 1)) (.inl hne) with
          ⟨v, h2, hi2⟩ | ⟨sent, p, unsent, hc, hgo, hfa, h2⟩ | ⟨sent, p, unsent, v, hc, h2, h3⟩
        · rw [bind_ok h2]
          simp only [csDeassert, update_bind, pure_run, hi2.release, RxFrame.image]
          refine ⟨_, (Base.afterBus (fun k hk => (hi2.through k hk).2) (Framed.transfer s 0 ?_ ?_)).trans
              (Base.of_fields ⟨rfl, rfl, rfl⟩ rfl rfl rfl rfl rfl rfl),
            hF.trans _ _ _ (hF.bus s _ _ fun k hk => (hi2.through k hk).2) (hr _ _ _ ?_ ?_)⟩
          · simp [hne]
          · intro hx q hq
            rcases List.mem_append.1 hq with hq | hq
            · exact fit _ hx q hq
            · exact fit _ hx q hq
          · simpa using Nat.not_lt.1 hlen
          · intro hx
            have hfl := (chunksOf_isChunking (m := s.cfg.maxXfer) hx (zeros (l.toNat + 1))).1
            rw [received_length, hfl]
            simp [zeros]
        · rw [bind_error h2]
          exact ⟨_, broken _ _ _ _ _ _ hc (fit _) hgo hfa⟩
        · rw [bind_error h2]
          exact ⟨_, .inr (h3 (fit _))⟩
    · rw [bind_error h1]
      exact ⟨_, broken 0 [] _ _ _ _ hc (by simp) hgo hfa⟩
    · rw [bind_error h1]
      exact ⟨_, .inr (h2 (by simp))⟩

end Sys2Proof.Machine
end

