-- ==== Sys2Proof/Laws/Commands.lean ====
section
/-! SUPPORT. What a whole command can do, from its first step or from where a wait without a bound left it:
it completes once, or is left in such a wait, or SRC reset cuts it. -/

namespace Sys2Proof.Machine

variable {F : State → State → Prop}

/-- What a command's pseudocode leaves of the state s it was run from. -/
inductive Ended (F : State → State → Prop) (s t : State) (n : Nat) : Prop where
  | ok (u : State) (ret : List Byte) (base : Base s u n) (rel : F s u)
      (done : t = complete okCode ret none u)
  | failed (u : State) (e : Err) (base : Base s u n) (rel : F s u)
      (done : t = complete e.code [] (some e) u)
  | waiting (u : State) (place : SeqStep) (base : Base s u n) (rel : F s u)
      (unbounded : s.cfg.pollLimit = none ∨ s.cfg.pollLimit = some 0)
      (done : t = { u with seq := u.seq.map fun p => { p with step := place } })
  | cut (h : CutFrom s t n)

/-- A command's pseudocode leaves one of the four. -/
theorem finish_runs {body : Seq (List Byte)} (h : Runs F body) (s : State) :
    ∃ n, Ended F s (finish (body s)) n := by
  obtain ⟨n, hn⟩ := h s
  refine ⟨n, ?_⟩
  cases hb : body s with
  | ok ret u =>
    rw [hb] at hn
    exact .ok u ret hn.1 hn.2 rfl
  | error e u =>
    rw [hb] at hn
    cases e with
    | raised e => exact .failed u e hn.1 hn.2 rfl
    | stopped =>
      rcases hn with ⟨w, a, h1, h2, h3, h4⟩ | h
      · exact .waiting w a h1 h2 h3 h4
      · exact .cut h

/-! ### Checks -/

/-- A piece that only checks: it passes or refuses, and leaves the state as it was (R233). -/
def Checks (m : Seq Unit) : Prop := ∀ s, m s = .ok () s ∨ ∃ e, m s = .error (.raised e) s

theorem Checks.pure : Checks (Pure.pure () : Seq Unit) := fun _ => .inl rfl

theorem Checks.bind {m n : Seq Unit} (hm : Checks m) (hn : Checks n) :
    Checks (m >>= fun _ => n) := fun s => by
  rcases hm s with h | ⟨e, h⟩
  · rw [bind_ok h]
    exact hn s
  · exact .inr ⟨e, bind_error h⟩

theorem requireBytewise_checks : Checks requireBytewise := fun s => by
  cases h : s.cfg.profile.bytewise with
  | true => exact .inl (requireBytewise_ok h)
  | false => exact .inr ⟨_, requireBytewise_refused h⟩

theorem requireArg_checks (legal : Bool) (arg : Byte) : Checks (requireArg legal arg) := fun s => by
  cases legal with
  | true => exact .inl rfl
  | false => exact .inr ⟨_, rfl⟩

theorem requireState_checks (i : Instr) : Checks (requireState i) := fun s => by
  by_cases h : legality i s.opState = .refuse
  · exact .inr ⟨_, requireState_refused h⟩
  · exact .inl (requireState_ok h)

theorem requireFrameFits_checks (f : List Byte) : Checks (requireFrameFits f) := fun s => by
  cases h : frameFits s.cfg f with
  | true => exact .inl (requireFrameFits_ok h)
  | false => exact .inr ⟨_, requireFrameFits_refused h⟩

/-- A command answers a next state: a check refused it, or its pseudocode left one of the four. -/
theorem command_runs {i : Instr} {checks : Seq Unit} {body : Seq (List Byte)} (hc : Checks checks)
    (h : Runs F body) (s : State) :
    (∃ e, command i checks body s = .next (s.refused e []))
      ∨ ∃ t n, command i checks body s = .next t ∧ Ended F (accept (take i s)) t n := by
  rcases hc (take i s) with h1 | ⟨e, h1⟩
  · obtain ⟨n, hn⟩ := finish_runs h (accept (take i s))
    exact .inr ⟨_, n, command_accepted h1, hn⟩
  · exact .inl ⟨e, command_refused h1⟩

end Sys2Proof.Machine
end

