-- ==== Sys2Proof/Laws/Memory.lean ====
section
/-! SUPPORT. The buffers: a write keeps the canonical form, a read after a write gives the value written,
and a write leaves every other index alone (spec R24, R25, R37). -/

namespace Sys2Proof

theorem Memory.write_keys (m : Memory) (k x : Nat) (b : Byte) :
    x ∈ (m.write k b).map Prod.fst ↔ x = k ∨ x ∈ m.map Prod.fst := by
  induction m with
  | nil => simp [Memory.write]
  | cons c m ih =>
    obtain ⟨a, v⟩ := c
    simp only [Memory.write]
    split
    · simp
    · split
      · subst_vars; simp
      · simp only [List.map_cons, List.mem_cons, ih]
        tauto

/-- A write keeps the indices strictly rising. -/
theorem Memory.write_wf {m : Memory} (h : m.wf) (k : Nat) (b : Byte) : (m.write k b).wf := by
  induction m with
  | nil => simp [Memory.write, Memory.wf]
  | cons c m ih =>
    obtain ⟨a, v⟩ := c
    simp only [Memory.wf, List.map_cons, List.pairwise_cons] at h
    simp only [Memory.write]
    split
    · rename_i hk
      simp only [Memory.wf, List.map_cons, List.pairwise_cons, List.mem_cons]
      exact ⟨fun x hx => hx.elim (fun e => e ▸ hk) fun hx => hk.trans (h.1 x hx), h⟩
    · split
      · subst_vars
        simpa [Memory.wf] using h
      · simp only [Memory.wf, List.map_cons, List.pairwise_cons]
        refine ⟨fun x hx => ?_, ih h.2⟩
        rcases (Memory.write_keys m k x b).1 hx with rfl | hx
        · omega
        · exact h.1 x hx

/-- A write at an index below n keeps all indices below n. -/
theorem Memory.write_below {m : Memory} {n : Nat} (h : m.below n) {k : Nat} (hk : k < n) (b : Byte) :
    (m.write k b).below n := by
  intro x hx
  rcases (Memory.write_keys m k x b).1 hx with rfl | hx
  · exact hk
  · exact h x hx

/-- An index below every listed index reads as no value. -/
theorem Memory.read_none_of_lt {m : Memory} {k : Nat} (h : ∀ x ∈ m.map Prod.fst, k < x) :
    m.read k = none := by
  induction m with
  | nil => rfl
  | cons c m ih =>
    obtain ⟨a, v⟩ := c
    have ha : k < a := h a (by simp)
    simp [Memory.read, Nat.ne_of_gt ha, ih fun x hx => h x (by simp [hx])]

/-- A read after a write. -/
theorem Memory.read_write (m : Memory) (k j : Nat) (b : Byte) :
    (m.write k b).read j = if j = k then some b else m.read j := by
  induction m with
  | nil => simp [Memory.write, Memory.read, eq_comm]
  | cons c m ih =>
    obtain ⟨a, v⟩ := c
    simp only [Memory.write]
    by_cases hj : j = k
    · subst hj
      split
      · simp [Memory.read]
      · split
        · simp [Memory.read]
        · rename_i h2
          simp [Memory.read, ih, Ne.symm h2]
    · split
      · simp [Memory.read, Ne.symm hj]
      · split
        · rename_i h2
          subst h2
          simp [Memory.read, Ne.symm hj]
        · simp [Memory.read, ih, hj]

theorem Memory.writeRange_wf {m : Memory} (h : m.wf) (k : Nat) (bs : List Byte) :
    (m.writeRange k bs).wf := by
  induction bs generalizing m k with
  | nil => exact h
  | cons b bs ih => exact ih (Memory.write_wf h k b) (k + 1)

theorem Memory.writeRange_below {m : Memory} {n : Nat} (h : m.below n) {k : Nat} {bs : List Byte}
    (hk : k + bs.length ≤ n) : (m.writeRange k bs).below n := by
  induction bs generalizing m k with
  | nil => exact h
  | cons b bs ih =>
    simp only [List.length_cons] at hk
    exact ih (Memory.write_below h (by omega) b) (by omega)

/-- A read after a range was written: the byte written there, or what was there before. -/
theorem Memory.read_writeRange (m : Memory) (k j : Nat) (bs : List Byte) :
    (m.writeRange k bs).read j =
      if k ≤ j ∧ j < k + bs.length then bs[j - k]? else m.read j := by
  induction bs generalizing m k with
  | nil => simp [Memory.writeRange]
  | cons b bs ih =>
    simp only [Memory.writeRange, ih, Memory.read_write, List.length_cons]
    by_cases h1 : j = k
    · subst h1; simp
    · by_cases h2 : k + 1 ≤ j ∧ j < k + 1 + bs.length
      · have : j - k = (j - (k + 1)) + 1 := by omega
        simp [h2, this, show k ≤ j ∧ j < k + (bs.length + 1) by omega]
      · rw [if_neg h2, if_neg h1, if_neg (by omega)]

end Sys2Proof
end

