-- ==== Sys2Proof/Laws/PerInstr.lean ====
section
/-! SUPPORT. Per-instruction laws: the host frame that encodes an instruction has the length R96 tells from its
first bytes, whatever follows it. -/

namespace Sys2Proof.Laws.FrameLength

/-- If i is encoded as a host frame, R96 reads that frame's length from it, also with more bytes behind it. -/
def Statement (i : Instr) : Prop :=
  ∀ (c : Config) (bs rest : List Byte), i.wf c = true → encode c i = .hostFrame bs →
    hostFrameLength c (bs ++ rest) = some bs.length

theorem init : Statement (.init) := by
  intro c bs rest hw he
  cases he
  rfl

theorem sleep : Statement (.sleep) := by
  intro c bs rest hw he
  cases he
  rfl

theorem wakeup : Statement (.wakeup) := by
  intro c bs rest hw he
  cases he
  rfl

theorem dataRequest (data : List Byte) : Statement (.dataRequest data) := by
  intro c bs rest hw he
  cases he
  have h : data.length < 256 := by simpa [Instr.wf, sizeFits] using hw
  simp [hostFrameLength, sized, Nat.mod_eq_of_lt h]
  omega

theorem taskHandler : Statement (.taskHandler) := by
  intro c bs rest hw he
  cases he
  rfl

theorem setChannel (ch : Byte) : Statement (.setChannel ch) := by
  intro c bs rest hw he
  cases he
  rfl

theorem setBand (band : Byte) : Statement (.setBand band) := by
  intro c bs rest hw he
  cases he
  rfl

theorem setModulation (m : Byte) : Statement (.setModulation m) := by
  intro c bs rest hw he
  cases he
  rfl

theorem setPanId (p : Half) : Statement (.setPanId p) := by
  intro c bs rest hw he
  cases he
  rfl

theorem setShortAddress (a : Half) : Statement (.setShortAddress a) := by
  intro c bs rest hw he
  cases he
  rfl

theorem setTxPower (p : Byte) : Statement (.setTxPower p) := by
  intro c bs rest hw he
  cases he
  rfl

theorem rssiBaseValue : Statement (.rssiBaseValue) := by
  intro c bs rest hw he
  cases he
  rfl

theorem readRegister (a : Byte) : Statement (.readRegister a) := by
  intro c bs rest hw he
  cases he
  rfl

theorem writeRegister (a : Byte) (v : Half) : Statement (.writeRegister a v) := by
  intro c bs rest hw he
  cases he
  cases hv : c.profile.valBytes <;> simp [hostFrameLength, hostValueBytes, hv, ByteCount.num]

theorem writeBytes (data : List Byte) : Statement (.writeBytes data) := by
  intro c bs rest hw he
  cases he
  have h : data.length < 256 := by simpa [Instr.wf, sizeFits] using hw
  simp [hostFrameLength, sized, Nat.mod_eq_of_lt h]
  omega

theorem readBytes (n : Byte) : Statement (.readBytes n) := by
  intro c bs rest hw he
  cases he
  rfl

theorem writeFrame (f : List Byte) : Statement (.writeFrame f) := by
  intro c bs rest hw he
  cases he
  have h : f.length < 256 := by simpa [Instr.wf, sizeFits] using hw
  simp [hostFrameLength, sized, Nat.mod_eq_of_lt h]
  omega

theorem readFrame : Statement (.readFrame) := by
  intro c bs rest hw he
  cases he
  rfl

theorem spiRegRead (a : RegAddr) : Statement (.spiRegRead a) := by
  intro c bs rest hw he
  cases he

theorem spiRegWrite (a : RegAddr) (v : Half) : Statement (.spiRegWrite a v) := by
  intro c bs rest hw he
  cases he

theorem spiFbRead : Statement (.spiFbRead) := by
  intro c bs rest hw he
  cases he

theorem spiFbWrite (f : List Byte) : Statement (.spiFbWrite f) := by
  intro c bs rest hw he
  cases he

theorem txStart : Statement (.txStart) := by
  intro c bs rest hw he
  cases he

theorem forceTrxOff : Statement (.forceTrxOff) := by
  intro c bs rest hw he
  cases he

theorem rxOn : Statement (.rxOn) := by
  intro c bs rest hw he
  cases he

theorem pllOn : Statement (.pllOn) := by
  intro c bs rest hw he
  cases he

theorem rxAackOn : Statement (.rxAackOn) := by
  intro c bs rest hw he
  cases he

theorem txAretOn : Statement (.txAretOn) := by
  intro c bs rest hw he
  cases he

end Sys2Proof.Laws.FrameLength
end

