-- ==== Sys2Proof/Tests/Slice0.lean ====
section
/-! SUPPORT. Tests. Expected values are the spec's own: the tables of 30_encoding.md, and the vectors and programs
of 95_test_vectors.md, named in each comment. Then a witness for the hypotheses of every obligation. -/

namespace Sys2Proof.Tests

-- One test after the other: kernel evaluations run side by side would each wait on a thread of its own.
set_option Elab.async false

open Sys2Proof.Machine

/-! ### Helpers -/

/-- A chunk that goes through, its second received byte b. -/
def got (b : Byte) : Draw := { ok := true, rx := [0x00#8, b], irq := false, cut := none }

/-- A chunk that goes through, these bytes received. -/
def gotAll (bs : List Byte) : Draw := { ok := true, rx := bs, irq := false, cut := none }

/-- A chunk the transport reports as failed. -/
def broken : Draw := { ok := false, rx := [], irq := false, cut := none }

/-- A chunk that SRC reset cuts after n bytes. -/
def cutAt (n : Nat) : Draw := { ok := true, rx := [], irq := false, cut := some (.afterBytes n) }

/-- The REF machine in an operating state, the chip's next answers given. -/
def ready (op : OpState) (chip : List Draw) : State := { State.reset with opState := op, chip := chip }

/-- The same with other parameters. -/
def readyWith (c : Config) (op : OpState) (chip : List Draw) : State :=
  { State.boot c with opState := op, chip := chip }

/-- The state a command leaves. -/
def after (i : Instr) (s : State) : State :=
  match exec i s with
  | .next t => t
  | .fault _ => s
  | .refused _ => s

/-- REF with chunks of at most 4 bytes. -/
def smallXfer : Config := { Config.ref with maxXfer := 4 }

/-- REF with at most 3 polls. -/
def threePolls : Config := { Config.ref with pollLimit := some 3 }

/-- REF with polling without a bound. -/
def endless : Config := { Config.ref with pollLimit := none }

/-- A profile with two command bytes. -/
def twoByte : Config := { Config.ref with profile := { Profile.a with cmdBytes := .two, valBytes := .two } }

/-- A profile with one command byte and two value bytes, the high one first on the wire. -/
def twoValue : Config :=
  { Config.ref with profile := { Profile.a with valBytes := .two, val16Order := .highFirst } }

/-- A profile with one command byte and two value bytes, the low one first on the wire. -/
def twoValueLow : Config :=
  { Config.ref with profile := { Profile.a with valBytes := .two, val16Order := .lowFirst } }

/-- Answers under which three polls never show `TRX_OFF`. -/
def neverOffAnswers : List Draw := [got 0#8, got 0x1F#8, got 0x1F#8, got 0x16#8]

/-- Answers under which the chip goes off and three polls then never show another state. -/
def neverReachesAnswers : List Draw := [got 0#8, got 0x08#8, got 0#8, got 0x1F#8, got 0x1F#8, got 0x08#8]

/-- The answers that let a `SetTrxState` to this status go through at once. -/
def reaches (st : Byte) : List Draw := [got 0x00#8, got 0x08#8, got 0x00#8, got st]

/-! ### Ill-formed terms are refused (WellFormed) -/

theorem test_wf_refuses_long_data : Instr.wf Config.ref (.writeBytes (zeros 256)) = false := by decide +kernel
theorem test_wf_refuses_long_request : Instr.wf Config.ref (.dataRequest (zeros 256)) = false := by decide +kernel
theorem test_wf_refuses_long_frame : Instr.wf Config.ref (.writeFrame (zeros 256)) = false := by decide +kernel
theorem test_wf_refuses_wide_value : Instr.wf Config.ref (.writeRegister 0x08#8 0x0100#16) = false := by decide
theorem test_wf_refuses_wide_spi_value : Instr.wf Config.ref (.spiRegWrite 0x08#6 0x0100#16) = false := by decide
theorem test_wf_refuses_open_command_word : Instr.wf twoByte (.spiRegRead 0x01#6) = false := by decide
theorem test_wf_refuses_wrapping_prefix : Instr.wf Config.ref (.spiFbWrite (zeros 254)) = false := by decide +kernel

/-! ### Every constructor's decoding, words written out from R95, R83, R86 and R87 -/

theorem test_decode_state_machine :
    decode Config.ref (.hostFrame [0x01#8]) = .ok .init
    ∧ decode Config.ref (.hostFrame [0x02#8]) = .ok .sleep
    ∧ decode Config.ref (.hostFrame [0x03#8]) = .ok .wakeup
    ∧ decode Config.ref (.hostFrame [0x04#8, 0x03#8, 0x41#8, 0x88#8, 0x01#8])
      = .ok (.dataRequest [0x41#8, 0x88#8, 0x01#8])
    ∧ decode Config.ref (.hostFrame [0x05#8]) = .ok .taskHandler := by decide

theorem test_decode_configuration :
    decode Config.ref (.hostFrame [0x10#8, 0x05#8]) = .ok (.setChannel 0x05#8)
    ∧ decode Config.ref (.hostFrame [0x11#8, 0x04#8]) = .ok (.setBand 0x04#8)
    ∧ decode Config.ref (.hostFrame [0x12#8, 0x0C#8]) = .ok (.setModulation 0x0C#8)
    ∧ decode Config.ref (.hostFrame [0x13#8, 0xEF#8, 0xBE#8]) = .ok (.setPanId 0xBEEF#16)
    ∧ decode Config.ref (.hostFrame [0x14#8, 0x34#8, 0x12#8]) = .ok (.setShortAddress 0x1234#16)
    ∧ decode Config.ref (.hostFrame [0x15#8, 0x41#8]) = .ok (.setTxPower 0x41#8)
    ∧ decode Config.ref (.hostFrame [0x16#8]) = .ok .rssiBaseValue := by decide

theorem test_decode_transport_and_frames :
    decode Config.ref (.hostFrame [0x20#8, 0x0F#8]) = .ok (.readRegister 0x0F#8)
    ∧ decode Config.ref (.hostFrame [0x21#8, 0x08#8, 0x25#8]) = .ok (.writeRegister 0x08#8 0x0025#16)
    ∧ decode twoValue (.hostFrame [0x21#8, 0x08#8, 0x25#8, 0x01#8]) = .ok (.writeRegister 0x08#8 0x0125#16)
    ∧ decode Config.ref (.hostFrame [0x22#8, 0x02#8, 0x0A#8, 0x0B#8]) = .ok (.writeBytes [0x0A#8, 0x0B#8])
    ∧ decode Config.ref (.hostFrame [0x23#8, 0x03#8]) = .ok (.readBytes 0x03#8)
    ∧ decode Config.ref (.hostFrame [0x24#8, 0x01#8, 0x55#8]) = .ok (.writeFrame [0x55#8])
    ∧ decode Config.ref (.hostFrame [0x25#8]) = .ok .readFrame := by decide

theorem test_decode_spi :
    decode Config.ref (.spiTransfer [0b10001111#8, 0x00#8]) = .ok (.spiRegRead 0x0F#6)
    ∧ decode Config.ref (.spiTransfer [0b11101101#8, 0x46#8]) = .ok (.spiRegWrite 0x2D#6 0x0046#16)
    ∧ decode twoValue (.spiTransfer [0b11101101#8, 0x01#8, 0x46#8]) = .ok (.spiRegWrite 0x2D#6 0x0146#16)
    ∧ decode Config.ref (.spiTransfer [0b00100000#8, 0x00#8]) = .ok .spiFbRead
    ∧ decode Config.ref (.spiTransfer [0b01100000#8, 0x06#8, 0xA1#8, 0xA2#8, 0xA3#8, 0xA4#8, 0x00#8, 0x00#8])
      = .ok (.spiFbWrite [0xA1#8, 0xA2#8, 0xA3#8, 0xA4#8]) := by decide

theorem test_decode_trx :
    decode Config.ref (.trxCommand 0b00000010#8) = .ok .txStart
    ∧ decode Config.ref (.trxCommand 0b00000011#8) = .ok .forceTrxOff
    ∧ decode Config.ref (.trxCommand 0b00000110#8) = .ok .rxOn
    ∧ decode Config.ref (.trxCommand 0b00001001#8) = .ok .pllOn
    ∧ decode Config.ref (.trxCommand 0b00010110#8) = .ok .rxAackOn
    ∧ decode Config.ref (.trxCommand 0b00011001#8) = .ok .txAretOn := by decide

/-- R98: an unassigned opcode, a command byte the SRC never forms, a `TRX_CMD` code it never writes. -/
theorem test_decode_refuses :
    decode Config.ref (.hostFrame [0x30#8]) = .error (.unassignedOpcode 0x30#8)
    ∧ decode Config.ref (.hostFrame [0x13#8, 0x01#8]) = .error .wrongLength
    ∧ decode Config.ref (.spiTransfer [0x7F#8, 0x00#8]) = .error .neverFormed
    ∧ decode Config.ref (.trxCommand 0x08#8) = .error .neverFormed := by decide

/-- 95_test_vectors.md section 2.1: the lengths of `[0x04, 0x05, ...]` and `[0x21, addr, v]`. -/
theorem test_host_frame_length :
    hostFrameLength Config.ref [0x04#8, 0x05#8] = some 7
    ∧ hostFrameLength Config.ref [0x21#8] = some 3 ∧ hostFrameLength Config.ref [0x30#8] = none := by decide

/-- Rows of the opcode table as the host numbers them. -/
theorem test_table_words :
    decodeTableWord 8 0x04 = some (.dataRequest []) ∧ decodeTableWord 8 0x8F = some (.spiRegRead 0x0F#6)
    ∧ decodeTableWord 8 0x60 = some (.spiFbWrite []) ∧ decodeTableWord 8 0x09 = some .pllOn
    ∧ decodeTableWord 16 0xFF10 = some (.setChannel 0xFF#8) ∧ decodeTableWord 8 0x30 = none := by decide

/-! ### Transport (vectors T1 to T16, S4) -/

/-- T1: `READ_REGISTER 0x01` sends `[0x81, 0x00]` and returns the second byte. -/
theorem test_read_register :
    chunksSent (after (.readRegister 0x01#8) (ready .initial [gotAll [0x77#8, 0x08#8]])).trace
      = [[0x81#8, 0x00#8]]
    ∧ (after (.readRegister 0x01#8) (ready .initial [gotAll [0x77#8, 0x08#8]])).retdata = [0x08#8] := by
  decide +kernel

/-- Under `VAL_BYTES` = 2 and HIGH_FIRST the value comes back low byte first (R84, R124). -/
theorem test_read_register_two_bytes :
    (after (.readRegister 0x01#8) (readyWith twoValue .idle [gotAll [0x77#8, 0x12#8, 0x34#8]])).retdata
      = [0x34#8, 0x12#8] := by decide +kernel

/-- T6, T7: `WRITE_REGISTER 0x08, 0x25` sends `[0xC8, 0x25]`; address 0x80 is refused with 0x06. -/
theorem test_write_register :
    chunksSent (after (.writeRegister 0x08#8 0x25#16) (ready .idle [got 0x00#8])).trace = [[0xC8#8, 0x25#8]]
    ∧ (after (.writeRegister 0x80#8 0x25#16) (ready .idle [])).result = 0x06#8 := by decide +kernel

/-- S4: ten bytes with `MAX_XFER` = 4 are chunks of 4, 4 and 2. -/
theorem test_write_bytes_chunks :
    chunksSent (after (.writeBytes [1#8, 2#8, 3#8, 4#8, 5#8, 6#8, 7#8, 8#8, 9#8, 10#8])
        (readyWith smallXfer .initial [got 0#8, got 0#8, got 0#8])).trace
      = [[1#8, 2#8, 3#8, 4#8], [5#8, 6#8, 7#8, 8#8], [9#8, 10#8]] := by decide +kernel

/-- S4: chunk 1 fails, so the third is not sent and the error says chunk 1, offset 4. -/
theorem test_write_bytes_fails :
    let t := after (.writeBytes [1#8, 2#8, 3#8, 4#8, 5#8, 6#8, 7#8, 8#8, 9#8, 10#8])
      (readyWith smallXfer .initial [got 0#8, broken, got 0#8])
    chunksSent t.trace = [[1#8, 2#8, 3#8, 4#8], [5#8, 6#8, 7#8, 8#8]] ∧ t.result = 0x01#8
      ∧ t.info = some (.transferFailed 1 4) ∧ t.cs = .deasserted := by decide +kernel

/-- T13, T14: six bytes read in chunks of 4 and 2; nothing is returned where the second fails. -/
theorem test_read_bytes :
    (after (.readBytes 0x06#8) (readyWith smallXfer .initial
      [gotAll [1#8, 2#8, 3#8, 4#8], gotAll [5#8, 6#8]])).retdata = [1#8, 2#8, 3#8, 4#8, 5#8, 6#8]
    ∧ (after (.readBytes 0x06#8) (readyWith smallXfer .initial
      [gotAll [1#8, 2#8, 3#8, 4#8], broken])).retdata = [] := by decide +kernel

/-- R84 for the two register rows. -/
theorem test_spi_register_rows :
    (after (.spiRegRead 0x0F#6) (ready .idle [got 0x5A#8])).retdata = [0x5A#8]
    ∧ chunksSent (after (.spiRegRead 0x0F#6) (ready .idle [got 0x5A#8])).trace = [[0x8F#8, 0x00#8]]
    ∧ chunksSent (after (.spiRegWrite 0x2D#6 0x46#16) (ready .idle [got 0#8])).trace
      = [[0xED#8, 0x46#8]] := by decide +kernel

/-! ### Frames (vectors S1, F1 to F13) -/

/-- S1: WRITE_FRAME of four bytes: the PLL_ON sequence, the image, TX_START. -/
theorem test_write_frame :
    let t := after (.writeFrame [0xA1#8, 0xA2#8, 0xA3#8, 0xA4#8])
      (ready .idle (reaches 0x09#8 ++ [got 0#8, got 0#8]))
    chunksSent t.trace = [[0xC2#8, 0x03#8], [0x81#8, 0x00#8], [0xC2#8, 0x09#8], [0x81#8, 0x00#8],
        [0x60#8, 0x06#8, 0xA1#8, 0xA2#8, 0xA3#8, 0xA4#8, 0x00#8, 0x00#8], [0xC2#8, 0x02#8]]
      ∧ t.result = 0x00#8 ∧ t.opState = .idle
      ∧ t.txbuf = [(0, 0x06#8), (1, 0xA1#8), (2, 0xA2#8), (3, 0xA3#8), (4, 0xA4#8), (5, 0#8), (6, 0#8)] := by
  decide +kernel

/-- F3, F6: 126 bytes are too long (0x04); a two-byte command word is an unsupported profile (0x08). -/
theorem test_write_frame_refused :
    (after (.writeFrame (zeros 126)) (ready .idle [])).result = 0x04#8
    ∧ (after (.writeFrame [0x55#8]) (readyWith twoByte .idle [])).result = 0x08#8 := by decide +kernel

/-- F7: a frame of three bytes. -/
theorem test_read_frame :
    let t := after .readFrame (ready .initial [got 0x03#8, gotAll [0x11#8, 0x22#8, 0x33#8, 0xFF#8]])
    t.retdata = [0x03#8, 0x11#8, 0x22#8, 0x33#8, 0xFF#8]
      ∧ chunksSent t.trace = [[0x20#8, 0x00#8], [0#8, 0#8, 0#8, 0#8]]
      ∧ t.rxbuf = [(0, 0x03#8), (1, 0x11#8), (2, 0x22#8), (3, 0x33#8), (4, 0xFF#8)] := by decide +kernel

/-- F10, F12: an invalid length ends the read (0x05); a failed body chunk leaves `rxbuf` alone (0x01). -/
theorem test_read_frame_fails :
    (after .readFrame (ready .initial [got 0x80#8])).result = 0x05#8
    ∧ (after .readFrame (ready .initial [got 0x80#8])).trace.length = 3
    ∧ (after .readFrame (ready .initial [got 0x03#8, broken])).result = 0x01#8
    ∧ (after .readFrame (ready .initial [got 0x03#8, broken])).rxbuf = [] := by decide +kernel

/-- R86 for the two frame rows. -/
theorem test_spi_frame_rows :
    chunksSent (after (.spiFbWrite []) (ready .idle [got 0#8])).trace = [[0x60#8, 0x02#8, 0#8, 0#8]]
    ∧ (after .spiFbRead (ready .idle [got 0x00#8, gotAll [0x7F#8]])).retdata = [0x00#8, 0x7F#8] := by
  decide +kernel

/-! ### State machine (programs P1, P3, P4, P5, vectors M1 to M23) -/

/-- P1: INIT's nine transactions and its end state. -/
theorem test_init :
    let t := after .init (ready .initial
      ([got 0#8, got 0x08#8, got 0#8, got 0#8, got 0#8] ++ reaches 0x16#8))
    chunksSent t.trace = [[0xC2#8, 0x03#8], [0x81#8, 0x00#8], [0xC4#8, 0x24#8], [0xCC#8, 0x80#8],
        [0xC5#8, 0x60#8], [0xC2#8, 0x03#8], [0x81#8, 0x00#8], [0xC2#8, 0x16#8], [0x81#8, 0x00#8]]
      ∧ t.opState = .idle ∧ t.txPower = 0x60#8 ∧ t.result = 0x00#8 ∧ t.rst = .deasserted
      ∧ t.trace.take 2 = [.rst .asserted, .rst .deasserted] := by decide +kernel

/-- M4: the `TRX_CTRL_1` write fails three times: 0x01, still Initial. -/
theorem test_init_fails :
    let t := after .init (ready .initial [got 0#8, got 0x08#8, broken, broken, broken])
    t.result = 0x01#8 ∧ t.opState = .initial ∧ t.retryCount = 3
      ∧ (chunksSent t.trace).drop 2 = [[0xC4#8, 0x24#8], [0xC4#8, 0x24#8], [0xC4#8, 0x24#8]] := by
  decide +kernel

/-- M5: SLEEP with polls 0x1F, 0x1F, 0x08. -/
theorem test_sleep :
    let t := after .sleep (ready .idle [got 0#8, got 0x1F#8, got 0x1F#8, got 0x08#8])
    t.opState = .sleep ∧ t.result = 0x00#8 ∧ t.pollCount = 3 := by decide +kernel

/-- M6, M7: a no-op in Sleep; refused in TransmittingWaitEnd. -/
theorem test_sleep_elsewhere :
    (after .sleep (ready .sleep [])).trace = [] ∧ (after .sleep (ready .sleep [])).result = 0x00#8
    ∧ (after .sleep (ready .transmittingWaitEnd [])).result = 0x03#8 := by decide +kernel

/-- M8: WAKEUP in Sleep. -/
theorem test_wakeup :
    (after .wakeup (ready .sleep (reaches 0x16#8))).opState = .idle
    ∧ chunksSent (after .wakeup (ready .sleep (reaches 0x16#8))).trace
      = [[0xC2#8, 0x03#8], [0x81#8, 0x00#8], [0xC2#8, 0x16#8], [0x81#8, 0x00#8]] := by decide +kernel

/-- M23: three polls never show 0x16: `ChipUnresponsive(0x16, 0x1F)`, still Sleep. -/
theorem test_wakeup_unresponsive :
    let t := after .wakeup (readyWith threePolls .sleep
      [got 0#8, got 0x08#8, got 0#8, got 0x1F#8, got 0x1F#8, got 0x1F#8])
    t.result = 0x02#8 ∧ t.opState = .sleep ∧ t.info = some (.chipUnresponsive 0x16#5 0x1F#5)
      ∧ t.trace.length = 18 := by decide +kernel

/-- P3 step 1: DATA_REQUEST of three bytes. -/
theorem test_data_request :
    let t := after (.dataRequest [0x41#8, 0x88#8, 0x01#8])
      (ready .idle (reaches 0x19#8 ++ [got 0#8, got 0#8, got 0#8]))
    chunksSent t.trace = [[0xC2#8, 0x03#8], [0x81#8, 0x00#8], [0xC2#8, 0x19#8], [0x81#8, 0x00#8],
        [0x8F#8, 0x00#8], [0x60#8, 0x05#8, 0x41#8, 0x88#8, 0x01#8, 0#8, 0#8], [0xC2#8, 0x02#8]]
      ∧ t.opState = .transmittingWaitEnd ∧ t.evq = [] ∧ t.result = 0x00#8 := by decide +kernel

/-- M13: the frame transaction fails: 0x01, Idle, `DataConfirm(Error)`. -/
theorem test_data_request_fails :
    let t := after (.dataRequest [0x41#8]) (ready .idle (reaches 0x19#8 ++ [got 0#8, broken]))
    t.result = 0x01#8 ∧ t.opState = .idle ∧ t.evq = [.dataConfirm .error] := by decide +kernel

/-- P4 step 1: TASK_HANDLER reads a frame of five bytes; RSSI -68. -/
theorem test_task_handler_receives :
    let t := after .taskHandler (ready .idle ([got 0x08#8, got 0x05#8,
      gotAll [0xA1#8, 0xA2#8, 0xA3#8, 0xB1#8, 0xB2#8, 0xE0#8], got 0x20#8] ++ reaches 0x16#8))
    t.evq = [.dataIndication [0xA1#8, 0xA2#8, 0xA3#8, 0xB1#8, 0xB2#8] 5 0xE0#8 (BitVec.ofInt 16 (-68))]
      ∧ t.opState = .idle ∧ t.result = 0x00#8 ∧ t.irqFlag = false := by decide +kernel

/-- M19: the transmit-done path with status 2 and a failed re-apply: 0x01, Idle, `DataConfirm(NoAck)`. -/
theorem test_task_handler_confirms :
    let t := after .taskHandler (ready .transmittingWaitEnd [got 0x08#8, got 0x40#8, broken])
    t.evq = [.dataConfirm .noAck] ∧ t.opState = .idle ∧ t.result = 0x01#8 := by decide +kernel

/-- R87: the plain write of TX_START, and the forced-off phase of the five state commands. -/
theorem test_trx_rows :
    chunksSent (after .txStart (ready .idle [got 0#8])).trace = [[0xC2#8, 0x02#8]]
    ∧ chunksSent (after .forceTrxOff (ready .idle (reaches 0#8))).trace = [[0xC2#8, 0x03#8], [0x81#8, 0#8]]
    ∧ (chunksSent (after .rxOn (ready .idle (reaches 0x06#8))).trace).drop 2 = [[0xC2#8, 0x06#8], [0x81#8, 0#8]]
    ∧ (chunksSent (after .pllOn (ready .idle (reaches 0x09#8))).trace).drop 2 = [[0xC2#8, 0x09#8], [0x81#8, 0#8]]
    ∧ (chunksSent (after .rxAackOn (ready .idle (reaches 0x16#8))).trace).drop 2
      = [[0xC2#8, 0x16#8], [0x81#8, 0#8]]
    ∧ (chunksSent (after .txAretOn (ready .idle (reaches 0x19#8))).trace).drop 2
      = [[0xC2#8, 0x19#8], [0x81#8, 0#8]] := by decide +kernel

/-! ### Configuration (vectors G1 to G16, S3, S7, S8) -/

/-- G3, G4: band 0 takes five bits of the channel; another band the channel-number register. -/
theorem test_set_channel :
    chunksSent (after (.setChannel 0xFF#8) (ready .idle [got 0#8])).trace = [[0xC8#8, 0x3F#8]]
    ∧ (after (.setChannel 0xFF#8) (ready .idle [got 0#8])).channel = 0xFF#8
    ∧ chunksSent (after (.setChannel 0x0A#8) { ready .idle [got 0#8] with band := 0x04#8 }).trace
      = [[0xD3#8, 0x0A#8]] := by decide +kernel

/-- G5, G7: the channel follows the band; reserved bits come before the state. -/
theorem test_set_band :
    chunksSent (after (.setBand 0x04#8) (ready .idle [got 0#8, got 0#8])).trace
      = [[0xD4#8, 0x04#8], [0xD3#8, 0x01#8]]
    ∧ (after (.setBand 0x08#8) (ready .initial [])).result = 0x06#8 := by decide +kernel

/-- G8, G9: bit 7 of `TRX_CTRL_2` is always written as 1. -/
theorem test_set_modulation :
    chunksSent (after (.setModulation 0x0C#8) (ready .idle [got 0#8])).trace = [[0xCC#8, 0x8C#8]]
    ∧ chunksSent (after (.setModulation 0x7F#8) (ready .idle [got 0#8])).trace = [[0xCC#8, 0xFF#8]] := by
  decide +kernel

/-- S8: the seed after SET_PAN_ID comes from the reset short address. -/
theorem test_set_pan_id :
    chunksSent (after (.setPanId 0xBEEF#16) (ready .idle [got 0#8, got 0#8, got 0#8])).trace
      = [[0xE2#8, 0xEF#8], [0xE3#8, 0xBE#8], [0xED#8, 0xFE#8]] := by decide +kernel

/-- S3: the seeds of 0x1234 and 0x8080. -/
theorem test_set_short_address :
    chunksSent (after (.setShortAddress 0x1234#16) (ready .idle [got 0#8, got 0#8, got 0#8])).trace
      = [[0xE0#8, 0x34#8], [0xE1#8, 0x12#8], [0xED#8, 0x46#8]]
    ∧ (chunksSent (after (.setShortAddress 0x8080#16) (ready .idle [got 0#8, got 0#8, got 0#8])).trace).drop 2
      = [[0xED#8, 0x00#8]] := by decide +kernel

/-- G11, G12: one failed attempt is retried; three leave 0x01 with the cache kept. -/
theorem test_set_tx_power :
    (after (.setTxPower 0x41#8) (ready .idle [broken, got 0#8])).result = 0x00#8
    ∧ chunksSent (after (.setTxPower 0x41#8) (ready .idle [broken, got 0#8])).trace
      = [[0xC5#8, 0x41#8], [0xC5#8, 0x41#8]]
    ∧ (after (.setTxPower 0x41#8) (ready .idle [broken, broken, broken])).result = 0x01#8
    ∧ (after (.setTxPower 0x41#8) (ready .idle [broken, broken, broken])).txPower = 0x41#8 := by decide +kernel

/-- S7, G15: the table of constants, and no profile needed. -/
theorem test_rssi_base_value :
    [0x00#8, 0x04#8, 0x08#8, 0x0C#8, 0x10#8, 0x14#8, 0x18#8, 0x1C#8, 0xE3#8].map (fun m =>
        (after .rssiBaseValue { ready .initial [] with modulation := m }).retdata)
      = [[0x9C#8], [0x9D#8], [0x9E#8], [0x9F#8], [0x9C#8], [0x9D#8], [0x9E#8], [0x9F#8], [0x9C#8]]
    ∧ (after .rssiBaseValue (readyWith twoByte .initial [])).result = 0x00#8 := by decide +kernel

/-- The RSSI table of 95_test_vectors.md section 2.4. -/
theorem test_rssi :
    (rssiOf Config.ref 0x10#8 0x00#8).toInt = -84 ∧ (rssiOf Config.ref 0xFF#8 0x0C#8).toInt = 158
    ∧ (rssiOf Config.ref 0xFF#8 0x00#8).toInt = 155 := by decide

/-! ### Checks, reset, waits that go on (vectors E1 to E7, X1, X2) -/

/-- E1, E2, E4: the order of the checks. -/
theorem test_check_order :
    precheck twoByte (.setBand 0x08#8) .initial = some (.unsupportedProfile twoByte.profile)
    ∧ precheck Config.ref (.setBand 0x08#8) .initial = some (.invalidArgument 0x08#8)
    ∧ precheck Config.ref (.setBand 0x02#8) .initial = some (.invalidState .initial)
    ∧ (refuse (.invalidCommand 0x30#8) State.reset).result = 0x07#8 :=
  ⟨rfl, by decide, by decide, by decide⟩

/-- R233, R15: a command that a check refuses leaves `evq` as it was; what it hands over is log 9. -/
theorem test_refusal_keeps_events :
    let t := after (.setBand 0x08#8) { ready .idle [] with evq := [.dataConfirm .noAck] }
    t.evq = [.dataConfirm .noAck]
      ∧ t.delivered = [{ result := 0x06#8, retdata := [], events := [] }] := by decide +kernel

/-- REF with polling without a bound, SLEEP waiting for `TRX_OFF` after one read, the chip's next answers given. -/
def waitingSleep (chip : List Draw) : State :=
  { after .sleep (readyWith endless .idle [got 0#8, got 0x1F#8]) with chip := chip }

/-- R276, R161: SLEEP left in its wait stays busy at that poll. -/
theorem test_wait_without_bound :
    (waitingSleep []).busy = true ∧ (waitingSleep []).opState = .idle
    ∧ (waitingSleep []).seq = some { cmd := .sleep, step := .waiting .sleepOff .forcedOff } := by decide +kernel

/-- R276, R161: the next step reads on, and the second read that shows `TRX_OFF` completes the command. -/
theorem test_wait_goes_on :
    (match step (waitingSleep [got 0x08#8]) with
      | .next t => (t.opState, t.result, t.pollCount, t.busy, t.delivered.length)
      | .fault _ => (.initial, 0xFF#8, 0, true, 0)
      | .refused _ => (.initial, 0xFF#8, 0, true, 0)) = (.sleep, 0x00#8, 2, false, 1) := by decide +kernel

/-- E7: an edge that arrives while a command runs. -/
theorem test_edge_in_command :
    (after (.readRegister 0x01#8) (ready .idle [{ got 0x08#8 with irq := true }])).irqFlag = true := by
  decide +kernel

/-- X2: SRC reset in the frame transaction of a DATA_REQUEST: released, no completion, no TX_START. -/
theorem test_reset_in_command :
    let t := after (.dataRequest [0x41#8]) (ready .idle (reaches 0x19#8 ++ [got 0#8, cutAt 2]))
    t.opState = .initial ∧ t.cs = .deasserted ∧ t.delivered = [] ∧ t.busy = false ∧ t.txbuf = []
      ∧ t.trace.drop (t.trace.length - 3)
        = [.cs .asserted, .cutChunk [0x60#8, 0x03#8], .cs .deasserted] := by decide +kernel

/-- R260: SRC reset before the chunk, and after it ended, when its bytes and its result are on record. -/
theorem test_reset_about_a_chunk :
    (after (.writeRegister 0x08#8 0x25#16) (ready .idle [{ got 0x07#8 with cut := some .beforeChunk }])).trace
      = [.cs .asserted, .cs .deasserted]
    ∧ (after (.writeRegister 0x08#8 0x25#16) (ready .idle [{ got 0x07#8 with cut := some .afterChunk }])).trace
      = [.cs .asserted, .chunk [0xC8#8, 0x25#8] [0x00#8, 0x07#8] true, .cs .deasserted]
    ∧ (after (.writeRegister 0x08#8 0x25#16) (ready .idle [{ got 0x07#8 with cut := some .afterChunk }])).delivered
      = [] := by decide +kernel

/-- R260: SRC reset before the first step of a command without bus traffic: no completion. -/
theorem test_reset_before_completion :
    (match step { ready .idle [] with port := [.wordCut (.hostFrame [0x16#8])] } with
      | .next t => (t.opState, t.delivered, t.port)
      | .fault _ => (.idle, [], [.irqEdge])
      | .refused _ => (.idle, [], [.irqEdge])) = (.initial, [], []) := by decide +kernel

/-- R239: an edge after TASK_HANDLER's first step, in a state where it has no bus traffic, stands at completion. -/
theorem test_edge_after_the_clear :
    (match step { ready .sleep [] with irqFlag := true, port := [.wordEdge (.hostFrame [0x05#8])] } with
      | .next t => (t.irqFlag, t.delivered.length, t.trace, t.port)
      | .fault _ => (false, 0, [], [])
      | .refused _ => (false, 0, [], [])) = (true, 1, [], []) := by decide +kernel

/-- R82: a profile whose frame command is a register command byte makes no SRC. -/
theorem test_construction_checks :
    State.construct { Config.ref with profile := { Profile.a with fbReadCmd := 0x8F#8 } } = none
    ∧ State.construct { Config.ref with profile := { Profile.a with readFlag := 0x81#8 } } = none := by
  decide +kernel

/-- The word placed for the next step is the one that runs, right after reset. -/
theorem test_fetch_word :
    ((match step (State.reset.withFetchWord 8 0x16) with
      | .next t => t.retdata
      | .fault _ => []
      | .refused _ => []) = [0x9C#8]) := by decide +kernel

/-- An unwritten buffer byte has no value (R37). -/
theorem test_unwritten_byte : State.reset.rxbuf.fetch 0 = .error (.unwrittenByte 0) := by decide

/-! ### Witnesses: for every obligation with hypotheses, a state and operands that meet them

Each theorem is named after its obligation; where the obligation has several clauses there is a witness for each, at
the edges of its ranges. `ran i s` says that i answers `after i s` from s and that no SRC reset cut it. -/

/-- i answers this state, uncut. -/
abbrev ran (i : Instr) (s : State) : Prop := exec i s = .next (after i s) ∧ s.uncutUntil (after i s)

/-- A state with something on `port`. -/
def presented (p : List PortInput) : State := { ready .idle [] with port := p }

theorem idle_inv : (presented [.irqEdge]).Inv := by
  constructor <;> decide

theorem ref_meetsR82 : Config.ref.profile.meetsR82 := by
  refine ⟨by decide, by decide, by decide, by decide, fun a flag cmd hf hc => ?_⟩
  have hf : flag = 0x80#8 ∨ flag = 0xC0#8 := by simpa [Config.ref, Profile.a] using hf
  have hc : cmd = 0x20#8 ∨ cmd = 0x60#8 := by simpa [Config.ref, Profile.a] using hc
  rcases hf with rfl | rfl <;> rcases hc with rfl | rfl <;> revert a <;> decide

theorem ref_meetsR9 : Config.ref.meetsR9 :=
  ⟨by decide, by decide, by decide, by decide, by decide, by decide, by decide⟩

theorem witness_ResetMeetsTheInvariant :
    Config.ref.profile.meetsR82 ∧ Config.ref.meetsR9 ∧ State.construct Config.ref = some State.reset
    ∧ ¬ (Profile.meetsR82 { Profile.a with fbReadCmd := 0x8F#8 }) :=
  ⟨ref_meetsR82, ref_meetsR9, construct_ref, fun h =>
    h.2.2.2.2 0x0F#6 0x80#8 0x8F#8 (by decide) (by decide) (by decide)⟩

theorem witness_EveryStepKeepsTheInvariant :
    (presented [.irqEdge]).Inv
    ∧ step (presented [.irqEdge]) = .next { presented [.irqEdge] with irqFlag := true, port := [] } :=
  ⟨idle_inv, rfl⟩

theorem witness_StepRunsTheDecodedInstruction :
    (presented [.word (.hostFrame [0x02#8])]).port = .word (.hostFrame [0x02#8]) :: []
    ∧ (presented [.word (.hostFrame [0x02#8])]).busy = false
    ∧ decode (presented [.word (.hostFrame [0x02#8])]).cfg (.hostFrame [0x02#8]) = .ok .sleep := by
  decide

theorem witness_WaitsForACommandAfterReset : decode Config.ref (.hostFrame [0x01#8]) = .ok .init := by decide

/-- SLEEP left in its wait for `TRX_OFF`, this on `port`. -/
def waitingWith (p : List PortInput) : State := { waitingSleep [got 0x08#8] with port := p }

theorem witness_BusySequencerAcceptsNoCommand :
    (∀ p, (waitingWith p).busy = true)
    ∧ (∀ p, (waitingWith p).seq = some { cmd := .sleep, step := .waiting .sleepOff .forcedOff })
    ∧ (waitingWith [.word (.hostFrame [0x02#8])]).port = .word (.hostFrame [0x02#8]) :: []
    ∧ (waitingWith [.wordCut (.hostFrame [0x02#8])]).port = .wordCut (.hostFrame [0x02#8]) :: []
    ∧ (waitingWith [.wordEdge (.hostFrame [0x02#8])]).port = .wordEdge (.hostFrame [0x02#8]) :: []
    ∧ (waitingWith [.irqEdge]).port = .irqEdge :: [] ∧ (waitingWith [.srcReset]).port = .srcReset :: []
    ∧ (waitingWith []).port = [] :=
  ⟨fun _ => show (waitingSleep [got 0x08#8]).busy = true by decide +kernel,
    fun _ => show (waitingSleep [got 0x08#8]).seq = _ by decide +kernel, rfl, rfl, rfl, rfl, rfl, rfl⟩

/-- A state that waits meets the invariant. -/
theorem waiting_inv : (waitingWith []).Inv := by
  constructor <;> decide +kernel

theorem witness_ResetAbandonsTheCommand :
    (presented [.srcReset]).port = .srcReset :: []
    ∧ (presented [.wordCut (.hostFrame [0x02#8])]).port = .wordCut (.hostFrame [0x02#8]) :: []
    ∧ (presented [.wordCut (.hostFrame [0x02#8])]).busy = false
    ∧ (presented [.wordCut (.hostFrame [0x02#8])]).cs = .deasserted
    ∧ (presented [.wordCut (.hostFrame [0x02#8])]).rst = .deasserted
    ∧ decode Config.ref (.hostFrame [0x02#8]) = .ok .sleep ∧ Config.ref.valid = true
    ∧ (0x3F#8 : Byte).toNat < 64
    ∧ (∀ c, ((ready .idle [{ got 0#8 with cut := some c }]).drawAt 0).cut = some c)
    ∧ exec .sleep (ready .idle [got 0#8, cutAt 1]) = .next (after .sleep (ready .idle [got 0#8, cutAt 1]))
    ∧ ¬ (ready .idle [got 0#8, cutAt 1]).uncutUntil (after .sleep (ready .idle [got 0#8, cutAt 1])) :=
  ⟨rfl, rfl, rfl, rfl, rfl, by decide, by decide, by decide, fun _ => rfl, rfl, by decide +kernel⟩

theorem witness_OnlyTaskHandlerClearsTheIrqFlag :
    (presented [.irqEdge]).port = .irqEdge :: []
    ∧ ran .sleep (ready .idle [{ got 0#8 with irq := true }, got 0x08#8])
    ∧ (ready .idle [got 0#8]).cfg.profile.bytewise = true ∧ ran .taskHandler (ready .idle [got 0#8])
    ∧ (presented [.wordEdge (.hostFrame [0x02#8])]).port = .wordEdge (.hostFrame [0x02#8]) :: []
    ∧ (presented [.wordEdge (.hostFrame [0x02#8])]).busy = false
    ∧ decode Config.ref (.hostFrame [0x02#8]) = .ok .sleep
    ∧ (∀ st ∈ [OpState.initial, .sleep],
      ({ ready st [] with port := [.wordEdge (.hostFrame [0x05#8])] } : State).busy = false
      ∧ ({ ready st [] with port := [.wordEdge (.hostFrame [0x05#8])] } : State).opState = st)
    ∧ decode Config.ref (.hostFrame [0x05#8]) = .ok .taskHandler :=
  ⟨rfl, ⟨rfl, by decide +kernel⟩, by decide, ⟨rfl, by decide +kernel⟩, rfl, rfl, by decide, by decide, by decide⟩

theorem witness_DecodeOfEncodeIsTheInstruction :
    Config.ref.valid = true ∧ Config.ref.map.codesDistinct = true
    ∧ Instr.wf Config.ref (.writeRegister 0xFF#8 0x00FF#16) = true
    ∧ Instr.wf Config.ref (.spiFbWrite (zeros 253)) = true := by decide +kernel

theorem witness_EncodeOfDecodeIsTheWord :
    Config.ref.valid = true ∧ decode Config.ref (.spiTransfer [0xBF#8, 0x00#8]) = .ok (.spiRegRead 0x3F#6) := by
  decide

theorem witness_HostFrameLengthsAreFixedByTheOpcode :
    (0x25#8 : Byte) ∈ [0x01#8, 0x02#8, 0x03#8, 0x05#8, 0x16#8, 0x25#8]
    ∧ (0x23#8 : Byte) ∈ [0x10#8, 0x11#8, 0x12#8, 0x15#8, 0x20#8, 0x23#8]
    ∧ (0x14#8 : Byte) ∈ [0x13#8, 0x14#8] ∧ (0x24#8 : Byte) ∈ [0x04#8, 0x22#8, 0x24#8]
    ∧ decode Config.ref (.hostFrame [0x24#8, 0x00#8]) = .ok (.writeFrame []) := by decide

theorem witness_LengthPrefixCountsTheCrcBytes :
    Config.ref.valid = true ∧ (zeros 125).length + 3 ≤ Config.ref.fbLimit := by decide +kernel

theorem witness_UnassignedOpcodeIsInvalidCommand :
    (presented [.word (.hostFrame [0x30#8, 0x01#8])]).port = .word (.hostFrame (0x30#8 :: [0x01#8])) :: []
    ∧ (presented [.word (.hostFrame [0x30#8, 0x01#8])]).busy = false
    ∧ (0x30#8 : Byte) ∉ [0x01#8, 0x02#8, 0x03#8, 0x04#8, 0x05#8, 0x10#8, 0x11#8, 0x12#8, 0x13#8, 0x14#8,
        0x15#8, 0x16#8, 0x20#8, 0x21#8, 0x22#8, 0x23#8, 0x24#8, 0x25#8] := by decide

theorem witness_ChecksComeInOrderBeforeBusTraffic :
    precheck twoByte .init .sleep = some (.unsupportedProfile twoByte.profile)
    ∧ precheck Config.ref (.readRegister 0x40#8) .idle = some (.invalidArgument 0x40#8)
    ∧ precheck Config.ref .init .idle = some (.invalidState .idle)
    ∧ precheck Config.ref (.spiFbWrite (zeros 126)) .idle = some (.frameTooLong 126) :=
  ⟨rfl, by decide, by decide, by decide +kernel⟩

theorem witness_EightBitProfileIsRequired :
    isConfiguration (.setBand 0xFF#8) = true ∧ Instr.sleep ∈ [Instr.init, .sleep, .wakeup, .taskHandler]
    ∧ ¬ ((readyWith twoByte .idle []).cfg.profile.cmdBytes = .one
        ∧ (readyWith twoByte .idle []).cfg.profile.valBytes = .one)
    ∧ ¬ ((readyWith twoValue .idle []).cfg.profile.cmdBytes = .one
        ∧ (readyWith twoValue .idle []).cfg.profile.valBytes = .one) := by decide

theorem witness_LegalityTableOfCommandsAndStates :
    (∀ op, (ready op []).cfg.profile.bytewise = true)
    ∧ isConfiguration (.setTxPower 0x00#8) = true ∧ badArgument (.setTxPower 0x00#8) = none
    ∧ exec .init (ready .initial [broken]) = .next (after .init (ready .initial [broken]))
    ∧ (after .init (ready .initial [broken])).delivered
      = [] ++ [{ result := 0x01#8, retdata := [], events := [] }]
    ∧ ran .init (ready .initial [broken]) ∧ (after .init (ready .initial [broken])).opState = .initial :=
  ⟨fun op => by cases op <;> decide, by decide, by decide, rfl, by decide +kernel, ⟨rfl, by decide +kernel⟩,
    by decide +kernel⟩

theorem witness_ConfigurationCommandsNeedInit :
    isConfiguration (.setBand 0x07#8) = true ∧ badArgument (.setBand 0x07#8) = none
    ∧ (ready .initial []).cfg.profile.bytewise = true ∧ (ready .initial []).opState = .initial
    ∧ (readyWith twoByte .idle []).cfg.profile.bytewise = false
    ∧ (ready .sleep []).opState ≠ .initial ∧ ran (.setBand 0x07#8) (ready .sleep [got 0#8, got 0#8]) :=
  ⟨by decide, by decide, by decide, by decide, by decide, by decide, rfl, by decide +kernel⟩

theorem witness_ReadRegisterIsOneExchange :
    Config.ref.valid = true ∧ 64 ≤ (0x40#8 : Byte).toNat ∧ (0x3F#8 : Byte).toNat < 64
    ∧ (ready .idle [got 0#8]).goThrough 1 ∧ (ready .idle [broken]).failsAt 0
    ∧ (readyWith twoValueLow .idle [got 0#8]).cfg.valid = true
    ∧ (readyWith twoValueLow .idle [got 0#8]).goThrough 1 := by decide +kernel

theorem witness_WriteRegisterIsOneExchange :
    twoByte.valid = true ∧ 64 ≤ (0xFF#8 : Byte).toNat ∧ (0x00#8 : Byte).toNat < 64
    ∧ (readyWith twoByte .idle [got 0#8]).goThrough 1 ∧ (readyWith twoByte .idle [broken]).failsAt 0 := by
  decide +kernel

theorem witness_SpiRegisterRowsAreTheExchanges :
    Config.ref.valid = true ∧ (ready .initial [got 0#8]).goThrough 1 := by decide +kernel

theorem witness_WriteBytesSendsChunks :
    smallXfer.valid = true ∧ [1#8, 2#8, 3#8, 4#8, 5#8] ≠ []
    ∧ IsChunking smallXfer.maxXfer [1#8, 2#8, 3#8, 4#8, 5#8] [[1#8, 2#8, 3#8, 4#8], [5#8]]
    ∧ (readyWith smallXfer .idle [got 0#8, got 0#8]).goThrough [[1#8, 2#8, 3#8, 4#8], [5#8]].length
    ∧ [[1#8, 2#8, 3#8, 4#8], [5#8]] = [[1#8, 2#8, 3#8, 4#8]] ++ [5#8] :: []
    ∧ (readyWith smallXfer .idle [got 0#8, broken]).goThrough [[1#8, 2#8, 3#8, 4#8]].length
    ∧ (readyWith smallXfer .idle [got 0#8, broken]).failsAt [[1#8, 2#8, 3#8, 4#8]].length := by decide +kernel

theorem witness_ReadBytesReturnsWhatArrives :
    smallXfer.valid = true ∧ 0x05#8 ≠ 0x00#8
    ∧ IsChunking smallXfer.maxXfer (List.replicate (0x05#8 : Byte).toNat 0x00#8)
        [[0#8, 0#8, 0#8, 0#8], [0#8]]
    ∧ (readyWith smallXfer .idle [got 0#8, got 0#8]).goThrough [[0#8, 0#8, 0#8, 0#8], [0#8]].length
    ∧ [[0#8, 0#8, 0#8, 0#8], [0#8]] = [] ++ [0#8, 0#8, 0#8, 0#8] :: [[0#8]]
    ∧ (readyWith smallXfer .idle [broken]).goThrough ([] : List (List Byte)).length
    ∧ (readyWith smallXfer .idle [broken]).failsAt ([] : List (List Byte)).length := by decide +kernel

theorem witness_EveryTransactionIsFramed :
    Config.ref.valid = true ∧ (ready .idle [got 0#8, cutAt 1]).cs = .deasserted
    ∧ exec .sleep (ready .idle [got 0#8, cutAt 1]) = .next (after .sleep (ready .idle [got 0#8, cutAt 1]))
    ∧ (waitingSleep [broken]).cs = .deasserted
    ∧ step (waitingSleep [broken]) = continueCommand (waitingSleep [broken])
    ∧ (after .sleep (ready .idle [{ got 0#8 with cut := some .beforeChunk }])).trace
      = [] ++ .cs .asserted :: .cs .deasserted :: [] :=
  ⟨by decide, by decide, rfl, by decide +kernel, rfl, by decide +kernel⟩

theorem witness_FailedChunkEndsTheCommand :
    usesCfgWrite .sleep = false ∧ ran .sleep (ready .idle [got 0#8, broken]) :=
  ⟨by decide, rfl, by decide +kernel⟩

theorem witness_WriteFrameSendsTheImage :
    smallXfer.valid = true ∧ [0x55#8].length + 3 ≤ smallXfer.fbLimit
    ∧ IsChunking smallXfer.maxXfer (0x60#8 :: 0x03#8 :: ([0x55#8] ++ [0x00#8, 0x00#8]))
        [[0x60#8, 0x03#8, 0x55#8, 0#8], [0#8]]
    ∧ smallXfer.profile.fbWriteCmd = 0x60#8 ∧ smallXfer.profile.bytewise = true
    ∧ (readyWith smallXfer .idle (reaches 0x09#8 ++ [got 0#8, got 0#8, got 0#8])).goThrough (5 + 2)
    ∧ (readyWith smallXfer .idle (reaches 0x09#8 ++ [got 0#8, got 0#8, got 0#8])).pollsMatch 0 .pllOn
    ∧ (zeros 125).length + 3 ≤ Config.ref.fbLimit
    ∧ (readyWith threePolls .idle neverOffAnswers).neverOff 0 3
    ∧ (readyWith threePolls .idle neverReachesAnswers).neverReaches 0 .pllOn 3 := by decide +kernel

theorem witness_ReadFrameTakesTheLengthFirst :
    smallXfer.valid = true
    ∧ (readyWith smallXfer .idle [broken]).failsAt 0
    ∧ (readyWith smallXfer .idle [got 0x80#8]).goThrough 1
    ∧ smallXfer.maxPhr < ((readyWith smallXfer .idle [got 0x80#8]).secondByte 0).toNat
    ∧ ((readyWith smallXfer .idle [got 0x7F#8]).secondByte 0).toNat ≤ smallXfer.maxPhr
    ∧ ((readyWith smallXfer .idle [got 0x04#8, got 0#8, got 0#8]).secondByte 0) = 0x04#8
    ∧ IsChunking smallXfer.maxXfer (List.replicate 5 0x00#8) [[0#8, 0#8, 0#8, 0#8], [0#8]]
    ∧ (readyWith smallXfer .idle [got 0x04#8, got 0#8, got 0#8]).goThrough (1 + 2)
    ∧ (readyWith smallXfer .idle [got 0x04#8, got 0#8, broken]).goThrough (1 + 1)
    ∧ (readyWith smallXfer .idle [got 0x04#8, got 0#8, broken]).failsAt (1 + 1) := by decide +kernel

theorem witness_SpiFrameReadRowIsTheFrameRead :
    smallXfer.valid = true ∧ (readyWith smallXfer .idle [got 0x80#8]).goThrough 1
    ∧ smallXfer.maxPhr < ((readyWith smallXfer .idle [got 0x80#8]).secondByte 0).toNat
    ∧ ((readyWith smallXfer .idle [got 0x04#8, got 0#8, got 0#8]).secondByte 0) = 0x04#8
    ∧ (0x04#8).toNat ≤ smallXfer.maxPhr
    ∧ IsChunking smallXfer.maxXfer (List.replicate 5 0x00#8) [[0#8, 0#8, 0#8, 0#8], [0#8]]
    ∧ (readyWith smallXfer .idle [got 0x04#8, got 0#8, got 0#8]).goThrough (1 + 2) := by decide +kernel

theorem witness_TransmitBufferFrame :
    ran .sleep (ready .idle (reaches 0#8)) ∧ frameOf .sleep = none
    ∧ ran (.spiFbWrite [0x55#8]) (ready .idle [got 0#8]) ∧ frameOf (.spiFbWrite [0x55#8]) = some [0x55#8]
    ∧ (after (.spiFbWrite [0x55#8]) (ready .idle [got 0#8])).txbuf.read 1 = some 0x55#8 :=
  ⟨⟨rfl, by decide +kernel⟩, by decide, ⟨rfl, by decide +kernel⟩, by decide, by decide +kernel⟩

theorem witness_ReceiveBufferFrame :
    Config.ref.valid = true
    ∧ ran .readFrame (ready .idle [got 0x01#8, gotAll [0xAA#8, 0xBB#8]])
    ∧ (after .readFrame (ready .idle [got 0x01#8, gotAll [0xAA#8, 0xBB#8]])).rxbuf.read 2 = some 0xBB#8
    ∧ ran .taskHandler (ready .idle [got 0x08#8, got 0x00#8, gotAll [0xAA#8], broken])
    ∧ IsChunking Config.ref.maxXfer (List.replicate (0x01#8 : Byte).toNat.succ 0x00#8) [[0#8, 0#8]]
    ∧ ran .sleep (ready .idle (reaches 0#8)) :=
  ⟨by decide, ⟨rfl, by decide +kernel⟩, by decide +kernel, ⟨rfl, by decide +kernel⟩, by decide +kernel,
    rfl, by decide +kernel⟩

theorem witness_WaitStatePollsUntilTheLimit :
    threePolls.valid = true ∧ threePolls.profile.bytewise = true ∧ threePolls.pollLimit = some 3
    ∧ (readyWith threePolls .idle [got 0x1F#8, got 0x1F#8, got 0x08#8]).goThrough 3
    ∧ (∀ k, k < 2 → (readyWith threePolls .idle [got 0x1F#8, got 0x1F#8, got 0x08#8]).polled k ≠ 0x08#5)
    ∧ (readyWith threePolls .idle [got 0x1F#8, got 0x1F#8, got 0x08#8]).polled (3 - 1) = 0x08#5
    ∧ (readyWith threePolls .idle [got 0x1F#8, got 0x1F#8, got 0x1F#8]).goThrough 3
    ∧ (∀ k, k < 3 → (readyWith threePolls .idle [got 0x1F#8, got 0x1F#8, got 0x1F#8]).polled k ≠ 0x08#5)
    ∧ (readyWith threePolls .idle [got 0x1F#8, broken]).goThrough 1
    ∧ (∀ k, k < 1 → (readyWith threePolls .idle [got 0x1F#8, broken]).polled k ≠ 0x08#5)
    ∧ (readyWith threePolls .idle [got 0x1F#8, broken]).failsAt 1
    ∧ endless.valid = true ∧ endless.pollLimit = none ∧ 1 ≤ max (readyWith endless .idle [got 0x08#8]).chip.length 1
    ∧ (readyWith endless .idle [got 0x08#8]).polled (1 - 1) = 0x08#5 := by decide +kernel

theorem witness_StateCommandRowsForceOffFirst :
    Config.ref.valid = true ∧ Config.ref.profile.bytewise = true
    ∧ (ready .idle (reaches 0#8)).goThrough 2 ∧ (ready .idle (reaches 0#8)).pollsMatch 0 .forceTrxOff
    ∧ (ready .idle (reaches 0x06#8)).goThrough 4 ∧ (ready .idle (reaches 0x06#8)).pollsMatch 0 .rxOn
    ∧ (ready .idle (reaches 0x09#8)).pollsMatch 0 .pllOn ∧ (ready .idle (reaches 0x16#8)).pollsMatch 0 .rxAackOn
    ∧ (ready .idle (reaches 0x19#8)).pollsMatch 0 .txAretOn ∧ (ready .idle [got 0#8]).goThrough 1
    ∧ threePolls.valid = true ∧ (readyWith threePolls .idle neverOffAnswers).neverOff 0 3
    ∧ (readyWith threePolls .idle neverReachesAnswers).neverReaches 0 .txAretOn 3 := by
  decide +kernel

/-- The answers that let INIT go through at once. -/
def initAnswers : List Draw := [got 0#8, got 0x08#8, got 0#8, got 0#8, got 0#8] ++ reaches 0x16#8

theorem witness_InitBringsTheChipToTheReceiveState :
    Config.ref.valid = true ∧ Config.ref.profile.bytewise = true ∧ (ready .initial initAnswers).opState = .initial
    ∧ (ready .initial initAnswers).goThrough 9 ∧ (ready .initial initAnswers).pollsMatch 0 .forceTrxOff
    ∧ (ready .initial initAnswers).pollsMatch 5 (rxStateCmd Config.ref) := by decide +kernel

theorem witness_InitForcesOffBeforeConfiguring :
    Config.ref.valid = true ∧ Config.ref.profile.bytewise = true ∧ Config.ref.map.addrsDistinct = true
    ∧ (ready .initial initAnswers).opState = .initial
    ∧ exec .init (ready .initial initAnswers) = .next (after .init (ready .initial initAnswers))
    ∧ (after .init (ready .initial initAnswers)).trace
      = (ready .initial initAnswers).trace ++ (after .init (ready .initial initAnswers)).trace
    ∧ Config.ref.map.trxCtrl1 ∈ [Config.ref.map.trxCtrl1, Config.ref.map.trxCtrl2, Config.ref.map.phyTxPwr]
    ∧ (chunksSent (after .init (ready .initial initAnswers)).trace)[2]?
      = some (regWrite Config.ref Config.ref.map.trxCtrl1 0x24#8) :=
  ⟨by decide, by decide, by decide, by decide, rfl, (List.nil_append _).symm, by decide, by decide +kernel⟩

theorem witness_ForcedOffPhaseIsNeverSkipped :
    rawTransport .wakeup = false ∧ Config.ref.valid = true ∧ Config.ref.map.addrsDistinct = true
    ∧ exec .wakeup (ready .sleep (reaches 0x16#8)) = .next (after .wakeup (ready .sleep (reaches 0x16#8)))
    ∧ endless.valid = true ∧ endless.profile.bytewise = true ∧ endless.map.addrsDistinct = true
    ∧ (waitingSleep [got 0x08#8]).seq = some { cmd := .sleep, step := .waiting .sleepOff .forcedOff }
    ∧ continueCommand (waitingSleep [got 0x08#8])
      = .next (finish (resume .sleepOff .forcedOff (waitingSleep [got 0x08#8])))
    ∧ rawTransport .sleep = false
    ∧ exec .sleep (readyWith endless .idle [got 0#8, got 0x1F#8])
      = .next (after .sleep (readyWith endless .idle [got 0#8, got 0x1F#8]))
    ∧ (after .sleep (readyWith endless .idle [got 0#8, got 0x1F#8])).seq
      = some { cmd := .sleep, step := .waiting .sleepOff .forcedOff }
    ∧ (match continueCommand (waitingSleep [got 0x1F#8]) with
        | .next t => t.seq
        | .fault _ => none
        | .refused _ => none) = some { cmd := .sleep, step := .waiting .sleepOff .forcedOff } :=
  ⟨by decide, by decide, by decide, rfl, by decide, by decide, by decide, by decide +kernel, rfl, by decide, rfl,
    by decide +kernel, by decide +kernel⟩

theorem witness_SleepAndWakeupComplete :
    Config.ref.valid = true ∧ Config.ref.profile.bytewise = true
    ∧ (ready .idle (reaches 0#8)).opState = .idle ∧ (ready .idle (reaches 0#8)).goThrough 2
    ∧ (ready .idle (reaches 0#8)).pollsMatch 0 .forceTrxOff
    ∧ (ready .sleep (reaches 0x16#8)).opState = .sleep ∧ (ready .sleep (reaches 0x16#8)).goThrough 4
    ∧ (ready .sleep (reaches 0x16#8)).pollsMatch 0 (rxStateCmd Config.ref)
    ∧ threePolls.valid = true ∧ threePolls.profile.bytewise = true
    ∧ (readyWith threePolls .idle neverOffAnswers).opState = .idle
    ∧ (readyWith threePolls .idle neverOffAnswers).neverOff 0 3
    ∧ (readyWith threePolls .sleep neverReachesAnswers).opState = .sleep
    ∧ (readyWith threePolls .sleep neverReachesAnswers).neverReaches 0 (rxStateCmd threePolls) 3 := by
  decide +kernel

/-- REF with `DATAREQ_FORCES_PLL_ON`. -/
def forcing : Config := { Config.ref with dataReqForcesPllOn := true }

theorem witness_DataRequestHandsTheFrameOver :
    Config.ref.valid = true ∧ Config.ref.profile.bytewise = true ∧ [0x41#8].length + 3 ≤ Config.ref.fbLimit
    ∧ IsChunking Config.ref.maxXfer
        (Config.ref.profile.fbWriteCmd :: BitVec.ofNat 8 ([0x41#8].length + 2) :: ([0x41#8] ++ [0x00#8, 0x00#8]))
        [[0x60#8, 0x03#8, 0x41#8, 0#8, 0#8]]
    ∧ Config.ref.dataReqForcesPllOn = false
    ∧ (ready .idle (reaches 0x19#8 ++ [got 0#8, got 0#8, got 0#8])).goThrough (6 + 1)
    ∧ (ready .idle (reaches 0x19#8 ++ [got 0#8, got 0#8, got 0#8])).pollsMatch 0 .txAretOn
    ∧ forcing.valid = true ∧ forcing.profile.bytewise = true ∧ forcing.dataReqForcesPllOn = true
    ∧ (readyWith forcing .idle (reaches 0x19#8 ++ [got 0#8] ++ reaches 0x09#8 ++ [got 0#8, got 0#8])).goThrough
        (10 + 1)
    ∧ (readyWith forcing .idle (reaches 0x19#8 ++ [got 0#8] ++ reaches 0x09#8 ++ [got 0#8, got 0#8])).pollsMatch
        0 .txAretOn
    ∧ (readyWith forcing .idle (reaches 0x19#8 ++ [got 0#8] ++ reaches 0x09#8 ++ [got 0#8, got 0#8])).pollsMatch
        5 .pllOn := by decide +kernel

set_option maxRecDepth 4000 in
theorem witness_FailedDataRequestIsConfirmed :
    Config.ref.profile.bytewise = true ∧ (ready .idle [broken]).opState = .idle
    ∧ (zeros 125).length + 3 ≤ Config.ref.fbLimit ∧ ran (.dataRequest (zeros 125)) (ready .idle [broken])
    ∧ (after (.dataRequest (zeros 125)) (ready .idle [broken])).busy = false
    ∧ threePolls.valid = true ∧ (readyWith threePolls .idle neverOffAnswers).neverOff 0 3
    ∧ (readyWith threePolls .idle neverReachesAnswers).neverReaches 0 .txAretOn 3 :=
  ⟨by decide, by decide, by decide +kernel, ⟨rfl, by decide +kernel⟩, by decide +kernel, by decide,
    by decide +kernel, by decide +kernel⟩

theorem witness_TaskHandlerWithNothingCompleted :
    Config.ref.valid = true ∧ Config.ref.profile.bytewise = true
    ∧ (ready .transmittingWaitEnd [got 0x04#8]).opState = .transmittingWaitEnd
    ∧ (ready .transmittingWaitEnd [got 0x04#8]).goThrough 1
    ∧ ((ready .transmittingWaitEnd [got 0x04#8]).secondByte 0).getLsbD Config.ref.map.trxEndBit = false
    ∧ (ready .idle [broken]).opState = .idle ∧ (ready .idle [broken]).failsAt 0 := by decide +kernel

/-- TransmittingWaitEnd, `TRX_END` set, status 2, and the re-apply going through. -/
def doneState : State := ready .transmittingWaitEnd ([got 0x08#8, got 0x40#8] ++ reaches 0x16#8)

theorem witness_TransmitDoneIsConfirmedOnce :
    doneState.cfg.valid = true ∧ doneState.cfg.profile.bytewise = true ∧ doneState.opState = .transmittingWaitEnd
    ∧ (doneState.secondByte 0).getLsbD doneState.cfg.map.trxEndBit = true
    ∧ doneState.goThrough 6 ∧ doneState.pollsMatch 2 (rxStateCmd doneState.cfg) ∧ ran .taskHandler doneState
    ∧ (ready .transmittingWaitEnd [got 0x08#8, broken]).goThrough 1
    ∧ (ready .transmittingWaitEnd [got 0x08#8, broken]).failsAt 1 :=
  ⟨by decide, by decide, by decide, by decide +kernel, by decide +kernel, by decide +kernel,
    ⟨rfl, by decide +kernel⟩, by decide +kernel, by decide +kernel⟩

/-- Idle, `TRX_END` set, a frame of one byte with LQI 0xBB, and everything going through. -/
def receiveState : State :=
  ready .idle ([got 0x08#8, got 0x01#8, gotAll [0xAA#8, 0xBB#8], got 0x20#8] ++ reaches 0x16#8)

theorem witness_ReceptionIsIndicatedOnce :
    receiveState.cfg.valid = true ∧ receiveState.cfg.profile.bytewise = true ∧ receiveState.opState = .idle
    ∧ (receiveState.secondByte 0).getLsbD receiveState.cfg.map.trxEndBit = true
    ∧ (receiveState.secondByte 1).toNat ≤ receiveState.cfg.maxPhr
    ∧ IsChunking receiveState.cfg.maxXfer (List.replicate ((receiveState.secondByte 1).toNat + 1) 0x00#8)
        [[0#8, 0#8]]
    ∧ (receiveState.received 2 [[0#8, 0#8]])[(receiveState.secondByte 1).toNat]? = some 0xBB#8
    ∧ receiveState.goThrough (7 + 1) ∧ receiveState.pollsMatch (3 + 1) (rxStateCmd receiveState.cfg)
    ∧ ran .taskHandler receiveState
    ∧ (ready .idle [got 0x08#8, got 0x01#8, gotAll [0xAA#8, 0xBB#8], broken]).goThrough 3
    ∧ (ready .idle [got 0x08#8, got 0x01#8, gotAll [0xAA#8, 0xBB#8], broken]).failsAt 3 :=
  ⟨by decide, by decide, by decide, by decide +kernel, by decide +kernel, by decide +kernel, by decide +kernel,
    by decide +kernel, by decide +kernel, ⟨rfl, by decide +kernel⟩, by decide +kernel, by decide +kernel⟩

/-- Idle, `TRX_END` set, length byte 0x80, and the re-apply going through. -/
def invalidLengthState : State := ready .idle ([got 0x08#8, got 0x80#8] ++ reaches 0x16#8)

theorem witness_InvalidLengthInTheReceivePath :
    invalidLengthState.cfg.valid = true ∧ invalidLengthState.cfg.profile.bytewise = true
    ∧ invalidLengthState.opState = .idle ∧ invalidLengthState.goThrough 6
    ∧ (invalidLengthState.secondByte 0).getLsbD invalidLengthState.cfg.map.trxEndBit = true
    ∧ invalidLengthState.cfg.maxPhr < (invalidLengthState.secondByte 1).toNat
    ∧ invalidLengthState.pollsMatch 2 (rxStateCmd invalidLengthState.cfg) ∧ ran .taskHandler invalidLengthState
    ∧ (after .taskHandler invalidLengthState).busy = false
    ∧ (ready .idle [got 0x08#8, got 0xFF#8, broken]).goThrough 2
    ∧ (ready .idle [got 0x08#8, got 0xFF#8, broken]).failsAt 2 :=
  ⟨by decide, by decide, by decide, by decide +kernel, by decide +kernel, by decide +kernel, by decide +kernel,
    ⟨rfl, by decide +kernel⟩, by decide +kernel, by decide +kernel, by decide +kernel⟩

theorem witness_OperatingStateTransitions :
    ran .init (ready .initial initAnswers) ∧ ran .init (ready .initial [broken])
    ∧ (after .init (ready .initial initAnswers)).opState = .idle
    ∧ (after .sleep (ready .idle (reaches 0#8))).opState = .sleep ∧ ran .sleep (ready .idle (reaches 0#8))
    ∧ ran .taskHandler doneState ∧ (after .taskHandler doneState).opState = .idle
    ∧ ran .readFrame (ready .sleep [broken]) :=
  ⟨⟨rfl, by decide +kernel⟩, ⟨rfl, by decide +kernel⟩, by decide +kernel, by decide +kernel,
    ⟨rfl, by decide +kernel⟩, ⟨rfl, by decide +kernel⟩, by decide +kernel, rfl, by decide +kernel⟩

theorem witness_IndicationOfAReceivedFrame :
    [0xAA#8].length = (0x01#8 : Byte).toNat ∧ ([] : List Byte).length = (0x00#8 : Byte).toNat := by decide

theorem witness_RssiBaseValueIsPure :
    Config.ref.map.fieldsAsR59 = true ∧ (0x00#8 : Byte).getLsbD 3 = false ∧ (0x04#8 : Byte).getLsbD 2 = true
    ∧ (0x1C#8 : Byte).getLsbD 3 = true ∧ (0x1C#8 : Byte).getLsbD 2 = true ∧ (0x1C#8 : Byte).getLsbD 4 = true
    ∧ (0x0C#8 : Byte).getLsbD 4 = false := by decide

theorem witness_TransactionStatusMapping : Config.ref.tracMap.length ≤ (3#3 : BitVec 3).toNat := by decide

theorem witness_RegisterFieldsOfTheChipMap : Config.ref.map.fieldsAsR59 = true := by decide

theorem witness_SetChannelWritesTheBandsRegister :
    Config.ref.valid = true ∧ Config.ref.profile.bytewise = true ∧ (ready .sleep [got 0#8]).opState ≠ .initial
    ∧ (ready .sleep [got 0#8]).goThrough 1 ∧ (ready .sleep [got 0#8]).band = 0x00#8
    ∧ { ready .sleep [got 0#8] with band := 0x07#8 }.band ≠ 0x00#8 := by decide +kernel

theorem witness_SetBandRewritesTheChannel :
    Config.ref.valid = true ∧ Config.ref.profile.bytewise = true ∧ 8 ≤ (0x08#8 : Byte).toNat
    ∧ (0x07#8 : Byte).toNat < 8 ∧ (ready .idle [got 0#8, got 0#8]).opState ≠ .initial
    ∧ (ready .idle [got 0#8, got 0#8]).goThrough 2 := by decide +kernel

theorem witness_SetModulationAndPowerWriteThrough :
    Config.ref.valid = true ∧ Config.ref.profile.bytewise = true
    ∧ (ready .transmittingWaitEnd [got 0#8]).opState ≠ .initial
    ∧ (ready .transmittingWaitEnd [got 0#8]).goThrough 1 := by decide +kernel

theorem witness_AddressCommandsWriteTheSeed :
    Config.ref.valid = true ∧ Config.ref.profile.bytewise = true
    ∧ (ready .idle [got 0#8, got 0#8, got 0#8]).opState ≠ .initial
    ∧ (ready .idle [got 0#8, got 0#8, got 0#8]).goThrough 3 := by decide +kernel

theorem witness_ConfigurationWriteIsRetried :
    Config.ref.valid = true ∧ Config.ref.profile.bytewise = true
    ∧ (ready .idle [broken, broken, got 0#8]).opState ≠ .initial ∧ isConfiguration (.setTxPower 0x41#8) = true
    ∧ configWrites (ready .idle [broken, broken, got 0#8]) (.setTxPower 0x41#8) = [[0xC5#8, 0x41#8]]
    ∧ 2 ≤ Config.ref.cfgRetryMax ∧ (∀ k, k < 2 → (ready .idle [broken, broken, got 0#8]).failsAt k)
    ∧ ((ready .idle [broken, broken, got 0#8]).drawAt 2).ok = true
    ∧ ((ready .idle [broken, broken, got 0#8]).drawAt 2).cut = none
    ∧ (∀ k, k < Config.ref.cfgRetryMax + 1 → (ready .idle [broken, broken, broken]).failsAt k)
    ∧ usesCfgWrite .sleep = false ∧ ran .sleep (ready .idle [broken]) :=
  ⟨by decide, by decide, by decide, by decide, by decide +kernel, by decide, by decide +kernel, by decide +kernel,
    by decide +kernel, by decide +kernel, by decide, rfl, by decide +kernel⟩

theorem witness_ConfigurationIsWrittenThroughInOrder :
    Config.ref.valid = true ∧ Config.ref.profile.bytewise = true
    ∧ (ready .idle [got 0#8, broken, broken, broken]).opState ≠ .initial
    ∧ isConfiguration (.setPanId 0xBEEF#16) = true ∧ badArgument (.setPanId 0xBEEF#16) = none
    ∧ ran (.setPanId 0xBEEF#16) (ready .idle [got 0#8, broken, broken, broken]) :=
  ⟨by decide, by decide, by decide, by decide, by decide, rfl, by decide +kernel⟩

theorem witness_EveryCommandCompletesOnce :
    Config.ref.valid = true ∧ Config.ref.pollLimit ≠ none ∧ ran .sleep (ready .idle [broken])
    ∧ (after .sleep (ready .idle [broken])).busy = false
    ∧ (after .sleep (ready .idle [broken])).info = some (.transferFailed 0 0)
    ∧ (after .sleep (ready .idle (reaches 0#8))).info = none
    ∧ ran .sleep (readyWith endless .idle [got 0#8, got 0x1F#8]) ∧ (waitingSleep []).busy = true :=
  ⟨by decide, by decide, ⟨rfl, by decide +kernel⟩, by decide +kernel, by decide +kernel, by decide +kernel,
    ⟨rfl, by decide +kernel⟩, by decide +kernel⟩

theorem witness_OnlyTwoCommandsEmitEvents :
    ran .taskHandler doneState ∧ ran .sleep (ready .idle [broken])
    ∧ (after .sleep (ready .idle [broken])).busy = false ∧ precheck Config.ref .sleep .idle = none
    ∧ ran .init (ready .idle []) ∧ precheck Config.ref .init .idle ≠ none :=
  ⟨⟨rfl, by decide +kernel⟩, ⟨rfl, by decide +kernel⟩, by decide +kernel, by decide,
    ⟨rfl, by decide +kernel⟩, by decide⟩

theorem witness_CacheAndPinsFrame :
    ran .init (ready .initial initAnswers) ∧ ran (.setBand 0x04#8) (ready .idle [got 0#8, got 0#8])
    ∧ usesWaitState .readFrame = false ∧ usesCfgWrite .readFrame = false
    ∧ ran .readFrame (ready .idle [broken]) :=
  ⟨⟨rfl, by decide +kernel⟩, ⟨rfl, by decide +kernel⟩, by decide, by decide, rfl, by decide +kernel⟩

theorem witness_InitRetriesOnlyItsConfigurationWrites :
    Config.ref.valid = true ∧ Config.ref.profile.bytewise = true ∧ Config.ref.map.addrsDistinct = true
    ∧ (ready .initial [broken]).opState = .initial ∧ (ready .initial [broken]).failsAt 0
    ∧ threePolls.valid = true ∧ (readyWith threePolls .initial neverOffAnswers).neverOff 0 3
    ∧ (ready .initial [got 0#8, got 0x08#8, broken, broken, broken]).goThrough 2
    ∧ (ready .initial [got 0#8, got 0x08#8, broken, broken, broken]).pollsMatch 0 .forceTrxOff
    ∧ (∀ k, k < Config.ref.cfgRetryMax + 1 →
        (ready .initial [got 0#8, got 0x08#8, broken, broken, broken]).failsAt (2 + k))
    ∧ ran .init (ready .initial [got 0#8, broken])
    ∧ (after .init (ready .initial [got 0#8, broken])).trace
      = (ready .initial [got 0#8, broken]).trace ++ (after .init (ready .initial [got 0#8, broken])).trace
    ∧ (after .init (ready .initial [got 0#8, broken])).busy = false
    ∧ (after .init (ready .initial [got 0#8, broken])).trace.drop 6
      = [.chunk [0x81#8, 0x00#8] [] false, .cs .deasserted]
    ∧ [0x81#8, 0x00#8] ∉ initWrites (ready .initial [got 0#8, broken]) :=
  ⟨by decide, by decide, by decide, by decide, by decide +kernel, by decide, by decide +kernel, by decide +kernel,
    by decide +kernel, by decide +kernel, ⟨rfl, by decide +kernel⟩, (List.nil_append _).symm, by decide +kernel,
    by decide +kernel, by decide +kernel⟩

theorem witness_WaitGoesOnWhereItStood :
    endless.valid = true ∧ endless.profile.bytewise = true ∧ endless.pollLimit = none
    ∧ exec .sleep { readyWith endless .idle [] with chip := [got 0#8, got 0x1F#8] }
      = .next (after .sleep (readyWith endless .idle [got 0#8, got 0x1F#8]))
    ∧ (after .sleep (readyWith endless .idle [got 0#8, got 0x1F#8])).busy = true
    ∧ (after .sleep (readyWith endless .idle [got 0#8, got 0x1F#8])).draws
      = (readyWith endless .idle []).draws + [got 0#8, got 0x1F#8].length
    ∧ [got 0x08#8] ≠ []
    ∧ (waitingSleep [got 0x1F#8]).port = []
    ∧ (waitingSleep [got 0x1F#8]).goThrough (max (waitingSleep [got 0x1F#8]).chip.length 1)
    ∧ (∀ k, k < max (waitingSleep [got 0x1F#8]).chip.length 1 →
        (waitingSleep [got 0x1F#8]).polled k ≠ awaitedIn endless .sleepOff .forcedOff)
    ∧ (waitingSleep [got 0x08#8]).seq = some { cmd := .sleep, step := .waiting .sleepOff .forcedOff }
    ∧ (waitingSleep [got 0x08#8]).busy = true
    ∧ 1 ≤ max (waitingSleep [got 0x08#8]).chip.length 1 ∧ (waitingSleep [got 0x08#8]).goThrough 1
    ∧ (waitingSleep [got 0x08#8]).polled (1 - 1) = endless.map.stTrxOff
    ∧ { waitingSleep [got 0x08#8] with port := [.word (.hostFrame [0x02#8])] }.port
      = .word (.hostFrame [0x02#8]) :: [] :=
  ⟨by decide, by decide, by decide, rfl, by decide +kernel, by decide +kernel, by decide, by decide +kernel,
    by decide +kernel, by decide +kernel, by decide +kernel, by decide +kernel, by decide +kernel,
    by decide +kernel, by decide +kernel, rfl⟩

end Sys2Proof.Tests
end

section
/-! Construction: the masks `Profile.valid` tests are R82 read for every address, and what construction gives
meets the invariant. -/

namespace Sys2Proof

/-! ### The register command byte flag | address (R82, R83) -/

/-- A byte is its flag bits 7:6 and its address bits 5:0. -/
theorem highBits_or_address (b : Byte) : b &&& 0xC0#8 ||| (b.setWidth 6 : RegAddr).setWidth 8 = b := by
  decide +revert

theorem address_highBits (a : RegAddr) : a.setWidth 8 &&& 0xC0#8 = 0x00#8 := by decide +revert

theorem address_lowBits (a : RegAddr) : a.setWidth 8 &&& 0x3F#8 = a.setWidth 8 := by decide +revert

theorem flag_highBits {flag : Byte} (h : flag &&& 0x3F#8 = 0x00#8) : flag &&& 0xC0#8 = flag :=
  calc flag &&& 0xC0#8
    _ = flag &&& 0xC0#8 ||| flag &&& 0x3F#8 := by rw [h, BitVec.or_zero]
    _ = flag &&& BitVec.allOnes 8 := BitVec.and_or_distrib_left.symm
    _ = flag := BitVec.and_allOnes

theorem regByte_highBits {flag : Byte} (h : flag &&& 0x3F#8 = 0x00#8) (a : RegAddr) :
    (flag ||| a.setWidth 8) &&& 0xC0#8 = flag := by
  rw [BitVec.and_or_distrib_right, flag_highBits h, address_highBits, BitVec.or_zero]

theorem regByte_lowBits {flag : Byte} (h : flag &&& 0x3F#8 = 0x00#8) (a : RegAddr) :
    (flag ||| a.setWidth 8) &&& 0x3F#8 = a.setWidth 8 := by
  rw [BitVec.and_or_distrib_right, h, address_lowBits, BitVec.zero_or]

/-- A frame command differs from the register command byte of every address exactly where its bits 7:6 are
not the flag. -/
theorem ne_regByte_iff {flag : Byte} (h : flag &&& 0x3F#8 = 0x00#8) (cmd : Byte) :
    (∀ a : RegAddr, cmd ≠ flag ||| a.setWidth 8) ↔ cmd &&& 0xC0#8 ≠ flag := by
  constructor
  · rintro hne rfl
    exact hne (cmd.setWidth 6) (highBits_or_address cmd).symm
  · rintro hne a rfl
    exact hne (regByte_highBits h a)

/-- Two different flags give two different command bytes, whatever the address. -/
theorem regByte_ne {f g : Byte} (hf : f &&& 0x3F#8 = 0x00#8) (hg : g &&& 0x3F#8 = 0x00#8) (hne : f ≠ g)
    (a : RegAddr) : f ||| a.setWidth 8 ≠ g ||| a.setWidth 8 :=
  (ne_regByte_iff hg _).2 (by rwa [regByte_highBits hf]) a

/-! ### What construction checks -/

/-- R82's last constraint, over both flags, both frame commands and every address, is four masks. -/
theorem frameCmds_ne_regBytes_iff {p : Profile} (hr : p.readFlag &&& 0x3F#8 = 0x00#8)
    (hw : p.writeFlag &&& 0x3F#8 = 0x00#8) :
    (∀ (a : RegAddr) (flag cmd : Byte), flag ∈ [p.readFlag, p.writeFlag] → cmd ∈ [p.fbReadCmd, p.fbWriteCmd] →
        cmd ≠ flag ||| a.setWidth 8)
      ↔ p.fbReadCmd &&& 0xC0#8 ≠ p.readFlag ∧ p.fbReadCmd &&& 0xC0#8 ≠ p.writeFlag
        ∧ p.fbWriteCmd &&& 0xC0#8 ≠ p.readFlag ∧ p.fbWriteCmd &&& 0xC0#8 ≠ p.writeFlag := by
  rw [← ne_regByte_iff hr, ← ne_regByte_iff hw, ← ne_regByte_iff hr, ← ne_regByte_iff hw]
  constructor
  · intro h
    exact ⟨fun a => h a _ _ (by simp) (by simp), fun a => h a _ _ (by simp) (by simp),
      fun a => h a _ _ (by simp) (by simp), fun a => h a _ _ (by simp) (by simp)⟩
  · rintro ⟨hrr, hrw, hwr, hww⟩ a flag cmd hflag hcmd
    obtain rfl | rfl : flag = p.readFlag ∨ flag = p.writeFlag := by simpa using hflag
    all_goals obtain rfl | rfl : cmd = p.fbReadCmd ∨ cmd = p.fbWriteCmd := by simpa using hcmd
    exacts [hrr a, hwr a, hrw a, hww a]

theorem Profile.valid_iff_meetsR82 (p : Profile) : p.valid = true ↔ p.meetsR82 := by
  simp only [Profile.valid, Bool.and_eq_true, beq_iff_eq, bne_iff_ne, and_assoc]
  exact and_congr_right fun hr => and_congr_right fun hw => and_congr_right fun _ => and_congr_right fun _ =>
    (frameCmds_ne_regBytes_iff hr hw).symm

theorem Config.valid_iff (c : Config) : c.valid = true ↔ c.profile.meetsR82 ∧ c.meetsR9 := by
  rw [← Profile.valid_iff_meetsR82]
  simp [Config.valid, and_assoc]

/-- Under a profile that meets R82 the read and the write command byte of an address differ, and each carries
the address in its bits 5:0. -/
theorem Profile.meetsR82.regBytes {p : Profile} (h : p.meetsR82) (a : RegAddr) :
    p.readFlag ||| a.setWidth 8 ≠ p.writeFlag ||| a.setWidth 8
      ∧ (p.readFlag ||| a.setWidth 8) &&& 0x3F#8 = a.setWidth 8
      ∧ (p.writeFlag ||| a.setWidth 8) &&& 0x3F#8 = a.setWidth 8 := by
  obtain ⟨hr, hw, hne, -⟩ := h
  exact ⟨regByte_ne hr hw hne a, regByte_lowBits hr a, regByte_lowBits hw a⟩

end Sys2Proof

namespace Sys2Proof.Machine

/-! ### What construction gives (R36) -/

theorem construct_eq_some {c : Config} {s : State} :
    State.construct c = some s ↔ c.valid = true ∧ State.boot c = s := by
  simp [State.construct]

/-- The state after SRC reset meets the invariant: it is idle, its buffers are empty, and its `band` is the
one R22 bounds. -/
theorem boot_inv {c : Config} (h : c.valid = true) : (State.boot c).Inv := by
  obtain ⟨-, -, -, -, -, -, -, hband⟩ := valid_limits h
  exact
    { cfg_valid := h
      txbuf_wf := List.Pairwise.nil
      txbuf_below := List.forall_mem_nil _
      rxbuf_wf := List.Pairwise.nil
      rxbuf_below := List.forall_mem_nil _
      band_low := hband
      cs_idle := rfl
      rst_idle := rfl
      slpTr_idle := rfl
      seq_busy := rfl
      seq_place := by simp [State.boot]
      busy_unbounded := by simp [State.boot]
      result_code := by simp [State.boot]
      error_no_data := fun _ => rfl
      evq_short := by simp [State.boot] }

/-- Settles O2: `Config.valid` is the conjunction of R82, R9 and R22 (`Config.valid_iff`), and the state after
reset meets the invariant under every valid parameter set (`boot_inv`). -/
theorem resetMeetsTheInvariant : Obligations.ResetMeetsTheInvariant := by
  unfold Obligations.ResetMeetsTheInvariant
  refine ⟨fun c => ⟨fun h => construct_valid ((Config.valid_iff c).2 h), fun h => ?_⟩, fun c s hs => ?_,
    construct_ref, ?_⟩
  · exact construct_invalid (Bool.eq_false_iff.2 (mt (Config.valid_iff c).1 h))
  · obtain ⟨hv, rfl⟩ := construct_eq_some.1 hs
    obtain ⟨hR82, -⟩ := (Config.valid_iff c).1 hv
    exact ⟨boot_inv hv, hR82.regBytes⟩
  · exact boot_inv (construct_eq_some.1 construct_ref).1

end Sys2Proof.Machine
end

section
/-! Reset: what `State.boot` writes. -/

namespace Sys2Proof.Machine

/-- Settles O1: each value of R36's table is the one `State.boot` writes, and REF's are those of `Config.ref`. -/
theorem resetLeavesTheSpecValues : Obligations.ResetLeavesTheSpecValues := by
  unfold Obligations.ResetLeavesTheSpecValues
  refine ⟨fun c => ?_, rfl, rfl, rfl, rfl, rfl, rfl, rfl⟩
  have hunwritten : ∀ k, (State.boot c).txbuf.read k = none ∧ (State.boot c).rxbuf.read k = none :=
    fun _ => ⟨rfl, rfl⟩
  exact ⟨rfl, rfl, rfl, rfl, rfl, rfl, rfl, hunwritten, rfl, rfl, rfl, rfl, rfl, rfl, rfl, rfl, rfl, rfl, rfl⟩

end Sys2Proof.Machine
end

section
/-! Checks: those that a command makes are `precheck` (R233), so that `precheck` decides whether its pseudocode
runs. -/

namespace Sys2Proof.Machine

/-! ### The four checks -/

/-- The profile check of `precheck` (R163). -/
def profileError (c : Config) (i : Instr) : Option Err :=
  if needsBytewise i = true ∧ c.profile.bytewise = false then some (.unsupportedProfile c.profile) else none

/-- The argument check of `precheck` (R91, R97). -/
def argumentError (i : Instr) : Option Err := (badArgument i).map .invalidArgument

/-- The operating state check of `precheck` (R234). -/
def stateError (i : Instr) (st : OpState) : Option Err :=
  if legality i st = .refuse then some (.invalidState st) else none

/-- The frame length check of `precheck` (R97). -/
def frameError (c : Config) (i : Instr) : Option Err :=
  (frameOf i).bind fun f => if c.fbLimit < f.length + 3 then some (.frameTooLong f.length) else none

/-- `precheck` is the first of the four that fails. -/
theorem precheck_eq_or (c : Config) (i : Instr) (st : OpState) :
    precheck c i st
      = (profileError c i).or ((argumentError i).or ((stateError i st).or (frameError c i))) := by
  unfold precheck profileError argumentError stateError frameError
  by_cases hp : needsBytewise i = true ∧ c.profile.bytewise = false
  · simp [hp]
  · cases badArgument i with
    | some a => simp [hp]
    | none =>
      by_cases hs : legality i st = .refuse
      · simp [hp, hs]
      · cases frameOf i <;> simp [hp, hs]

theorem badArgument_none {c : Config} {i : Instr} {st : OpState} (h : precheck c i st = none) :
    badArgument i = none := by
  simp only [precheck_eq_or, Option.or_eq_none_iff, argumentError, Option.map_eq_none_iff] at h
  exact h.2.1

/-- The piece m raises exactly the error e gives, and changes nothing. -/
def ChecksFor (m : Seq Unit) (e : State → Option Err) : Prop :=
  ∀ s, m s = match e s with
    | none => .ok () s
    | some err => .error (.raised err) s

theorem ChecksFor.pure : ChecksFor (Pure.pure ()) fun _ => none := fun _ => rfl

/-- Of two checks in a row the first that fails decides. -/
theorem ChecksFor.bind {m n : Seq Unit} {e f : State → Option Err} (hm : ChecksFor m e) (hn : ChecksFor n f) :
    ChecksFor (m >>= fun _ => n) fun s => (e s).or (f s) := fun s => by
  have h := hm s
  cases he : e s with
  | none => rw [he] at h; simpa [bind_ok h, he] using hn s
  | some err => rw [he] at h; simp [bind_error h, he]

theorem ChecksFor.congr {m : Seq Unit} {e f : State → Option Err} (h : ChecksFor m e) (hef : ∀ s, e s = f s) :
    ChecksFor m f := funext hef ▸ h

theorem requireBytewise_checksFor {i : Instr} (hi : needsBytewise i = true) :
    ChecksFor requireBytewise fun s => profileError s.cfg i := fun s => by
  cases h : s.cfg.profile.bytewise with
  | true => simp [profileError, h]
  | false => simpa [profileError, h, hi] using requireBytewise_refused h

theorem requireState_checksFor (i : Instr) :
    ChecksFor (requireState i) fun s => stateError i s.opState := fun s => by
  by_cases h : legality i s.opState = .refuse
  · simpa [stateError, h] using requireState_refused h
  · simpa [stateError, h] using requireState_ok h

theorem requireArg_checksFor {i : Instr} {legal : Bool} {arg : Byte}
    (hi : badArgument i = if legal then none else some arg) :
    ChecksFor (requireArg legal arg) fun _ => argumentError i := fun s => by
  cases legal with
  | true => simpa [argumentError, hi] using requireArg_ok arg s
  | false => simpa [argumentError, hi] using requireArg_refused arg s

theorem requireFrameFits_checksFor {i : Instr} {f : List Byte} (hi : frameOf i = some f) :
    ChecksFor (requireFrameFits f) fun s => frameError s.cfg i := fun s => by
  cases h : frameFits s.cfg f with
  | true =>
    have hle : ¬ s.cfg.fbLimit < f.length + 3 := by simpa [frameFits] using h
    simpa [frameError, hi, hle] using requireFrameFits_ok h
  | false =>
    have hlt : s.cfg.fbLimit < f.length + 3 := by simpa [frameFits] using h
    simpa [frameError, hi, hlt] using requireFrameFits_refused h

theorem addrLegal_eq (a : Byte) : addrLegal a = decide (a.toNat < 64) := by decide +revert

theorem bandLegal_eq (b : Byte) : bandLegal b = decide (b.toNat < 8) := by decide +revert

/-- The piece m makes the checks of i, those of `precheck` in its order. -/
abbrev ChecksOf (i : Instr) (m : Seq Unit) : Prop := ChecksFor m fun s => precheck s.cfg i s.opState

/-- An instruction that `precheck` never refuses makes no check. -/
theorem checksOf_pure {i : Instr} (h : ∀ c st, precheck c i st = none) : ChecksOf i (pure ()) :=
  ChecksFor.pure.congr fun _ => (h _ _).symm

/-- The `TRX_CMD` rows check the profile alone (log 12). -/
theorem checksOf_bytewise {i : Instr} (hb : needsBytewise i = true) (ha : badArgument i = none)
    (hl : ∀ st, legality i st = .run) (hf : frameOf i = none) : ChecksOf i requireBytewise :=
  (requireBytewise_checksFor hb).congr fun s => by
    simp [precheck_eq_or, argumentError, stateError, frameError, ha, hl, hf]

/-- A state-machine or configuration command with any operand checks the profile and the operating state. -/
theorem checksOf_bytewise_state {i : Instr} (hb : needsBytewise i = true) (ha : badArgument i = none)
    (hf : frameOf i = none) :
    ChecksOf i (do
      requireBytewise
      requireState i) :=
  ((requireBytewise_checksFor hb).bind (requireState_checksFor i)).congr fun s => by
    simp [precheck_eq_or, argumentError, frameError, ha, hf]

/-- A transport command checks its argument alone. -/
theorem checksOf_arg {i : Instr} {legal : Bool} {arg : Byte} (hb : needsBytewise i = false)
    (ha : badArgument i = if legal then none else some arg) (hl : ∀ st, legality i st = .run)
    (hf : frameOf i = none) : ChecksOf i (requireArg legal arg) :=
  (requireArg_checksFor ha).congr fun s => by
    simp [precheck_eq_or, profileError, stateError, frameError, hb, hl, hf]

/-! ### A command whose pseudocode runs with F -/

/-- exec of i is a command that makes the checks of `precheck` and whose pseudocode, for a legal argument, runs
with F. -/
def IsCommand (F : State → State → Prop) (i : Instr) : Prop :=
  ∃ checks body, (∀ s, exec i s = command i checks body s) ∧ ChecksOf i checks
    ∧ (badArgument i = none → Runs F body)

theorem IsCommand.of_runs {F : State → State → Prop} {i : Instr} {checks : Seq Unit} {body : Seq (List Byte)}
    (hexec : ∀ s, exec i s = command i checks body s) (hchecks : ChecksOf i checks) (hbody : Runs F body) :
    IsCommand F i :=
  ⟨checks, body, hexec, hchecks, fun _ => hbody⟩

theorem IsCommand.refused {F : State → State → Prop} {i : Instr} (h : IsCommand F i) {s : State} {e : Err}
    (hp : precheck s.cfg i s.opState = some e) : exec i s = .next (s.refused e []) := by
  obtain ⟨checks, body, hexec, hchecks, -⟩ := h
  rw [hexec]
  refine command_refused ((hchecks (take i s)).trans ?_)
  simp [take, hp]

theorem IsCommand.accepted {F : State → State → Prop} {i : Instr} (h : IsCommand F i) {s : State}
    (hp : precheck s.cfg i s.opState = none) :
    ∃ t n, exec i s = .next t ∧ Ended F (accept (take i s)) t n := by
  obtain ⟨checks, body, hexec, hchecks, hbody⟩ := h
  obtain ⟨n, hn⟩ := finish_runs (hbody (badArgument_none hp)) (accept (take i s))
  refine ⟨_, n, (hexec s).trans (command_accepted ((hchecks (take i s)).trans ?_)), hn⟩
  simp [take, hp]

end Sys2Proof.Machine
end

section
/-! Events (R33): an accepted command starts with `evq` empty, and its pseudocode emits at most as many events as
the command may. -/

namespace Sys2Proof.Machine

/-! ### How many events a piece emits -/

/-- From s to t at most n events were emitted, and nothing was completed. -/
def Emits (n : Nat) (s t : State) : Prop :=
  t.busy = s.busy ∧ ∃ es : List Event, es.length ≤ n ∧ t.evq = s.evq ++ es

theorem Emits.of_same {s t : State} (hb : t.busy = s.busy) (he : t.evq = s.evq) (n : Nat) : Emits n s t :=
  ⟨hb, [], Nat.zero_le n, by simp [he]⟩

theorem Emits.mono {m n : Nat} (h : m ≤ n) (s t : State) : Emits m s t → Emits n s t :=
  fun ⟨hb, es, hl, he⟩ => ⟨hb, es, hl.trans h, he⟩

theorem Emits.trans {m n : Nat} {s t u : State} (h : Emits m s t) (h' : Emits n t u) : Emits (m + n) s u := by
  obtain ⟨hb, es, hl, he⟩ := h
  obtain ⟨hb', es', hl', he'⟩ := h'
  exact ⟨hb'.trans hb, es ++ es', List.length_append ▸ Nat.add_le_add hl hl', by rw [he', he, List.append_assoc]⟩

theorem emits_closed : BusClosed (Emits 0) where
  refl _ := .of_same rfl rfl 0
  trans _ _ _ h h' := h.trans h'
  bus _ _ _ _ := .of_same rfl rfl 0

/-- Two pieces in a row run with the composition of what they run with; a first piece that does not end OK
leaves the composition by itself. -/
theorem Runs.comp {α β : Type} {F G H : State → State → Prop} (hFH : ∀ s t, F s t → H s t)
    (hFG : ∀ s t u, F s t → G t u → H s u) {m : Seq α} {f : α → Seq β} (hm : Runs F m)
    (hf : ∀ a, Runs G (f a)) : Runs H (m >>= f) := by
  intro s
  obtain ⟨n, hn⟩ := hm s
  obtain ⟨n', hn'⟩ := hm.mono hFH s
  rw [bind_run]
  cases hms : m s with
  | error e t => rw [hms] at hn'; exact ⟨n', by cases e <;> exact hn'⟩
  | ok a t =>
    rw [hms] at hn
    obtain ⟨hb, hFst⟩ := hn
    obtain ⟨k, hk⟩ := hf a t
    refine ⟨n + k, ?_⟩
    simp only
    cases hft : f a t with
    | ok b u => rw [hft] at hk; exact ⟨hb.trans hk.1, hFG _ _ _ hFst hk.2⟩
    | error e u =>
      rw [hft] at hk
      cases e with
      | raised e => exact ⟨hb.trans hk.1, hFG _ _ _ hFst hk.2⟩
      | stopped =>
        obtain ⟨w, a, hw, hGw, hp, rfl⟩ | hcut := hk
        · exact .inl ⟨w, a, hb.trans hw, hFG _ _ _ hFst hGw, hb.later.cfg ▸ hp, rfl⟩
        · exact .inr (hb.cutFrom hcut)

section
variable {α β : Type} {n : Nat}

theorem Runs.silent_bind {m : Seq α} {f : α → Seq β} (hm : Runs (Emits 0) m) (hf : ∀ a, Runs (Emits n) (f a)) :
    Runs (Emits n) (m >>= f) :=
  .comp (Emits.mono (Nat.zero_le n)) (fun _ _ _ h h' => Nat.zero_add n ▸ h.trans h') hm hf

theorem Runs.bind_silent {m : Seq α} {f : α → Seq β} (hm : Runs (Emits n) m) (hf : ∀ a, Runs (Emits 0) (f a)) :
    Runs (Emits n) (m >>= f) :=
  .comp (fun _ _ h => h) (fun _ _ _ h h' => h.trans h') hm hf

theorem emits_pure (a : α) : Runs (Emits n) (Pure.pure a) := .pure (fun _ => .of_same rfl rfl n) a

theorem emits_raise (e : Err) : Runs (Emits n) (raise e : Seq α) := .raise (fun _ => .of_same rfl rfl n) e

/-- A piece and the command's return bytes after it. -/
theorem Runs.returning {m : Seq Unit} {ret : List Byte} (hm : Runs (Emits n) m) :
    Runs (Emits n) (do m; Pure.pure ret) :=
  hm.bind_silent fun _ => emits_pure _

end

/-! ### The shared operations emit nothing: silent_m says that m runs with `Emits 0` -/

/-- t is s but for the operating state, the configuration cache and the IRQ flag. -/
def OnlyCacheAndFlags (s t : State) : Prop :=
  t = { s with
    opState := t.opState, channel := t.channel, band := t.band, modulation := t.modulation, panId := t.panId
    shortAddr := t.shortAddr, txPower := t.txPower, irqFlag := t.irqFlag }

theorem OnlyCacheAndFlags.base {s t : State} (h : OnlyCacheAndFlags s t) : Base s t 0 := by
  unfold OnlyCacheAndFlags at h
  exact .of_fields ⟨(congrArg State.chip h :), (congrArg State.draws h :), (congrArg State.cfg h :)⟩
    (congrArg State.delivered h :) (congrArg State.port h :) (congrArg State.slpTr h :) (congrArg State.cs h :)
    (congrArg State.rst h :) (congrArg State.trace h :)

theorem OnlyCacheAndFlags.emits {s t : State} (h : OnlyCacheAndFlags s t) : Emits 0 s t := by
  unfold OnlyCacheAndFlags at h
  exact .of_same (congrArg State.busy h :) (congrArg State.evq h :) 0

theorem silent_update {g : State → State} (h : ∀ s, OnlyCacheAndFlags s (g s)) : Runs (Emits 0) (update g) :=
  .update (fun s => (h s).emits) fun s => (h s).base

theorem silent_commit (st : OpState) : Runs (Emits 0) (commit st) := silent_update fun _ => rfl

theorem silent_memReadByte (a : RegAddr) : Runs (Emits 0) (memReadByte a) := memReadByte_runs emits_closed a

theorem silent_setTrxState (call : StateCall) : Runs (Emits 0) (setTrxState call) :=
  setTrxState_runs emits_closed (fun _ _ => .of_same rfl rfl 0) call

theorem silent_cfgWrite (a : RegAddr) (v : Byte) : Runs (Emits 0) (cfgWrite a v) :=
  cfgWrite_runs emits_closed (fun _ _ => .of_same rfl rfl 0) a v

theorem silent_writeChannelRegs : Runs (Emits 0) writeChannelRegs :=
  writeChannelRegs_runs emits_closed fun _ _ => .of_same rfl rfl 0

theorem silent_writeSeed : Runs (Emits 0) writeSeed :=
  writeSeed_runs emits_closed fun _ _ => .of_same rfl rfl 0

theorem silent_frameBufferWrite (f : List Byte) : Runs (Emits 0) (frameBufferWrite f) :=
  frameBufferWrite_runs emits_closed f fun _ => .of_same rfl rfl 0

theorem silent_frameWriteSeq (f : List Byte) : Runs (Emits 0) (frameWriteSeq f) :=
  frameWriteSeq_runs emits_closed f fun _ => .of_same rfl rfl 0

theorem silent_frameRead : Runs (Emits 0) frameRead :=
  frameRead_runs emits_closed fun _ _ _ _ _ => .of_same rfl rfl 0

theorem silent_transaction {tx : List Byte} (h : tx ≠ []) : Runs (Emits 0) (transaction tx) :=
  transaction_runs emits_closed h

/-! ### What follows a state change, and the two paths that emit -/

theorem silent_initConfigure : Runs (Emits 0) initConfigure :=
  .current_bind fun _ =>
  .silent_bind (silent_cfgWrite _ _) fun _ =>
  .silent_bind (silent_cfgWrite _ _) fun _ =>
  .silent_bind (silent_update fun _ => rfl) fun _ =>
  .silent_bind (silent_cfgWrite _ _) fun _ =>
  .silent_bind (silent_setTrxState _) fun _ =>
  silent_commit _

/-- The state after INIT's pulse on RST (R166). -/
def State.pulsedRst (s : State) : State :=
  { s with rst := .deasserted, trace := s.trace ++ [.rst .asserted, .rst .deasserted] }

theorem driveRst_driveRst_run {α : Type} (m : Seq α) (s : State) :
    (do driveRst .asserted; driveRst .deasserted; m : Seq α) s = m s.pulsedRst := by
  simp [driveRst, State.log, State.pulsedRst]

theorem base_pulsedRst (s : State) : Base s s.pulsedRst 0 :=
  ⟨⟨rfl, rfl, rfl⟩, fun _ h => absurd h (Nat.not_lt_zero _), rfl, rfl, rfl, id, fun _ => rfl,
    [.rst .asserted, .rst .deasserted], rfl, rfl, by simp [chunkFits]⟩

theorem emits_rstPulse {α : Type} {n : Nat} {m : Seq α} (hm : Runs (Emits n) m) :
    Runs (Emits n) (do driveRst .asserted; driveRst .deasserted; m) := by
  have h : Runs (Emits n) (do update State.pulsedRst; m) :=
    (Runs.update (fun _ => .of_same rfl rfl 0) base_pulsedRst).silent_bind fun _ => hm
  intro s
  rw [driveRst_driveRst_run]
  exact h s

/-- The two bytes of an address, then the seed (R209, R212). -/
theorem silent_addressWrites (a b : RegAddr) (v w : Byte) : Runs (Emits 0) (do
    cfgWrite a v
    cfgWrite b w
    writeSeed
    pure ([] : List Byte)) :=
  .silent_bind (silent_cfgWrite a v) fun _ => .silent_bind (silent_cfgWrite b w) fun _ => silent_writeSeed.returning

theorem silent_registerRead (a : RegAddr) : Runs (Emits 0) (do
    let v ← memRead a
    let c ← config
    pure (hostValueBytes c v)) :=
  .silent_bind (memRead_runs emits_closed a) fun _ => .config_bind fun _ => emits_pure _

theorem silent_frameImage : Runs (Emits 0) (do
    let f ← frameRead
    pure f.image) :=
  .silent_bind silent_frameRead fun _ => emits_pure _

theorem silent_requestSend (data : List Byte) : Runs (Emits 0) (requestSend data) :=
  .silent_bind (silent_frameWriteSeq data) fun _ => silent_commit _

theorem silent_requestArmed (data : List Byte) : Runs (Emits 0) (requestArmed data) :=
  .config_bind fun c =>
  .silent_bind (silent_memReadByte _) fun _ => by
    cases c.dataReqForcesPllOn with
    | true => exact .silent_bind (silent_setTrxState _) fun _ => silent_requestSend data
    | false => exact silent_requestSend data

theorem emits_emit (e : Event) : Runs (Emits 1) (emit e) :=
  .update (fun _ => ⟨rfl, [e], Nat.le_refl 1, rfl⟩)
    fun _ => .of_fields ⟨rfl, rfl, rfl⟩ rfl rfl rfl rfl rfl rfl

/-- A piece that emits nothing emits one event under `confirmOnError`, where it raises (R174). -/
theorem emits_confirmOnError {α : Type} {m : Seq α} (hm : Runs (Emits 0) m) :
    Runs (Emits 1) (confirmOnError m) :=
  .silent_bind hm.attempt fun r => by
    cases r with
    | ok a => exact emits_pure a
    | error e => exact .bind_silent (emits_emit _) fun _ => emits_raise e

/-- The receive path emits its indication where the frame read went through, and nothing elsewhere (R177, R180). -/
theorem emits_receivePath : Runs (Emits 1) receivePath :=
  .silent_bind silent_frameRead.attempt fun r => by
    cases r with
    | ok f =>
      exact .config_bind fun _ => .silent_bind (silent_memReadByte _) fun _ => .current_bind fun _ =>
        .bind_silent (emits_emit _) fun _ => silent_setTrxState _
    | error e =>
      cases e with
      | frameInvalid l => exact .silent_bind (silent_setTrxState _) fun _ => emits_raise _
      | _ => exact emits_raise _

/-- The transmit-done path emits its confirm between the status read and the re-apply (R178). -/
theorem emits_transmitDonePath : Runs (Emits 1) transmitDonePath :=
  .config_bind fun _ => .silent_bind (silent_memReadByte _) fun _ => .silent_bind (silent_commit _) fun _ =>
    .bind_silent (emits_emit _) fun _ => silent_setTrxState _

theorem emits_completionPath (st : OpState) : Runs (Emits 1) (completionPath st) := by
  cases st with
  | initial => exact emits_pure ()
  | idle => exact emits_receivePath
  | sleep => exact emits_pure ()
  | transmittingWaitEnd => exact emits_transmitDonePath

/-! ### Every instruction -/

/-- How many events an instruction may emit (R33). -/
def eventBound : Instr → Nat
  | .dataRequest _ => 1
  | .taskHandler => 1
  | _ => 0

theorem eventBound_le_one (i : Instr) : eventBound i ≤ 1 := by
  unfold eventBound
  split <;> decide

theorem eventBound_eq_zero {i : Instr} (ht : i ≠ .taskHandler) (hd : ∀ d, i ≠ .dataRequest d) :
    eventBound i = 0 := by
  unfold eventBound
  split
  · exact absurd rfl (hd _)
  · exact absurd rfl ht
  · rfl

theorem isCommand_init : IsCommand (Emits 0) .init :=
  .of_runs (fun _ => rfl) (checksOf_bytewise_state rfl rfl rfl) <| emits_rstPulse <|
    .silent_bind (silent_setTrxState _) fun _ => silent_initConfigure.returning

theorem isCommand_sleep : IsCommand (Emits 0) .sleep := by
  refine .of_runs (fun _ => rfl) (checksOf_bytewise_state rfl rfl rfl) (.current_bind fun s => ?_)
  split
  · exact emits_pure _
  · exact .silent_bind (silent_setTrxState _) fun _ => (silent_commit _).returning

theorem isCommand_wakeup : IsCommand (Emits 0) .wakeup :=
  .of_runs (fun _ => rfl) (checksOf_bytewise_state rfl rfl rfl) <|
    .silent_bind (silent_setTrxState _) fun _ => (silent_commit _).returning

theorem isCommand_dataRequest (data : List Byte) : IsCommand (Emits 1) (.dataRequest data) := by
  refine .of_runs (fun _ => rfl) ?_ (emits_confirmOnError ?_).returning
  · refine ((requireBytewise_checksFor (i := .dataRequest data) rfl).bind ((requireState_checksFor _).bind
      (requireFrameFits_checksFor (i := .dataRequest data) rfl))).congr fun s => ?_
    simp [precheck_eq_or, argumentError, badArgument]
  · exact .silent_bind (silent_setTrxState _) fun _ => silent_requestArmed data

theorem isCommand_taskHandler : IsCommand (Emits 1) .taskHandler := by
  refine .of_runs (fun _ => rfl) (checksOf_bytewise_state rfl rfl rfl)
    (.silent_bind (silent_update fun _ => rfl) fun _ => .current_bind fun s => ?_)
  split
  · exact emits_pure _
  · refine .silent_bind (silent_memReadByte _) fun irq => ?_
    split
    · exact (emits_completionPath _).returning
    · exact emits_pure _

theorem isCommand_setChannel (ch : Byte) : IsCommand (Emits 0) (.setChannel ch) :=
  .of_runs (fun _ => rfl) (checksOf_bytewise_state rfl rfl rfl) <|
    .silent_bind (silent_update fun _ => rfl) fun _ => silent_writeChannelRegs.returning

theorem isCommand_setBand (b : Byte) : IsCommand (Emits 0) (.setBand b) := by
  refine .of_runs (fun _ => rfl) ?_ ?_
  · refine ((requireBytewise_checksFor (i := .setBand b) rfl).bind
      ((requireArg_checksFor (i := .setBand b) ?_).bind (requireState_checksFor _))).congr fun s => ?_
    · simp [badArgument, bandLegal_eq]
    · simp [precheck_eq_or, frameError, frameOf]
  · exact .silent_bind (silent_update fun _ => rfl) fun _ => .config_bind fun _ =>
      .silent_bind (silent_cfgWrite _ _) fun _ => silent_writeChannelRegs.returning

theorem isCommand_setModulation (m : Byte) : IsCommand (Emits 0) (.setModulation m) :=
  .of_runs (fun _ => rfl) (checksOf_bytewise_state rfl rfl rfl) <|
    .silent_bind (silent_update fun _ => rfl) fun _ => .config_bind fun _ => (silent_cfgWrite _ _).returning

theorem isCommand_setPanId (p : Half) : IsCommand (Emits 0) (.setPanId p) :=
  .of_runs (fun _ => rfl) (checksOf_bytewise_state rfl rfl rfl) <|
    .silent_bind (silent_update fun _ => rfl) fun _ => .config_bind fun _ => silent_addressWrites _ _ _ _

theorem isCommand_setShortAddress (a : Half) : IsCommand (Emits 0) (.setShortAddress a) :=
  .of_runs (fun _ => rfl) (checksOf_bytewise_state rfl rfl rfl) <|
    .silent_bind (silent_update fun _ => rfl) fun _ => .config_bind fun _ => silent_addressWrites _ _ _ _

theorem isCommand_setTxPower (p : Byte) : IsCommand (Emits 0) (.setTxPower p) :=
  .of_runs (fun _ => rfl) (checksOf_bytewise_state rfl rfl rfl) <|
    .silent_bind (silent_update fun _ => rfl) fun _ => .config_bind fun _ => (silent_cfgWrite _ _).returning

theorem isCommand_rssiBaseValue : IsCommand (Emits 0) .rssiBaseValue :=
  .of_runs (fun _ => rfl) (checksOf_pure fun _ _ => rfl) <| .current_bind fun _ => emits_pure _

theorem isCommand_readRegister (a : Byte) : IsCommand (Emits 0) (.readRegister a) :=
  .of_runs (fun _ => rfl) (checksOf_arg rfl (by simp [badArgument, addrLegal_eq]) (fun _ => rfl) rfl)
    (silent_registerRead _)

theorem isCommand_writeRegister (a : Byte) (v : Half) : IsCommand (Emits 0) (.writeRegister a v) :=
  .of_runs (fun _ => rfl) (checksOf_arg rfl (by simp [badArgument, addrLegal_eq]) (fun _ => rfl) rfl)
    (memWrite_runs emits_closed _ v).returning

theorem isCommand_writeBytes (data : List Byte) : IsCommand (Emits 0) (.writeBytes data) := by
  refine ⟨_, _, fun _ => rfl, checksOf_arg rfl (by simp [badArgument]) (fun _ => rfl) rfl, fun hlegal => ?_⟩
  have hne : data ≠ [] := by simpa [badArgument] using hlegal
  exact .silent_bind (silent_transaction hne) fun _ => emits_pure _

theorem isCommand_readBytes (n : Byte) : IsCommand (Emits 0) (.readBytes n) := by
  refine ⟨_, _, fun _ => rfl, checksOf_arg rfl (by simp [badArgument]) (fun _ => rfl) rfl, fun hlegal => ?_⟩
  have hne : n ≠ 0#8 := by simpa [badArgument] using hlegal
  exact silent_transaction (by simpa [zeros, ← BitVec.toNat_inj] using hne)

theorem isCommand_writeFrame (f : List Byte) : IsCommand (Emits 0) (.writeFrame f) := by
  refine .of_runs (fun _ => rfl) ?_ (.silent_bind (silent_setTrxState _) fun _ => (silent_frameWriteSeq f).returning)
  refine ((requireBytewise_checksFor (i := .writeFrame f) rfl).bind
    (requireFrameFits_checksFor (i := .writeFrame f) rfl)).congr fun s => ?_
  simp [precheck_eq_or, argumentError, badArgument, stateError, legality]

theorem isCommand_readFrame : IsCommand (Emits 0) .readFrame :=
  .of_runs (fun _ => rfl) (checksOf_pure fun _ _ => rfl) silent_frameImage

theorem isCommand_spiRegRead (a : RegAddr) : IsCommand (Emits 0) (.spiRegRead a) :=
  .of_runs (fun _ => rfl) (checksOf_pure fun _ _ => rfl) (silent_registerRead a)

theorem isCommand_spiRegWrite (a : RegAddr) (v : Half) : IsCommand (Emits 0) (.spiRegWrite a v) :=
  .of_runs (fun _ => rfl) (checksOf_pure fun _ _ => rfl) (memWrite_runs emits_closed a v).returning

theorem isCommand_spiFbRead : IsCommand (Emits 0) .spiFbRead :=
  .of_runs (fun _ => rfl) (checksOf_pure fun _ _ => rfl) silent_frameImage

theorem isCommand_spiFbWrite (f : List Byte) : IsCommand (Emits 0) (.spiFbWrite f) := by
  refine .of_runs (fun _ => rfl) ?_ (silent_frameBufferWrite f).returning
  refine (requireFrameFits_checksFor (i := .spiFbWrite f) rfl).congr fun s => ?_
  simp [precheck_eq_or, profileError, needsBytewise, argumentError, badArgument, stateError, legality]

/-- A `TRX_CMD` row: the profile check, a piece that emits nothing, and no return bytes (log 12). -/
theorem isCommand_row {i : Instr} {m : Seq Unit} (hb : needsBytewise i = true) (ha : badArgument i = none)
    (hl : ∀ st, legality i st = .run) (hf : frameOf i = none)
    (hexec : ∀ s, exec i s = command i requireBytewise (do m; pure []) s) (hm : Runs (Emits 0) m) :
    IsCommand (Emits 0) i :=
  .of_runs hexec (checksOf_bytewise hb ha hl hf) hm.returning

/-- Every instruction is a command that makes the checks of `precheck` and emits at most as many events as it
may. -/
theorem exec_isCommand (i : Instr) : IsCommand (Emits (eventBound i)) i := by
  cases i with
  | init => exact isCommand_init
  | sleep => exact isCommand_sleep
  | wakeup => exact isCommand_wakeup
  | dataRequest data => exact isCommand_dataRequest data
  | taskHandler => exact isCommand_taskHandler
  | setChannel ch => exact isCommand_setChannel ch
  | setBand b => exact isCommand_setBand b
  | setModulation m => exact isCommand_setModulation m
  | setPanId p => exact isCommand_setPanId p
  | setShortAddress a => exact isCommand_setShortAddress a
  | setTxPower p => exact isCommand_setTxPower p
  | rssiBaseValue => exact isCommand_rssiBaseValue
  | readRegister a => exact isCommand_readRegister a
  | writeRegister a v => exact isCommand_writeRegister a v
  | writeBytes data => exact isCommand_writeBytes data
  | readBytes n => exact isCommand_readBytes n
  | writeFrame f => exact isCommand_writeFrame f
  | readFrame => exact isCommand_readFrame
  | spiRegRead a => exact isCommand_spiRegRead a
  | spiRegWrite a v => exact isCommand_spiRegWrite a v
  | spiFbRead => exact isCommand_spiFbRead
  | spiFbWrite f => exact isCommand_spiFbWrite f
  | txStart => exact isCommand_row rfl rfl (fun _ => rfl) rfl (fun _ => rfl) (transmitStart_runs emits_closed)
  | forceTrxOff => exact isCommand_row rfl rfl (fun _ => rfl) rfl (fun _ => rfl) (silent_setTrxState _)
  | rxOn => exact isCommand_row rfl rfl (fun _ => rfl) rfl (fun _ => rfl) (silent_setTrxState _)
  | pllOn => exact isCommand_row rfl rfl (fun _ => rfl) rfl (fun _ => rfl) (silent_setTrxState _)
  | rxAackOn => exact isCommand_row rfl rfl (fun _ => rfl) rfl (fun _ => rfl) (silent_setTrxState _)
  | txAretOn => exact isCommand_row rfl rfl (fun _ => rfl) rfl (fun _ => rfl) (silent_setTrxState _)

/-! ### What an accepted command leaves of `evq` -/

theorem Emits.evq_length_le {k : Nat} {s t : State} (h : Emits k s t) (hs : s.evq = []) : t.evq.length ≤ k := by
  obtain ⟨-, es, hlen, hevq⟩ := h
  simpa [hevq, hs] using hlen

/-- The host gets `evq` with the completion (R33). -/
theorem Base.complete_delivers {s u : State} {n : Nat} (h : Base s u n) (r : Byte) (d : List Byte) (e : Option Err) :
    ∃ x, (complete r d e u).delivered = s.delivered ++ [x] ∧ x.events = (complete r d e u).evq :=
  ⟨⟨r, d, u.evq⟩, by simp [h.delivered], rfl⟩

/-- A cut command took the answer that cut it. -/
theorem CutFrom.not_uncutUntil {s t : State} {n : Nat} (h : CutFrom s t n) : ¬ s.uncutUntil t := by
  intro hu
  obtain ⟨hpos, hcut⟩ := h.cut
  obtain ⟨es, rfl, -⟩ := h.state
  refine hcut (hu (n - 1) ?_)
  simp only
  omega

/-- An uncut command, accepted in s, ends with what it emitted in `evq`, and if it completed the host got that. -/
theorem Ended.events {k n : Nat} {s t : State} (h : Ended (Emits k) s t n) (hs : s.evq = []) (hbusy : s.busy = true)
    (hu : s.uncutUntil t) :
    t.evq.length ≤ k ∧ (t.busy = false → ∃ x, t.delivered = s.delivered ++ [x] ∧ x.events = t.evq) := by
  cases h with
  | ok u ret base rel done => exact done ▸ ⟨rel.evq_length_le hs, fun _ => base.complete_delivers _ _ _⟩
  | failed u e base rel done => exact done ▸ ⟨rel.evq_length_le hs, fun _ => base.complete_delivers _ _ _⟩
  | waiting u place base rel unbounded done =>
    have hstays : u.busy = true := rel.1.trans hbusy
    exact done ▸ ⟨rel.evq_length_le hs, fun hidle => absurd (hstays.symm.trans hidle) (by simp)⟩
  | cut hcut => exact absurd hu hcut.not_uncutUntil

/-- Settles O57: by `exec_isCommand` every command refuses by `precheck` or, accepted with `evq` empty, emits at
most `eventBound` events. -/
theorem onlyTwoCommandsEmitEvents : Obligations.OnlyTwoCommandsEmitEvents := by
  unfold Obligations.OnlyTwoCommandsEmitEvents
  refine ⟨fun _ => rfl, fun i s t hexec hu => ⟨fun hp => ?_, fun hp => ?_⟩⟩
  · obtain ⟨t', n, hexec', hended⟩ := (exec_isCommand i).accepted hp
    obtain rfl : t = t' := by simpa [hexec] using hexec'
    obtain ⟨hlen, hdelivered⟩ := hended.events rfl rfl hu
    refine ⟨hlen.trans (eventBound_le_one i), fun ht hd => ?_, hdelivered⟩
    rwa [eventBound_eq_zero ht hd, Nat.le_zero, List.length_eq_zero_iff] at hlen
  · obtain ⟨e, he⟩ := Option.ne_none_iff_exists'.1 hp
    obtain rfl : t = s.refused e [] := by simpa [hexec] using (exec_isCommand i).refused he
    exact refused_evq s e []

end Sys2Proof.Machine
end

section
/-! Host frames: what the decoder makes of each opcode of R95 and of the others, and the lengths of R96. -/

namespace Sys2Proof

/-! ### The opcodes of R95 by the form of their frame (R96) -/

/-- The opcodes of the frames with no argument. -/
abbrev bareOpcodes : List Byte := [0x01#8, 0x02#8, 0x03#8, 0x05#8, 0x16#8, 0x25#8]

/-- The opcodes of the frames with one argument byte. -/
abbrev byteOpcodes : List Byte := [0x10#8, 0x11#8, 0x12#8, 0x15#8, 0x20#8, 0x23#8]

/-- The opcodes of the frames with one 16-bit argument. -/
abbrev halfOpcodes : List Byte := [0x13#8, 0x14#8]

/-- The opcodes of the frames with a size byte. -/
abbrev sizedOpcodes : List Byte := [0x04#8, 0x22#8, 0x24#8]

/-- The opcodes of R95. -/
abbrev hostOpcodes : List Byte :=
  [0x01#8, 0x02#8, 0x03#8, 0x04#8, 0x05#8, 0x10#8, 0x11#8, 0x12#8, 0x13#8, 0x14#8, 0x15#8, 0x16#8,
    0x20#8, 0x21#8, 0x22#8, 0x23#8, 0x24#8, 0x25#8]

theorem opcode_forms (op : Byte) :
    op ∈ bareOpcodes ∨ op ∈ byteOpcodes ∨ op ∈ halfOpcodes ∨ op = 0x21#8 ∨ op ∈ sizedOpcodes
      ∨ op ∉ hostOpcodes := by
  decide +revert

/-! ### Lengths (R96) -/

theorem hostFrameLength_bare (c : Config) {op : Byte} (h : op ∈ bareOpcodes) (rest : List Byte) :
    hostFrameLength c (op :: rest) = some 1 := by
  fin_cases h <;> rfl

theorem hostFrameLength_byte (c : Config) {op : Byte} (h : op ∈ byteOpcodes) (rest : List Byte) :
    hostFrameLength c (op :: rest) = some 2 := by
  fin_cases h <;> rfl

theorem hostFrameLength_half (c : Config) {op : Byte} (h : op ∈ halfOpcodes) (rest : List Byte) :
    hostFrameLength c (op :: rest) = some 3 := by
  fin_cases h <;> rfl

theorem hostFrameLength_writeRegister (c : Config) (rest : List Byte) :
    hostFrameLength c (0x21#8 :: rest) = some (2 + c.profile.valBytes.num) := rfl

theorem hostFrameLength_sized (c : Config) {op : Byte} (h : op ∈ sizedOpcodes) (n : Byte) (rest : List Byte) :
    hostFrameLength c (op :: n :: rest) = some (2 + n.toNat) := by
  fin_cases h <;> rfl

/-! ### What the decoder does with an opcode -/

theorem decodeHost_bare (c : Config) {op : Byte} (h : op ∈ bareOpcodes) :
    ∃ i, ∀ args, decodeHost c (op :: args) = noArgs i args := by
  fin_cases h <;> exact ⟨_, fun _ => rfl⟩

theorem decodeHost_byte (c : Config) {op : Byte} (h : op ∈ byteOpcodes) :
    ∃ mk, ∀ args, decodeHost c (op :: args) = byteArg mk args := by
  fin_cases h <;> exact ⟨_, fun _ => rfl⟩

theorem decodeHost_half (c : Config) {op : Byte} (h : op ∈ halfOpcodes) :
    ∃ mk, ∀ args, decodeHost c (op :: args) = halfArg mk args := by
  fin_cases h <;> exact ⟨_, fun _ => rfl⟩

theorem decodeHost_writeRegister (c : Config) (args : List Byte) :
    decodeHost c (0x21#8 :: args) = writeRegisterArgs c args := rfl

theorem decodeHost_sized (c : Config) {op : Byte} (h : op ∈ sizedOpcodes) :
    ∃ mk, ∀ args, decodeHost c (op :: args) = sizedArg mk args := by
  fin_cases h <;> exact ⟨_, fun _ => rfl⟩

theorem decodeHost_unassigned (c : Config) {op : Byte} (h : op ∉ hostOpcodes) (args : List Byte) :
    decodeHost c (op :: args) = .error (.unassignedOpcode op) := by
  simp only [List.mem_cons, List.not_mem_nil, or_false, not_or, ← BitVec.toNat_inj, BitVec.toNat_ofNat] at h
  simp [decodeHost, h]

/-! ### The arguments of a frame that decodes -/

theorem noArgs_ok {i j : Instr} {args : List Byte} (h : noArgs i args = .ok j) : args = [] := by
  cases args with
  | nil => rfl
  | cons b bs => cases h

theorem byteArg_ok {mk : Byte → Instr} {j : Instr} {args : List Byte} (h : byteArg mk args = .ok j) :
    args.length = 1 := by
  unfold byteArg at h
  split at h
  · rfl
  · cases h

theorem halfArg_ok {mk : Half → Instr} {j : Instr} {args : List Byte} (h : halfArg mk args = .ok j) :
    args.length = 2 := by
  unfold halfArg at h
  split at h
  · rfl
  · cases h

theorem sizedArg_ok {mk : List Byte → Instr} {j : Instr} {args : List Byte} (h : sizedArg mk args = .ok j) :
    ∃ n data, args = n :: data ∧ data.length = n.toNat := by
  cases args with
  | nil => cases h
  | cons n data =>
    refine ⟨n, data, rfl, ?_⟩
    by_contra hne
    simp [sizedArg, hne] at h

theorem writeRegisterArgs_ok {c : Config} {j : Instr} {args : List Byte} (h : writeRegisterArgs c args = .ok j) :
    args.length = 1 + c.profile.valBytes.num := by
  unfold writeRegisterArgs at h
  split at h
  · split at h
    next hone => simp [hone, ByteCount.num]
    next => cases h
  · split at h
    next htwo => simp [htwo, ByteCount.num]
    next => cases h
  · cases h

/-- A host frame that decodes has the length R96 reads from its first two bytes. -/
theorem decodeHost_ok_length {c : Config} {bs : List Byte} {i : Instr} (h : decodeHost c bs = .ok i) :
    hostFrameLength c (bs.take 2) = some bs.length := by
  cases bs with
  | nil => cases h
  | cons op args =>
    rw [List.take_succ_cons]
    rcases opcode_forms op with hop | hop | hop | rfl | hop | hop
    · obtain ⟨j, hdecode⟩ := decodeHost_bare c hop
      obtain rfl := noArgs_ok ((hdecode args).symm.trans h)
      exact hostFrameLength_bare c hop _
    · obtain ⟨mk, hdecode⟩ := decodeHost_byte c hop
      rw [hostFrameLength_byte c hop, List.length_cons, byteArg_ok ((hdecode args).symm.trans h)]
    · obtain ⟨mk, hdecode⟩ := decodeHost_half c hop
      rw [hostFrameLength_half c hop, List.length_cons, halfArg_ok ((hdecode args).symm.trans h)]
    · rw [hostFrameLength_writeRegister, List.length_cons, writeRegisterArgs_ok h, Nat.add_right_comm]
    · obtain ⟨mk, hdecode⟩ := decodeHost_sized c hop
      obtain ⟨n, data, rfl, hn⟩ := sizedArg_ok ((hdecode args).symm.trans h)
      rw [List.take_succ_cons, hostFrameLength_sized c hop, List.length_cons, List.length_cons, hn, Nat.add_comm]
    · rw [decodeHost_unassigned c hop] at h
      cases h

/-! ### SPI register exchanges -/

theorem commandWord_length (c : Config) (a : RegAddr) (flag : Byte) :
    (commandWord c a flag).length = c.profile.cmdBytes.num := by
  unfold commandWord
  split <;> simp [*, ByteCount.num]

theorem valueBytes_length (c : Config) (v : Half) : (valueBytes c v).length = c.profile.valBytes.num := by
  unfold valueBytes
  split <;> simp [*, ByteCount.num]

namespace Machine

theorem readExchange_length (c : Config) (a : RegAddr) :
    (readExchange c a).length = c.profile.cmdBytes.num + c.profile.valBytes.num := by
  simp [readExchange, commandWord_length, zeros]

theorem writeExchange_length (c : Config) (a : RegAddr) (v : Half) :
    (writeExchange c a v).length = c.profile.cmdBytes.num + c.profile.valBytes.num := by
  simp [writeExchange, commandWord_length, valueBytes_length]

/-- Settles O12: the five forms of a host frame have the lengths of R96, a frame that decodes has one of these forms
(`decodeHost_ok_length`), and an exchange is a command word and a value. -/
theorem hostFrameLengthsAreFixedByTheOpcode : Obligations.HostFrameLengthsAreFixedByTheOpcode := by
  unfold Obligations.HostFrameLengthsAreFixedByTheOpcode
  exact fun c =>
    ⟨fun _ rest h => hostFrameLength_bare c h rest, fun _ rest h => hostFrameLength_byte c h rest,
      fun _ rest h => hostFrameLength_half c h rest, hostFrameLength_writeRegister c,
      fun _ n rest h => hostFrameLength_sized c h n rest, fun _ _ h => decodeHost_ok_length h,
      fun a v => ⟨readExchange_length c a, writeExchange_length c a v⟩⟩

/-! ### An unassigned opcode (R98 (1)) -/

/-- A word presented to a free sequencer is taken from `port` and run. -/
theorem step_word {s : State} {e : Encoded} {rest : List PortInput} (hport : s.port = .word e :: rest)
    (hfree : s.busy = false) : step s = runWord e { s with port := rest } := by
  simp [step, hport, hfree]

theorem runWord_unassigned {e : Encoded} {op : Byte} {s : State}
    (h : decode s.cfg e = .error (.unassignedOpcode op)) :
    runWord e s = .next (s.refused (.invalidCommand op) []) := by
  simp only [runWord, h]
  rfl

/-- Settles O14: the decoder rejects the opcode (`decodeHost_unassigned`), and so the word is refused. -/
theorem unassignedOpcodeIsInvalidCommand : Obligations.UnassignedOpcodeIsInvalidCommand := by
  unfold Obligations.UnassignedOpcodeIsInvalidCommand
  intro s op args rest hport hfree hop
  rw [step_word hport hfree]
  exact runWord_unassigned (decodeHost_unassigned s.cfg hop args)

end Machine

end Sys2Proof
end

section
/-! The frame-write buffer, and the numbers of codes, statuses and states. -/

namespace Sys2Proof

theorem frameImage_length (f : List Byte) : (frameImage f).length = f.length + 3 := by
  simp [frameImage, zeros]

/-- The first byte of the image counts the frame and the two bytes after it, and does not wrap (R92). -/
theorem frameImage_lengthByte {f : List Byte} (h : f.length + 2 < 256) :
    ((frameImage f)[0]?).map BitVec.toNat = some (f.length + 2) := by
  simp [frameImage, Nat.mod_eq_of_lt h]

namespace Machine

/-- Settles O13: R9 bounds `FB_LIMIT` by 256, so the length byte of a frame that fits does not wrap. -/
theorem lengthPrefixCountsTheCrcBytes : Obligations.LengthPrefixCountsTheCrcBytes := by
  unfold Obligations.LengthPrefixCountsTheCrcBytes
  refine ⟨fun c f hvalid hfits => ?_, fun _ _ _ _ => rfl⟩
  obtain ⟨-, -, -, hlimit, -⟩ := valid_limits hvalid
  exact ⟨frameImage_length f, frameImage_lengthByte (by omega), rfl⟩

/-- Settles O15: each number is the one the tables of R230, R90 and R21 give. -/
theorem codesOfErrorsStatusesAndStates : Obligations.CodesOfErrorsStatusesAndStates := by
  unfold Obligations.CodesOfErrorsStatusesAndStates
  exact ⟨rfl, fun _ _ => rfl, fun _ _ => rfl, fun _ => rfl, fun _ => rfl, fun _ => rfl, fun _ => rfl, fun _ => rfl,
    fun _ => rfl, rfl, rfl⟩

/-! ### Transaction statuses (R89) -/

/-- REF's `TRAC_MAP`. -/
theorem tracStatus_ref (t : BitVec 3) :
    tracStatus Config.ref t = if t = 0#3 then .success else if t = 1#3 then .channelAccessFailure
      else if t = 2#3 then .noAck else .error := by
  decide +revert

theorem tracStatus_unmapped {c : Config} {t : BitVec 3} (h : c.tracMap.length ≤ t.toNat) :
    tracStatus c t = .error := by
  simp [tracStatus, List.getElem?_eq_none h]

theorem tracField_ref (v : Byte) : tracField Config.ref v = (v >>> 5).setWidth 3 := rfl

/-- No bit of a byte shifted by 5 is lost in three bits. -/
theorem shiftRight_five_setWidth_eq_iff (v : Byte) (t : BitVec 3) :
    (v >>> 5).setWidth 3 = t ↔ v >>> 5 = t.setWidth 8 := by
  simp only [← BitVec.toNat_inj, BitVec.toNat_setWidth, BitVec.toNat_ushiftRight, Nat.shiftRight_eq_div_pow]
  omega

/-- Settles O48: REF's map on the field from bits 7:5, and no entry for an unmapped code under every map. -/
theorem transactionStatusMapping : Obligations.TransactionStatusMapping := by
  unfold Obligations.TransactionStatusMapping
  refine ⟨fun v => ⟨tracField_ref v, ?_⟩, fun _ _ h => tracStatus_unmapped h⟩
  simp [tracField_ref, tracStatus_ref, shiftRight_five_setWidth_eq_iff]

end Machine

end Sys2Proof
end

section
/-! Configuration writes that go through at the first attempt, one after another, and SET_BAND (R205). -/

namespace Sys2Proof.Machine

/-- s after these one-chunk exchanges of `CfgWrite` went through, each at the first attempt (R218). -/
def State.configured (s : State) (txs : List (List Byte)) : State :=
  { s.afterBus txs.length (s.exchanges 0 txs) with retryCount := 0 }

theorem later_configured (s : State) (txs : List (List Byte)) : Later s (s.configured txs) txs.length :=
  ⟨rfl, rfl, rfl⟩

theorem configured_configured (s : State) (xs ys : List (List Byte)) :
    (s.configured xs).configured ys = s.configured (xs ++ ys) := by
  have hlater : (s.configured xs).exchanges 0 ys = s.exchanges xs.length ys := (later_configured s xs).exchanges 0 ys
  have hbus := afterBus_afterBus s xs.length ys.length (s.exchanges 0 xs) (s.exchanges xs.length ys)
  calc (s.configured xs).configured ys
    _ = { (s.afterBus xs.length (s.exchanges 0 xs)).afterBus ys.length (s.exchanges xs.length ys) with
          retryCount := 0 } := by rw [← hlater]; rfl
    _ = s.configured (xs ++ ys) := by
      rw [hbus, State.configured, List.length_append, exchanges_append, Nat.zero_add]

theorem cfgWrite_configured {s : State} (hb : s.cfg.profile.bytewise = true) (hx : 2 ≤ s.cfg.maxXfer)
    (h : s.goThrough 1) (a : RegAddr) (v : Byte) :
    cfgWrite a v s = .ok () (s.configured [regWrite s.cfg a v]) :=
  cfgWrite_ok hb hx h a v

theorem writeChannelRegs_configured {s : State} (hb : s.cfg.profile.bytewise = true) (hx : 2 ≤ s.cfg.maxXfer)
    (h : s.goThrough 1) :
    writeChannelRegs s = .ok () (s.configured [channelWrite s.cfg s.band s.channel]) := by
  simp only [writeChannelRegs, current_bind, channelWrite]
  split <;> exact cfgWrite_configured hb hx h _ _

/-! ### Commands that pass their checks -/

/-- A configuration command whose operand has reserved bits checks the profile, the operand and the operating
state. -/
theorem checksOf_bytewise_arg_state {i : Instr} {legal : Bool} {arg : Byte} (hb : needsBytewise i = true)
    (ha : badArgument i = if legal then none else some arg) (hf : frameOf i = none) :
    ChecksOf i (do
      requireBytewise
      requireArg legal arg
      requireState i) :=
  ((requireBytewise_checksFor hb).bind ((requireArg_checksFor ha).bind (requireState_checksFor i))).congr fun s => by
    simp [precheck_eq_or, frameError, hf]

/-- A command that passes its checks, and whose pseudocode ends with `ret`, completes OK with it (R15, R233). -/
theorem exec_of_body_ok {i : Instr} {checks : Seq Unit} {body : Seq (List Byte)} {s t : State} {ret : List Byte}
    (hexec : exec i s = command i checks body s) (hchecks : ChecksOf i checks)
    (hpre : precheck s.cfg i s.opState = none) (hbody : body (accept (take i s)) = .ok ret t) :
    exec i s = .next (complete okCode ret none t) := by
  have hpass : checks (take i s) = .ok () (take i s) := (hchecks (take i s)).trans (by simp [hpre])
  rw [hexec, command_accepted hpass, hbody, finish_ok]

/-! ### SET_BAND -/

theorem checksOf_setBand (b : Byte) : ChecksOf (.setBand b) (do
    requireBytewise
    requireArg (bandLegal b) b
    requireState (.setBand b)) :=
  checksOf_bytewise_arg_state rfl (by simp [badArgument, bandLegal_eq]) rfl

theorem afterInit_eq_refuse_iff {st : OpState} : afterInit st = .refuse ↔ st = .initial := by
  cases st <;> simp [afterInit]

theorem precheck_setBand_reserved {c : Config} {b : Byte} (hb : c.profile.bytewise = true) (h : 8 ≤ b.toNat)
    (st : OpState) : precheck c (.setBand b) st = some (.invalidArgument b) := by
  simp [precheck_eq_or, profileError, hb, argumentError, badArgument, Nat.not_lt.2 h]

theorem precheck_setBand_ok {c : Config} {b : Byte} {st : OpState} (hb : c.profile.bytewise = true)
    (h : b.toNat < 8) (hst : st ≠ .initial) : precheck c (.setBand b) st = none := by
  simp [precheck_eq_or, profileError, hb, argumentError, badArgument, h, stateError, legality,
    afterInit_eq_refuse_iff, hst, frameError, frameOf]

/-- SET_BAND's two writes after the cache is written, both going through at the first attempt (R204, R205). -/
theorem setBandWrites_configured {t : State} (hb : t.cfg.profile.bytewise = true) (hx : 2 ≤ t.cfg.maxXfer)
    (h : t.goThrough 2) (b : Byte) :
    (do
      let c ← config
      cfgWrite c.map.ccCtrl1 (ccCtrl1Value c b)
      writeChannelRegs
      pure ([] : List Byte)) t
      = .ok [] (t.configured
          [regWrite t.cfg t.cfg.map.ccCtrl1 (ccCtrl1Value t.cfg b), channelWrite t.cfg t.band t.channel]) := by
  have hlater := later_configured t [regWrite t.cfg t.cfg.map.ccCtrl1 (ccCtrl1Value t.cfg b)]
  have hband := cfgWrite_configured hb hx (goThrough_le h one_le_two) t.cfg.map.ccCtrl1 (ccCtrl1Value t.cfg b)
  have hchannel := writeChannelRegs_configured (by rwa [hlater.cfg]) (by rwa [hlater.cfg])
    (hlater.goThrough (m := 1) h)
  rw [config_bind, bind_ok hband, bind_ok hchannel, configured_configured]
  rfl

/-- SET_BAND with both writes going through at the first attempt (R205). -/
theorem exec_setBand_ok {b : Byte} {s : State} (hv : s.cfg.valid = true) (hb : s.cfg.profile.bytewise = true)
    (hband : b.toNat < 8) (hst : s.opState ≠ .initial) (h : s.goThrough 2) :
    exec (.setBand b) s = .next (State.answeredOk
      { s.afterBus 2 (s.exchanges 0 (configWrites s (.setBand b))) with band := b, retryCount := 0 } []) := by
  obtain ⟨-, hx, -⟩ := valid_limits hv
  have hbody := setBandWrites_configured (t := withCache (accept (take (.setBand b) s)) (.setBand b)) hb
    (le_trans (by decide) hx) h b
  exact exec_of_body_ok rfl (checksOf_setBand b) (precheck_setBand_ok hb hband hst) hbody

/-- Settles O51: a reserved bit fails the argument check, and else the two writes of `configWrites` go through, the
second into the register of the new band. -/
theorem setBandRewritesTheChannel : Obligations.SetBandRewritesTheChannel := by
  unfold Obligations.SetBandRewritesTheChannel
  intro b s hv hb
  refine ⟨fun h => ⟨[], (exec_isCommand _).refused (precheck_setBand_reserved hb h _)⟩, fun hband hst hgo => ?_⟩
  have hexec := exec_setBand_ok hv hb hband hst hgo
  refine ⟨fun hzero => ?_, fun hne => ?_⟩
  · simpa only [configWrites, channelWrite, ccCtrl1Value, if_pos hzero] using hexec
  · simpa only [configWrites, channelWrite, ccCtrl1Value, if_neg hne] using hexec

end Sys2Proof.Machine
end

section
/-! Transport commands (R124 to R130): each checks its argument alone and is then one transaction, so that what the
chunks of that transaction do decides the whole next state. -/

namespace Sys2Proof.Machine

/-! ### Pieces of a segment (R121) -/

theorem flatten_length_of_length_eq {m : Nat} {ps : List (List Byte)} (h : ∀ p ∈ ps, p.length = m) :
    ps.flatten.length = ps.length * m := by
  rw [List.length_flatten, List.eq_replicate_of_mem (l := ps.map List.length) (by simpa using h)]
  simp

/-- The pieces before a piece are full. -/
theorem IsChunking.sent_length {m : Nat} {data : List Byte} {sent unsent : List (List Byte)} {p : List Byte}
    (h : IsChunking m data (sent ++ p :: unsent)) : sent.flatten.length = sent.length * m := by
  obtain ⟨-, hfull, -⟩ := h
  refine flatten_length_of_length_eq fun q hq => hfull q ?_
  rw [List.dropLast_append_cons]
  exact List.mem_append_left _ hq

/-- A segment is sent in ceil(n / m) pieces. -/
theorem IsChunking.count {m : Nat} {data : List Byte} {ps : List (List Byte)} (h : IsChunking m data ps)
    (hne : data ≠ []) : ps.length = (data.length + m - 1) / m := by
  obtain rfl | ⟨init, last, rfl⟩ := ps.eq_nil_or_concat'
  · exact absurd h.1.symm hne
  · have hinit : init.flatten.length = init.length * m := h.sent_length
    obtain ⟨hflat, -, hbounds⟩ := h
    obtain ⟨hpos, hle⟩ := hbounds last (by simp)
    have hdata : data.length = init.length * m + last.length := by simp [← hflat, ← hinit]
    have hrest : (last.length + m - 1) / m = 1 := Nat.div_eq_of_lt_le (by omega) (by omega)
    rw [hdata, Nat.add_assoc, Nat.add_sub_assoc (by omega), Nat.mul_comm, Nat.mul_add_div (by omega), hrest]
    simp

/-! ### A command that is one transaction -/

theorem Later.brokenTransfer {s t : State} {n : Nat} (h : Later s t n) (k : Nat) (ps : List (List Byte))
    (p : List Byte) : t.brokenTransfer k ps p = s.brokenTransfer (n + k) ps p := by
  simp [State.brokenTransfer, h.chunkEvents]

theorem later_accepted (i : Instr) (s : State) : Later s (accept (take i s)) 0 := ⟨rfl, rfl, rfl⟩

/-- An accepted command that only moved the bus, completed. -/
theorem complete_accepted_afterBus (i : Instr) (s : State) (n : Nat) (es : List BusEvent) (code : Byte)
    (ret : List Byte) (info : Option Err) :
    complete code ret info ((accept (take i s)).afterBus n es) = (s.afterBus n es).answered code ret info [] := rfl

/-- From s, i passes its checks and its pseudocode is the one transaction of tx, from whose received bytes `ret` makes
the return bytes. -/
def IsTransaction (i : Instr) (s : State) (tx : List Byte) (ret : List Byte → List Byte) : Prop :=
  tx ≠ [] ∧ exec i s = .next (finish ((do let rx ← transaction tx; pure (ret rx)) (accept (take i s))))

section
variable {i : Instr} {s : State} {tx : List Byte} {ret : List Byte → List Byte} {ps : List (List Byte)}

/-- Every chunk goes through: OK with what was received (R121). -/
theorem IsTransaction.ok (h : IsTransaction i s tx ret) (hps : IsChunking s.cfg.maxXfer tx ps)
    (hgo : s.goThrough ps.length) :
    exec i s = .next ((s.afterBus ps.length (s.transfer 0 ps)).answeredOk (ret (s.received 0 ps))) := by
  obtain ⟨hne, hexec⟩ := h
  obtain rfl := isChunking_unique hps
  have hlater := later_accepted i s
  have htr := transaction_ok (s := accept (take i s)) hne (hlater.goThrough (by simpa using hgo))
  rw [hlater.transfer, hlater.received] at htr
  rw [hexec, bind_ok htr, pure_run, finish_ok, complete_accepted_afterBus, Nat.zero_add]
  rfl

/-- The chunk after `sent` fails: `TransferFailed` with its number and offset, and nothing is sent after it (R122). -/
theorem IsTransaction.failed {sent unsent : List (List Byte)} {p : List Byte} (h : IsTransaction i s tx ret)
    (hps : IsChunking s.cfg.maxXfer tx (sent ++ p :: unsent)) (hgo : s.goThrough sent.length)
    (hfail : s.failsAt sent.length) :
    exec i s = .next ((s.afterBus (sent.length + 1) (s.brokenTransfer 0 sent p)).answeredErr
      (.transferFailed sent.length (sent.length * s.cfg.maxXfer))) := by
  obtain ⟨hne, hexec⟩ := h
  have htr := transaction_failed (s := accept (take i s)) (isChunking_unique hps).symm hgo hfail
  rw [(later_accepted i s).brokenTransfer] at htr
  rw [hexec, bind_error htr, finish_raised, hps.sent_length, complete_accepted_afterBus, Nat.zero_add]
  rfl

/-- The first chunk fails. -/
theorem IsTransaction.failed_first {p : List Byte} (h : IsTransaction i s tx ret)
    (hps : IsChunking s.cfg.maxXfer tx (p :: ps)) (hfail : s.failsAt 0) :
    exec i s = .next ((s.afterBus 1 (s.brokenTransfer 0 [] p)).answeredErr (.transferFailed 0 0)) := by
  simpa using h.failed (sent := []) hps (fun _ hk => absurd hk (Nat.not_lt_zero _)) hfail

end

/-! ### The argument check -/

/-- A command that only its argument can refuse (R91, R97) is refused for a bad one in every operating state and under
every profile. -/
theorem refusedBy_badArgument {i : Instr} {arg : Byte} (hb : needsBytewise i = false)
    (ha : badArgument i = some arg) (s : State) : refusedBy i s (.invalidArgument arg) :=
  ⟨[], (exec_isCommand i).refused (by simp [precheck_eq_or, profileError, hb, argumentError, ha])⟩

/-- A command that checks its argument alone, a legal one here, is its pseudocode. -/
theorem IsTransaction.of_legal_argument {i : Instr} {legal : Bool} {arg : Byte} {body : Seq (List Byte)} {s : State}
    {tx : List Byte} {ret : List Byte → List Byte} (hexec : exec i s = command i (requireArg legal arg) body s)
    (hlegal : legal = true) (hne : tx ≠ [])
    (hbody : body (accept (take i s)) = (do let rx ← transaction tx; pure (ret rx)) (accept (take i s))) :
    IsTransaction i s tx ret := by
  subst hlegal
  exact ⟨hne, by rw [hexec, command_accepted (requireArg_ok arg _), hbody]⟩

/-! ### The value bytes of a register read (R84, R124) -/

theorem lowByte_ofBytes (lo hi : Byte) : lowByte (ofBytes lo hi) = lo := by
  ext i hlt
  simp [lowByte, ofBytes]

theorem highByte_ofBytes (lo hi : Byte) : highByte (ofBytes lo hi) = hi := by
  ext i hlt
  simp [highByte, ofBytes, hlt, show 8 + i < 16 by omega, show i < 16 by omega]

theorem byteAt_rxAt (s : State) (k : Nat) {n j : Nat} (h : j < n) : byteAt (s.rxAt k n) j = s.miso k j := by
  simp [byteAt, State.rxAt, State.miso, h]

/-- The value assembled from a read exchange, as the host gets it, is its value bytes, low byte first. -/
theorem hostValueBytes_assemble (s : State) (k : Nat) (a : RegAddr) :
    hostValueBytes s.cfg (assemble s.cfg (s.rxAt k (readExchange s.cfg a).length)) = s.registerBytes k := by
  rw [readExchange_length]
  cases hv : s.cfg.profile.valBytes with
  | one =>
    simp [hostValueBytes, assemble, State.registerBytes, hv, ByteCount.num, byteAt_rxAt, lowByte]
  | two =>
    cases ho : s.cfg.profile.val16Order <;>
    simp [hostValueBytes, assemble, State.registerBytes, hv, ho, ByteCount.num, byteAt_rxAt, lowByte_ofBytes,
      highByte_ofBytes]

theorem transaction_cfg {tx rx : List Byte} (hne : tx ≠ []) {s t : State} (h : transaction tx s = .ok rx t) :
    t.cfg = s.cfg := by
  obtain ⟨n, hn⟩ := silent_transaction hne s
  rw [h] at hn
  exact hn.1.later.cfg

/-- A register read for the host is the read exchange, and the value bytes of what it received (R125). -/
theorem registerRead_run (a : RegAddr) (s : State) :
    (do
      let v ← memRead a
      let c ← config
      pure (hostValueBytes c v)) s
      = (do
      let rx ← transaction (readExchange s.cfg a)
      pure (hostValueBytes s.cfg (assemble s.cfg rx))) s := by
  simp only [memRead, bind_run, config_run]
  cases htr : transaction (readExchange s.cfg a) s with
  | error e t => rfl
  | ok rx t => simp [transaction_cfg (readExchange_ne_nil s.cfg a) htr]

/-! ### The four commands -/

theorem readRegister_isTransaction {addr : Byte} (h : addr.toNat < 64) (s : State) :
    IsTransaction (.readRegister addr) s (readExchange s.cfg (addr.setWidth 6))
      fun rx => hostValueBytes s.cfg (assemble s.cfg rx) :=
  .of_legal_argument rfl (by simpa [addrLegal_eq] using h) (readExchange_ne_nil _ _) (registerRead_run _ _)

theorem writeRegister_isTransaction {addr : Byte} (h : addr.toNat < 64) (v : Half) (s : State) :
    IsTransaction (.writeRegister addr v) s (writeExchange s.cfg (addr.setWidth 6) v) fun _ => [] :=
  .of_legal_argument rfl (by simpa [addrLegal_eq] using h) (writeExchange_ne_nil _ _ _) (by simp [memWrite, addrOf])

theorem writeBytes_isTransaction {data : List Byte} (h : data ≠ []) (s : State) :
    IsTransaction (.writeBytes data) s data fun _ => [] :=
  .of_legal_argument rfl (by simpa using h) h rfl

theorem readBytes_isTransaction {n : Byte} (h : n ≠ 0#8) (s : State) :
    IsTransaction (.readBytes n) s (zeros n.toNat) id :=
  .of_legal_argument rfl (by simpa using h) (by simpa [zeros, ← BitVec.toNat_inj] using h) (by simp)

/-- A register exchange is one chunk under every valid parameter set (R125, R127). -/
theorem isChunking_exchange {c : Config} (h : c.valid = true) {tx : List Byte}
    (hlen : tx.length = c.profile.cmdBytes.num + c.profile.valBytes.num) : IsChunking c.maxXfer tx [tx] := by
  obtain ⟨-, hmax, -⟩ := valid_limits h
  have hcount : ∀ b : ByteCount, 1 ≤ b.num ∧ b.num ≤ 2 := fun b => by cases b <;> decide
  have hcmd := hcount c.profile.cmdBytes
  have hval := hcount c.profile.valBytes
  refine ⟨by simp, by simp, ?_⟩
  simp only [List.mem_singleton, forall_eq]
  omega

/-- Settles O20: an address above 0x3F fails the argument check, and else the command is its read exchange, of one
chunk. -/
theorem readRegisterIsOneExchange : Obligations.ReadRegisterIsOneExchange := by
  unfold Obligations.ReadRegisterIsOneExchange
  refine fun addr s hv => ⟨fun h => ?_, fun h => ?_⟩
  · exact refusedBy_badArgument rfl (by simp [badArgument, Nat.not_lt.2 h]) s
  · have htr := readRegister_isTransaction h s
    have hone := isChunking_exchange hv (readExchange_length s.cfg (addr.setWidth 6))
    refine ⟨fun hgo => ?_, htr.failed_first hone⟩
    simpa [State.received, hostValueBytes_assemble] using htr.ok hone hgo

/-- Settles O21: as O20, with the write exchange. -/
theorem writeRegisterIsOneExchange : Obligations.WriteRegisterIsOneExchange := by
  unfold Obligations.WriteRegisterIsOneExchange
  refine fun addr v s hv => ⟨fun h => ?_, fun h => ?_⟩
  · exact refusedBy_badArgument rfl (by simp [badArgument, Nat.not_lt.2 h]) s
  · have htr := writeRegister_isTransaction h v s
    have hone := isChunking_exchange hv (writeExchange_length s.cfg (addr.setWidth 6) v)
    exact ⟨htr.ok hone, htr.failed_first hone⟩

/-- Settles O23: no data fails the argument check, and else the command is the transaction of its data. -/
theorem writeBytesSendsChunks : Obligations.WriteBytesSendsChunks := by
  unfold Obligations.WriteBytesSendsChunks
  refine fun s _ => ⟨refusedBy_badArgument rfl rfl s, fun data ps hne hps => ?_⟩
  have htr := writeBytes_isTransaction hne s
  exact ⟨hps.count hne, htr.ok hps, fun sent p unsent hsplit => htr.failed (hsplit ▸ hps)⟩

/-- Settles O24: n = 0 fails the argument check, and else the command is the transaction of n zeros, which receives as
many bytes as it sends. -/
theorem readBytesReturnsWhatArrives : Obligations.ReadBytesReturnsWhatArrives := by
  unfold Obligations.ReadBytesReturnsWhatArrives
  refine fun s _ => ⟨refusedBy_badArgument rfl rfl s, fun n ps hne hps => ?_⟩
  have htr := readBytes_isTransaction hne s
  refine ⟨htr.ok hps, ?_, fun sent p unsent hsplit => htr.failed (hsplit ▸ hps)⟩
  rw [received_length, hps.1, List.length_replicate]

end Sys2Proof.Machine
end

section
/-! Failed chunks (R122, R131): a piece without `CfgWrite` ends at the first chunk that fails, and so does a command
made of such pieces. -/

namespace Sys2Proof.Machine

/-! ### What a piece adds to the bus -/

/-- From s to t no chunk failed and nothing was delivered. -/
def Unfailed (s t : State) : Prop :=
  t.delivered = s.delivered ∧ ∃ es, t.trace = s.trace ++ es ∧ ∀ e ∈ es, notFailed e = true

/-- From s to t one chunk failed, the release of chip-select right after it came last, and nothing was delivered. -/
def BrokenOff (s t : State) : Prop :=
  t.delivered = s.delivered ∧ ∃ before tx, t.trace = s.trace ++ (before ++ [.chunk tx [] false, .cs .deasserted])
    ∧ ∀ e ∈ before, notFailed e = true

theorem Unfailed.of_same {s t : State} (htrace : t.trace = s.trace) (hdelivered : t.delivered = s.delivered) :
    Unfailed s t :=
  ⟨hdelivered, [], by simp [htrace], by simp⟩

theorem Unfailed.of_event {s t : State} {e : BusEvent} (htrace : t.trace = s.trace ++ [e])
    (he : notFailed e = true) (hdelivered : t.delivered = s.delivered) : Unfailed s t :=
  ⟨hdelivered, [e], htrace, by simpa using he⟩

theorem Unfailed.trans {s t u : State} (h : Unfailed s t) (h' : Unfailed t u) : Unfailed s u := by
  obtain ⟨hd, es, htrace, hes⟩ := h
  obtain ⟨hd', es', htrace', hes'⟩ := h'
  exact ⟨hd'.trans hd, es ++ es', by rw [htrace', htrace, List.append_assoc],
    List.forall_mem_append.2 ⟨hes, hes'⟩⟩

theorem Unfailed.brokenOff {s t u : State} (h : Unfailed s t) (h' : BrokenOff t u) : BrokenOff s u := by
  obtain ⟨hd, es, htrace, hes⟩ := h
  obtain ⟨hd', before, tx, htrace', hbefore⟩ := h'
  exact ⟨hd'.trans hd, es ++ before, tx, by rw [htrace', htrace]; simp only [List.append_assoc],
    List.forall_mem_append.2 ⟨hes, hbefore⟩⟩

/-! ### Pieces that end at a failed chunk -/

section
variable {α β : Type}

/-- How a piece run from s ends: a chunk failed only where the piece raised `TransferFailed` right after it. Of a piece
that SRC reset cut only this is said: the sequencer is free and nothing was delivered. -/
def EndsAtFailure (s : State) : EStateM.Result Abort State α → Prop
  | .ok _ t => Unfailed s t
  | .error (.raised e) t => Unfailed s t ∨ BrokenOff s t ∧ e.code = 0x01#8
  | .error .stopped t => Unfailed s t ∨ t.busy = false ∧ t.delivered = s.delivered

/-- From every state m ends so: the first chunk that fails is its last. -/
def StopsAtFailure (m : Seq α) : Prop := ∀ s, EndsAtFailure s (m s)

theorem EndsAtFailure.after {s t : State} {r : EStateM.Result Abort State α} (h : EndsAtFailure t r)
    (hst : Unfailed s t) : EndsAtFailure s r := by
  cases r with
  | ok a u => exact hst.trans h
  | error e u =>
    cases e with
    | raised e => exact h.imp hst.trans (.imp_left hst.brokenOff)
    | stopped => exact h.imp hst.trans fun ⟨hfree, hd⟩ => ⟨hfree, hd.trans hst.1⟩

theorem StopsAtFailure.bind {m : Seq α} {f : α → Seq β} (hm : StopsAtFailure m)
    (hf : ∀ a, StopsAtFailure (f a)) : StopsAtFailure (m >>= f) := fun s => by
  have h := hm s
  rw [bind_run]
  cases hms : m s with
  | ok a t => rw [hms] at h; exact (hf a t).after h
  | error e t => rw [hms] at h; cases e <;> exact h

theorem StopsAtFailure.pure (a : α) : StopsAtFailure (Pure.pure a) := fun _ => .of_same rfl rfl

theorem StopsAtFailure.raise (e : Err) : StopsAtFailure (raise e : Seq α) := fun _ => .inl (.of_same rfl rfl)

theorem StopsAtFailure.config : StopsAtFailure config := fun _ => .of_same rfl rfl

theorem StopsAtFailure.current : StopsAtFailure current := fun _ => .of_same rfl rfl

theorem StopsAtFailure.update {g : State → State} (h : ∀ s, Unfailed s (g s)) : StopsAtFailure (update g) := h

theorem StopsAtFailure.suspend (place : SeqStep) : StopsAtFailure (suspend place : Seq α) :=
  fun _ => .inl (.of_same rfl rfl)

/-- A piece and the command's return bytes after it. -/
theorem StopsAtFailure.returning {m : Seq α} {ret : List Byte} (hm : StopsAtFailure m) :
    StopsAtFailure (do let _ ← m; Pure.pure ret) :=
  hm.bind fun _ => .pure ret

/-- The piece m raises e, with nothing on the bus before it. -/
def Reraises (e : Err) (m : Seq α) : Prop :=
  ∀ s, ∃ t, m s = .error (.raised e) t ∧ t.trace = s.trace ∧ t.delivered = s.delivered

theorem reraises_raise (e : Err) : Reraises e (raise e : Seq α) := fun s => ⟨s, rfl, rfl, rfl⟩

/-- A raise of m that is handled: `TransferFailed` is raised again at once. -/
theorem StopsAtFailure.attempt_bind {m : Seq α} {f : Except Err α → Seq β} (hm : StopsAtFailure m)
    (hok : ∀ a, StopsAtFailure (f (.ok a)))
    (herr : ∀ e, Reraises e (f (.error e)) ∨ e.code ≠ 0x01#8 ∧ StopsAtFailure (f (.error e))) :
    StopsAtFailure (attempt m >>= f) := fun s => by
  have h := hm s
  cases hms : m s with
  | ok a t =>
    rw [hms] at h
    rw [bind_ok (attempt_ok hms)]
    exact (hok a t).after h
  | error e t =>
    rw [hms] at h
    cases e with
    | stopped =>
      rw [bind_error (attempt_stopped hms)]
      exact h
    | raised e =>
      rw [bind_ok (attempt_raised hms)]
      obtain hagain | ⟨hcode, hgoes⟩ := herr e
      · obtain ⟨u, hu, htrace, hdelivered⟩ := hagain t
        rw [hu]
        simpa [EndsAtFailure, Unfailed, BrokenOff, htrace, hdelivered] using h
      · obtain hunfailed | ⟨-, hfailed⟩ := h
        · exact (hgoes t).after hunfailed
        · exact absurd hfailed hcode

end

/-! ### The shared operations -/

theorem stops_csAssert : StopsAtFailure csAssert := fun s => by
  simp only [csAssert]
  split
  · exact .inr ⟨rfl, rfl⟩
  · exact .of_event rfl rfl rfl

theorem stops_csDeassert : StopsAtFailure csDeassert := .update fun _ => .of_event rfl rfl rfl

/-- The loop of `Seg` ends at the chunk that fails (R122). -/
theorem stops_sendChunks (ps : List (List Byte)) (k i : Nat) (rx : List Byte) :
    StopsAtFailure (sendChunks ps k i rx) := by
  induction ps generalizing k i rx with
  | nil => exact .pure rx
  | cons p ps ih =>
    intro s
    simp only [sendChunks]
    cases hcut : (s.drawAt 0).cut with
    | some c =>
      obtain ⟨-, hdelivered, -⟩ := cutAbout_facts s p c
      rw [bind_error (show xfer p s = .error .stopped (srcReset (s.cutAbout p c)) by simp [xfer, hcut])]
      exact .inr ⟨rfl, hdelivered⟩
    | none =>
      rw [bind_ok (show xfer p s = .ok ((s.drawAt 0).ok, s.rxAt 0 p.length) (s.afterChunk p) by simp [xfer, hcut])]
      cases hok : (s.drawAt 0).ok with
      | true => exact (ih _ _ _ _).after (.of_event (afterChunk_trace s p) (by simp [notFailed, hok]) rfl)
      | false => exact .inr ⟨⟨rfl, [], p, by simp [State.log, hok], by simp⟩, rfl⟩

theorem stops_seg (tx : List Byte) : StopsAtFailure (seg tx) :=
  .bind .config fun _ => stops_sendChunks _ _ _ _

theorem stops_transaction (tx : List Byte) : StopsAtFailure (transaction tx) :=
  .bind stops_csAssert fun _ => .bind (stops_seg tx) fun _ => .bind stops_csDeassert fun _ => .pure _

theorem stops_memRead (a : RegAddr) : StopsAtFailure (memRead a) :=
  .bind .config fun _ => .bind (stops_transaction _) fun _ => .pure _

theorem stops_memWrite (a : RegAddr) (v : Half) : StopsAtFailure (memWrite a v) :=
  .bind .config fun _ => .bind (stops_transaction _) fun _ => .pure _

theorem stops_memReadByte (a : RegAddr) : StopsAtFailure (memReadByte a) :=
  .bind (stops_memRead a) fun _ => .pure _

theorem stops_writeTrxState (code : TrxCode) : StopsAtFailure (writeTrxState code) :=
  .bind .config fun _ => stops_memWrite _ _

theorem stops_pollLoop (place : SeqStep) (awaited : TrxCode) (n : Nat) :
    StopsAtFailure (pollLoop place awaited n) := by
  induction n with
  | zero => exact .suspend place
  | succ n ih =>
    refine .bind .config fun _ => .bind (stops_memReadByte _) fun _ =>
      .bind (.update fun _ => .of_same rfl rfl) fun _ => .bind .current fun _ => ?_
    split
    · exact .pure ()
    · split
      · exact .raise _
      · exact ih

theorem stops_waitState (place : SeqStep) (awaited : TrxCode) : StopsAtFailure (waitState place awaited) :=
  .bind (.update fun _ => .of_same rfl rfl) fun _ => .bind .current fun _ => stops_pollLoop _ _ _

theorem stops_statePhase (call : StateCall) (phase : Phase) (cmd : TrxCmd) :
    StopsAtFailure (statePhase call phase cmd) :=
  .bind .config fun _ => .bind (stops_writeTrxState _) fun _ => stops_waitState _ _

theorem stops_targetPhase (call : StateCall) : StopsAtFailure (targetPhase call) :=
  .bind .config fun _ => by
    split
    · exact .pure ()
    · exact stops_statePhase _ _ _

theorem stops_setTrxState (call : StateCall) : StopsAtFailure (setTrxState call) :=
  .bind (stops_statePhase _ _ _) fun _ => stops_targetPhase call

theorem stops_frameBufferWrite (f : List Byte) : StopsAtFailure (frameBufferWrite f) :=
  .bind (.update fun _ => .of_same rfl rfl) fun _ => .bind .config fun _ =>
    .bind (stops_transaction _) fun _ => .pure ()

theorem stops_transmitStart : StopsAtFailure transmitStart :=
  .bind .config fun _ => stops_writeTrxState _

theorem stops_frameWriteSeq (f : List Byte) : StopsAtFailure (frameWriteSeq f) :=
  .bind (stops_frameBufferWrite f) fun _ => stops_transmitStart

theorem stops_frameRead : StopsAtFailure frameRead := by
  refine .bind stops_csAssert fun _ => .bind .config fun _ => .bind (stops_seg _) fun _ => ?_
  dsimp only
  split
  · exact .bind stops_csDeassert fun _ => .raise _
  · exact .bind (stops_seg _) fun _ => .bind stops_csDeassert fun _ =>
      .bind (.update fun _ => .of_same rfl rfl) fun _ => .pure _

/-! ### What follows a state change, and the pieces that handle a raise -/

theorem stops_commit (st : OpState) : StopsAtFailure (commit st) := .update fun _ => .of_same rfl rfl

theorem stops_emit (e : Event) : StopsAtFailure (emit e) := .update fun _ => .of_same rfl rfl

/-- `DataConfirm(Error)` is emitted between a raise and the raise again (R174). -/
theorem stops_confirmOnError {α : Type} {m : Seq α} (hm : StopsAtFailure m) : StopsAtFailure (confirmOnError m) :=
  .attempt_bind hm .pure fun _ => .inl fun s => ⟨{ s with evq := s.evq ++ [.dataConfirm .error] }, rfl, rfl, rfl⟩

theorem stops_requestArmed (data : List Byte) : StopsAtFailure (requestArmed data) := by
  have hsend : StopsAtFailure (requestSend data) := .bind (stops_frameWriteSeq data) fun _ => stops_commit _
  refine .bind .config fun c => .bind (stops_memReadByte _) fun _ => ?_
  split
  · exact .bind (stops_setTrxState _) fun _ => hsend
  · exact hsend

/-- Of the raises of a frame read only `FrameInvalid`, after a whole transaction, lets the bus go on (R180). -/
theorem stops_receivePath : StopsAtFailure receivePath := by
  refine .attempt_bind stops_frameRead (fun f => ?_) fun e => ?_
  · exact .bind .config fun _ => .bind (stops_memReadByte _) fun _ => .bind .current fun _ =>
      .bind (stops_emit _) fun _ => stops_setTrxState _
  · cases e with
    | frameInvalid l => exact .inr ⟨by simp [Err.code], .bind (stops_setTrxState _) fun _ => .raise _⟩
    | _ => exact .inl (reraises_raise _)

theorem stops_transmitDonePath : StopsAtFailure transmitDonePath :=
  .bind .config fun _ => .bind (stops_memReadByte _) fun _ => .bind (stops_commit _) fun _ =>
    .bind (stops_emit _) fun _ => stops_setTrxState _

theorem stops_completionPath (st : OpState) : StopsAtFailure (completionPath st) := by
  cases st with
  | initial => exact .pure ()
  | idle => exact stops_receivePath
  | sleep => exact .pure ()
  | transmittingWaitEnd => exact stops_transmitDonePath

/-! ### Commands -/

/-- exec of i is a command whose checks leave the bus alone and whose pseudocode ends at a failed chunk. -/
def CommandStopsAtFailure (i : Instr) : Prop :=
  ∃ checks body, (∀ s, exec i s = command i checks body s) ∧ Checks checks ∧ StopsAtFailure body

theorem requireBytewiseState_checks (i : Instr) : Checks (do
    requireBytewise
    requireState i) :=
  requireBytewise_checks.bind (requireState_checks i)

theorem stops_sleep : CommandStopsAtFailure .sleep := by
  refine ⟨_, _, fun _ => rfl, requireBytewiseState_checks _, .bind .current fun s => ?_⟩
  split
  · exact .pure _
  · exact .bind (stops_setTrxState _) fun _ => (stops_commit _).returning

theorem stops_wakeup : CommandStopsAtFailure .wakeup :=
  ⟨_, _, fun _ => rfl, requireBytewiseState_checks _,
    .bind (stops_setTrxState _) fun _ => (stops_commit _).returning⟩

theorem stops_dataRequest (data : List Byte) : CommandStopsAtFailure (.dataRequest data) :=
  ⟨_, _, fun _ => rfl, requireBytewise_checks.bind ((requireState_checks _).bind (requireFrameFits_checks data)),
    (stops_confirmOnError (.bind (stops_setTrxState _) fun _ => stops_requestArmed data)).returning⟩

theorem stops_taskHandler : CommandStopsAtFailure .taskHandler := by
  refine ⟨_, _, fun _ => rfl, requireBytewiseState_checks _,
    .bind (.update fun _ => .of_same rfl rfl) fun _ => .bind .current fun s => ?_⟩
  split
  · exact .pure _
  · refine .bind (stops_memReadByte _) fun irq => ?_
    split
    · exact (stops_completionPath _).returning
    · exact .pure _

theorem stops_writeFrame (f : List Byte) : CommandStopsAtFailure (.writeFrame f) :=
  ⟨_, _, fun _ => rfl, requireBytewise_checks.bind (requireFrameFits_checks f),
    .bind (stops_setTrxState _) fun _ => (stops_frameWriteSeq f).returning⟩

theorem stops_registerRead (a : RegAddr) : StopsAtFailure (do
    let v ← memRead a
    let c ← config
    pure (hostValueBytes c v)) :=
  .bind (stops_memRead a) fun _ => .bind .config fun _ => .pure _

theorem stops_frameImage : StopsAtFailure (do
    let f ← frameRead
    pure f.image) :=
  .bind stops_frameRead fun _ => .pure _

/-- A `TRX_CMD` row: the profile check and one piece (log 12). -/
theorem stops_row {i : Instr} {m : Seq Unit} (hexec : ∀ s, exec i s = command i requireBytewise (do m; pure []) s)
    (hm : StopsAtFailure m) : CommandStopsAtFailure i :=
  ⟨_, _, hexec, requireBytewise_checks, hm.returning⟩

/-- Every instruction that makes no configuration write is such a command. -/
theorem commandStopsAtFailure_of_no_cfgWrite {i : Instr} (h : usesCfgWrite i = false) : CommandStopsAtFailure i := by
  cases i with
  | init | setChannel | setBand | setModulation | setPanId | setShortAddress | setTxPower => cases h
  | sleep => exact stops_sleep
  | wakeup => exact stops_wakeup
  | dataRequest data => exact stops_dataRequest data
  | taskHandler => exact stops_taskHandler
  | rssiBaseValue => exact ⟨_, _, fun _ => rfl, .pure, .bind .current fun _ => .pure _⟩
  | readRegister a => exact ⟨_, _, fun _ => rfl, requireArg_checks _ a, stops_registerRead _⟩
  | writeRegister a v => exact ⟨_, _, fun _ => rfl, requireArg_checks _ a, (stops_memWrite _ v).returning⟩
  | writeBytes data => exact ⟨_, _, fun _ => rfl, requireArg_checks _ _, (stops_transaction data).returning⟩
  | readBytes n => exact ⟨_, _, fun _ => rfl, requireArg_checks _ n, stops_transaction _⟩
  | writeFrame f => exact stops_writeFrame f
  | readFrame => exact ⟨_, _, fun _ => rfl, .pure, stops_frameImage⟩
  | spiRegRead a => exact ⟨_, _, fun _ => rfl, .pure, stops_registerRead a⟩
  | spiRegWrite a v => exact ⟨_, _, fun _ => rfl, .pure, (stops_memWrite a v).returning⟩
  | spiFbRead => exact ⟨_, _, fun _ => rfl, .pure, stops_frameImage⟩
  | spiFbWrite f => exact ⟨_, _, fun _ => rfl, requireFrameFits_checks f, (stops_frameBufferWrite f).returning⟩
  | txStart => exact stops_row (fun _ => rfl) stops_transmitStart
  | forceTrxOff => exact stops_row (fun _ => rfl) (stops_setTrxState _)
  | rxOn => exact stops_row (fun _ => rfl) (stops_setTrxState _)
  | pllOn => exact stops_row (fun _ => rfl) (stops_setTrxState _)
  | rxAackOn => exact stops_row (fun _ => rfl) (stops_setTrxState _)
  | txAretOn => exact stops_row (fun _ => rfl) (stops_setTrxState _)

/-! ### What the host sees -/

/-- From s to t no chunk failed, or one did: chip-select was released right after it, nothing further reached the bus,
and `TransferFailed` was delivered with no return bytes. -/
def FailedChunkIsLast (s t : State) : Prop :=
  ∃ es, t.trace = s.trace ++ es ∧
    ((∀ e ∈ es, notFailed e = true)
     ∨ ∃ before tx evs, es = before ++ [.chunk tx [] false, .cs .deasserted]
        ∧ (∀ e ∈ before, notFailed e = true)
        ∧ t.delivered = s.delivered ++ [{ result := 0x01#8, retdata := [], events := evs }])

theorem Unfailed.failedChunkIsLast {s t u : State} (h : Unfailed s t) (htrace : u.trace = t.trace) :
    FailedChunkIsLast s u := by
  obtain ⟨-, es, hes, hok⟩ := h
  exact ⟨es, htrace.trans hes, .inl hok⟩

theorem BrokenOff.failedChunkIsLast {s t : State} (h : BrokenOff s t) {e : Err} (he : e.code = 0x01#8) :
    FailedChunkIsLast s (complete e.code [] (some e) t) := by
  obtain ⟨hdelivered, before, tx, htrace, hok⟩ := h
  exact ⟨_, htrace, .inr ⟨before, tx, t.evq, rfl, hok, by simp [hdelivered, he]⟩⟩

theorem EndsAtFailure.finish {s : State} {r : EStateM.Result Abort State (List Byte)} (h : EndsAtFailure s r) :
    FailedChunkIsLast s (finish r) ∨ (finish r).busy = false ∧ (finish r).delivered = s.delivered := by
  cases r with
  | ok ret t => exact .inl (h.failedChunkIsLast rfl)
  | error e t =>
    cases e with
    | raised e => exact .inl (h.elim (·.failedChunkIsLast rfl) fun ⟨hbroken, he⟩ => hbroken.failedChunkIsLast he)
    | stopped => exact h.imp_left (·.failedChunkIsLast rfl)

theorem CommandStopsAtFailure.exec {i : Instr} (h : CommandStopsAtFailure i) {s t : State}
    (hexec : exec i s = .next t) : FailedChunkIsLast s t ∨ t.busy = false ∧ t.delivered = s.delivered := by
  obtain ⟨checks, body, hcommand, hchecks, hbody⟩ := h
  rw [hcommand] at hexec
  obtain hpass | ⟨e, hrefused⟩ := hchecks (take i s)
  · obtain rfl : Machine.finish (body (accept (take i s))) = t := by simpa [command_accepted hpass] using hexec
    exact (hbody (accept (take i s))).finish
  · obtain rfl : s.refused e [] = t := by simpa [command_refused hrefused] using hexec
    exact .inl ((Unfailed.of_same rfl rfl : Unfailed s s).failedChunkIsLast rfl)

/-- An uncut command that leaves the sequencer free was completed. -/
theorem exec_delivers {i : Instr} {s t : State} (hexec : exec i s = .next t) (hu : s.uncutUntil t)
    (hfree : t.busy = false) : t.delivered ≠ s.delivered := by
  cases hp : precheck s.cfg i s.opState with
  | none =>
    obtain ⟨t', n, hexec', hended⟩ := (exec_isCommand i).accepted hp
    obtain rfl : t = t' := by simpa [hexec] using hexec'
    obtain ⟨-, hcompleted⟩ := hended.events rfl rfl hu
    obtain ⟨x, hx, -⟩ := hcompleted hfree
    simp [hx]
  | some e =>
    obtain rfl : t = s.refused e [] := by simpa [hexec] using (exec_isCommand i).refused hp
    simp

/-- Settles O26: the pieces of a command without `CfgWrite` end at a failed chunk, and only SRC reset, which
`uncutUntil` excludes, ends a command with a free sequencer and nothing delivered. -/
theorem failedChunkEndsTheCommand : Obligations.FailedChunkEndsTheCommand := by
  unfold Obligations.FailedChunkEndsTheCommand
  intro i s t hi hexec hu
  obtain hlast | ⟨hfree, hundelivered⟩ := (commandStopsAtFailure_of_no_cfgWrite hi).exec hexec
  · exact hlast
  · exact absurd hundelivered (exec_delivers hexec hu hfree)

end Sys2Proof.Machine
end

section
/-! Waits that use up a finite `POLL_LIMIT` (R161), `SetTrxState` on a chip that does not respond (R160), and the
`TRX_CMD` rows run alone (log 12): each is the profile check and one piece, so that what the piece does decides the
whole next state. -/

namespace Sys2Proof.Machine

/-! ### A chip that does not respond -/

@[simp] theorem withPolls_cfg (s : State) (n : Nat) : (s.withPolls n).cfg = s.cfg := rfl

@[simp] theorem withPolls_pollCount (s : State) (n : Nat) : (s.withPolls n).pollCount = n := rfl

theorem waitState_run (place : SeqStep) (awaited : TrxCode) (s : State) :
    waitState place awaited s = pollLoop place awaited (pollBudget s) (s.withPolls 0) := rfl

theorem pollBudget_of_limit {s : State} {n : Nat} (h : s.cfg.pollLimit = some n) : pollBudget s = n := by
  simp [pollBudget, h]

/-- The last read of a bounded wait goes through and shows another state: the wait gives up with what it read (R161). -/
theorem pollLoop_last {s : State} (hb : s.cfg.profile.bytewise = true) (hx : 2 ≤ s.cfg.maxXfer)
    (h : s.goThrough 1) {place : SeqStep} {awaited : TrxCode} (hm : s.polled 0 ≠ awaited)
    (hl : s.cfg.pollLimit = some (s.pollCount + 1)) (n : Nat) :
    pollLoop place awaited (n + 1) s = .error (.raised (.chipUnresponsive awaited (s.polled 0)))
      ((s.afterBus 1 (s.exchanges 0 [regRead s.cfg s.cfg.map.trxStatus])).withPolls (s.pollCount + 1)) := by
  have hm' : ¬ statusField s.cfg (s.secondByte 0) = awaited := hm
  have hreached : pollLimitReached s.cfg (s.pollCount + 1) = true := by simp [pollLimitReached, hl]
  simp only [pollLoop, config_bind]
  rw [bind_ok (memReadByte_ok hb hx h s.cfg.map.trxStatus)]
  simp only [update_bind, current_bind, hm', if_false, afterBus_pollCount, hreached]
  rfl

/-- m + 1 reads of a bounded wait, which are the last it has, go through and show another state (R161). -/
theorem pollLoop_exhausted {s : State} (hb : s.cfg.profile.bytewise = true) (hx : 2 ≤ s.cfg.maxXfer)
    {place : SeqStep} {awaited : TrxCode} (m : Nat) (h : s.goThrough (m + 1))
    (hm : ∀ k, k < m + 1 → s.polled k ≠ awaited) (hl : s.cfg.pollLimit = some (s.pollCount + (m + 1))) :
    pollLoop place awaited (m + 1) s = .error (.raised (.chipUnresponsive awaited (s.polled m)))
      ((s.afterBus (m + 1) (s.exchanges 0 (List.replicate (m + 1) (regRead s.cfg s.cfg.map.trxStatus)))).withPolls
        (s.pollCount + (m + 1))) := by
  induction m generalizing s with
  | zero => exact pollLoop_last hb hx h (hm 0 (by omega)) hl 0
  | succ m ih =>
    have hnot : pollLimitReached s.cfg (s.pollCount + 1) = false := by simp [pollLimitReached, hl]
    rw [pollLoop_miss hb hx (goThrough_le h (by omega)) (hm 0 (by omega)) hnot]
    have hlater := later_withPolls (later_afterBus s 1 (s.exchanges 0 [regRead s.cfg s.cfg.map.trxStatus]))
      (s.pollCount + 1)
    have hrest := ih
      (s := (s.afterBus 1 (s.exchanges 0 [regRead s.cfg s.cfg.map.trxStatus])).withPolls (s.pollCount + 1))
      hb hx (hlater.goThrough (by rwa [Nat.add_comm])) (fun k hk => by rw [hlater.polled]; exact hm _ (by omega))
      (by rw [hlater.cfg, hl, withPolls_pollCount, Nat.add_comm (m + 1), ← Nat.add_assoc])
    rw [hlater.polled, hlater.exchanges, hlater.cfg, withPolls_afterBus, afterBus_afterBus,
      withPolls_withPolls] at hrest
    rw [hrest]
    simp [List.replicate_succ, State.exchanges, Nat.add_comm, Nat.add_left_comm]

/-- `WaitState` where all of its `POLL_LIMIT` reads go through and none shows the awaited state (R161). -/
theorem waitState_exhausted {s : State} (hb : s.cfg.profile.bytewise = true) (hx : 2 ≤ s.cfg.maxXfer)
    {n : Nat} (hl : s.cfg.pollLimit = some n) (hpos : n ≠ 0) (h : s.goThrough n) {awaited : TrxCode}
    (hm : ∀ k, k < n → s.polled k ≠ awaited) (place : SeqStep) :
    waitState place awaited s = .error (.raised (.chipUnresponsive awaited (s.polled (n - 1))))
      ((s.afterBus n (s.exchanges 0 (List.replicate n (regRead s.cfg s.cfg.map.trxStatus)))).withPolls n) := by
  obtain ⟨m, rfl⟩ := Nat.exists_eq_succ_of_ne_zero hpos
  have hlater : Later s (s.withPolls 0) 0 := ⟨rfl, rfl, rfl⟩
  have hloop := pollLoop_exhausted (s := s.withPolls 0) (place := place) hb hx m h hm
    (by rw [withPolls_cfg, hl, withPolls_pollCount, Nat.zero_add])
  rw [hlater.polled, hlater.exchanges, withPolls_afterBus, withPolls_withPolls] at hloop
  rw [waitState_run, pollBudget_of_limit hl, hloop]
  simp

/-- A phase of `SetTrxState` whose command goes through, and none of whose `POLL_LIMIT` reads shows the awaited state
(R160, R161). -/
theorem statePhase_exhausted {s : State} (hv : s.cfg.valid = true) (hb : s.cfg.profile.bytewise = true)
    {call : StateCall} {phase : Phase} {cmd : TrxCmd} {n : Nat} (hl : s.cfg.pollLimit = some n)
    (h : s.goThrough (1 + n)) (hm : ∀ k, k < n → s.polled (1 + k) ≠ awaitedIn s.cfg call phase) :
    statePhase call phase cmd s =
      .error (.raised (.chipUnresponsive (awaitedIn s.cfg call phase) (s.polled n)))
        ((s.afterBus (1 + n) (s.exchanges 0 (stateWrite s.cfg (cmdCode s.cfg cmd)
          :: List.replicate n (regRead s.cfg s.cfg.map.trxStatus)))).withPolls n) := by
  obtain ⟨-, hx, -, -, -, -, hp, -⟩ := valid_limits hv
  have hx2 : 2 ≤ s.cfg.maxXfer := by omega
  have hpos : n ≠ 0 := fun h0 => hp (by rw [hl, h0])
  have hwrite := writeTrxState_ok hb hx2 (goThrough_le h (by omega)) (cmdCode s.cfg cmd)
  have hlater := later_afterBus s 1 (s.transfer 0 [stateWrite s.cfg (cmdCode s.cfg cmd)])
  have hwait := waitState_exhausted (s := s.afterBus 1 (s.transfer 0 [stateWrite s.cfg (cmdCode s.cfg cmd)]))
    (awaited := awaitedIn s.cfg call phase) hb hx2 hl hpos (hlater.goThrough h)
    (fun k hk => by rw [hlater.polled]; exact hm k hk) (.waiting call phase)
  rw [hlater.polled, hlater.exchanges, hlater.cfg, afterBus_afterBus, Nat.add_sub_cancel' (by omega)] at hwait
  simp only [statePhase, config_bind]
  rw [bind_ok hwrite, hwait]
  rfl

/-- `SetTrxState` on a chip that never shows `TRX_OFF` (R160). -/
theorem setTrxState_neverOff {s : State} (hv : s.cfg.valid = true) (hb : s.cfg.profile.bytewise = true)
    (call : StateCall) {n : Nat} (h : s.neverOff 0 n) :
    setTrxState call s = .error (.raised (s.offError 0 n)) (s.afterNeverOff [] n) := by
  obtain ⟨hl, hgo, hm⟩ := h
  simp only [Nat.zero_add] at hgo hm
  have hphase := statePhase_exhausted hv hb (call := call) (phase := .forcedOff) (cmd := .forceTrxOff) hl hgo hm
  simp only [setTrxState]
  rw [bind_error hphase, State.offError, Nat.zero_add]
  rfl

/-- `SetTrxState` on a chip that is off at once and never shows the target state (R160). -/
theorem setTrxState_neverReaches {s : State} (hv : s.cfg.valid = true) (hb : s.cfg.profile.bytewise = true)
    {call : StateCall} {n : Nat} (h : s.neverReaches 0 (callCmd s.cfg call) n) :
    setTrxState call s = .error (.raised (s.reachError 0 (callCmd s.cfg call) n))
      (s.afterNeverReaches (callCmd s.cfg call) n) := by
  obtain ⟨hl, htarget, hgo, hoff, hm⟩ := h
  simp only [Nat.zero_add] at hgo hm
  have hforced := statePhase_ok hv hb (call := call) (phase := .forcedOff) (cmd := .forceTrxOff)
    (goThrough_le hgo (by omega)) hoff
  have hlater := later_withPolls (later_afterBus s 2 (s.exchanges 0
    [stateWrite s.cfg (cmdCode s.cfg .forceTrxOff), regRead s.cfg s.cfg.map.trxStatus])) 1
  have hphase := statePhase_exhausted (by rwa [hlater.cfg]) (by rwa [hlater.cfg]) (call := call) (phase := .target)
    (cmd := callCmd s.cfg call) (by rwa [hlater.cfg]) (hlater.goThrough (m := 1 + n) (by rwa [← Nat.add_assoc]))
    (fun k hk => by rw [hlater.polled, hlater.cfg, ← Nat.add_assoc]; exact hm k hk)
  rw [hlater.polled, hlater.exchanges, hlater.cfg, withPolls_afterBus, afterBus_afterBus, withPolls_withPolls,
    ← Nat.add_assoc] at hphase
  simp only [setTrxState]
  rw [bind_ok hforced]
  simp only [targetPhase, config_bind, hlater.cfg, htarget, if_false, hphase]
  simp [State.reachError, State.afterNeverReaches, State.withPolls, awaitedIn, reachExchanges, State.exchanges, cmdCode]

/-! ### The rows -/

section
variable {i : Instr} {m : Seq Unit} {s t : State}

/-- A row that passes its profile check, its piece ending. -/
theorem exec_row_ok (hexec : exec i s = command i requireBytewise (do m; pure []) s)
    (hb : s.cfg.profile.bytewise = true) (hm : m (accept (take i s)) = .ok () t) :
    exec i s = .next (complete okCode [] none t) := by
  rw [hexec, command_accepted (requireBytewise_ok (s := take i s) hb), bind_ok hm, pure_run, finish_ok]

/-- A row that passes its profile check, its piece raising an error. -/
theorem exec_row_raised {e : Err} (hexec : exec i s = command i requireBytewise (do m; pure []) s)
    (hb : s.cfg.profile.bytewise = true) (hm : m (accept (take i s)) = .error (.raised e) t) :
    exec i s = .next (complete e.code [] (some e) t) := by
  rw [hexec, command_accepted (requireBytewise_ok (s := take i s) hb), bind_error hm, finish_raised]

end

theorem trxExchanges_length (c : Config) (cmd : TrxCmd) :
    (trxExchanges c cmd).length = if cmd = .forceTrxOff then 2 else 4 := by
  unfold trxExchanges
  split <;> rfl

/-- i run alone is `SetTrxState` of cmd (log 12). -/
def IsStateRow (i : Instr) (cmd : TrxCmd) : Prop :=
  ∀ s, exec i s = command i requireBytewise (do setTrxState (.row cmd); pure []) s

theorem isStateRow_of_mem {i : Instr} {cmd : TrxCmd}
    (h : (i, cmd) ∈ [(Instr.forceTrxOff, TrxCmd.forceTrxOff), (.rxOn, .rxOn), (.pllOn, .pllOn),
      (.rxAackOn, .rxAackOn), (.txAretOn, .txAretOn)]) : IsStateRow i cmd := by
  simp only [List.mem_cons, List.not_mem_nil, or_false, Prod.mk.injEq] at h
  obtain ⟨rfl, rfl⟩ | ⟨rfl, rfl⟩ | ⟨rfl, rfl⟩ | ⟨rfl, rfl⟩ | ⟨rfl, rfl⟩ := h <;> exact fun _ => rfl

section
variable {i : Instr} {cmd : TrxCmd} {s : State} {n : Nat}

theorem IsStateRow.ok (h : IsStateRow i cmd) (hv : s.cfg.valid = true) (hb : s.cfg.profile.bytewise = true)
    (hgo : s.goThrough (if cmd = .forceTrxOff then 2 else 4)) (hm : s.pollsMatch 0 cmd) :
    exec i s = .next (State.answeredOk
      { s.afterBus (if cmd = .forceTrxOff then 2 else 4) (s.exchanges 0 (trxExchanges s.cfg cmd)) with
        pollCount := 1 } []) := by
  rw [← trxExchanges_length s.cfg cmd] at hgo ⊢
  have hset := setTrxState_ok (s := accept (take i s)) (call := .row cmd) hv hb hgo hm
  rw [(later_accepted i s).exchanges] at hset
  exact exec_row_ok (h s) hb hset

theorem IsStateRow.neverOff (h : IsStateRow i cmd) (hv : s.cfg.valid = true) (hb : s.cfg.profile.bytewise = true)
    (hn : s.neverOff 0 n) : exec i s = .next ((s.afterNeverOff [] n).answeredErr (s.offError 0 n)) := by
  have hset := setTrxState_neverOff (s := accept (take i s)) hv hb (.row cmd) hn
  rw [State.afterNeverOff, (later_accepted i s).exchanges] at hset
  exact exec_row_raised (h s) hb hset

theorem IsStateRow.neverReaches (h : IsStateRow i cmd) (hv : s.cfg.valid = true)
    (hb : s.cfg.profile.bytewise = true) (hn : s.neverReaches 0 cmd n) :
    exec i s = .next ((s.afterNeverReaches cmd n).answeredErr (s.reachError 0 cmd n)) := by
  have hset := setTrxState_neverReaches (s := accept (take i s)) (call := .row cmd) hv hb hn
  rw [State.afterNeverReaches, (later_accepted i s).exchanges] at hset
  exact exec_row_raised (h s) hb hset

end

/-- TX_START run alone is one register write (R142). -/
theorem exec_txStart_ok {s : State} (hv : s.cfg.valid = true) (hb : s.cfg.profile.bytewise = true)
    (hgo : s.goThrough 1) :
    exec .txStart s =
      .next ((s.afterBus 1 (s.transfer 0 [stateWrite s.cfg s.cfg.map.cmdTxStart])).answeredOk []) := by
  obtain ⟨-, hx, -⟩ := valid_limits hv
  have hwrite := writeTrxState_ok (s := accept (take .txStart s)) hb (le_trans (by decide) hx) hgo s.cfg.map.cmdTxStart
  rw [(later_accepted .txStart s).transfer] at hwrite
  exact exec_row_ok (m := transmitStart) rfl hb hwrite

/-- Settles O33: the five rows are `SetTrxState` of their command, whose two phases each match at once or use up
`POLL_LIMIT`; TX_START is its register write. -/
theorem stateCommandRowsForceOffFirst : Obligations.StateCommandRowsForceOffFirst := by
  unfold Obligations.StateCommandRowsForceOffFirst
  refine fun s hv hb => ⟨fun i cmd hi => ?_, fun i cmd n hi => ?_, exec_txStart_ok hv hb⟩
  · exact (isStateRow_of_mem hi).ok hv hb
  · exact ⟨(isStateRow_of_mem hi).neverOff hv hb, (isStateRow_of_mem hi).neverReaches hv hb⟩

end Sys2Proof.Machine
end

section
/-! The frame read (R145, R146): one transaction of two segments, the second as long as the length byte of the first
says; and what the host is told of the frame (R147). -/

namespace Sys2Proof.Machine

/-! ### Segments inside a transaction -/

/-- A segment whose chunks all go through. -/
theorem Inside.seg_ok {s t : State} {n : Nat} {ps : List (List Byte)} (h : Inside s t n ps) (tx : List Byte)
    (hgo : s.goThrough (n + (chunksOf s.cfg.maxXfer tx).length)) :
    ∃ u, Machine.seg tx t = .ok (s.received n (chunksOf s.cfg.maxXfer tx)) u
      ∧ Inside s u (n + (chunksOf s.cfg.maxXfer tx).length) (ps ++ chunksOf s.cfg.maxXfer tx) := by
  have hlater := h.later
  have hseg := Machine.seg_ok (s := t) tx (by rw [hlater.cfg]; exact hlater.goThrough hgo)
  rw [hlater.cfg, hlater.received, hlater.chunkEvents] at hseg
  refine ⟨_, hseg, by rw [h.count, List.length_append], hgo, ?_⟩
  rw [h.state, ran_ran, chunkEvents_append, h.count, Nat.zero_add]
  rfl

/-- A segment whose chunk after `sent` fails: the transaction is broken off there (R122). -/
theorem Inside.seg_failed {s t : State} {n : Nat} {ps : List (List Byte)} (h : Inside s t n ps) {tx : List Byte}
    {sent unsent : List (List Byte)} {p : List Byte} (hc : chunksOf s.cfg.maxXfer tx = sent ++ p :: unsent)
    (hgo : s.goThrough (n + sent.length)) (hfail : s.failsAt (n + sent.length)) :
    Machine.seg tx t = .error (.raised (.transferFailed sent.length sent.flatten.length))
      (s.afterBus (n + sent.length + 1) (s.brokenTransfer 0 (ps ++ sent) p)) := by
  have hlater := h.later
  have hsend := sendChunks_failed (s := t) sent p unsent 0 0 [] (hlater.goThrough hgo)
    (by simpa only [State.failsAt, hlater.drawAt] using hfail)
  rw [hlater.chunkEvents, h.state] at hsend
  simp only [Machine.seg, config_bind, hlater.cfg, hc]
  rw [h.state, hsend]
  simp only [ran_ran, Nat.zero_add]
  congr 1
  simp only [State.ran, edgeWithin_opened]
  simp [State.log, State.afterBus, State.brokenTransfer, chunkEvents_append, h.count, Nat.add_assoc]

/-! ### `FrameRead` -/

/-- `FrameRead` from its length byte l on (R145, R146). -/
def frameReadRest (c : Config) (l : Byte) : Seq RxFrame :=
  if c.maxPhr < l.toNat then do
    csDeassert
    raise (.frameInvalid l)
  else do
    let body ← seg (zeros (l.toNat + 1))
    csDeassert
    let f : RxFrame := { len := l, body := body }
    update fun s => { s with rxbuf := s.rxbuf.writeRange 0 f.image }
    pure f

section
variable {s : State}

theorem csAssert_uncut (h : (s.drawAt 0).cut = none) :
    csAssert s = .ok () ({ s with cs := .asserted }.log (.cs .asserted)) := by
  simp [csAssert, h]

/-- Chip-select is asserted, and the header follows. -/
theorem frameRead_opened (h : (s.drawAt 0).cut = none) :
    ∃ t, Inside s t 0 [] ∧ frameRead s = (do
      let hdr ← seg [s.cfg.profile.fbReadCmd, 0x00#8]
      frameReadRest s.cfg (byteAt hdr 1)) t := by
  refine ⟨_, ⟨rfl, fun _ hk => absurd hk (Nat.not_lt_zero _), rfl⟩, ?_⟩
  rw [frameRead, bind_ok (csAssert_uncut h)]
  simp [State.ran, State.log, State.chunkEvents, State.edgeWithin, frameReadRest]

theorem chunksOf_header {c : Config} (hx : 2 ≤ c.maxXfer) :
    chunksOf c.maxXfer [c.profile.fbReadCmd, 0x00#8] = [[c.profile.fbReadCmd, 0x00#8]] :=
  chunksOf_one (by simp) (by simpa using hx)

/-- The header goes through, and its second byte is the length byte. -/
theorem frameRead_header (hx : 2 ≤ s.cfg.maxXfer) (hgo : s.goThrough 1) :
    ∃ t, Inside s t 1 [[s.cfg.profile.fbReadCmd, 0x00#8]]
      ∧ frameRead s = frameReadRest s.cfg (s.secondByte 0) t := by
  obtain ⟨t, hopened, hread⟩ := frameRead_opened (hgo 0 (by omega)).2
  obtain ⟨u, hseg, hinside⟩ := hopened.seg_ok [s.cfg.profile.fbReadCmd, 0x00#8] (by rwa [chunksOf_header hx])
  rw [chunksOf_header hx] at hseg hinside
  refine ⟨u, hinside, ?_⟩
  rw [hread, bind_ok hseg]
  simp [State.received, byteAt_rxAt_one]

/-- The header chunk fails (R122). -/
theorem frameRead_header_failed (hx : 2 ≤ s.cfg.maxXfer) (hfail : s.failsAt 0) :
    frameRead s = .error (.raised (.transferFailed 0 0))
      (s.afterBus 1 (s.brokenTransfer 0 [] [s.cfg.profile.fbReadCmd, 0x00#8])) := by
  obtain ⟨t, hopened, hread⟩ := frameRead_opened hfail.2
  rw [hread]
  have hseg := hopened.seg_failed (sent := []) (chunksOf_header hx) (fun _ hk => absurd hk (Nat.not_lt_zero _)) hfail
  exact bind_error hseg

/-- The length byte is invalid: chip-select is released after the header (R146). -/
theorem frameRead_invalid (hx : 2 ≤ s.cfg.maxXfer) (hgo : s.goThrough 1)
    (hlen : s.cfg.maxPhr < (s.secondByte 0).toNat) :
    frameRead s = .error (.raised (.frameInvalid (s.secondByte 0)))
      (s.afterBus 1 (s.transfer 0 [[s.cfg.profile.fbReadCmd, 0x00#8]])) := by
  obtain ⟨t, hinside, hread⟩ := frameRead_header hx hgo
  rw [hread, frameReadRest, if_pos hlen, ← hinside.release]
  rfl

/-- A chunk of the second segment fails (R122). -/
theorem frameRead_body_failed (hx : 2 ≤ s.cfg.maxXfer) (hlen : (s.secondByte 0).toNat ≤ s.cfg.maxPhr)
    {sent unsent : List (List Byte)} {p : List Byte}
    (hc : chunksOf s.cfg.maxXfer (zeros ((s.secondByte 0).toNat + 1)) = sent ++ p :: unsent)
    (hgo : s.goThrough (1 + sent.length)) (hfail : s.failsAt (1 + sent.length)) :
    frameRead s = .error (.raised (.transferFailed sent.length sent.flatten.length))
      (s.afterBus (2 + sent.length) (s.brokenTransfer 0 ([s.cfg.profile.fbReadCmd, 0x00#8] :: sent) p)) := by
  obtain ⟨t, hinside, hread⟩ := frameRead_header hx (goThrough_le hgo (by omega))
  rw [hread, frameReadRest, if_neg (Nat.not_lt.2 hlen), bind_error (hinside.seg_failed hc hgo hfail),
    Nat.add_right_comm]
  rfl

end

/-! ### A command that is one frame read -/

/-- i makes no check and is one frame read, whose image it returns. -/
def IsFrameRead (i : Instr) : Prop :=
  ∀ s, exec i s = command i (pure ()) (do let f ← frameRead; pure f.image) s

section
variable {i : Instr} {s t : State}

theorem IsFrameRead.exec_raised {e : Err} (h : IsFrameRead i)
    (hread : frameRead (accept (take i s)) = .error (.raised e) t) :
    exec i s = .next (complete e.code [] (some e) t) := by
  rw [h, command_accepted (pure_run () _), bind_error hread, finish_raised]

theorem IsFrameRead.header_failed (h : IsFrameRead i) (hv : s.cfg.valid = true) (hfail : s.failsAt 0) :
    exec i s = .next ((s.afterBus 1 (s.brokenTransfer 0 [] [s.cfg.profile.fbReadCmd, 0x00#8])).answeredErr
      (.transferFailed 0 0)) := by
  obtain ⟨-, hx, -⟩ := valid_limits hv
  have hread := frameRead_header_failed (s := accept (take i s)) (le_trans (by decide) hx) hfail
  rw [(later_accepted i s).brokenTransfer] at hread
  exact h.exec_raised hread

theorem IsFrameRead.invalid (h : IsFrameRead i) (hv : s.cfg.valid = true) (hgo : s.goThrough 1)
    (hlen : s.cfg.maxPhr < (s.secondByte 0).toNat) :
    exec i s = .next ((s.afterBus 1 (s.transfer 0 [[s.cfg.profile.fbReadCmd, 0x00#8]])).answeredErr
      (.frameInvalid (s.secondByte 0))) := by
  obtain ⟨-, hx, -⟩ := valid_limits hv
  have hread := frameRead_invalid (s := accept (take i s)) (le_trans (by decide) hx) hgo hlen
  rw [(later_accepted i s).transfer] at hread
  exact h.exec_raised hread

variable {ps : List (List Byte)}

theorem IsFrameRead.ok (h : IsFrameRead i) (hv : s.cfg.valid = true) (hlen : (s.secondByte 0).toNat ≤ s.cfg.maxPhr)
    (hps : IsChunking s.cfg.maxXfer (List.replicate ((s.secondByte 0).toNat + 1) 0x00#8) ps)
    (hgo : s.goThrough (1 + ps.length)) :
    exec i s = .next (State.answeredOk
      { s.afterBus (1 + ps.length) (s.transfer 0 ([s.cfg.profile.fbReadCmd, 0x00#8] :: ps)) with
        rxbuf := s.rxbuf.writeRange 0 (s.secondByte 0 :: s.received 1 ps) }
      (s.secondByte 0 :: s.received 1 ps)) := by
  obtain ⟨-, hx, -⟩ := valid_limits hv
  obtain rfl := isChunking_unique hps
  have hread := frameRead_ok (s := accept (take i s)) (le_trans (by decide) hx) hlen hgo
  rw [(later_accepted i s).transfer, (later_accepted i s).received] at hread
  rw [h, command_accepted (pure_run () _), bind_ok hread, pure_run, finish_ok]
  rfl

theorem IsFrameRead.body_failed (h : IsFrameRead i) (hv : s.cfg.valid = true)
    (hlen : (s.secondByte 0).toNat ≤ s.cfg.maxPhr) {sent unsent : List (List Byte)} {p : List Byte}
    (hps : IsChunking s.cfg.maxXfer (List.replicate ((s.secondByte 0).toNat + 1) 0x00#8) (sent ++ p :: unsent))
    (hgo : s.goThrough (1 + sent.length)) (hfail : s.failsAt (1 + sent.length)) :
    exec i s = .next ((s.afterBus (2 + sent.length)
        (s.brokenTransfer 0 ([s.cfg.profile.fbReadCmd, 0x00#8] :: sent) p)).answeredErr
      (.transferFailed sent.length (sent.length * s.cfg.maxXfer))) := by
  obtain ⟨-, hx, -⟩ := valid_limits hv
  have hread := frameRead_body_failed (s := accept (take i s)) (le_trans (by decide) hx) hlen
    (isChunking_unique hps).symm hgo hfail
  rw [(later_accepted i s).brokenTransfer, hps.sent_length] at hread
  exact h.exec_raised hread

end

theorem readFrame_isFrameRead : IsFrameRead .readFrame := fun _ => rfl

/-- Settles O28: READ_FRAME is one frame read, and what its two segments do decides the case. -/
theorem readFrameTakesTheLengthFirst : Obligations.ReadFrameTakesTheLengthFirst := by
  unfold Obligations.ReadFrameTakesTheLengthFirst
  have h := readFrame_isFrameRead
  refine fun s hv => ⟨h.header_failed hv, h.invalid hv, fun ps hlen hps => ⟨h.ok hv hlen hps, ?_⟩⟩
  exact fun sent p unsent hsplit => h.body_failed hv hlen (hsplit ▸ hps)

/-! ### The indication (R147) -/

/-- The byte after the frame bytes of a read frame is its last one, the LQI. -/
theorem byteAt_image_lqi {len : Byte} {frame : List Byte} (h : frame.length = len.toNat) (lqi : Byte) :
    byteAt (RxFrame.image { len := len, body := frame ++ [lqi] }) (len.toNat + 1) = lqi := by
  simp [byteAt, RxFrame.image, ← h]

/-- Settles O45: `size` is at most L, so `buffer` holds frame bytes only. -/
theorem indicationOfAReceivedFrame : Obligations.IndicationOfAReceivedFrame := by
  unfold Obligations.IndicationOfAReceivedFrame
  intro c len ed modulation frame lqi hlen
  rw [indicationOf, byteAt_image_lqi hlen]
  have hbuffer : ∀ n, n ≤ len.toNat → (frame ++ [lqi]).take n = frame.take n := fun n hn =>
    List.take_append_of_le_length (hlen ▸ hn)
  cases hfcs : c.rxSizeExcludesFcs with
  | true => simp [rxSize, hfcs, RxFrame.image, hbuffer]
  | false => simp [rxSize, hfcs, RxFrame.image, hbuffer, ← hlen]

end Sys2Proof.Machine
end

section
/-! Triples: what holds after a piece of pseudocode, by how it ended, where P held before it. They compose along the
pseudocode, so that a property of a command is assembled from one of each of its pieces. -/

namespace Sys2Proof.Machine

section
variable {α β : Type}

/-- What holds of a piece's answer: Q where it ended, E where it raised, S where it was stopped. -/
def Post (Q : α → State → Prop) (E : Err → State → Prop) (S : State → Prop) :
    EStateM.Result Abort State α → Prop
  | .ok a t => Q a t
  | .error (.raised e) t => E e t
  | .error .stopped t => S t

/-- What holds of a command's pseudocode decides what holds of what the command leaves. -/
theorem Post.finished {Q : List Byte → State → Prop} {E : Err → State → Prop} {S G : State → Prop}
    {r : EStateM.Result Abort State (List Byte)} (h : Post Q E S r)
    (hQ : ∀ ret t, Q ret t → G (complete okCode ret none t))
    (hE : ∀ e t, E e t → G (complete e.code [] (some e) t)) (hS : ∀ t, S t → G t) : G (finish r) := by
  cases r with
  | ok ret t => exact hQ ret t h
  | error e t =>
    cases e with
    | raised e => exact hE e t h
    | stopped => exact hS t h

/-- From every state where P holds, m answers so. -/
def Triple (P : State → Prop) (m : Seq α) (Q : α → State → Prop) (E : Err → State → Prop) (S : State → Prop) :
    Prop :=
  ∀ s, P s → Post Q E S (m s)

variable {P P' : State → Prop} {Q Q' : α → State → Prop} {R : β → State → Prop} {E E' : Err → State → Prop}
  {S S' : State → Prop} {m : Seq α}

theorem Post.mono {r : EStateM.Result Abort State α} (h : Post Q E S r) (hQ : ∀ a t, Q a t → Q' a t)
    (hE : ∀ e t, E e t → E' e t) (hS : ∀ t, S t → S' t) : Post Q' E' S' r := by
  cases r with
  | ok a t => exact hQ a t h
  | error e t =>
    cases e with
    | raised e => exact hE e t h
    | stopped => exact hS t h

theorem Post.and {r : EStateM.Result Abort State α} (h : Post Q E S r) (h' : Post Q' E' S' r) :
    Post (fun a t => Q a t ∧ Q' a t) (fun e t => E e t ∧ E' e t) (fun t => S t ∧ S' t) r := by
  cases r with
  | ok a t => exact ⟨h, h'⟩
  | error e t => cases e <;> exact ⟨h, h'⟩

theorem Triple.mono (h : Triple P m Q E S) (hP : ∀ s, P' s → P s) (hQ : ∀ a t, Q a t → Q' a t)
    (hE : ∀ e t, E e t → E' e t) (hS : ∀ t, S t → S' t) : Triple P' m Q' E' S' :=
  fun s hs => (h s (hP s hs)).mono hQ hE hS

theorem Triple.pre (h : Triple P m Q E S) (hP : ∀ s, P' s → P s) : Triple P' m Q E S :=
  fun s hs => h s (hP s hs)

theorem Triple.and (h : Triple P m Q E S) (h' : Triple P' m Q' E' S') :
    Triple (fun s => P s ∧ P' s) m (fun a t => Q a t ∧ Q' a t) (fun e t => E e t ∧ E' e t)
      (fun t => S t ∧ S' t) :=
  fun s hs => (h s hs.1).and (h' s hs.2)

theorem Triple.pure {a : α} (h : ∀ s, P s → Q a s) : Triple P (Pure.pure a) Q E S := h

theorem Triple.raise {e : Err} (h : ∀ s, P s → E e s) : Triple P (raise e) Q E S := h

theorem Triple.update {g : State → State} {Q : Unit → State → Prop} (h : ∀ s, P s → Q () (g s)) :
    Triple P (update g) Q E S := h

theorem Triple.bind {f : α → Seq β} (hm : Triple P m Q E S) (hf : ∀ a, Triple (Q a) (f a) R E S) :
    Triple P (m >>= f) R E S := fun s hs => by
  have h := hm s hs
  rw [bind_run]
  cases hms : m s with
  | ok a t => rw [hms] at h; exact hf a t h
  | error e t => rw [hms] at h; cases e <;> exact h

theorem Triple.current_bind {f : State → Seq β} (h : ∀ s, P s → Triple P (f s) R E S) :
    Triple P (current >>= f) R E S := fun s hs => h s hs s hs

theorem Triple.config_bind {f : Config → Seq β} {c : Config} (hc : ∀ s, P s → s.cfg = c)
    (h : Triple P (f c) R E S) : Triple P (config >>= f) R E S := fun s hs => by
  rw [Machine.config_bind, hc s hs]
  exact h s hs

/-- A raise of m that is handled goes on from where E held. -/
theorem Triple.attempt_bind {f : Except Err α → Seq β} (hm : Triple P m Q E S)
    (hok : ∀ a, Triple (Q a) (f (.ok a)) R E' S) (herr : ∀ e, Triple (E e) (f (.error e)) R E' S) :
    Triple P (attempt m >>= f) R E' S := fun s hs => by
  have h := hm s hs
  cases hms : m s with
  | ok a t => rw [hms] at h; rw [bind_ok (attempt_ok hms)]; exact hok a t h
  | error e t =>
    rw [hms] at h
    cases e with
    | raised e => rw [bind_ok (attempt_raised hms)]; exact herr e t h
    | stopped => rw [bind_error (attempt_stopped hms)]; exact h

/-- A raise of m emits `DataConfirm(Error)` and is raised again (R174). -/
theorem Triple.confirmOnError (h : Triple P m Q E S)
    (hE : ∀ e s, E e s → E' e { s with evq := s.evq ++ [.dataConfirm .error] }) :
    Triple P (confirmOnError m) Q E' S :=
  h.attempt_bind (fun _ => .pure fun _ => id) fun e =>
    .bind (.update (Q := fun _ => E' e) (hE e)) fun _ => .raise fun _ => id

/-- What a piece leaves where it ends is also what a lemma about that case says. -/
theorem Triple.and_ok (h : Triple P m Q E S) (hok : ∀ s a t, P s → m s = .ok a t → Q' a t) :
    Triple P m (fun a t => Q a t ∧ Q' a t) E S := fun s hs => by
  have hpost := h s hs
  cases hms : m s with
  | ok a t => rw [hms] at hpost; exact ⟨hpost, hok s a t hs hms⟩
  | error e t => rw [hms] at hpost; cases e <;> exact hpost

end
end Sys2Proof.Machine
end

section
/-! The bus events of a piece, watched as they are added to the trace: predicates on the events so far, and what the
chunk engine and the register accesses make of them whatever the chip answers. -/

namespace Sys2Proof.Machine

/-! ### Predicates on the events so far -/

/-- The event is no chunk that was sent whole. -/
def noChunk : BusEvent → Bool
  | .chunk _ _ _ => false
  | .cutChunk _ => true
  | .cs _ => true
  | .rst _ => true

/-- Events that are no chunk leave U as it is. -/
def Steady (U : List BusEvent → Prop) : Prop := ∀ es e, noChunk e = true → U es → U (es ++ [e])

theorem Steady.append {U : List BusEvent → Prop} (h : Steady U) {es fs : List BusEvent} (hes : U es)
    (hfs : ∀ e ∈ fs, noChunk e = true) : U (es ++ fs) := by
  induction fs generalizing es with
  | nil => simpa using hes
  | cons e fs ih =>
    obtain ⟨he, hfs⟩ := List.forall_mem_cons.1 hfs
    simpa using ih (h es e he hes) hfs

/-- The chunk tx, in a transaction of its own and however answered, takes T to T'. -/
def Sends (T : List BusEvent → Prop) (tx : List Byte) (T' : List BusEvent → Prop) : Prop :=
  ∀ es rx ok, T es → T' (es ++ [.cs .asserted, .chunk tx rx ok])

theorem resetEdges_noChunk (s : State) : ∀ e ∈ resetEdges s, noChunk e = true := by
  intro e he
  unfold resetEdges at he
  rcases List.mem_append.1 he with h | h <;> split at h <;> simp_all [noChunk]

/-! ### States whose trace is watched -/

section
variable (c : Config) (tr : List BusEvent)

/-- The parameters are c, and T holds of the events since the trace was tr. -/
def On (T : List BusEvent → Prop) (s : State) : Prop := s.cfg = c ∧ ∃ es, s.trace = tr ++ es ∧ T es

/-- SRC reset freed the sequencer, and U holds of the events since the trace was tr. -/
def CutOn (U : List BusEvent → Prop) (t : State) : Prop := t.seq = none ∧ ∃ es, t.trace = tr ++ es ∧ U es

/-- A wait without a bound left the sequencer at this place, and T held there (R276). -/
def LeftOn (place : SeqStep) (T : List BusEvent → Prop) (t : State) : Prop :=
  ∃ u, On c tr T u ∧ t = { u with seq := u.seq.map fun p => { p with step := place } }

end

section
variable {c : Config} {tr : List BusEvent} {T T' U : List BusEvent → Prop} {s t : State}

theorem On.mono (h : On c tr T s) (hT : ∀ es, T es → T' es) : On c tr T' s := by
  obtain ⟨hc, es, htr, hes⟩ := h
  exact ⟨hc, es, htr, hT es hes⟩

theorem On.same (h : On c tr T s) (hc : t.cfg = s.cfg) (htr : t.trace = s.trace) : On c tr T t := by
  obtain ⟨hcfg, h⟩ := h
  exact ⟨hc.trans hcfg, htr ▸ h⟩

theorem On.append {fs : List BusEvent} (h : On c tr T s) (hc : t.cfg = s.cfg) (htr : t.trace = s.trace ++ fs)
    (hT : ∀ es, T es → T' (es ++ fs)) : On c tr T' t := by
  obtain ⟨hcfg, es, hes, h⟩ := h
  exact ⟨hc.trans hcfg, es ++ fs, by rw [htr, hes, List.append_assoc], hT es h⟩

theorem On.srcReset (h : On c tr U s) (hU : Steady U) : CutOn tr U (srcReset s) := by
  obtain ⟨-, es, hes, h⟩ := h
  exact ⟨rfl, es ++ resetEdges s, by simp [Machine.srcReset, hes], hU.append h (resetEdges_noChunk s)⟩

end

/-! ### The chunk engine -/

section
variable {c : Config} {tr : List BusEvent} {T T₁ T₂ U : List BusEvent → Prop} {E : Err → State → Prop}

theorem csAssert_on (hU : Steady U) (hTU : ∀ es, T es → U es) (hopen : ∀ es, T es → T₁ (es ++ [.cs .asserted])) :
    Triple (On c tr T) csAssert (fun _ => On c tr T₁) E (CutOn tr U) := fun s hs => by
  simp only [csAssert]
  split
  · exact ((hs.same (t := s.takeDraw) rfl rfl).mono hTU).srcReset hU
  · exact hs.append rfl rfl hopen

theorem csDeassert_on {S : State → Prop} (hclose : ∀ es, T es → T₁ (es ++ [.cs .deasserted])) :
    Triple (On c tr T) csDeassert (fun _ => On c tr T₁) E S :=
  .update fun _ hs => hs.append rfl rfl hclose

/-- One chunk, or the part of it that SRC reset left. -/
theorem xfer_on {p : List Byte} (hU : Steady U) (hTU : ∀ es, T es → U es) (hTU' : ∀ es, T₁ es → U es)
    (hchunk : ∀ es rx ok, T es → T₁ (es ++ [.chunk p rx ok])) :
    Triple (On c tr T) (xfer p) (fun _ => On c tr T₁) E (CutOn tr U) := fun s hs => by
  cases hcut : (s.drawAt 0).cut with
  | some k =>
    obtain ⟨hlater, -, -, -, -, htrace⟩ := cutAbout_facts s p k
    have hu : On c tr U (s.cutAbout p k) := hs.append hlater.cfg htrace fun es hes => by
      cases k with
      | afterChunk => exact hTU' _ (hchunk _ _ _ hes)
      | _ => exact hU.append (hTU _ hes) (by simp [State.cutEvents, noChunk])
    rw [show xfer p s = .error .stopped (srcReset (s.cutAbout p k)) by simp [xfer, hcut]]
    exact hu.srcReset hU
  | none =>
    rw [show xfer p s = .ok ((s.drawAt 0).ok, s.rxAt 0 p.length) (s.afterChunk p) by simp [xfer, hcut]]
    exact hs.append rfl rfl fun es hes => hchunk _ _ _ hes

/-- The loop of `Seg` from a chunk on: T₁ holds after the first chunk and stays. -/
theorem sendChunks_on {p : List Byte} {ps : List (List Byte)} (hU : Steady U) (hTU : ∀ es, T es → U es)
    (hTU' : ∀ es, T₁ es → U es) (hclose : ∀ es, T₁ es → T₂ (es ++ [.cs .deasserted]))
    (hfirst : ∀ es rx ok, T es → T₁ (es ++ [.chunk p rx ok]))
    (hrest : ∀ q ∈ ps, ∀ es rx ok, T₁ es → T₁ (es ++ [.chunk q rx ok])) (k i : Nat) (rx : List Byte) :
    Triple (On c tr T) (sendChunks (p :: ps) k i rx) (fun _ => On c tr T₁) (fun _ => On c tr T₂)
      (CutOn tr U) := by
  induction ps generalizing T p k i rx with
  | nil =>
    refine .bind (xfer_on hU hTU hTU' hfirst) fun answer => ?_
    split
    · exact .pure fun _ => id
    · exact .bind (csDeassert_on hclose) fun _ => .raise fun _ => id
  | cons q ps ih =>
    refine .bind (xfer_on hU hTU hTU' hfirst) fun answer => ?_
    split
    · exact ih hTU' (hrest q List.mem_cons_self) (fun q' hq' => hrest q' (List.mem_cons_of_mem _ hq')) _ _ _
    · exact .bind (csDeassert_on hclose) fun _ => .raise fun _ => id

/-- A segment whose first chunk is p. -/
theorem seg_on {tx p : List Byte} {ps : List (List Byte)} (hc : chunksOf c.maxXfer tx = p :: ps)
    (hU : Steady U) (hTU : ∀ es, T es → U es) (hTU' : ∀ es, T₁ es → U es)
    (hclose : ∀ es, T₁ es → T₂ (es ++ [.cs .deasserted]))
    (hfirst : ∀ es rx ok, T es → T₁ (es ++ [.chunk p rx ok]))
    (hrest : ∀ q ∈ ps, ∀ es rx ok, T₁ es → T₁ (es ++ [.chunk q rx ok])) :
    Triple (On c tr T) (seg tx) (fun _ => On c tr T₁) (fun _ => On c tr T₂) (CutOn tr U) :=
  .config_bind (fun _ hs => hs.1) (by
    rw [hc]
    exact sendChunks_on hU hTU hTU' hclose hfirst hrest _ _ _)

/-- A transaction of one chunk. -/
theorem exchange_on {tx : List Byte} (hone : chunksOf c.maxXfer tx = [tx]) (hU : Steady U) (hT₁ : Steady T₁)
    (hTU : ∀ es, T es → U es) (hTU' : ∀ es, T₁ es → U es) (hsend : Sends T tx T₁) :
    Triple (On c tr T) (transaction tx) (fun _ => On c tr T₁) (fun _ => On c tr T₁) (CutOn tr U) := by
  have hclose : ∀ es, T₁ es → T₁ (es ++ [.cs .deasserted]) := fun es => hT₁ es _ rfl
  refine .bind (csAssert_on hU hTU (T₁ := fun es => ∃ es', T es' ∧ es = es' ++ [.cs .asserted])
    fun es hes => ⟨es, hes, rfl⟩) fun _ => .bind (seg_on (T₁ := T₁) hone hU ?_ hTU' hclose ?_ (by simp)) fun _ =>
    .bind (csDeassert_on hclose) fun _ => .pure fun _ => id
  · rintro _ ⟨es, hes, rfl⟩
    exact hU _ _ rfl (hTU es hes)
  · rintro _ rx ok ⟨es, hes, rfl⟩
    rw [List.append_assoc]
    exact hsend es rx ok hes

end

end Sys2Proof.Machine
end

section
/-! Register accesses, waits, state changes and configuration writes with the bus events watched, and the register
accesses that fail. -/

namespace Sys2Proof.Machine

/-! ### One register access under an 8-bit profile -/

section
variable {s t : State}

theorem transaction_one_failed {tx : List Byte} (h1 : 1 ≤ tx.length) (h2 : tx.length ≤ s.cfg.maxXfer)
    (h : s.failsAt 0) :
    transaction tx s = .error (.raised (.transferFailed 0 0)) (s.afterBus 1 (s.brokenTransfer 0 [] tx)) :=
  transaction_failed (sent := []) (chunksOf_one h1 h2) (fun _ hk => absurd hk (Nat.not_lt_zero _)) h

/-- A transaction of one chunk ends only where the chunk went through. -/
theorem goThrough_of_transaction_ok {tx rx : List Byte} (h1 : 1 ≤ tx.length) (h2 : tx.length ≤ s.cfg.maxXfer)
    (h : transaction tx s = .ok rx t) : s.goThrough 1 := by
  obtain hgo | ⟨j, hj, hgo, hstop⟩ := first_stop s 1
  · exact hgo
  · obtain rfl : j = 0 := by omega
    obtain hfail | ⟨k, hcut⟩ := hstop
    · rw [transaction_one_failed h1 h2 hfail] at h
      cases h
    · obtain ⟨u, hu, -⟩ := transaction_cut (sent := []) (chunksOf_one h1 h2) hgo hcut
      rw [hu] at h
      cases h

variable (hb : s.cfg.profile.bytewise = true) (hx : 2 ≤ s.cfg.maxXfer)
include hb hx

theorem memReadByte_failed (h : s.failsAt 0) (a : RegAddr) :
    memReadByte a s = .error (.raised (.transferFailed 0 0))
      (s.afterBus 1 (s.brokenTransfer 0 [] (regRead s.cfg a))) := by
  have htr := transaction_one_failed (tx := regRead s.cfg a) (by simp [regRead]) (by simpa [regRead] using hx) h
  refine bind_error ?_
  rw [memRead, config_bind, readExchange_bytewise hb]
  exact bind_error htr

theorem memWriteByte_failed (h : s.failsAt 0) (a : RegAddr) (v : Byte) :
    memWriteByte a v s = .error (.raised (.transferFailed 0 0))
      (s.afterBus 1 (s.brokenTransfer 0 [] (regWrite s.cfg a v))) := by
  have htr := transaction_one_failed (tx := regWrite s.cfg a v) (by simp [regWrite])
    (by simpa [regWrite] using hx) h
  rw [memWriteByte, memWrite, config_bind, writeExchange_bytewise hb]
  exact bind_error htr

/-- A register read ends only where its chunk went through. -/
theorem goThrough_of_memReadByte_ok {a : RegAddr} {v : Byte} (h : memReadByte a s = .ok v t) : s.goThrough 1 := by
  cases htr : transaction (regRead s.cfg a) s with
  | ok rx u => exact goThrough_of_transaction_ok (by simp [regRead]) (by simpa [regRead] using hx) htr
  | error e u =>
    have herr : memReadByte a s = .error e u := by
      refine bind_error ?_
      rw [memRead, config_bind, readExchange_bytewise hb]
      exact bind_error htr
    rw [herr] at h
    cases h

/-- A register read that ends answers the second byte it received. -/
theorem memReadByte_eq_ok {a : RegAddr} {v : Byte} (h : memReadByte a s = .ok v t) :
    v = s.secondByte 0 ∧ t = s.afterBus 1 (s.transfer 0 [regRead s.cfg a]) := by
  rw [memReadByte_ok hb hx (goThrough_of_memReadByte_ok hb hx h)] at h
  cases h
  exact ⟨rfl, rfl⟩

end

theorem secondByte_received (s : State) : ∃ b, s.rxAt 0 2 = [b, s.secondByte 0] :=
  ⟨s.miso 0 0, rfl⟩

/-! ### The shared operations, watched -/

/-- T stays where no chunk is sent, and T implies U. -/
structure Within (U T : List BusEvent → Prop) : Prop where
  steady : Steady T
  le     : ∀ es, T es → U es

section
variable {c : Config} {tr : List BusEvent} {T T₁ T₂ T₃ U : List BusEvent → Prop}

theorem memRead_on {a : RegAddr} (hlen : (readExchange c a).length ≤ c.maxXfer) (hU : Steady U)
    (hT : Within U T) (hT₁ : Within U T₁) (hsend : Sends T (readExchange c a) T₁) :
    Triple (On c tr T) (memRead a) (fun _ => On c tr T₁) (fun _ => On c tr T₁) (CutOn tr U) :=
  .config_bind (fun _ hs => hs.1) <|
    .bind (exchange_on (chunksOf_one (List.length_pos_iff.2 (readExchange_ne_nil c a)) hlen) hU hT₁.steady hT.le
      hT₁.le hsend) fun _ => .pure fun _ => id

theorem memWrite_on {a : RegAddr} {v : Half} (hlen : (writeExchange c a v).length ≤ c.maxXfer) (hU : Steady U)
    (hT : Within U T) (hT₁ : Within U T₁) (hsend : Sends T (writeExchange c a v) T₁) :
    Triple (On c tr T) (memWrite a v) (fun _ => On c tr T₁) (fun _ => On c tr T₁) (CutOn tr U) :=
  .config_bind (fun _ hs => hs.1) <|
    .bind (exchange_on (chunksOf_one (List.length_pos_iff.2 (writeExchange_ne_nil c a v)) hlen) hU hT₁.steady hT.le
      hT₁.le hsend) fun _ => .pure fun _ => id

variable (hb : c.profile.bytewise = true) (hx : 2 ≤ c.maxXfer)
include hb hx

theorem memReadByte_on {a : RegAddr} (hU : Steady U) (hT : Within U T) (hT₁ : Within U T₁)
    (hsend : Sends T (regRead c a) T₁) :
    Triple (On c tr T) (memReadByte a) (fun _ => On c tr T₁) (fun _ => On c tr T₁) (CutOn tr U) := by
  rw [← readExchange_bytewise hb] at hsend
  exact .bind (memRead_on (by simpa [readExchange_bytewise hb, regRead] using hx) hU hT hT₁ hsend)
    fun _ => .pure fun _ => id

theorem memWriteByte_on {a : RegAddr} {v : Byte} (hU : Steady U) (hT : Within U T) (hT₁ : Within U T₁)
    (hsend : Sends T (regWrite c a v) T₁) :
    Triple (On c tr T) (memWriteByte a v) (fun _ => On c tr T₁) (fun _ => On c tr T₁) (CutOn tr U) := by
  rw [← writeExchange_bytewise hb] at hsend
  exact memWrite_on (by simpa [writeExchange_bytewise hb, regWrite] using hx) hU hT hT₁ hsend

theorem writeTrxState_on {code : TrxCode} (hU : Steady U) (hT : Within U T) (hT₁ : Within U T₁)
    (hsend : Sends T (stateWrite c code) T₁) :
    Triple (On c tr T) (writeTrxState code) (fun _ => On c tr T₁) (fun _ => On c tr T₁) (CutOn tr U) :=
  .config_bind (fun _ hs => hs.1) (memWriteByte_on hb hx hU hT hT₁ hsend)

/-- A status read that goes through and shows this chip state takes T to T'. -/
def Shows (c : Config) (T : List BusEvent → Prop) (code : TrxCode) (T' : List BusEvent → Prop) : Prop :=
  ∀ es b r, T es → statusField c r = code →
    T' (es ++ [.cs .asserted, .chunk (regRead c c.map.trxStatus) [b, r] true, .cs .deasserted])

/-- The reads of a wait keep T, and the one that matches takes it to T₁ (R161). -/
theorem pollLoop_on {awaited : TrxCode} (place : SeqStep) (hU : Steady U) (hT : Within U T)
    (hread : Sends T (regRead c c.map.trxStatus) T) (hmatch : Shows c T awaited T₁) (n : Nat) :
    Triple (On c tr T) (pollLoop place awaited n) (fun _ => On c tr T₁) (fun _ => On c tr T)
      (fun t => LeftOn c tr place T t ∨ CutOn tr U t) := by
  induction n with
  | zero => exact fun s hs => .inl ⟨s, hs, rfl⟩
  | succ n ih =>
    refine .config_bind (fun _ hs => hs.1) ?_
    have hvalue : ∀ s v t, On c tr T s → memReadByte c.map.trxStatus s = .ok v t →
        statusField c v = awaited → On c tr T₁ t := by
      intro s v t hs hok hv
      obtain ⟨rfl, rfl⟩ := memReadByte_eq_ok (hs.1 ▸ hb) (hs.1 ▸ hx) hok
      refine hs.append rfl rfl fun es hes => ?_
      obtain ⟨b, hrx⟩ := secondByte_received s
      have htr : s.transfer 0 [regRead s.cfg c.map.trxStatus]
          = [.cs .asserted, .chunk (regRead c c.map.trxStatus) [b, s.secondByte 0] true, .cs .deasserted] := by
        rw [hs.1, ← hrx]
        rfl
      rw [htr]
      exact hmatch es b _ hes hv
    refine .bind (((memReadByte_on hb hx hU hT hT hread).and_ok hvalue).mono (fun _ => id) (fun _ _ => id)
      (fun _ _ => id) fun _ => .inr) fun v => ?_
    refine .bind (.update (Q := fun _ t => On c tr T t ∧ (statusField c v = awaited → On c tr T₁ t))
      fun s hs => ⟨hs.1.same rfl rfl, fun hv => (hs.2 hv).same rfl rfl⟩) fun _ => .current_bind fun s hs => ?_
    split
    · next hv => exact .pure fun _ ht => ht.2 hv
    · split
      · exact .raise fun _ ht => ht.1
      · exact ih.pre fun _ ht => ht.1

theorem waitState_on {awaited : TrxCode} (place : SeqStep) (hU : Steady U) (hT : Within U T)
    (hread : Sends T (regRead c c.map.trxStatus) T) (hmatch : Shows c T awaited T₁) :
    Triple (On c tr T) (waitState place awaited) (fun _ => On c tr T₁) (fun _ => On c tr T)
      (fun t => LeftOn c tr place T t ∨ CutOn tr U t) :=
  .bind (.update (Q := fun _ => On c tr T) fun _ hs => hs.same rfl rfl) fun _ =>
    .current_bind fun _ _ => pollLoop_on hb hx place hU hT hread hmatch _

/-- A phase of a state change: its command takes T to T₁, the reads keep T₁, and the one that matches takes it to
T₂ (R160). -/
theorem statePhase_on (call : StateCall) (phase : Phase) {cmd : TrxCmd} (hU : Steady U) (hT : Within U T)
    (hT₁ : Within U T₁) (hsend : Sends T (stateWrite c (cmdCode c cmd)) T₁)
    (hread : Sends T₁ (regRead c c.map.trxStatus) T₁) (hmatch : Shows c T₁ (awaitedIn c call phase) T₂) :
    Triple (On c tr T) (statePhase call phase cmd) (fun _ => On c tr T₂) (fun _ => On c tr T₁)
      (fun t => LeftOn c tr (.waiting call phase) T₁ t ∨ CutOn tr U t) :=
  .config_bind (fun _ hs => hs.1) <|
    .bind ((writeTrxState_on hb hx hU hT hT₁ hsend).mono (fun _ => id) (fun _ _ => id) (fun _ _ => id)
      fun _ => .inr) fun _ => waitState_on hb hx _ hU hT₁ hread hmatch

/-- A configuration write with n extra attempts left: each attempt takes `T k` to `T (k + 1)` (R218). -/
theorem cfgWriteLoop_on {T : Nat → List BusEvent → Prop} {a : RegAddr} {v : Byte} {m : Nat} (hU : Steady U)
    (hT : ∀ k ≤ m + 1, Within U (T k)) (hmono : Monotone T)
    (hsend : ∀ k ≤ m, Sends (T k) (regWrite c a v) (T (k + 1))) (n k : Nat) (hk : k + n ≤ m) :
    Triple (On c tr (T k)) (cfgWriteLoop a v n) (fun _ => On c tr (T (k + n + 1)))
      (fun _ => On c tr (T (k + n + 1))) (CutOn tr U) := by
  have hattempt := fun k (hk : k ≤ m) =>
    memWriteByte_on (tr := tr) hb hx hU (hT k (by omega)) (hT (k + 1) (by omega)) (hsend k hk)
  induction n generalizing k with
  | zero =>
    exact .attempt_bind (hattempt k hk) (fun _ => .pure fun _ => id) fun e =>
      .bind (.update (Q := fun _ => On c tr (T (k + 1))) fun _ hs => hs.same rfl rfl) fun _ => .raise fun _ => id
  | succ n ih =>
    refine .attempt_bind (hattempt k (by omega)) (fun _ => .pure fun _ hs => hs.mono (hmono (by omega))) fun e =>
      .bind (.update (Q := fun _ => On c tr (T (k + 1))) fun _ hs => hs.same rfl rfl) fun _ => ?_
    rw [show k + (n + 1) + 1 = k + 1 + n + 1 by omega]
    exact ih (k + 1) (by omega)

theorem cfgWrite_on {T : Nat → List BusEvent → Prop} {a : RegAddr} {v : Byte} (hU : Steady U)
    (hT : ∀ k ≤ c.cfgRetryMax + 1, Within U (T k)) (hmono : Monotone T)
    (hsend : ∀ k ≤ c.cfgRetryMax, Sends (T k) (regWrite c a v) (T (k + 1))) :
    Triple (On c tr (T 0)) (cfgWrite a v) (fun _ => On c tr (T (c.cfgRetryMax + 1)))
      (fun _ => On c tr (T (c.cfgRetryMax + 1))) (CutOn tr U) := by
  refine .bind (.update (Q := fun _ => On c tr (T 0)) fun _ hs => hs.same rfl rfl) fun _ =>
    .config_bind (fun _ hs => hs.1) ?_
  simpa only [Nat.zero_add] using cfgWriteLoop_on (tr := tr) hb hx hU hT hmono hsend c.cfgRetryMax 0 (by omega)

end

end Sys2Proof.Machine
end

section
/-! The forced-off rule (R162): every state command is issued by `SetTrxState`, whose first phase ends only where a
status read after the forced-off command showed `TRX_OFF`, or is the transmit start, or is a host's own write. -/

namespace Sys2Proof.Machine

/-! ### The scan of R162 as a predicate on the events so far -/

theorem scan_append (c : Config) (q : ScanState) (es fs : List BusEvent) :
    scan c q (es ++ fs) = (scan c q es).bind fun q' => scan c q' fs := by
  induction es generalizing q with
  | nil => rfl
  | cons e es ih =>
    simp only [List.cons_append, scan]
    cases scanEvent c q e with
    | none => rfl
    | some q' => exact ih q'

/-- The scan of the events from q₀ stands in a state where p holds. -/
def Scans (c : Config) (q₀ : ScanState) (p : ScanState → Prop) (es : List BusEvent) : Prop :=
  ∃ q, scan c q₀ es = some q ∧ p q

/-- The scan found no forbidden state command. -/
abbrev Allowed (c : Config) (q₀ : ScanState) : List BusEvent → Prop := Scans c q₀ fun _ => True

/-- The forced-off command was the last state command. -/
abbrev ForcedOff (c : Config) (q₀ : ScanState) : List BusEvent → Prop := Scans c q₀ fun q => q.forced = true

/-- A status read after the forced-off command showed `TRX_OFF`. -/
abbrev SeenOff (c : Config) (q₀ : ScanState) : List BusEvent → Prop := Scans c q₀ fun q => q.off = true

section
variable {c : Config} {q₀ : ScanState} {p p' : ScanState → Prop} {es : List BusEvent}

theorem Scans.mono (h : Scans c q₀ p es) (hp : ∀ q, p q → p' q) : Scans c q₀ p' es := by
  obtain ⟨q, hscan, hq⟩ := h
  exact ⟨q, hscan, hp q hq⟩

theorem Scans.append {fs : List BusEvent} (h : Scans c q₀ p es)
    (hfs : ∀ q, p q → ∃ q', scan c q fs = some q' ∧ p' q') : Scans c q₀ p' (es ++ fs) := by
  obtain ⟨q, hscan, hq⟩ := h
  obtain ⟨q', hscan', hq'⟩ := hfs q hq
  exact ⟨q', by rw [scan_append, hscan]; exact hscan', hq'⟩

theorem scan_noChunk {e : BusEvent} (he : noChunk e = true) (q : ScanState) :
    ∃ fresh, scan c q [e] = some { q with fresh := fresh } := by
  cases e with
  | chunk tx rx ok => cases he
  | cs level => cases level <;> exact ⟨_, rfl⟩
  | cutChunk sent => exact ⟨_, rfl⟩
  | rst level => exact ⟨_, rfl⟩

/-- Events that are no chunk change only whether a transaction is fresh. -/
theorem Scans.within (hp : ∀ q fresh, p q → p { q with fresh := fresh }) : Within (Allowed c q₀) (Scans c q₀ p) where
  steady es e he h := h.append fun q hq => by
    obtain ⟨fresh, hscan⟩ := scan_noChunk (c := c) he q
    exact ⟨_, hscan, hp q fresh hq⟩
  le es h := h.mono fun _ _ => trivial

theorem allowed_within : Within (Allowed c q₀) (Allowed c q₀) := Scans.within fun _ _ => id

theorem forcedOff_within : Within (Allowed c q₀) (ForcedOff c q₀) := Scans.within fun _ _ => id

theorem seenOff_within : Within (Allowed c q₀) (SeenOff c q₀) := Scans.within fun _ _ => id

/-- A transaction of one chunk is scanned by what it sends. -/
theorem Scans.sends {tx : List Byte}
    (h : ∀ q rx ok, p q → ∃ q', scanFirst c { q with fresh := true } tx rx ok = some q' ∧ p' q') :
    Sends (Scans c q₀ p) tx (Scans c q₀ p') := fun es rx ok hes =>
  hes.append fun q hq => by
    obtain ⟨q', hscan, hq'⟩ := h q rx ok hq
    exact ⟨q', by simp [scan, scanEvent, hscan], hq'⟩

/-! ### What the scan makes of a chunk -/

/-- The chunk is no write of `TRX_STATE`. -/
def Harmless (c : Config) (tx : List Byte) : Prop :=
  ∀ v, tx ≠ [c.profile.writeFlag ||| c.map.trxState.setWidth 8, v]

theorem scanFirst_harmless {tx : List Byte} (h : Harmless c tx) (q : ScanState) (rx : List Byte) (ok : Bool) :
    ∃ q', scanFirst c q tx rx ok = some q' ∧ q'.fresh = false ∧ q'.forced = q.forced
      ∧ (q.off = true → q'.off = true) := by
  unfold scanFirst
  split
  · next w v =>
    have hw : w ≠ c.profile.writeFlag ||| c.map.trxState.setWidth 8 := fun hw => h v (by rw [hw])
    simp only [hw, if_false]
    split
    · split
      · exact ⟨_, rfl, rfl, rfl, fun hoff => by simp [hoff]⟩
      · exact ⟨_, rfl, rfl, rfl, id⟩
    · exact ⟨_, rfl, rfl, rfl, id⟩
  · exact ⟨_, rfl, rfl, rfl, id⟩

theorem Harmless.allowed {tx : List Byte} (h : Harmless c tx) : Sends (Allowed c q₀) tx (Allowed c q₀) :=
  .sends fun q rx ok _ => by
    obtain ⟨q', hscan, -⟩ := scanFirst_harmless h { q with fresh := true } rx ok
    exact ⟨q', hscan, trivial⟩

theorem Harmless.forcedOff {tx : List Byte} (h : Harmless c tx) : Sends (ForcedOff c q₀) tx (ForcedOff c q₀) :=
  .sends fun q rx ok hq => by
    obtain ⟨q', hscan, -, hforced, -⟩ := scanFirst_harmless h { q with fresh := true } rx ok
    exact ⟨q', hscan, hforced.trans hq⟩

/-- The forced-off command is always allowed. -/
theorem sends_forceTrxOff :
    Sends (Allowed c q₀) (stateWrite c (cmdCode c .forceTrxOff)) (ForcedOff c q₀) :=
  .sends fun q rx ok _ => ⟨⟨false, true, false⟩, by simp [scanFirst, stateWrite, regWrite, cmdCode], rfl⟩

/-- TX_START is always allowed (R142). -/
theorem sends_txStart : Sends (Allowed c q₀) (stateWrite c c.map.cmdTxStart) (Allowed c q₀) :=
  .sends fun q rx ok _ => by
    simp only [scanFirst, stateWrite, regWrite, if_true, and_true]
    split <;> exact ⟨_, rfl⟩

/-- Any state command is allowed once the chip was seen off. -/
theorem sends_stateWrite (code : TrxCode) : Sends (SeenOff c q₀) (stateWrite c code) (Allowed c q₀) :=
  .sends fun q rx ok hq => by
    simp only [scanFirst, stateWrite, regWrite, if_true, and_true, hq]
    split
    · exact ⟨_, rfl⟩
    · split <;> exact ⟨_, rfl⟩

theorem regByte_inj {flag : Byte} (h : flag &&& 0x3F#8 = 0x00#8) {a b : RegAddr}
    (hab : flag ||| a.setWidth 8 = flag ||| b.setWidth 8) : a = b := by
  have hlow : a.setWidth 8 = b.setWidth 8 := by rw [← regByte_lowBits h a, hab, regByte_lowBits h b]
  calc a = (a.setWidth 8).setWidth 6 := by simp
    _ = (b.setWidth 8).setWidth 6 := by rw [hlow]
    _ = b := by simp

theorem harmless_of_head {b : Byte} (hb : ∀ a : RegAddr, b ≠ c.profile.writeFlag ||| a.setWidth 8) (bs : List Byte) :
    Harmless c (b :: bs) := fun _ h => hb _ (List.cons.inj h).1

section
variable (hv : c.valid = true)
include hv

theorem harmless_frameCmd {b : Byte} (hb : b ∈ [c.profile.fbReadCmd, c.profile.fbWriteCmd]) (bs : List Byte) :
    Harmless c (b :: bs) := by
  obtain ⟨⟨-, -, -, -, hframe⟩, -⟩ := (Config.valid_iff c).1 hv
  exact harmless_of_head (fun a => hframe a _ b (by simp) hb) bs

theorem harmless_regRead (a : RegAddr) (bs : List Byte) :
    Harmless c ((c.profile.readFlag ||| a.setWidth 8) :: bs) := by
  obtain ⟨⟨hr, hw, hne, -⟩, -⟩ := (Config.valid_iff c).1 hv
  refine harmless_of_head (fun b hab => hne ?_) bs
  rw [← regByte_highBits hr a, hab, regByte_highBits hw]

theorem harmless_regWrite {a : RegAddr} (ha : a ≠ c.map.trxState) (v : Byte) : Harmless c (regWrite c a v) := by
  obtain ⟨⟨-, hw, -⟩, -⟩ := (Config.valid_iff c).1 hv
  exact fun v' h => ha (regByte_inj hw (List.cons.inj h).1)

/-- A read exchange sends the read flag, or is too long for a write of `TRX_STATE`. -/
theorem harmless_readExchange (a : RegAddr) : Harmless c (readExchange c a) := by
  cases hc : c.profile.cmdBytes with
  | one =>
    simp only [readExchange, commandWord, hc]
    exact harmless_regRead hv a _
  | two =>
    intro v h
    have hlen := congrArg List.length h
    have hval : 1 ≤ c.profile.valBytes.num := by cases c.profile.valBytes <;> decide
    simp [readExchange, commandWord, hc, zeros] at hlen
    omega

/-- A status read that shows `TRX_OFF` after the forced-off command. -/
theorem shows_off : Shows c (ForcedOff c q₀) (statusOf c .forceTrxOff) (SeenOff c q₀) := fun es b r hes hr => by
  obtain ⟨⟨hrf, hwf, hne, -⟩, -⟩ := (Config.valid_iff c).1 hv
  have hw : c.profile.readFlag ||| c.map.trxStatus.setWidth 8 ≠ c.profile.writeFlag ||| c.map.trxState.setWidth 8 := by
    intro hab
    exact hne (by rw [← regByte_highBits hrf c.map.trxStatus, hab, regByte_highBits hwf])
  have hstatus : statusField c r = c.map.stTrxOff := hr
  refine hes.append fun q hq => ⟨{ q with fresh := false, off := true }, ?_, rfl⟩
  simp [scan, scanEvent, scanFirst, regRead, hw, hq, hstatus]

theorem shows_allowed (code : TrxCode) : Shows c (Allowed c q₀) code (Allowed c q₀) := fun es b r hes _ => by
  have hchunk := (harmless_regRead hv c.map.trxStatus [0x00#8]).allowed es [b, r] true hes
  simpa [regRead] using allowed_within.steady _ (.cs .deasserted) rfl hchunk

end

end

/-! ### Pieces that keep to the rule -/

section
variable (c : Config) (tr : List BusEvent) (q₀ : ScanState)

/-- Where a step leaves a command, or SRC reset cut it: the scan found nothing forbidden, and a wait of a forced-off
phase stands after the forced-off command. -/
def LeftAllowed (t : State) : Prop :=
  ∃ es q, t.trace = tr ++ es ∧ scan c q₀ es = some q
    ∧ ∀ j call, t.seq = some { cmd := j, step := .waiting call .forcedOff } → q.forced = true

/-- From any scan that found nothing forbidden, the piece adds nothing forbidden. -/
def KeepsRule {α : Type} (m : Seq α) : Prop :=
  Triple (On c tr (Allowed c q₀)) m (fun _ => On c tr (Allowed c q₀)) (fun _ => On c tr (Allowed c q₀))
    (LeftAllowed c tr q₀)

end

section
variable {c : Config} {tr : List BusEvent} {q₀ : ScanState} {α β : Type}

theorem CutOn.leftAllowed {t : State} (h : CutOn tr (Allowed c q₀) t) : LeftAllowed c tr q₀ t := by
  obtain ⟨hseq, es, htr, q, hscan, -⟩ := h
  exact ⟨es, q, htr, hscan, by simp [hseq]⟩

theorem LeftOn.leftAllowed {t : State} {call : StateCall} {phase : Phase} {p : ScanState → Prop}
    (h : LeftOn c tr (.waiting call phase) (Scans c q₀ p) t)
    (hp : phase = .forcedOff → ∀ q, p q → q.forced = true) : LeftAllowed c tr q₀ t := by
  obtain ⟨u, ⟨-, es, htr, q, hscan, hq⟩, rfl⟩ := h
  refine ⟨es, q, htr, hscan, fun j call' hseq => ?_⟩
  obtain ⟨pos, -, hpos⟩ := Option.map_eq_some_iff.1 hseq
  obtain ⟨-, hphase⟩ : call = call' ∧ phase = .forcedOff := by simpa using congrArg SeqPos.step hpos
  exact hp hphase q hq

theorem KeepsRule.bind {m : Seq α} {f : α → Seq β} (hm : KeepsRule c tr q₀ m)
    (hf : ∀ a, KeepsRule c tr q₀ (f a)) : KeepsRule c tr q₀ (m >>= f) :=
  Triple.bind hm hf

theorem KeepsRule.pure (a : α) : KeepsRule c tr q₀ (Pure.pure a) := Triple.pure fun _ => id

theorem KeepsRule.raise (e : Err) : KeepsRule c tr q₀ (raise e : Seq α) := Triple.raise fun _ => id

theorem KeepsRule.update {g : State → State} (hc : ∀ s, (g s).cfg = s.cfg) (ht : ∀ s, (g s).trace = s.trace) :
    KeepsRule c tr q₀ (update g) :=
  Triple.update fun s hs => hs.same (hc s) (ht s)

theorem KeepsRule.config_bind {f : Config → Seq β} (h : KeepsRule c tr q₀ (f c)) :
    KeepsRule c tr q₀ (config >>= f) :=
  Triple.config_bind (fun _ hs => hs.1) h

theorem KeepsRule.current_bind {f : State → Seq β} (h : ∀ s, s.cfg = c → KeepsRule c tr q₀ (f s)) :
    KeepsRule c tr q₀ (current >>= f) :=
  Triple.current_bind fun s hs => h s hs.1

theorem KeepsRule.attempt_bind {m : Seq α} {f : Except Err α → Seq β} (hm : KeepsRule c tr q₀ m)
    (hf : ∀ r, KeepsRule c tr q₀ (f r)) : KeepsRule c tr q₀ (attempt m >>= f) :=
  Triple.attempt_bind hm (fun a => hf (.ok a)) fun e => hf (.error e)

theorem KeepsRule.of_cut {m : Seq α} (h : Triple (On c tr (Allowed c q₀)) m (fun _ => On c tr (Allowed c q₀))
    (fun _ => On c tr (Allowed c q₀)) (CutOn tr (Allowed c q₀))) : KeepsRule c tr q₀ m :=
  h.mono (fun _ => id) (fun _ _ => id) (fun _ _ => id) fun _ => CutOn.leftAllowed

theorem KeepsRule.returning {m : Seq Unit} {ret : List Byte} (hm : KeepsRule c tr q₀ m) :
    KeepsRule c tr q₀ (do m; Pure.pure ret) :=
  hm.bind fun _ => .pure ret

theorem KeepsRule.confirmOnError {m : Seq α} (hm : KeepsRule c tr q₀ m) : KeepsRule c tr q₀ (confirmOnError m) :=
  Triple.confirmOnError hm fun _ _ hs => hs.same rfl rfl

section
variable (hv : c.valid = true)
include hv

/-- A register read exchange is one chunk, under every profile. -/
theorem keepsRule_memRead (a : RegAddr) : KeepsRule c tr q₀ (memRead a) := by
  obtain ⟨-, hx, -⟩ := valid_limits hv
  have hnum : ∀ b : ByteCount, b.num ≤ 2 := fun b => by cases b <;> decide
  refine .of_cut (memRead_on ?_ allowed_within.steady allowed_within allowed_within
    (harmless_readExchange hv a).allowed)
  have hcmd := hnum c.profile.cmdBytes
  have hval := hnum c.profile.valBytes
  rw [readExchange_length]
  omega

theorem keepsRule_memReadByte (a : RegAddr) : KeepsRule c tr q₀ (memReadByte a) :=
  (keepsRule_memRead hv a).bind fun _ => .pure _

/-! ### Frames: only the first chunk of a transaction is scanned -/

omit hv in
/-- A chunk that is not the first of its transaction is no state command. -/
theorem Scans.later_chunk (tx rx : List Byte) (ok : Bool) (es : List BusEvent)
    (h : Scans c q₀ (fun q => q.fresh = false) es) :
    Scans c q₀ (fun q => q.fresh = false) (es ++ [.chunk tx rx ok]) :=
  h.append fun q hq => ⟨q, by simp [scan, scanEvent, hq], hq⟩

/-- The scan after the first chunk of a frame transaction. -/
theorem Scans.frame_chunk {b : Byte} (hb : b ∈ [c.profile.fbReadCmd, c.profile.fbWriteCmd]) (bs rx : List Byte)
    (ok : Bool) (es : List BusEvent) (h : Scans c q₀ (fun q => q.fresh = true) es) :
    Scans c q₀ (fun q => q.fresh = false) (es ++ [.chunk (b :: bs) rx ok]) :=
  h.append fun q hq => by
    obtain ⟨q', hscan, hfresh, -⟩ := scanFirst_harmless (harmless_frameCmd hv hb bs) q rx ok
    exact ⟨q', by simp [scan, scanEvent, hq, hscan], hfresh⟩

omit hv in
theorem csAssert_fresh : Triple (On c tr (Allowed c q₀)) csAssert
    (fun _ => On c tr (Scans c q₀ fun q => q.fresh = true)) (fun _ => On c tr (Allowed c q₀))
    (CutOn tr (Allowed c q₀)) :=
  csAssert_on allowed_within.steady (fun _ => id) fun _ hes => hes.append fun _ _ => ⟨_, rfl, rfl⟩

omit hv in
theorem csDeassert_allowed {p : ScanState → Prop} {E : Err → State → Prop} {S : State → Prop} :
    Triple (On c tr (Scans c q₀ p)) csDeassert (fun _ => On c tr (Allowed c q₀)) E S :=
  csDeassert_on fun _ hes => hes.append fun _ _ => ⟨_, rfl, trivial⟩

/-- The segment that begins with a frame command. -/
theorem frameSeg_on {b : Byte} (hb : b ∈ [c.profile.fbReadCmd, c.profile.fbWriteCmd]) (bs : List Byte) :
    Triple (On c tr (Scans c q₀ fun q => q.fresh = true)) (seg (b :: bs))
      (fun _ => On c tr (Scans c q₀ fun q => q.fresh = false)) (fun _ => On c tr (Allowed c q₀))
      (CutOn tr (Allowed c q₀)) := by
  obtain ⟨-, hx, -⟩ := valid_limits hv
  obtain ⟨m, hm⟩ : ∃ m, c.maxXfer = m + 1 := ⟨c.maxXfer - 1, by omega⟩
  have hc : chunksOf c.maxXfer (b :: bs) = (b :: bs.take m) :: splitChunks (m + 1) bs.length (bs.drop m) := by
    simp [chunksOf, splitChunks, hm]
  exact seg_on hc allowed_within.steady (fun _ h => h.mono fun _ _ => trivial) (fun _ h => h.mono fun _ _ => trivial)
    (fun _ h => h.append fun q _ => ⟨_, rfl, trivial⟩) (fun es rx ok => Scans.frame_chunk hv hb _ rx ok es)
    fun q _ es rx ok => Scans.later_chunk q rx ok es

omit hv in
/-- A later segment of the transaction. -/
theorem laterSeg_on {tx : List Byte} (hne : tx ≠ []) :
    Triple (On c tr (Scans c q₀ fun q => q.fresh = false)) (seg tx)
      (fun _ => On c tr (Scans c q₀ fun q => q.fresh = false)) (fun _ => On c tr (Allowed c q₀))
      (CutOn tr (Allowed c q₀)) := by
  obtain ⟨p, ps, hc⟩ := List.exists_cons_of_ne_nil (chunksOf_ne_nil (m := c.maxXfer) hne)
  exact seg_on hc allowed_within.steady (fun _ h => h.mono fun _ _ => trivial) (fun _ h => h.mono fun _ _ => trivial)
    (fun _ h => h.append fun q _ => ⟨_, rfl, trivial⟩) (fun es rx ok => Scans.later_chunk p rx ok es)
    fun q _ es rx ok => Scans.later_chunk q rx ok es

theorem keepsRule_frameBufferWrite (f : List Byte) : KeepsRule c tr q₀ (frameBufferWrite f) :=
  .bind (.update (fun _ => rfl) fun _ => rfl) fun _ => .config_bind <|
    .bind (.of_cut <| .bind csAssert_fresh fun _ => .bind (frameSeg_on hv (by simp) _) fun _ =>
      .bind csDeassert_allowed fun _ => .pure fun _ => id) fun _ => .pure _

theorem keepsRule_frameRead : KeepsRule c tr q₀ frameRead := by
  refine .of_cut <| .bind csAssert_fresh fun _ => .config_bind (fun _ hs => hs.1) <|
    .bind (frameSeg_on hv (by simp) _) fun hdr => ?_
  dsimp only
  split
  · exact .bind csDeassert_allowed fun _ => .raise fun _ => id
  · exact .bind (laterSeg_on (by simp [zeros])) fun _ => .bind csDeassert_allowed fun _ =>
      .bind (.update (Q := fun _ => On c tr (Allowed c q₀)) fun _ hs => hs.same rfl rfl) fun _ => .pure fun _ => id

/-! ### State changes and configuration writes -/

variable (hb : c.profile.bytewise = true)
include hb

/-- The target phase, once the chip was seen off. -/
theorem targetPhase_on (call : StateCall) :
    Triple (On c tr (SeenOff c q₀)) (targetPhase call) (fun _ => On c tr (Allowed c q₀))
      (fun _ => On c tr (Allowed c q₀)) (LeftAllowed c tr q₀) := by
  obtain ⟨-, hx, -⟩ := valid_limits hv
  refine .config_bind (fun _ hs => hs.1) ?_
  split
  · exact .pure fun _ hs => hs.mono seenOff_within.le
  · refine (statePhase_on hb (by omega) call .target allowed_within.steady seenOff_within allowed_within
      (sends_stateWrite _) (harmless_regRead hv _ _).allowed (shows_allowed hv _)).mono (fun _ => id)
      (fun _ _ => id) (fun _ _ => id) ?_
    rintro t (hleft | hcut)
    · exact hleft.leftAllowed (by simp)
    · exact hcut.leftAllowed

/-- `SetTrxState` forces the chip off first, and sees it off before the target command (R160, R162). -/
theorem keepsRule_setTrxState (call : StateCall) : KeepsRule c tr q₀ (setTrxState call) := by
  obtain ⟨-, hx, -⟩ := valid_limits hv
  refine Triple.bind ((statePhase_on hb (by omega) call .forcedOff allowed_within.steady allowed_within forcedOff_within
    sends_forceTrxOff (harmless_regRead hv _ _).forcedOff (shows_off hv)).mono (fun _ => id) (fun _ _ => id)
    (fun _ _ hs => hs.mono forcedOff_within.le) ?_) fun _ => targetPhase_on hv hb call
  rintro t (hleft | hcut)
  · exact hleft.leftAllowed fun _ _ => id
  · exact hcut.leftAllowed

theorem keepsRule_cfgWrite {a : RegAddr} (ha : a ≠ c.map.trxState) (v : Byte) : KeepsRule c tr q₀ (cfgWrite a v) := by
  obtain ⟨-, hx, -⟩ := valid_limits hv
  exact .of_cut (cfgWrite_on (T := fun _ => Allowed c q₀) hb (by omega) allowed_within.steady
    (fun _ _ => allowed_within) monotone_const fun _ _ => (harmless_regWrite hv ha v).allowed)

theorem keepsRule_transmitStart : KeepsRule c tr q₀ transmitStart := by
  obtain ⟨-, hx, -⟩ := valid_limits hv
  exact .config_bind <| .of_cut (writeTrxState_on hb (by omega) allowed_within.steady allowed_within allowed_within
    sends_txStart)

theorem keepsRule_frameWriteSeq (f : List Byte) : KeepsRule c tr q₀ (frameWriteSeq f) :=
  .bind (keepsRule_frameBufferWrite hv f) fun _ => keepsRule_transmitStart hv hb

end
end
end Sys2Proof.Machine
end

section
/-! The forced-off rule over every instruction. -/

namespace Sys2Proof.Machine

/-- The registers that the configuration commands and INIT write. -/
def configRegs (m : ChipMap) : List RegAddr :=
  [m.trxCtrl1, m.phyTxPwr, m.phyCcCca, m.trxCtrl2, m.ccCtrl0, m.ccCtrl1, m.shortAddr0, m.shortAddr1, m.panId0,
    m.panId1, m.csmaSeed0]

theorem configRegs_ne_trxState {m : ChipMap} (h : m.addrsDistinct = true) : ∀ a ∈ configRegs m, a ≠ m.trxState := by
  simp only [ChipMap.addrsDistinct, decide_eq_true_eq, List.nodup_cons, List.mem_cons, not_or] at h
  simp only [configRegs, List.forall_mem_cons]
  obtain ⟨-, h, -⟩ := h
  simp [eq_comm, h]

section
variable {c : Config} {tr : List BusEvent} {q₀ : ScanState}

theorem keepsRule_driveRst (l : Level) : KeepsRule c tr q₀ (driveRst l) :=
  Triple.update fun _ hs => hs.append rfl rfl fun es => allowed_within.steady es _ rfl

theorem keepsRule_commit (st : OpState) : KeepsRule c tr q₀ (commit st) := .update (fun _ => rfl) fun _ => rfl

theorem keepsRule_emit (e : Event) : KeepsRule c tr q₀ (emit e) := .update (fun _ => rfl) fun _ => rfl

variable (hv : c.valid = true)
include hv

theorem keepsRule_registerRead (a : RegAddr) : KeepsRule c tr q₀ (do
    let v ← memRead a
    let c ← config
    pure (hostValueBytes c v)) :=
  (keepsRule_memRead hv a).bind fun _ => .config_bind (.pure _)

theorem keepsRule_frameImage : KeepsRule c tr q₀ (do
    let f ← frameRead
    pure f.image) :=
  (keepsRule_frameRead hv).bind fun _ => .pure _

variable (hb : c.profile.bytewise = true)
include hb

theorem keepsRule_requestSend (data : List Byte) : KeepsRule c tr q₀ (requestSend data) :=
  (keepsRule_frameWriteSeq hv hb data).bind fun _ => keepsRule_commit _

theorem keepsRule_requestArmed (data : List Byte) : KeepsRule c tr q₀ (requestArmed data) := by
  refine .config_bind ((keepsRule_memReadByte hv _).bind fun _ => ?_)
  split
  · exact (keepsRule_setTrxState hv hb _).bind fun _ => keepsRule_requestSend hv hb data
  · exact keepsRule_requestSend hv hb data

theorem keepsRule_receivePath : KeepsRule c tr q₀ receivePath :=
  (keepsRule_frameRead hv).attempt_bind fun r => by
    cases r with
    | ok f =>
      exact .config_bind <| (keepsRule_memReadByte hv _).bind fun _ => .current_bind fun _ _ =>
        (keepsRule_emit _).bind fun _ => keepsRule_setTrxState hv hb _
    | error e =>
      cases e with
      | frameInvalid l => exact (keepsRule_setTrxState hv hb _).bind fun _ => .raise _
      | _ => exact .raise _

theorem keepsRule_transmitDonePath : KeepsRule c tr q₀ transmitDonePath :=
  .config_bind <| (keepsRule_memReadByte hv _).bind fun _ => (keepsRule_commit _).bind fun _ =>
    (keepsRule_emit _).bind fun _ => keepsRule_setTrxState hv hb _

theorem keepsRule_completionPath (st : OpState) : KeepsRule c tr q₀ (completionPath st) := by
  cases st with
  | initial => exact .pure ()
  | idle => exact keepsRule_receivePath hv hb
  | sleep => exact .pure ()
  | transmittingWaitEnd => exact keepsRule_transmitDonePath hv hb

variable (hd : c.map.addrsDistinct = true)
include hd

theorem keepsRule_configReg {a : RegAddr} (ha : a ∈ configRegs c.map) (v : Byte) : KeepsRule c tr q₀ (cfgWrite a v) :=
  keepsRule_cfgWrite hv hb (configRegs_ne_trxState hd a ha) v

theorem keepsRule_writeChannelRegs : KeepsRule c tr q₀ writeChannelRegs :=
  .current_bind fun s hs => by
    subst hs
    split
    · exact keepsRule_configReg hv hb hd (by simp [configRegs]) _
    · exact keepsRule_configReg hv hb hd (by simp [configRegs]) _

theorem keepsRule_writeSeed : KeepsRule c tr q₀ writeSeed :=
  .current_bind fun s hs => by
    subst hs
    exact keepsRule_configReg hv hb hd (by simp [configRegs]) _

/-- The two bytes of an address, then the seed (R209, R212). -/
theorem keepsRule_addressWrites {a b : RegAddr} (ha : a ∈ configRegs c.map) (hb' : b ∈ configRegs c.map) (v w : Byte) :
    KeepsRule c tr q₀ (do
      cfgWrite a v
      cfgWrite b w
      writeSeed
      pure ([] : List Byte)) :=
  (keepsRule_configReg hv hb hd ha v).bind fun _ => (keepsRule_configReg hv hb hd hb' w).bind fun _ =>
    (keepsRule_writeSeed hv hb hd).returning

/-- A configuration command with one register write (R207, R214). -/
theorem keepsRule_cacheWrite {g : State → State} {reg : Config → RegAddr} {val : Config → Byte}
    (hc : ∀ s, (g s).cfg = s.cfg) (ht : ∀ s, (g s).trace = s.trace) (hreg : reg c ∈ configRegs c.map) :
    KeepsRule c tr q₀ (do
      update g
      let c ← config
      cfgWrite (reg c) (val c)
      pure ([] : List Byte)) :=
  .bind (.update hc ht) fun _ => .config_bind (keepsRule_configReg hv hb hd hreg _).returning

theorem keepsRule_initConfigure : KeepsRule c tr q₀ initConfigure :=
  .current_bind fun s hs => by
    subst hs
    exact (keepsRule_configReg hv hb hd (by simp [configRegs]) _).bind fun _ =>
      (keepsRule_configReg hv hb hd (by simp [configRegs]) _).bind fun _ =>
      .bind (.update (fun _ => rfl) fun _ => rfl) fun _ =>
      (keepsRule_configReg hv hb hd (by simp [configRegs]) _).bind fun _ =>
      (keepsRule_setTrxState hv hb _).bind fun _ => keepsRule_commit _

end

/-! ### Every instruction -/

/-- exec of i is a command whose checks leave the bus alone and whose pseudocode, where the profile is the one i needs,
keeps to the rule. -/
def CommandKeepsRule (c : Config) (i : Instr) : Prop :=
  ∃ checks body, (∀ s, exec i s = command i checks body s) ∧ Checks checks
    ∧ ((needsBytewise i = true → c.profile.bytewise = true) → ∀ tr q₀, KeepsRule c tr q₀ body)

section
variable {c : Config} (hv : c.valid = true) (hd : c.map.addrsDistinct = true)
include hv

theorem commandKeepsRule_sleep : CommandKeepsRule c .sleep :=
  ⟨_, _, fun _ => rfl, requireBytewiseState_checks _, fun hb _ _ => .current_bind fun s _ => by
    split
    · exact .pure _
    · exact (keepsRule_setTrxState hv (hb rfl) _).bind fun _ => (keepsRule_commit _).returning⟩

theorem commandKeepsRule_dataRequest (data : List Byte) : CommandKeepsRule c (.dataRequest data) :=
  ⟨_, _, fun _ => rfl, requireBytewise_checks.bind ((requireState_checks _).bind (requireFrameFits_checks data)),
    fun hb _ _ => (KeepsRule.confirmOnError <| (keepsRule_setTrxState hv (hb rfl) _).bind fun _ =>
      keepsRule_requestArmed hv (hb rfl) data).returning⟩

theorem commandKeepsRule_taskHandler : CommandKeepsRule c .taskHandler := by
  refine ⟨_, _, fun _ => rfl, requireBytewiseState_checks _, fun hb _ _ =>
    .bind (.update (fun _ => rfl) fun _ => rfl) fun _ => .current_bind fun s _ => ?_⟩
  split
  · exact .pure _
  · refine (keepsRule_memReadByte hv _).bind fun irq => ?_
    split
    · exact (keepsRule_completionPath hv (hb rfl) _).returning
    · exact .pure _

omit hv in
/-- A `TRX_CMD` row: the profile check and one piece (log 12). -/
theorem commandKeepsRule_row {i : Instr} {m : Seq Unit}
    (hexec : ∀ s, exec i s = command i requireBytewise (do m; pure []) s) (hneeds : needsBytewise i = true)
    (hm : c.profile.bytewise = true → ∀ tr q₀, KeepsRule c tr q₀ m) : CommandKeepsRule c i :=
  ⟨_, _, hexec, requireBytewise_checks, fun hb _ _ => (hm (hb hneeds) _ _).returning⟩

include hd

theorem commandKeepsRule (i : Instr) (hi : rawTransport i = false) : CommandKeepsRule c i := by
  have hrow : ∀ {j cmd}, (∀ s, exec j s = command j requireBytewise (do setTrxState (.row cmd); pure []) s) →
      needsBytewise j = true → CommandKeepsRule c j := fun hexec hneeds =>
    commandKeepsRule_row hexec hneeds fun hb _ _ => keepsRule_setTrxState hv hb _
  cases i with
  | writeRegister | writeBytes | readBytes | spiRegWrite => cases hi
  | init =>
    exact ⟨_, _, fun _ => rfl, requireBytewiseState_checks _, fun hb _ _ => (keepsRule_driveRst _).bind fun _ =>
      (keepsRule_driveRst _).bind fun _ => (keepsRule_setTrxState hv (hb rfl) _).bind fun _ =>
      (keepsRule_initConfigure hv (hb rfl) hd).returning⟩
  | sleep => exact commandKeepsRule_sleep hv
  | wakeup =>
    exact ⟨_, _, fun _ => rfl, requireBytewiseState_checks _, fun hb _ _ =>
      (keepsRule_setTrxState hv (hb rfl) _).bind fun _ => (keepsRule_commit _).returning⟩
  | dataRequest data => exact commandKeepsRule_dataRequest hv data
  | taskHandler => exact commandKeepsRule_taskHandler hv
  | setChannel ch =>
    exact ⟨_, _, fun _ => rfl, requireBytewiseState_checks _, fun hb _ _ =>
      .bind (.update (fun _ => rfl) fun _ => rfl) fun _ => (keepsRule_writeChannelRegs hv (hb rfl) hd).returning⟩
  | setBand b =>
    exact ⟨_, _, fun _ => rfl, requireBytewise_checks.bind ((requireArg_checks _ _).bind (requireState_checks _)),
      fun hb _ _ => .bind (.update (fun _ => rfl) fun _ => rfl) fun _ => .config_bind <|
        (keepsRule_configReg hv (hb rfl) hd (by simp [configRegs]) _).bind fun _ =>
        (keepsRule_writeChannelRegs hv (hb rfl) hd).returning⟩
  | setModulation m =>
    exact ⟨_, _, fun _ => rfl, requireBytewiseState_checks _, fun hb _ _ =>
      keepsRule_cacheWrite hv (hb rfl) hd (fun _ => rfl) (fun _ => rfl) (by simp [configRegs])⟩
  | setPanId p =>
    exact ⟨_, _, fun _ => rfl, requireBytewiseState_checks _, fun hb _ _ =>
      .bind (.update (fun _ => rfl) fun _ => rfl) fun _ => .config_bind <|
        keepsRule_addressWrites hv (hb rfl) hd (by simp [configRegs]) (by simp [configRegs]) _ _⟩
  | setShortAddress a =>
    exact ⟨_, _, fun _ => rfl, requireBytewiseState_checks _, fun hb _ _ =>
      .bind (.update (fun _ => rfl) fun _ => rfl) fun _ => .config_bind <|
        keepsRule_addressWrites hv (hb rfl) hd (by simp [configRegs]) (by simp [configRegs]) _ _⟩
  | setTxPower p =>
    exact ⟨_, _, fun _ => rfl, requireBytewiseState_checks _, fun hb _ _ =>
      keepsRule_cacheWrite hv (hb rfl) hd (fun _ => rfl) (fun _ => rfl) (by simp [configRegs])⟩
  | rssiBaseValue => exact ⟨_, _, fun _ => rfl, .pure, fun _ _ _ => .current_bind fun _ _ => .pure _⟩
  | readRegister a => exact ⟨_, _, fun _ => rfl, requireArg_checks _ a, fun _ _ _ => keepsRule_registerRead hv _⟩
  | writeFrame f =>
    exact ⟨_, _, fun _ => rfl, requireBytewise_checks.bind (requireFrameFits_checks f), fun hb _ _ =>
      (keepsRule_setTrxState hv (hb rfl) _).bind fun _ => (keepsRule_frameWriteSeq hv (hb rfl) f).returning⟩
  | readFrame => exact ⟨_, _, fun _ => rfl, .pure, fun _ _ _ => keepsRule_frameImage hv⟩
  | spiRegRead a => exact ⟨_, _, fun _ => rfl, .pure, fun _ _ _ => keepsRule_registerRead hv a⟩
  | spiFbRead => exact ⟨_, _, fun _ => rfl, .pure, fun _ _ _ => keepsRule_frameImage hv⟩
  | spiFbWrite f =>
    exact ⟨_, _, fun _ => rfl, requireFrameFits_checks f, fun _ _ _ => (keepsRule_frameBufferWrite hv f).returning⟩
  | txStart => exact commandKeepsRule_row (fun _ => rfl) rfl fun hb _ _ => keepsRule_transmitStart hv hb
  | forceTrxOff => exact hrow (fun _ => rfl) rfl
  | rxOn => exact hrow (fun _ => rfl) rfl
  | pllOn => exact hrow (fun _ => rfl) rfl
  | rxAackOn => exact hrow (fun _ => rfl) rfl
  | txAretOn => exact hrow (fun _ => rfl) rfl

/-! ### A command that goes on -/

variable (hb : c.profile.bytewise = true)
include hb

theorem keepsRule_afterCall (call : StateCall) (tr : List BusEvent) (q₀ : ScanState) :
    KeepsRule c tr q₀ (afterCall call) := by
  cases call with
  | initOff => exact keepsRule_initConfigure hv hb hd
  | initReceive => exact keepsRule_commit _
  | sleepOff => exact keepsRule_commit _
  | wakeupReceive => exact keepsRule_commit _
  | requestTransmit data => exact keepsRule_requestArmed hv hb data
  | requestPll data => exact keepsRule_requestSend hv hb data
  | writeFramePll frame => exact keepsRule_frameWriteSeq hv hb frame
  | received => exact .pure ()
  | receivedInvalid len => exact .raise _
  | transmitted => exact .pure ()
  | row cmd => exact .pure ()

/-- From the poll of a phase, the forced-off command having been the last one if it is the first phase. -/
theorem restOfCommand_on (call : StateCall) (phase : Phase) (tr : List BusEvent) (q₀ : ScanState) :
    Triple (On c tr (Scans c q₀ fun q => phase = .forcedOff → q.forced = true)) (restOfCommand call phase)
      (fun _ => On c tr (Allowed c q₀)) (fun _ => On c tr (Allowed c q₀)) (LeftAllowed c tr q₀) := by
  obtain ⟨-, hx, -⟩ := valid_limits hv
  refine .bind (Q := fun _ => On c tr (Allowed c q₀)) (.current_bind fun s hs => ?_)
    fun _ => keepsRule_afterCall hv hd hb call tr q₀
  rw [hs.1]
  cases phase with
  | forcedOff =>
    refine .bind ((pollLoop_on hb (by omega) _ allowed_within.steady forcedOff_within
      (harmless_regRead hv _ _).forcedOff (shows_off hv) _).mono
      (fun _ ht => ht.mono fun _ h => h.mono fun _ h => h rfl)
      (fun _ _ => id) (fun _ _ ht => ht.mono forcedOff_within.le) ?_) fun _ => targetPhase_on hv hb call
    rintro t (hleft | hcut)
    · exact hleft.leftAllowed fun _ _ => id
    · exact hcut.leftAllowed
  | target =>
    refine .bind ((pollLoop_on hb (by omega) _ allowed_within.steady allowed_within
      (harmless_regRead hv _ _).allowed (shows_allowed hv _) _).mono
      (fun _ ht => ht.mono fun _ h => h.mono fun _ _ => trivial)
      (fun _ _ => id) (fun _ _ => id) ?_) fun _ => .pure fun _ => id
    rintro t (hleft | hcut)
    · exact hleft.leftAllowed (by simp)
    · exact hcut.leftAllowed

theorem resume_on (call : StateCall) (phase : Phase) (tr : List BusEvent) (q₀ : ScanState) :
    Triple (On c tr (Scans c q₀ fun q => phase = .forcedOff → q.forced = true)) (resume call phase)
      (fun _ => On c tr (Allowed c q₀)) (fun _ => On c tr (Allowed c q₀)) (LeftAllowed c tr q₀) := by
  have hrest := restOfCommand_on hv hd hb call phase tr q₀
  have hconfirm := hrest.confirmOnError fun _ _ hs => hs.same rfl rfl
  cases call with
  | requestTransmit | requestPll => exact Triple.bind hconfirm fun _ => KeepsRule.pure []
  | _ => exact Triple.bind hrest fun _ => KeepsRule.pure []

end

/-- What a command that keeps to the rule leaves. -/
theorem Post.scanned {c : Config} {tr : List BusEvent} {q₀ : ScanState} {r : EStateM.Result Abort State (List Byte)}
    (h : Post (fun _ => On c tr (Allowed c q₀)) (fun _ => On c tr (Allowed c q₀)) (LeftAllowed c tr q₀) r) :
    LeftAllowed c tr q₀ (finish r) := by
  have hdone : ∀ code ret info u, On c tr (Allowed c q₀) u → LeftAllowed c tr q₀ (complete code ret info u) := by
    rintro code ret info u ⟨-, es, htr, q, hscan, -⟩
    exact ⟨es, q, htr, hscan, fun _ _ hseq => by cases hseq⟩
  exact h.finished (fun _ => hdone _ _ _) (fun _ => hdone _ _ _) fun _ => id

theorem on_nil {s : State} {q₀ : ScanState} {p : ScanState → Prop} (h : p q₀) :
    On s.cfg s.trace (Scans s.cfg q₀ p) s :=
  ⟨rfl, [], by simp, q₀, rfl, h⟩

theorem needsBytewise_of_precheck {c : Config} {i : Instr} {st : OpState} (h : precheck c i st = none)
    (hi : needsBytewise i = true) : c.profile.bytewise = true := by
  rw [precheck_eq_or, Option.or_eq_none_iff] at h
  simpa [profileError, hi] using h.1

/-- Settles O36: a scan of what an instruction, or a command that goes on, puts on the bus keeps to the rule piece by
piece. -/
theorem forcedOffPhaseIsNeverSkipped : Obligations.ForcedOffPhaseIsNeverSkipped := by
  unfold Obligations.ForcedOffPhaseIsNeverSkipped
  refine ⟨fun i s t hi hv hd hexec => ?_, fun s t i call phase hv hb hd hseq hexec => ?_⟩
  · cases hp : precheck s.cfg i s.opState with
    | some e =>
      obtain rfl : t = s.refused e [] := by simpa [hexec] using (exec_isCommand i).refused hp
      exact ⟨[], _, by simp, rfl, fun _ _ h => by cases h⟩
    | none =>
      obtain ⟨checks, body, hcommand, hchecks, hbody⟩ := commandKeepsRule hv hd i hi
      rw [hcommand] at hexec
      obtain hpass | ⟨e, hrefused⟩ := hchecks (take i s)
      · obtain rfl : finish (body (accept (take i s))) = t := by simpa [command_accepted hpass] using hexec
        exact (hbody (needsBytewise_of_precheck hp) s.trace _ (accept (take i s)) (on_nil trivial)).scanned
      · obtain rfl : s.refused e [] = t := by simpa [command_refused hrefused] using hexec
        exact ⟨[], _, by simp, rfl, fun _ _ h => by cases h⟩
  · obtain rfl : finish (resume call phase s) = t := by simpa [continueCommand, hseq] using hexec
    exact (resume_on hv hd hb call phase s.trace _ s (on_nil (by simp))).scanned

end Sys2Proof.Machine
end

section
/-! The wait (R161) read by read: misses, then a match, a failed read or the limit. -/

namespace Sys2Proof.Machine

/-- s after the first m reads of a wait went through and showed another state (R161). -/
def State.afterMisses (s : State) (m : Nat) : State :=
  (if m = 0 then s else
    s.afterBus m (s.exchanges 0 (List.replicate m (regRead s.cfg s.cfg.map.trxStatus)))).withPolls m

theorem later_afterMisses (s : State) (m : Nat) : Later s (s.afterMisses m) m := by
  unfold State.afterMisses
  split
  · next h => exact h ▸ ⟨rfl, rfl, rfl⟩
  · exact later_withPolls (later_afterBus s m _) _

/-- What follows the misses on the bus. -/
theorem afterMisses_afterBus (s : State) (m k : Nat) (es : List BusEvent) :
    (s.afterMisses m).afterBus k es = (s.afterBus (m + k)
      (s.exchanges 0 (List.replicate m (regRead s.cfg s.cfg.map.trxStatus)) ++ es)).withPolls m := by
  unfold State.afterMisses
  split
  · next h => subst h; simp [State.exchanges, withPolls_afterBus]
  · rw [withPolls_afterBus, afterBus_afterBus]

section
variable {s : State} (hb : s.cfg.profile.bytewise = true) (hx : 2 ≤ s.cfg.maxXfer) {place : SeqStep}
  {awaited : TrxCode}
include hb hx

/-- A read that shows the awaited state ends the wait. -/
theorem pollLoop_match (h : s.goThrough 1) (hm : s.polled 0 = awaited) (n : Nat) :
    pollLoop place awaited (n + 1) s =
      .ok () ((s.afterBus 1 (s.exchanges 0 [regRead s.cfg s.cfg.map.trxStatus])).withPolls (s.pollCount + 1)) := by
  have hm' : statusField s.cfg (s.secondByte 0) = awaited := hm
  simp only [pollLoop, config_bind]
  rw [bind_ok (memReadByte_ok hb hx h s.cfg.map.trxStatus)]
  simp only [update_bind, current_bind, hm', if_true, pure_run]
  rfl

/-- A failed read is not retried. -/
theorem pollLoop_failed (h : s.failsAt 0) (n : Nat) :
    pollLoop place awaited (n + 1) s = .error (.raised (.transferFailed 0 0))
      (s.afterBus 1 (s.brokenTransfer 0 [] (regRead s.cfg s.cfg.map.trxStatus))) := by
  simp only [pollLoop, config_bind]
  exact bind_error (memReadByte_failed hb hx h s.cfg.map.trxStatus)

/-- A wait that has m + 1 reads at least in this model step, the first m showing another state. -/
theorem waitState_afterMisses {m : Nat} (hlimit : ∀ n, s.cfg.pollLimit = some n → m < n)
    (hinf : s.cfg.pollLimit = none → m < max s.chip.length 1) (h : s.goThrough m)
    (hm : ∀ k, k < m → s.polled k ≠ awaited) :
    ∃ n, waitState place awaited s = pollLoop place awaited (n + 1) (s.afterMisses m) := by
  have hbudget : m < pollBudget s := by
    unfold pollBudget
    split
    · next n hn => exact hlimit n hn
    · next hn => exact hinf hn
  have hnot : ∀ k, k < m → pollLimitReached s.cfg (0 + k + 1) = false := fun k hk => by
    cases hl : s.cfg.pollLimit with
    | none => simp [pollLimitReached, hl]
    | some n =>
      have hmn := hlimit n hl
      simp only [pollLimitReached, hl, decide_eq_false_iff_not]
      omega
  obtain ⟨n, hn⟩ : ∃ n, pollBudget s = m + (n + 1) := ⟨pollBudget s - m - 1, by omega⟩
  refine ⟨n, ?_⟩
  rw [waitState_run, hn, pollLoop_misses (s := s.withPolls 0) hb hx m (n + 1) h hm hnot]
  unfold State.afterMisses
  split
  · next h0 => rw [h0]
  · rw [withPolls_pollCount, Nat.zero_add, (show Later s (s.withPolls 0) 0 from ⟨rfl, rfl, rfl⟩).exchanges]
    rfl

/-- The p-th read is the first that shows the awaited state. -/
theorem waitState_match {p : Nat} (hp : 1 ≤ p) (hlimit : ∀ n, s.cfg.pollLimit = some n → p ≤ n)
    (hinf : s.cfg.pollLimit = none → p ≤ max s.chip.length 1) (h : s.goThrough p)
    (hm : ∀ k, k + 1 < p → s.polled k ≠ awaited) (hmatch : s.polled (p - 1) = awaited) :
    waitState place awaited s = .ok ()
      ((s.afterBus p (s.exchanges 0 (List.replicate p (regRead s.cfg s.cfg.map.trxStatus)))).withPolls p) := by
  obtain ⟨m, rfl⟩ : ∃ m, p = m + 1 := ⟨p - 1, by omega⟩
  obtain ⟨n, hwait⟩ := waitState_afterMisses hb hx (m := m) (place := place) hlimit hinf
    (goThrough_le h (by omega)) fun k hk => hm k (by omega)
  have hlater := later_afterMisses s m
  have hloop := pollLoop_match (place := place) (awaited := awaited) (s := s.afterMisses m)
    (by rwa [hlater.cfg]) (by rwa [hlater.cfg]) (hlater.goThrough h) (by rw [hlater.polled]; exact hmatch) n
  rw [hlater.exchanges, hlater.cfg, afterMisses_afterBus, withPolls_withPolls] at hloop
  rw [hwait, hloop, List.replicate_succ', exchanges_append, List.length_replicate, Nat.zero_add]
  rfl

/-- The read after p that showed another state fails. -/
theorem waitState_failed {p : Nat} (hlimit : ∀ n, s.cfg.pollLimit = some n → p < n)
    (hinf : s.cfg.pollLimit = none → p < max s.chip.length 1) (h : s.goThrough p)
    (hm : ∀ k, k < p → s.polled k ≠ awaited) (hfail : s.failsAt p) :
    waitState place awaited s = .error (.raised (.transferFailed 0 0))
      ((s.afterBus (p + 1) (s.exchanges 0 (List.replicate p (regRead s.cfg s.cfg.map.trxStatus))
        ++ s.brokenTransfer p [] (regRead s.cfg s.cfg.map.trxStatus))).withPolls p) := by
  obtain ⟨n, hwait⟩ := waitState_afterMisses hb hx (place := place) hlimit hinf h hm
  have hlater := later_afterMisses s p
  have hloop := pollLoop_failed (place := place) (awaited := awaited) (s := s.afterMisses p)
    (by rwa [hlater.cfg]) (by rwa [hlater.cfg])
    (by simpa only [State.failsAt, hlater.drawAt, Nat.add_zero] using hfail) n
  rw [hlater.brokenTransfer, hlater.cfg, afterMisses_afterBus] at hloop
  rw [hwait, hloop]
  rfl

end

/-- Settles O32: after the misses the next read matches, is the last the limit allows, or fails. -/
theorem waitStatePollsUntilTheLimit : Obligations.WaitStatePollsUntilTheLimit := by
  unfold Obligations.WaitStatePollsUntilTheLimit
  intro place awaited s hv hb
  obtain ⟨-, hx, -, -, -, -, hpos, -⟩ := valid_limits hv
  have hx2 : 2 ≤ s.cfg.maxXfer := by omega
  refine ⟨fun p hp hlimit hinf h hm hmatch => waitState_match hb hx2 hp hlimit hinf h hm hmatch,
    fun n hn h hm => waitState_exhausted hb hx2 hn (fun h0 => hpos (h0 ▸ hn)) h hm place,
    fun p hlimit hinf h hm hfail => waitState_failed hb hx2 hlimit hinf h hm hfail⟩

end Sys2Proof.Machine
end

section
/-! The profile the state-machine and configuration commands need (R163), and the RSSI arithmetic (R179). -/

namespace Sys2Proof.Machine

theorem needsBytewise_of_isConfiguration {i : Instr} (h : isConfiguration i = true) : needsBytewise i = true := by
  cases i with
  | setChannel | setBand | setModulation | setPanId | setShortAddress | setTxPower => rfl
  | _ => cases h

/-- Settles O17: the profile check comes first. -/
theorem eightBitProfileIsRequired : Obligations.EightBitProfileIsRequired := by
  unfold Obligations.EightBitProfileIsRequired
  intro i s hi hprofile
  have hneeds : needsBytewise i = true := by
    obtain hconfig | hmem | ⟨d, rfl⟩ := hi
    · exact needsBytewise_of_isConfiguration hconfig
    · simp only [List.mem_cons, List.not_mem_nil, or_false] at hmem
      obtain rfl | rfl | rfl | rfl := hmem <;> rfl
    · rfl
  have hnot : s.cfg.profile.bytewise = false := Bool.eq_false_iff.2 (mt (bytewise_iff _).1 hprofile)
  exact ⟨[], (exec_isCommand i).refused (by simp [precheck_eq_or, profileError, hneeds, hnot])⟩

theorem byte_toInt_bounds (b : Byte) : -128 ≤ b.toInt ∧ b.toInt ≤ 127 := by
  have hlow := BitVec.le_toInt b
  have hhigh := BitVec.toInt_lt (x := b)
  norm_num at hlow hhigh
  omega

/-- Energy and base lie where their sum does not leave 16 bits. -/
theorem rssiOf_toInt (c : Config) (ed modulation : Byte) :
    (rssiOf c ed modulation).toInt = (ed.toNat : Int) + (rssiBaseOf c modulation).toInt := by
  obtain ⟨hlow, hhigh⟩ := byte_toInt_bounds (rssiBaseOf c modulation)
  have hed := ed.isLt
  have hwide : (ed.setWidth 16).toNat = ed.toNat := by rw [BitVec.toNat_setWidth]; omega
  have hzero : (ed.setWidth 16).toInt = ed.toNat := by
    rw [BitVec.toInt_eq_toNat_of_lt (by rw [hwide]; omega), hwide]
  rw [rssiOf, BitVec.toInt_add, hzero, BitVec.toInt_signExtend_of_le (by decide)]
  exact Int.bmod_eq_of_le (by omega) (by omega)

/-- Settles O46: the sum is exact, and the energy lies from 0 to 255. -/
theorem rssiIsTheExactSum : Obligations.RssiIsTheExactSum := by
  unfold Obligations.RssiIsTheExactSum
  intro c ed modulation
  have hsum := rssiOf_toInt c ed modulation
  have hed := ed.isLt
  exact ⟨hsum, by omega, by omega⟩

end Sys2Proof.Machine
end

section
/-! SLEEP and WAKEUP (R169, R171): one `SetTrxState`, after which `opState` is committed. -/

namespace Sys2Proof.Machine

/-! ### `SetTrxState` some chunks further on -/

section
variable {s u : State} {k : Nat} (l : Later s u k) (hv : s.cfg.valid = true) (hb : s.cfg.profile.bytewise = true)
include l hv hb

/-- Both polls match at once (R160). -/
theorem Later.setTrxState_ok {call : StateCall}
    (hgo : s.goThrough (k + if callCmd s.cfg call = .forceTrxOff then 2 else 4))
    (hm : s.pollsMatch k (callCmd s.cfg call)) :
    setTrxState call u = .ok () ((u.afterBus (if callCmd s.cfg call = .forceTrxOff then 2 else 4)
      (s.exchanges k (trxExchanges s.cfg (callCmd s.cfg call)))).withPolls 1) := by
  have hset := Machine.setTrxState_ok (s := u) (call := call) (by rwa [l.cfg]) (by rwa [l.cfg])
    (l.goThrough (by rwa [l.cfg, trxExchanges_length]))
    ⟨by rw [l.polled, l.cfg]; simpa using hm.1, fun hne => by rw [l.cfg] at hne; rw [l.polled, l.cfg]; exact hm.2 hne⟩
  rw [l.exchanges, l.cfg, trxExchanges_length] at hset
  exact hset

theorem Later.setTrxState_neverOff (call : StateCall) {n : Nat} (h : s.neverOff k n) :
    setTrxState call u = .error (.raised (s.offError k n))
      ((u.afterBus (1 + n) (s.exchanges k (offExchanges s.cfg n))).withPolls n) := by
  obtain ⟨hl, hgo, hm⟩ := h
  have hset := Machine.setTrxState_neverOff (s := u) (n := n) (by rwa [l.cfg]) (by rwa [l.cfg]) call
    ⟨by rwa [l.cfg], fun j hj => by rw [l.drawAt, Nat.zero_add]; exact hgo j hj,
      fun j hj => by rw [l.polled, l.cfg, Nat.zero_add, ← Nat.add_assoc]; exact hm j hj⟩
  rw [State.afterNeverOff, State.offError, l.exchanges, l.polled, l.cfg, Nat.zero_add] at hset
  exact hset

theorem Later.setTrxState_neverReaches {call : StateCall} {n : Nat}
    (h : s.neverReaches k (callCmd s.cfg call) n) :
    setTrxState call u = .error (.raised (s.reachError k (callCmd s.cfg call) n))
      ((u.afterBus (3 + n) (s.exchanges k (reachExchanges s.cfg (callCmd s.cfg call) n))).withPolls n) := by
  obtain ⟨hl, htarget, hgo, hoff, hm⟩ := h
  have hset := Machine.setTrxState_neverReaches (s := u) (n := n) (call := call) (by rwa [l.cfg]) (by rwa [l.cfg])
    ⟨by rwa [l.cfg], by rwa [l.cfg], fun j hj => by rw [l.drawAt, Nat.zero_add]; exact hgo j hj,
      by rw [l.polled, l.cfg]; exact hoff,
      fun j hj => by rw [l.polled, l.cfg, Nat.zero_add, ← Nat.add_assoc]; exact hm j hj⟩
  rw [State.afterNeverReaches, State.reachError, l.exchanges, l.polled, l.cfg, Nat.zero_add, ← Nat.add_assoc] at hset
  exact hset

end

/-! ### Commands that run -/

/-- A command that passes its checks runs its pseudocode, accepted (R15, R233). -/
theorem exec_accepted {i : Instr} {checks : Seq Unit} {body : Seq (List Byte)} {s : State}
    (hexec : exec i s = command i checks body s) (hchecks : ChecksOf i checks)
    (hpre : precheck s.cfg i s.opState = none) :
    exec i s = .next (finish (body (accept (take i s)))) := by
  rw [hexec]
  exact command_accepted ((hchecks (take i s)).trans (by simp [hpre]))

section
variable {s : State} (hb : s.cfg.profile.bytewise = true)
include hb

/-- A state-machine command without operands passes its checks where the legality table does not refuse it. -/
theorem precheck_stateCommand {i : Instr} (ha : badArgument i = none) (hf : frameOf i = none)
    (hl : legality i s.opState ≠ .refuse) : precheck s.cfg i s.opState = none := by
  simp [precheck_eq_or, profileError, hb, argumentError, ha, stateError, hl, frameError, hf]

theorem exec_sleep_idle (hst : s.opState = .idle) :
    exec .sleep s = .next (finish ((do
      setTrxState .sleepOff
      commit .sleep
      pure []) (accept (take .sleep s)))) := by
  have hbody := exec_accepted (s := s) (i := .sleep) rfl (checksOf_bytewise_state rfl rfl rfl)
    (precheck_stateCommand hb rfl rfl (by simp [legality, hst]))
  simpa [hst] using hbody

theorem exec_wakeup_awake (hst : s.opState = .idle ∨ s.opState = .sleep) :
    exec .wakeup s = .next (finish ((do
      setTrxState .wakeupReceive
      commit .idle
      pure []) (accept (take .wakeup s)))) :=
  exec_accepted rfl (checksOf_bytewise_state rfl rfl rfl)
    (precheck_stateCommand hb rfl rfl (by rcases hst with hst | hst <;> simp [legality, hst]))

end

/-- Settles O37: both commands are one `SetTrxState`, whose two phases each match at once or use up `POLL_LIMIT`. -/
theorem sleepAndWakeupComplete : Obligations.SleepAndWakeupComplete := by
  unfold Obligations.SleepAndWakeupComplete
  intro s hv hb
  refine ⟨fun hst => ?_, fun hst => ?_⟩
  · have l := later_accepted .sleep s
    rw [exec_sleep_idle hb hst]
    refine ⟨fun hgo hm => ?_, fun n hn => ?_⟩
    · rw [bind_ok (l.setTrxState_ok (call := .sleepOff) hv hb hgo hm)]
      rfl
    · rw [bind_error (l.setTrxState_neverOff hv hb .sleepOff hn)]
      rfl
  · have l := later_accepted .wakeup s
    have htarget : rxStateCmd s.cfg ≠ .forceTrxOff := by unfold rxStateCmd; split <;> simp
    rw [exec_wakeup_awake hb hst]
    refine ⟨fun hgo hm => ?_, fun n => ⟨fun hn => ?_, fun hn => ?_⟩⟩
    · have hset := l.setTrxState_ok (call := .wakeupReceive) hv hb (by simpa [callCmd, htarget] using hgo) hm
      rw [bind_ok hset]
      simp only [callCmd, htarget, if_false]
      rfl
    · rw [bind_error (l.setTrxState_neverOff hv hb .wakeupReceive hn)]
      rfl
    · rw [bind_error (l.setTrxState_neverReaches (call := .wakeupReceive) hv hb hn)]
      rfl

end Sys2Proof.Machine
end

section
/-! What a command leaves alone, whatever the chip answers: every relation that the bus, the counts, the buffers and the
configuration cache respect is kept by every command but those that commit an operating state or emit. -/

namespace Sys2Proof.Machine

/-! ### Relations that the shared operations respect -/

/-- F holds where only the bus, the counts, a buffer, the configuration cache or the IRQ flag was written. -/
structure FrameClosed (F : State → State → Prop) : Prop extends BusClosed F where
  polls   : ∀ s n, F s { s with pollCount := n }
  retries : ∀ s n, F s { s with retryCount := n }
  txbuf   : ∀ s m, F s { s with txbuf := m }
  rxbuf   : ∀ s m, F s { s with rxbuf := m }
  cache   : ∀ s t, OnlyCacheAndFlags s t → t.opState = s.opState → F s t

/-- The operating state, the events and `busy` are as they were. -/
structure KeepsControl (s t : State) : Prop where
  opState : t.opState = s.opState
  evq     : t.evq = s.evq
  busy    : t.busy = s.busy

theorem keepsControl_closed : FrameClosed KeepsControl where
  refl _ := ⟨rfl, rfl, rfl⟩
  trans _ _ _ h h' := ⟨h'.1.trans h.1, h'.2.trans h.2, h'.3.trans h.3⟩
  bus _ _ _ _ := ⟨rfl, rfl, rfl⟩
  polls _ _ := ⟨rfl, rfl, rfl⟩
  retries _ _ := ⟨rfl, rfl, rfl⟩
  txbuf _ _ := ⟨rfl, rfl, rfl⟩
  rxbuf _ _ := ⟨rfl, rfl, rfl⟩
  cache _ _ h hst := ⟨hst, (congrArg State.evq h :), (congrArg State.busy h :)⟩

section
variable {F : State → State → Prop} (hF : FrameClosed F)
include hF

theorem FrameClosed.setTrxState (call : StateCall) : Runs F (setTrxState call) :=
  setTrxState_runs hF.toBusClosed hF.polls call

theorem FrameClosed.memReadByte (a : RegAddr) : Runs F (memReadByte a) := memReadByte_runs hF.toBusClosed a

theorem FrameClosed.cfgWrite (a : RegAddr) (v : Byte) : Runs F (cfgWrite a v) :=
  cfgWrite_runs hF.toBusClosed hF.retries a v

theorem FrameClosed.writeChannelRegs : Runs F writeChannelRegs := writeChannelRegs_runs hF.toBusClosed hF.retries

theorem FrameClosed.writeSeed : Runs F writeSeed := writeSeed_runs hF.toBusClosed hF.retries

theorem FrameClosed.frameBufferWrite (f : List Byte) : Runs F (frameBufferWrite f) :=
  frameBufferWrite_runs hF.toBusClosed f fun s => hF.txbuf s _

theorem FrameClosed.frameWriteSeq (f : List Byte) : Runs F (frameWriteSeq f) :=
  frameWriteSeq_runs hF.toBusClosed f fun s => hF.txbuf s _

theorem FrameClosed.frameRead : Runs F frameRead :=
  frameRead_runs hF.toBusClosed fun s _ _ _ _ => hF.rxbuf s _

theorem FrameClosed.cacheWrite {g : State → State} (h : ∀ s, OnlyCacheAndFlags s (g s))
    (hst : ∀ s, (g s).opState = s.opState) : Runs F (update g) :=
  .update (fun s => hF.cache s _ (h s) (hst s)) fun s => (h s).base

theorem FrameClosed.returning {α : Type} {m : Seq α} {ret : α → List Byte} (hm : Runs F m) :
    Runs F (do let a ← m; pure (ret a)) :=
  .bind hF.trans hm fun _ => .pure hF.refl _

/-- The two bytes of an address, then the seed (R209, R212). -/
theorem FrameClosed.addressWrites (a b : RegAddr) (v w : Byte) : Runs F (do
    Machine.cfgWrite a v
    Machine.cfgWrite b w
    Machine.writeSeed
    pure ([] : List Byte)) :=
  .bind hF.trans (hF.cfgWrite a v) fun _ => .bind hF.trans (hF.cfgWrite b w) fun _ =>
    hF.returning (ret := fun _ => []) hF.writeSeed

theorem FrameClosed.registerRead (a : RegAddr) : Runs F (do
    let v ← memRead a
    let c ← config
    pure (hostValueBytes c v)) :=
  .bind hF.trans (memRead_runs hF.toBusClosed a) fun _ => .config_bind fun _ => .pure hF.refl _

/-! ### The commands -/

/-- The state-machine commands, which commit an operating state or emit. -/
def isStateMachine : Instr → Bool
  | .init | .sleep | .wakeup | .dataRequest _ | .taskHandler => true
  | _ => false

/-- A `TRX_CMD` row: the profile check and one piece (log 12). -/
theorem FrameClosed.row {i : Instr} {m : Seq Unit} (hb : needsBytewise i = true) (ha : badArgument i = none)
    (hl : ∀ st, legality i st = .run) (hf : frameOf i = none)
    (hexec : ∀ s, exec i s = command i requireBytewise (do m; pure []) s) (hm : Runs F m) : IsCommand F i :=
  .of_runs hexec (checksOf_bytewise hb ha hl hf) (hF.returning (ret := fun _ => []) hm)

/-- Every other command runs with F. -/
theorem FrameClosed.isCommand {i : Instr} (hi : isStateMachine i = false) : IsCommand F i := by
  cases i with
  | init | sleep | wakeup | dataRequest | taskHandler => cases hi
  | setChannel ch =>
    exact .of_runs (fun _ => rfl) (checksOf_bytewise_state rfl rfl rfl) <|
      .bind hF.trans (hF.cacheWrite (fun _ => rfl) fun _ => rfl) fun _ =>
        hF.returning (ret := fun _ => []) hF.writeChannelRegs
  | setBand b =>
    exact .of_runs (fun _ => rfl) (checksOf_setBand b) <|
      .bind hF.trans (hF.cacheWrite (fun _ => rfl) fun _ => rfl) fun _ => .config_bind fun _ =>
        .bind hF.trans (hF.cfgWrite _ _) fun _ => hF.returning (ret := fun _ => []) hF.writeChannelRegs
  | setModulation m =>
    exact .of_runs (fun _ => rfl) (checksOf_bytewise_state rfl rfl rfl) <|
      .bind hF.trans (hF.cacheWrite (fun _ => rfl) fun _ => rfl) fun _ => .config_bind fun _ =>
        hF.returning (ret := fun _ => []) (hF.cfgWrite _ _)
  | setPanId p =>
    exact .of_runs (fun _ => rfl) (checksOf_bytewise_state rfl rfl rfl) <|
      .bind hF.trans (hF.cacheWrite (fun _ => rfl) fun _ => rfl) fun _ => .config_bind fun _ =>
        hF.addressWrites _ _ _ _
  | setShortAddress a =>
    exact .of_runs (fun _ => rfl) (checksOf_bytewise_state rfl rfl rfl) <|
      .bind hF.trans (hF.cacheWrite (fun _ => rfl) fun _ => rfl) fun _ => .config_bind fun _ =>
        hF.addressWrites _ _ _ _
  | setTxPower p =>
    exact .of_runs (fun _ => rfl) (checksOf_bytewise_state rfl rfl rfl) <|
      .bind hF.trans (hF.cacheWrite (fun _ => rfl) fun _ => rfl) fun _ => .config_bind fun _ =>
        hF.returning (ret := fun _ => []) (hF.cfgWrite _ _)
  | rssiBaseValue =>
    exact .of_runs (fun _ => rfl) (checksOf_pure fun _ _ => rfl) <| .current_bind fun _ => .pure hF.refl _
  | readRegister a =>
    exact .of_runs (fun _ => rfl) (checksOf_arg rfl (by simp [badArgument, addrLegal_eq]) (fun _ => rfl) rfl)
      (hF.registerRead _)
  | writeRegister a v =>
    exact .of_runs (fun _ => rfl) (checksOf_arg rfl (by simp [badArgument, addrLegal_eq]) (fun _ => rfl) rfl)
      (hF.returning (ret := fun _ => []) (memWrite_runs hF.toBusClosed _ v))
  | writeBytes data =>
    refine ⟨_, _, fun _ => rfl, checksOf_arg rfl (by simp [badArgument]) (fun _ => rfl) rfl, fun hlegal => ?_⟩
    have hne : data ≠ [] := by simpa [badArgument] using hlegal
    exact hF.returning (ret := fun _ => []) (transaction_runs hF.toBusClosed hne)
  | readBytes n =>
    refine ⟨_, _, fun _ => rfl, checksOf_arg rfl (by simp [badArgument]) (fun _ => rfl) rfl, fun hlegal => ?_⟩
    have hne : n ≠ 0#8 := by simpa [badArgument] using hlegal
    exact transaction_runs hF.toBusClosed (by simpa [zeros, ← BitVec.toNat_inj] using hne)
  | writeFrame f =>
    refine .of_runs (fun _ => rfl) ?_ <| .bind hF.trans (hF.setTrxState _) fun _ =>
      hF.returning (ret := fun _ => []) (hF.frameWriteSeq f)
    refine ((requireBytewise_checksFor (i := .writeFrame f) rfl).bind
      (requireFrameFits_checksFor (i := .writeFrame f) rfl)).congr fun s => ?_
    simp [precheck_eq_or, argumentError, badArgument, stateError, legality]
  | readFrame | spiFbRead =>
    exact .of_runs (fun _ => rfl) (checksOf_pure fun _ _ => rfl) (hF.returning (ret := RxFrame.image) hF.frameRead)
  | spiRegRead a => exact .of_runs (fun _ => rfl) (checksOf_pure fun _ _ => rfl) (hF.registerRead a)
  | spiRegWrite a v =>
    exact .of_runs (fun _ => rfl) (checksOf_pure fun _ _ => rfl)
      (hF.returning (ret := fun _ => []) (memWrite_runs hF.toBusClosed a v))
  | spiFbWrite f =>
    refine .of_runs (fun _ => rfl) ?_ (hF.returning (ret := fun _ => []) (hF.frameBufferWrite f))
    refine (requireFrameFits_checksFor (i := .spiFbWrite f) rfl).congr fun s => ?_
    simp [precheck_eq_or, profileError, needsBytewise, argumentError, badArgument, stateError, legality]
  | txStart => exact hF.row rfl rfl (fun _ => rfl) rfl (fun _ => rfl) (transmitStart_runs hF.toBusClosed)
  | forceTrxOff | rxOn | pllOn | rxAackOn | txAretOn =>
    exact hF.row rfl rfl (fun _ => rfl) rfl (fun _ => rfl) (hF.setTrxState _)

end

end Sys2Proof.Machine
end

section
/-! TASK_HANDLER with an end of transmission or reception (R176): the IRQ status read, then the path of the operating
state, whose last step is the re-apply of the receive-state. -/

namespace Sys2Proof.Machine

/-! ### What a state change keeps, whatever the chip answers -/

theorem Later.uncutUntil {s u t : State} {k : Nat} (l : Later s u k) (h : s.uncutUntil t) : u.uncutUntil t :=
  fun j hj => by
    have hdraws := l.draws
    rw [l.drawAt]
    exact h (k + j) (by omega)

/-- A command whose last piece is a state change ends with the operating state and the events it had before that
piece. -/
theorem endsWith_setTrxState_keeps {call : StateCall} {u : State} {kept : Option Err}
    (h : u.uncutUntil (endsWith (setTrxState call u) kept)) :
    (endsWith (setTrxState call u) kept).opState = u.opState ∧ (endsWith (setTrxState call u) kept).evq = u.evq := by
  obtain ⟨n, hn⟩ := keepsControl_closed.setTrxState call u
  cases hset : setTrxState call u with
  | ok a v => rw [hset] at hn; exact ⟨hn.2.opState, hn.2.evq⟩
  | error e v =>
    rw [hset] at hn h
    cases e with
    | raised e => exact ⟨hn.2.opState, hn.2.evq⟩
    | stopped =>
      obtain ⟨w, place, -, hkeeps, -, rfl⟩ | hcut := hn
      · exact ⟨hkeeps.opState, hkeeps.evq⟩
      · exact absurd h hcut.not_uncutUntil

/-! ### A command that ends with a piece -/

theorem finish_returning (m : Seq Unit) (u : State) :
    finish ((do m; pure ([] : List Byte)) u) = endsWith (m u) none := by
  cases hm : m u with
  | ok a v => rw [bind_ok hm]; rfl
  | error e v => rw [bind_error hm]; cases e <;> rfl

/-- An error that is raised after a piece unless the piece raises one (R180). -/
theorem endsWith_raising (m : Seq Unit) (e : Err) (u : State) :
    endsWith ((do m; raise e : Seq Unit) u) none = endsWith (m u) (some e) := by
  cases hm : m u with
  | ok a v => rw [bind_ok hm]; rfl
  | error e' v => rw [bind_error hm]; cases e' <;> rfl

/-! ### Register reads some chunks further on -/

section
variable {s u : State} {k : Nat} (l : Later s u k) (hv : s.cfg.valid = true) (hb : s.cfg.profile.bytewise = true)
include l hv hb

theorem Later.memReadByte_ok (hgo : s.goThrough (k + 1)) (a : RegAddr) :
    memReadByte a u = .ok (s.secondByte k) (u.afterBus 1 (s.exchanges k [regRead s.cfg a])) := by
  obtain ⟨-, hx, -⟩ := valid_limits hv
  have hread := Machine.memReadByte_ok (s := u) (by rwa [l.cfg]) (by rw [l.cfg]; omega) (l.goThrough hgo) a
  rw [l.secondByte, l.transfer, l.cfg] at hread
  simpa [State.exchanges] using hread

theorem Later.memReadByte_failed (hfail : s.failsAt k) (a : RegAddr) :
    memReadByte a u = .error (.raised (.transferFailed 0 0))
      (u.afterBus 1 (s.brokenTransfer k [] (regRead s.cfg a))) := by
  obtain ⟨-, hx, -⟩ := valid_limits hv
  have hread := Machine.memReadByte_failed (s := u) (by rwa [l.cfg]) (by rw [l.cfg]; omega)
    (by simpa only [State.failsAt, l.drawAt, Nat.add_zero] using hfail) a
  rwa [l.brokenTransfer, l.cfg] at hread

end

/-! ### The IRQ status read -/

/-- s with TASK_HANDLER accepted and the IRQ flag cleared (R176). -/
def State.handling (s : State) : State := { accept (take .taskHandler s) with irqFlag := false }

theorem later_handling (s : State) : Later s s.handling 0 := ⟨rfl, rfl, rfl⟩

section
variable {s : State} (hv : s.cfg.valid = true) (hb : s.cfg.profile.bytewise = true)
  (hst : s.opState = .idle ∨ s.opState = .transmittingWaitEnd)
include hb hst

theorem exec_taskHandler_awake :
    exec .taskHandler s = .next (finish ((do
      let irq ← memReadByte s.cfg.map.irqStatus
      if trxEnd s.cfg irq then do
        completionPath s.opState
        pure []
      else pure []) s.handling)) := by
  have hbody := exec_accepted (s := s) (i := .taskHandler) rfl (checksOf_bytewise_state rfl rfl rfl)
    (precheck_stateCommand hb rfl rfl (by rcases hst with hst | hst <;> simp [legality, hst]))
  have hruns : ¬ (s.opState = .initial ∨ s.opState = .sleep) := by rcases hst with hst | hst <;> simp [hst]
  exact hbody.trans (congrArg (fun r => Host.Outcome.next (finish r)) (congrFun (if_neg hruns) s.handling))

include hv

/-- The read goes through and shows the completion bit. -/
theorem exec_taskHandler_ended (hgo : s.goThrough 1) (hend : (s.secondByte 0).getLsbD s.cfg.map.trxEndBit = true) :
    exec .taskHandler s = .next (endsWith (completionPath s.opState
      (s.handling.afterBus 1 (s.exchanges 0 [regRead s.cfg s.cfg.map.irqStatus]))) none) := by
  have hread := (later_handling s).memReadByte_ok hv hb hgo s.cfg.map.irqStatus
  have hbit : trxEnd s.cfg (s.secondByte 0) = true := hend
  rw [exec_taskHandler_awake hb hst, bind_ok hread, if_pos hbit, finish_returning]

/-- The read fails. -/
theorem exec_taskHandler_failed (hfail : s.failsAt 0) :
    exec .taskHandler s = .next ((s.handling.afterBus 1
      (s.brokenTransfer 0 [] (regRead s.cfg s.cfg.map.irqStatus))).answeredErr (.transferFailed 0 0)) := by
  have hread := (later_handling s).memReadByte_failed hv hb hfail s.cfg.map.irqStatus
  rw [exec_taskHandler_awake hb hst, bind_error hread, finish_raised]
  rfl

end

/-- s with the completion bit read: the path of a completed operation starts here. -/
def State.ended (s : State) : State := s.handling.afterBus 1 (s.exchanges 0 [regRead s.cfg s.cfg.map.irqStatus])

theorem later_ended (s : State) : Later s s.ended 1 := (later_handling s).afterBus 1 _

theorem rxStateCmd_ne_forceTrxOff (c : Config) : rxStateCmd c ≠ .forceTrxOff := by
  unfold rxStateCmd
  split <;> simp

/-! ### The transmit-done path (R178) -/

/-- The confirm of a transaction status byte. -/
def confirmOf (c : Config) (status : Byte) : Event :=
  .dataConfirm (tracStatus c ((status >>> c.map.tracLo).setWidth 3))

/-- s after the transmit-done path up to its re-apply. -/
def State.confirmed (s : State) : State :=
  { s.handling.afterBus 2 (s.exchanges 0 [regRead s.cfg s.cfg.map.irqStatus, regRead s.cfg s.cfg.map.trxState]) with
    opState := .idle
    evq := [confirmOf s.cfg (s.secondByte 1)] }

theorem later_confirmed (s : State) : Later s s.confirmed 2 := ⟨rfl, rfl, rfl⟩

/-- The re-apply's exchanges follow the two reads on the bus. -/
theorem confirmed_afterBus (s : State) (n : Nat) (txs : List (List Byte)) :
    s.confirmed.afterBus n (s.exchanges 2 txs) =
      { s.handling.afterBus (2 + n)
          (s.exchanges 0 ([regRead s.cfg s.cfg.map.irqStatus, regRead s.cfg s.cfg.map.trxState] ++ txs)) with
        opState := .idle
        evq := [confirmOf s.cfg (s.secondByte 1)] } := by
  rw [exchanges_append, ← afterBus_afterBus]
  rfl

section
variable {s : State} (hv : s.cfg.valid = true) (hb : s.cfg.profile.bytewise = true)
include hv hb

/-- The transaction status was read: what is left of the path is the re-apply. -/
theorem transmitDonePath_confirmed (hgo : s.goThrough 2) :
    transmitDonePath s.ended = setTrxState .transmitted s.confirmed := by
  have hread := (later_ended s).memReadByte_ok hv hb hgo s.cfg.map.trxState
  rw [State.ended, afterBus_afterBus] at hread
  exact (bind_ok hread :)

/-- The read of the transaction status fails. -/
theorem transmitDonePath_failed (hfail : s.failsAt 1) :
    transmitDonePath s.ended = .error (.raised (.transferFailed 0 0)) (s.handling.afterBus 2
      (s.exchanges 0 [regRead s.cfg s.cfg.map.irqStatus]
        ++ s.brokenTransfer 1 [] (regRead s.cfg s.cfg.map.trxState))) := by
  have hread := (later_ended s).memReadByte_failed hv hb hfail s.cfg.map.trxState
  rw [State.ended, afterBus_afterBus] at hread
  rw [transmitDonePath, config_bind]
  exact bind_error hread

end

/-- Settles O41: the confirm is emitted before the re-apply, which keeps the state and the events. -/
theorem transmitDoneIsConfirmedOnce : Obligations.TransmitDoneIsConfirmedOnce := by
  unfold Obligations.TransmitDoneIsConfirmedOnce
  intro s hv hb hst hgo1 hend
  have hexec := exec_taskHandler_ended hv hb (.inr hst) hgo1 hend
  rw [hst] at hexec
  have hconfirmed : s.goThrough 2 →
      exec .taskHandler s = .next (endsWith (setTrxState .transmitted s.confirmed) none) := fun hgo => by
    rw [hexec]
    exact congrArg (fun r => Host.Outcome.next (endsWith r none)) (transmitDonePath_confirmed hv hb hgo)
  refine ⟨hconfirmed, fun hgo t ht hu => ?_, fun hfail => ?_, fun hgo hm => ?_⟩
  · obtain rfl : endsWith (setTrxState .transmitted s.confirmed) none = t := by simpa [hconfirmed hgo] using ht
    exact endsWith_setTrxState_keeps ((later_confirmed s).uncutUntil hu)
  · rw [hexec]
    exact congrArg (fun r => Host.Outcome.next (endsWith r none)) (transmitDonePath_failed hv hb hfail)
  · have htarget := rxStateCmd_ne_forceTrxOff s.cfg
    have hset := (later_confirmed s).setTrxState_ok (call := .transmitted) hv hb
      (by simpa [callCmd, htarget] using hgo) hm
    rw [confirmed_afterBus] at hset
    rw [hconfirmed (goThrough_le hgo (by omega)), hset]
    simp only [callCmd, htarget, if_false]
    rfl

end Sys2Proof.Machine
end

section
/-! The receive path of TASK_HANDLER (R177, R180): the frame read, the energy level read and the indication, or an
invalid length byte, and then the re-apply of the receive-state. -/

namespace Sys2Proof.Machine

/-! ### Frame reads and the first write of a state change, some chunks further on -/

section
variable {s u : State} {k : Nat} (l : Later s u k) (hv : s.cfg.valid = true)
include l

theorem Later.failsAt {j : Nat} (h : s.failsAt (k + j)) : u.failsAt j := by
  simpa only [State.failsAt, l.drawAt] using h

include hv

theorem Later.frameRead_header_failed (hfail : s.failsAt k) :
    frameRead u = .error (.raised (.transferFailed 0 0))
      (u.afterBus 1 (s.brokenTransfer k [] [s.cfg.profile.fbReadCmd, 0x00#8])) := by
  obtain ⟨-, hx, -⟩ := valid_limits hv
  have hread := Machine.frameRead_header_failed (s := u) (by rw [l.cfg]; omega) (l.failsAt (j := 0) hfail)
  rwa [l.brokenTransfer, l.cfg] at hread

theorem Later.frameRead_invalid (hgo : s.goThrough (k + 1)) (hlen : s.cfg.maxPhr < (s.secondByte k).toNat) :
    frameRead u = .error (.raised (.frameInvalid (s.secondByte k)))
      (u.afterBus 1 (s.transfer k [[s.cfg.profile.fbReadCmd, 0x00#8]])) := by
  obtain ⟨-, hx, -⟩ := valid_limits hv
  have hread := Machine.frameRead_invalid (s := u) (by rw [l.cfg]; omega) (l.goThrough hgo)
    (by rw [l.cfg, l.secondByte]; exact hlen)
  rwa [l.transfer, l.cfg, l.secondByte] at hread

theorem Later.setTrxState_failed (hb : s.cfg.profile.bytewise = true) (call : StateCall) (hfail : s.failsAt k) :
    setTrxState call u = .error (.raised (.transferFailed 0 0))
      (u.afterBus 1 (s.brokenTransfer k [] (stateWrite s.cfg s.cfg.map.cmdForceTrxOff))) := by
  obtain ⟨-, hx, -⟩ := valid_limits hv
  have hwrite := memWriteByte_failed (s := u) (by rwa [l.cfg]) (by rw [l.cfg]; omega) (l.failsAt (j := 0) hfail)
    s.cfg.map.trxState (trxByte s.cfg s.cfg.map.cmdForceTrxOff)
  rw [l.brokenTransfer, l.cfg] at hwrite
  refine bind_error ?_
  rw [statePhase, config_bind, l.cfg]
  refine bind_error ?_
  rw [writeTrxState, config_bind, l.cfg]
  exact hwrite

variable {ps : List (List Byte)} (hlen : (s.secondByte k).toNat ≤ s.cfg.maxPhr)
  (hps : chunksOf s.cfg.maxXfer (zeros ((s.secondByte k).toNat + 1)) = ps)
include hlen hps

theorem Later.frameRead_ok (hgo : s.goThrough (k + (1 + ps.length))) :
    frameRead u = .ok { len := s.secondByte k, body := s.received (k + 1) ps }
      { u.afterBus (1 + ps.length) (s.transfer k ([s.cfg.profile.fbReadCmd, 0x00#8] :: ps)) with
        rxbuf := u.rxbuf.writeRange 0 (s.secondByte k :: s.received (k + 1) ps) } := by
  obtain ⟨-, hx, -⟩ := valid_limits hv
  have hread := Machine.frameRead_ok (s := u) (by rw [l.cfg]; omega) (by rw [l.cfg, l.secondByte]; exact hlen)
    (by rw [l.cfg, l.secondByte]; exact l.goThrough (hps ▸ hgo))
  rwa [l.transfer, l.received, l.cfg, l.secondByte, Nat.add_zero, hps] at hread

theorem Later.frameRead_body_failed {j : Nat} (hj : j < ps.length) (hgo : s.goThrough (k + (1 + j)))
    (hfail : s.failsAt (k + (1 + j))) :
    ∃ e es, frameRead u = .error (.raised (.transferFailed j e)) (u.afterBus (2 + j) es) := by
  obtain ⟨-, hx, -⟩ := valid_limits hv
  obtain ⟨sent, p, unsent, rfl, rfl⟩ := split_at_index hj
  have hread := Machine.frameRead_body_failed (s := u) (by rw [l.cfg]; omega)
    (by rw [l.cfg, l.secondByte]; exact hlen) (by rw [l.cfg, l.secondByte]; exact hps) (l.goThrough hgo)
    (l.failsAt hfail)
  exact ⟨_, _, hread⟩

end

/-! ### An invalid length byte (R180) -/

/-- s after the header of the frame read. -/
def State.headed (s : State) : State :=
  s.handling.afterBus 2 (s.exchanges 0 [regRead s.cfg s.cfg.map.irqStatus]
    ++ s.transfer 1 [[s.cfg.profile.fbReadCmd, 0x00#8]])

theorem later_headed (s : State) : Later s s.headed 2 := (later_handling s).afterBus 2 _

theorem headed_afterBus (s : State) (n : Nat) (es : List BusEvent) :
    s.headed.afterBus n es = s.handling.afterBus (2 + n) (s.exchanges 0 [regRead s.cfg s.cfg.map.irqStatus]
      ++ s.transfer 1 [[s.cfg.profile.fbReadCmd, 0x00#8]] ++ es) := afterBus_afterBus _ _ _ _ _

section
variable {s : State} (hv : s.cfg.valid = true)
include hv

theorem receivePath_invalid (hgo : s.goThrough 2) (hlen : s.cfg.maxPhr < (s.secondByte 1).toNat) :
    receivePath s.ended = (do
      setTrxState (.receivedInvalid (s.secondByte 1))
      raise (.frameInvalid (s.secondByte 1))) s.headed := by
  have hread := (later_ended s).frameRead_invalid hv hgo hlen
  rw [State.ended, afterBus_afterBus] at hread
  exact (bind_ok (attempt_raised hread) :)

variable (hb : s.cfg.profile.bytewise = true) (hst : s.opState = .idle)
  (hend : (s.secondByte 0).getLsbD s.cfg.map.trxEndBit = true)
include hb hst hend

theorem exec_taskHandler_invalid (hgo : s.goThrough 2) (hlen : s.cfg.maxPhr < (s.secondByte 1).toNat) :
    exec .taskHandler s = .next (endsWith (setTrxState (.receivedInvalid (s.secondByte 1)) s.headed)
      (some (.frameInvalid (s.secondByte 1)))) := by
  have hexec := exec_taskHandler_ended hv hb (.inl hst) (goThrough_le hgo (by omega)) hend
  rw [hst] at hexec
  rw [hexec, ← endsWith_raising, ← receivePath_invalid hv hgo hlen]
  rfl

end

/-- Settles O43: after the header nothing is left but the re-apply and the raise of `FrameInvalid`. -/
theorem invalidLengthInTheReceivePath : Obligations.InvalidLengthInTheReceivePath := by
  unfold Obligations.InvalidLengthInTheReceivePath
  intro s hv hb hst hgo hend hlen
  have hexec := exec_taskHandler_invalid hv hb hst hend hgo hlen
  refine ⟨hexec, fun hgo6 hm => ?_, fun hfail => ?_, fun t ht hu => ?_⟩
  · have htarget := rxStateCmd_ne_forceTrxOff s.cfg
    have hset := (later_headed s).setTrxState_ok (call := .receivedInvalid (s.secondByte 1)) hv hb
      (by simpa [callCmd, htarget] using hgo6) hm
    rw [headed_afterBus] at hset
    rw [hexec, hset]
    simp only [callCmd, htarget, if_false]
    rfl
  · have hset := (later_headed s).setTrxState_failed hv hb (.receivedInvalid (s.secondByte 1)) hfail
    rw [headed_afterBus] at hset
    rw [hexec, hset]
    rfl
  · obtain rfl : endsWith (setTrxState (.receivedInvalid (s.secondByte 1)) s.headed)
        (some (.frameInvalid (s.secondByte 1))) = t := by simpa [hexec] using ht
    obtain ⟨hstate, hevq⟩ := endsWith_setTrxState_keeps ((later_headed s).uncutUntil hu)
    exact ⟨hstate.trans hst, hevq⟩

/-! ### A received frame (R177) -/

/-- The indication of the frame that s receives in these chunks, with this LQI byte (R147, R179). -/
def State.indication (s : State) (ps : List (List Byte)) (lqi : Byte) : Event :=
  .dataIndication
    ((s.received 2 ps).take
      (if s.cfg.rxSizeExcludesFcs then (s.secondByte 1).toNat - 2 else (s.secondByte 1).toNat))
    (if s.cfg.rxSizeExcludesFcs then (s.secondByte 1).toNat - 2 else (s.secondByte 1).toNat)
    lqi (rssiOf s.cfg (s.secondByte (2 + ps.length)) s.modulation)

/-- s after the frame read. -/
def State.frameTaken (s : State) (ps : List (List Byte)) : State :=
  { s.handling.afterBus (2 + ps.length) (s.exchanges 0 [regRead s.cfg s.cfg.map.irqStatus]
      ++ s.transfer 1 ([s.cfg.profile.fbReadCmd, 0x00#8] :: ps)) with
    rxbuf := s.rxbuf.writeRange 0 (s.secondByte 1 :: s.received 2 ps) }

/-- s after the receive path up to its re-apply. -/
def State.indicated (s : State) (ps : List (List Byte)) (lqi : Byte) : State :=
  { s.handling.afterBus (3 + ps.length) (s.exchanges 0 [regRead s.cfg s.cfg.map.irqStatus]
      ++ s.transfer 1 ([s.cfg.profile.fbReadCmd, 0x00#8] :: ps)
      ++ s.exchanges (2 + ps.length) [regRead s.cfg s.cfg.map.phyEdLevel]) with
    rxbuf := s.rxbuf.writeRange 0 (s.secondByte 1 :: s.received 2 ps)
    evq := [s.indication ps lqi] }

theorem later_frameTaken (s : State) (ps : List (List Byte)) : Later s (s.frameTaken ps) (2 + ps.length) :=
  ⟨rfl, rfl, rfl⟩

theorem later_indicated (s : State) (ps : List (List Byte)) (lqi : Byte) :
    Later s (s.indicated ps lqi) (3 + ps.length) :=
  ⟨rfl, rfl, rfl⟩

/-- The re-apply's exchanges follow the energy level read on the bus. -/
theorem indicated_afterBus (s : State) (ps : List (List Byte)) (lqi : Byte) (n : Nat) (txs : List (List Byte)) :
    (s.indicated ps lqi).afterBus n (s.exchanges (3 + ps.length) txs) =
      { s.handling.afterBus (3 + ps.length + n) (s.exchanges 0 [regRead s.cfg s.cfg.map.irqStatus]
          ++ s.transfer 1 ([s.cfg.profile.fbReadCmd, 0x00#8] :: ps)
          ++ s.exchanges (2 + ps.length) (regRead s.cfg s.cfg.map.phyEdLevel :: txs)) with
        rxbuf := s.rxbuf.writeRange 0 (s.secondByte 1 :: s.received 2 ps)
        evq := [s.indication ps lqi] } := by
  have htxs := exchanges_append s (2 + ps.length) [regRead s.cfg s.cfg.map.phyEdLevel] txs
  rw [List.length_singleton, show 2 + ps.length + 1 = 3 + ps.length by omega] at htxs
  rw [show regRead s.cfg s.cfg.map.phyEdLevel :: txs = [regRead s.cfg s.cfg.map.phyEdLevel] ++ txs from rfl, htxs,
    ← List.append_assoc, ← afterBus_afterBus]
  rfl

@[simp] theorem ended_opState (s : State) : s.ended.opState = s.opState := by simp [State.ended, State.handling]

@[simp] theorem ended_evq (s : State) : s.ended.evq = [] := by simp [State.ended, State.handling]

@[simp] theorem frameTaken_opState (s : State) (ps : List (List Byte)) : (s.frameTaken ps).opState = s.opState := by
  simp [State.frameTaken, State.handling]

@[simp] theorem frameTaken_evq (s : State) (ps : List (List Byte)) : (s.frameTaken ps).evq = [] := by
  simp [State.frameTaken, State.handling]

theorem frameTaken_afterBus (s : State) (ps : List (List Byte)) (es : List BusEvent) :
    (s.frameTaken ps).afterBus 1 es =
      { s.handling.afterBus (3 + ps.length) (s.exchanges 0 [regRead s.cfg s.cfg.map.irqStatus]
          ++ s.transfer 1 ([s.cfg.profile.fbReadCmd, 0x00#8] :: ps) ++ es) with
        rxbuf := s.rxbuf.writeRange 0 (s.secondByte 1 :: s.received 2 ps) } := by
  rw [show 3 + ps.length = 2 + ps.length + 1 by omega, ← afterBus_afterBus]
  rfl

theorem indicationOf_received {s : State} {ps : List (List Byte)} {lqi : Byte}
    (hlqi : (s.received 2 ps)[(s.secondByte 1).toNat]? = some lqi) :
    indicationOf s.cfg { len := s.secondByte 1, body := s.received 2 ps } (s.secondByte (2 + ps.length)) s.modulation
      = s.indication ps lqi := by
  simp [indicationOf, State.indication, rxSize, RxFrame.image, byteAt, hlqi]

section
variable {s : State} (hv : s.cfg.valid = true) {ps : List (List Byte)}
  (hlen : (s.secondByte 1).toNat ≤ s.cfg.maxPhr)
  (hps : chunksOf s.cfg.maxXfer (zeros ((s.secondByte 1).toNat + 1)) = ps)
include hv hlen hps

theorem frameRead_taken (hgo : s.goThrough (2 + ps.length)) :
    frameRead s.ended = .ok { len := s.secondByte 1, body := s.received 2 ps } (s.frameTaken ps) := by
  have hread := (later_ended s).frameRead_ok hv hlen hps (by rwa [← Nat.add_assoc])
  rw [State.ended, afterBus_afterBus, ← Nat.add_assoc] at hread
  exact hread

variable (hb : s.cfg.profile.bytewise = true)
include hb

/-- The frame and the energy level were read: what is left of the path is the re-apply. -/
theorem receivePath_indicated {lqi : Byte} (hlqi : (s.received 2 ps)[(s.secondByte 1).toNat]? = some lqi)
    (hgo : s.goThrough (3 + ps.length)) :
    receivePath s.ended = setTrxState .received (s.indicated ps lqi) := by
  have hframe := frameRead_taken hv hlen hps (goThrough_le hgo (by omega))
  have hlevel := (later_frameTaken s ps).memReadByte_ok hv hb (goThrough_le hgo (by omega)) s.cfg.map.phyEdLevel
  rw [frameTaken_afterBus] at hlevel
  have hpath : receivePath s.ended = (do
      emit (indicationOf s.cfg { len := s.secondByte 1, body := s.received 2 ps } (s.secondByte (2 + ps.length))
        s.modulation)
      setTrxState .received) _ := (bind_ok (attempt_ok hframe) :).trans (bind_ok hlevel :)
  rw [hpath, indicationOf_received hlqi]
  rfl

/-- One of the reads before the indication fails. -/
theorem receivePath_failed {k : Nat} (hk : k < 2 + ps.length) (hgo : s.goThrough (1 + k)) (hfail : s.failsAt (1 + k)) :
    ∃ e u, receivePath s.ended = .error (.raised e) u ∧ e.code = 0x01#8 ∧ u.opState = s.opState ∧ u.evq = [] := by
  have hframe : ∀ {j o u}, frameRead s.ended = .error (.raised (.transferFailed j o)) u →
      receivePath s.ended = .error (.raised (.transferFailed j o)) u := fun h => (bind_ok (attempt_raised h) :)
  obtain rfl | hk0 := Nat.eq_zero_or_pos k
  · exact ⟨_, _, hframe ((later_ended s).frameRead_header_failed hv hfail), rfl, by simp, by simp⟩
  obtain rfl | hk1 := Nat.eq_or_lt_of_le (show k ≤ 1 + ps.length by omega)
  · have htaken := frameRead_taken hv hlen hps (by rwa [← Nat.add_assoc] at hgo)
    have hlevel := (later_frameTaken s ps).memReadByte_failed hv hb (by rwa [← Nat.add_assoc] at hfail)
      s.cfg.map.phyEdLevel
    exact ⟨_, _, (bind_ok (attempt_ok htaken) :).trans (bind_error hlevel :), rfl, by simp, by simp⟩
  · obtain ⟨j, rfl⟩ : ∃ j, k = 1 + j := ⟨k - 1, by omega⟩
    obtain ⟨o, es, hread⟩ := (later_ended s).frameRead_body_failed hv hlen hps (by omega) hgo hfail
    exact ⟨_, _, hframe hread, rfl, by simp, by simp⟩

end

/-- Settles O42: the indication is emitted before the re-apply, which keeps the state and the events. -/
theorem receptionIsIndicatedOnce : Obligations.ReceptionIsIndicatedOnce := by
  unfold Obligations.ReceptionIsIndicatedOnce
  intro s ps lqi hv hb hst hend hlen hps hlqi
  have hchunks := (isChunking_unique hps).symm
  have hended : s.goThrough 1 → exec .taskHandler s = .next (endsWith (receivePath s.ended) none) := fun hgo => by
    have hexec := exec_taskHandler_ended hv hb (.inl hst) hgo hend
    rwa [hst] at hexec
  have hindicated : s.goThrough (3 + ps.length) →
      exec .taskHandler s = .next (endsWith (setTrxState .received (s.indicated ps lqi)) none) := fun hgo => by
    rw [hended (goThrough_le hgo (by omega)), receivePath_indicated hv hlen hchunks hb hlqi hgo]
  refine ⟨hindicated, fun t hgo ht hu => ?_, fun t k hk hgo hfail ht => ?_, fun hgo hm => ?_⟩
  · obtain rfl : endsWith (setTrxState .received (s.indicated ps lqi)) none = t := by simpa [hindicated hgo] using ht
    obtain ⟨hstate, hevq⟩ := endsWith_setTrxState_keeps ((later_indicated s ps lqi).uncutUntil hu)
    exact ⟨hstate.trans hst, hevq⟩
  · cases k with
    | zero =>
      rw [exec_taskHandler_failed hv hb (.inl hst) hfail] at ht
      cases ht
      exact ⟨hst, rfl, rfl⟩
    | succ k =>
      rw [Nat.add_comm] at hgo hfail
      obtain ⟨e, u, hpath, hcode, hstate, hevq⟩ := receivePath_failed hv hlen hchunks hb (k := k) (by omega) hgo hfail
      rw [hended (goThrough_le hgo (by omega)), hpath] at ht
      cases ht
      exact ⟨hstate.trans hst, hevq, hcode⟩
  · have htarget := rxStateCmd_ne_forceTrxOff s.cfg
    have hset := (later_indicated s ps lqi).setTrxState_ok (call := .received) hv hb
      (goThrough_le hgo (by simp [callCmd, htarget]; omega)) hm
    rw [indicated_afterBus] at hset
    rw [hindicated (goThrough_le hgo (by omega)), hset]
    simp only [callCmd, htarget, if_false, show 3 + ps.length + 4 = 7 + ps.length by omega]
    rfl

end Sys2Proof.Machine
end

section
/-! How a command that commits an operating state ends, whatever the chip answers (R181): OK with the new state
committed, or with an error or in a wait with the old one. -/

namespace Sys2Proof.Machine

/-! ### The errors of the bus -/

/-- `TransferFailed` and `ChipUnresponsive` (R230). -/
def BusError (e : Err) : Prop := e.code = 0x01#8 ∨ e.code = 0x02#8

section
variable {α β : Type}

/-- The piece raises nothing but `TransferFailed` and `ChipUnresponsive`. -/
def RaisesBusErrors (m : Seq α) : Prop :=
  Triple (fun _ => True) m (fun _ _ => True) (fun e _ => BusError e) fun _ => True

theorem RaisesBusErrors.bind {m : Seq α} {f : α → Seq β} (hm : RaisesBusErrors m) (hf : ∀ a, RaisesBusErrors (f a)) :
    RaisesBusErrors (m >>= f) := Triple.bind hm hf

theorem RaisesBusErrors.pure (a : α) : RaisesBusErrors (Pure.pure a) := fun _ _ => trivial

theorem RaisesBusErrors.update (g : State → State) : RaisesBusErrors (update g) := fun _ _ => trivial

theorem RaisesBusErrors.raise {e : Err} (he : BusError e) : RaisesBusErrors (raise e : Seq α) := fun _ _ => he

theorem RaisesBusErrors.config_bind {f : Config → Seq β} (h : ∀ c, RaisesBusErrors (f c)) :
    RaisesBusErrors (config >>= f) := fun s => h s.cfg s

theorem RaisesBusErrors.current_bind {f : State → Seq β} (h : ∀ s, RaisesBusErrors (f s)) :
    RaisesBusErrors (current >>= f) := fun s => h s s

end

theorem raisesBusErrors_csAssert : RaisesBusErrors csAssert := fun s _ => by
  simp only [csAssert]
  split <;> exact trivial

theorem raisesBusErrors_xfer (p : List Byte) : RaisesBusErrors (xfer p) := fun s _ => by
  simp only [xfer]
  split <;> exact trivial

theorem raisesBusErrors_sendChunks (ps : List (List Byte)) (k i : Nat) (rx : List Byte) :
    RaisesBusErrors (sendChunks ps k i rx) := by
  induction ps generalizing k i rx with
  | nil => exact .pure rx
  | cons p ps ih =>
    refine (raisesBusErrors_xfer p).bind fun answer => ?_
    split
    · exact ih _ _ _
    · exact (RaisesBusErrors.update _).bind fun _ => .raise (.inl rfl)

theorem raisesBusErrors_transaction (tx : List Byte) : RaisesBusErrors (transaction tx) :=
  raisesBusErrors_csAssert.bind fun _ =>
    (RaisesBusErrors.config_bind fun _ => raisesBusErrors_sendChunks _ _ _ _).bind fun _ =>
    (RaisesBusErrors.update _).bind fun _ => .pure _

theorem raisesBusErrors_memReadByte (a : RegAddr) : RaisesBusErrors (memReadByte a) :=
  (RaisesBusErrors.config_bind fun _ => (raisesBusErrors_transaction _).bind fun _ => .pure _).bind fun _ => .pure _

theorem raisesBusErrors_memWriteByte (a : RegAddr) (v : Byte) : RaisesBusErrors (memWriteByte a v) :=
  .config_bind fun _ => (raisesBusErrors_transaction _).bind fun _ => .pure _

theorem raisesBusErrors_writeTrxState (code : TrxCode) : RaisesBusErrors (writeTrxState code) :=
  .config_bind fun _ => raisesBusErrors_memWriteByte _ _

theorem raisesBusErrors_pollLoop (place : SeqStep) (awaited : TrxCode) (n : Nat) :
    RaisesBusErrors (pollLoop place awaited n) := by
  induction n with
  | zero => exact fun _ _ => trivial
  | succ n ih =>
    refine .config_bind fun _ => (raisesBusErrors_memReadByte _).bind fun _ =>
      (RaisesBusErrors.update _).bind fun _ => .current_bind fun _ => ?_
    split
    · exact .pure ()
    · split
      · exact .raise (.inr rfl)
      · exact ih

theorem raisesBusErrors_statePhase (call : StateCall) (phase : Phase) (cmd : TrxCmd) :
    RaisesBusErrors (statePhase call phase cmd) :=
  .config_bind fun _ => (raisesBusErrors_writeTrxState _).bind fun _ => (RaisesBusErrors.update _).bind fun _ =>
    .current_bind fun _ => raisesBusErrors_pollLoop _ _ _

theorem raisesBusErrors_setTrxState (call : StateCall) : RaisesBusErrors (setTrxState call) :=
  (raisesBusErrors_statePhase _ _ _).bind fun _ => .config_bind fun _ => by
    split
    · exact .pure ()
    · exact raisesBusErrors_statePhase _ _ _

theorem raisesBusErrors_cfgWriteLoop (a : RegAddr) (v : Byte) (n : Nat) : RaisesBusErrors (cfgWriteLoop a v n) := by
  have hwrite := raisesBusErrors_memWriteByte a v
  induction n with
  | zero =>
    exact Triple.attempt_bind hwrite (fun _ => RaisesBusErrors.pure ()) fun e =>
      .bind (.update fun _ he => he) fun _ => .raise fun _ he => he
  | succ n ih =>
    exact Triple.attempt_bind hwrite (fun _ => RaisesBusErrors.pure ()) fun e =>
      .bind (.update fun _ _ => trivial) fun _ => ih

theorem raisesBusErrors_cfgWrite (a : RegAddr) (v : Byte) : RaisesBusErrors (cfgWrite a v) :=
  (RaisesBusErrors.update _).bind fun _ => .config_bind fun _ => raisesBusErrors_cfgWriteLoop a v _

theorem raisesBusErrors_frameWriteSeq (f : List Byte) : RaisesBusErrors (frameWriteSeq f) :=
  ((RaisesBusErrors.update _).bind fun _ => .config_bind fun _ =>
    (raisesBusErrors_transaction _).bind fun _ => .pure ()).bind fun _ =>
    .config_bind fun _ => raisesBusErrors_writeTrxState _

/-! ### States along a command -/

/-- s lies along a command that began in s₀, and P holds of it. -/
def Along (s₀ : State) (P : State → Prop) (s : State) : Prop := (∃ n, Base s₀ s n) ∧ P s

/-- A command that began in s₀ stands in a wait without a bound, in a state like one where P held, or SRC reset cut
it. -/
def Halted (s₀ : State) (P : State → Prop) (t : State) : Prop :=
  (∃ u place, Along s₀ P u ∧ t = { u with seq := u.seq.map fun p => { p with step := place } })
    ∨ ∃ n, CutFrom s₀ t n

theorem Along.step {s₀ s t : State} {P P' : State → Prop} {n : Nat} (h : Along s₀ P s) (hb : Base s t n)
    (hP : P s → P' t) : Along s₀ P' t := by
  obtain ⟨⟨m, hm⟩, hPs⟩ := h
  exact ⟨⟨m + n, hm.trans hb⟩, hP hPs⟩

theorem Halted.waiting {s₀ t : State} {P : State → Prop} (h : Halted s₀ P t) (hu : s₀.uncutUntil t) :
    ∃ u place, Along s₀ P u ∧ t = { u with seq := u.seq.map fun p => { p with step := place } } := by
  obtain hwait | ⟨n, hcut⟩ := h
  · exact hwait
  · exact absurd hu hcut.not_uncutUntil

/-- A piece that runs with F keeps what F keeps. -/
theorem Runs.along {α : Type} {F : State → State → Prop} {m : Seq α} (h : Runs F m) {P : State → Prop}
    (hP : ∀ s t, F s t → P s → P t) (s₀ : State) :
    Triple (Along s₀ P) m (fun _ => Along s₀ P) (fun _ => Along s₀ P) (Halted s₀ P) := fun s hs => by
  obtain ⟨n, hn⟩ := h s
  cases hms : m s with
  | ok a t => rw [hms] at hn; exact hs.step hn.1 (hP s t hn.2)
  | error e t =>
    rw [hms] at hn
    cases e with
    | raised e => exact hs.step hn.1 (hP s t hn.2)
    | stopped =>
      obtain ⟨u, place, hb, hF, -, rfl⟩ | hcut := hn
      · exact .inl ⟨u, place, hs.step hb (hP s u hF), rfl⟩
      · obtain ⟨k, hk⟩ := hs.1
        exact .inr ⟨k + n, hk.cutFrom hcut⟩

end Sys2Proof.Machine
end

section
/-! INIT, SLEEP, WAKEUP and DATA_REQUEST, whatever the chip answers: each ends OK with its operating state committed, or
with an error of the bus or in a wait with the operating state it began in (R174, R181). -/

namespace Sys2Proof.Machine

/-! ### Pieces that commit nothing, and pieces that commit at their end -/

/-- The operating state and the events of a command that runs. -/
structure Control (st : OpState) (evs : List Event) (s : State) : Prop where
  opState : s.opState = st
  evq     : s.evq = evs
  busy    : s.busy = true

theorem KeepsControl.control {st : OpState} {evs : List Event} {s t : State} (h : KeepsControl s t)
    (hs : Control st evs s) : Control st evs t :=
  ⟨h.opState.trans hs.opState, h.evq.trans hs.evq, h.busy.trans hs.busy⟩

section
variable {α β : Type}

/-- The piece keeps operating state and events, and raises only the errors of the bus. -/
def CommitsNothing (m : Seq α) : Prop :=
  ∀ s₀ st evs, Triple (Along s₀ (Control st evs)) m (fun _ => Along s₀ (Control st evs))
    (fun e t => BusError e ∧ Along s₀ (Control st evs) t) (Halted s₀ (Control st evs))

/-- The piece ends with st committed and no event; it raises only the errors of the bus, with these events, and like
where it stops in the operating state it began in. -/
def Commits (st : OpState) (evs : List Event) (m : Seq Unit) : Prop :=
  ∀ s₀ st₀, Triple (Along s₀ (Control st₀ [])) m (fun _ => Along s₀ (Control st []))
    (fun e t => BusError e ∧ Along s₀ (Control st₀ evs) t) (Halted s₀ (Control st₀ []))

theorem Runs.commitsNothing {m : Seq α} (hm : Runs KeepsControl m) (he : RaisesBusErrors m) : CommitsNothing m :=
  fun s₀ _ _ =>
    ((hm.along (fun _ _ h => h.control) s₀).and he).mono (fun _ hs => ⟨hs, trivial⟩) (fun _ _ h => h.1)
      (fun _ _ h => h.symm) fun _ h => h.1

theorem CommitsNothing.then {st : OpState} {m : Seq α} {f : α → Seq Unit} (hm : CommitsNothing m)
    (hf : ∀ a, Commits st [] (f a)) : Commits st [] (m >>= f) :=
  fun s₀ st₀ => .bind (hm s₀ st₀ []) fun a => hf a s₀ st₀

theorem Commits.current_bind {st : OpState} {evs : List Event} {f : State → Seq Unit} (h : ∀ s, Commits st evs (f s)) :
    Commits st evs (current >>= f) := fun s₀ st₀ => .current_bind fun s _ => h s s₀ st₀

theorem Commits.config_bind {st : OpState} {evs : List Event} {f : Config → Seq Unit} (h : ∀ c, Commits st evs (f c)) :
    Commits st evs (config >>= f) := fun s₀ st₀ s => h s.cfg s₀ st₀ s

end

theorem commitsNothing_setTrxState (call : StateCall) : CommitsNothing (setTrxState call) :=
  (keepsControl_closed.setTrxState call).commitsNothing (raisesBusErrors_setTrxState call)

theorem commitsNothing_memReadByte (a : RegAddr) : CommitsNothing (memReadByte a) :=
  (keepsControl_closed.memReadByte a).commitsNothing (raisesBusErrors_memReadByte a)

theorem commitsNothing_cfgWrite (a : RegAddr) (v : Byte) : CommitsNothing (cfgWrite a v) :=
  (keepsControl_closed.cfgWrite a v).commitsNothing (raisesBusErrors_cfgWrite a v)

theorem commitsNothing_frameWriteSeq (f : List Byte) : CommitsNothing (frameWriteSeq f) :=
  (keepsControl_closed.frameWriteSeq f).commitsNothing (raisesBusErrors_frameWriteSeq f)

theorem commitsNothing_update {g : State → State} (hg : ∀ s, KeepsControl s (g s)) (hb : ∀ s, Base s (g s) 0) :
    CommitsNothing (update g) :=
  (Runs.update hg hb).commitsNothing (.update g)

/-! ### The four commands -/

theorem commits_commit (st : OpState) : Commits st [] (commit st) := fun _ _ =>
  .update fun _ hs => hs.step (.of_fields ⟨rfl, rfl, rfl⟩ rfl rfl rfl rfl rfl rfl) fun h => ⟨rfl, h.evq, h.busy⟩

theorem commitsNothing_powerCached :
    CommitsNothing (update fun s : State => { s with txPower := s.cfg.defaultTxPower }) :=
  commitsNothing_update (fun _ => ⟨rfl, rfl, rfl⟩) fun _ => .of_fields ⟨rfl, rfl, rfl⟩ rfl rfl rfl rfl rfl rfl

theorem commitsNothing_pulsedRst : CommitsNothing (update State.pulsedRst) :=
  commitsNothing_update (fun _ => ⟨rfl, rfl, rfl⟩) base_pulsedRst

theorem commits_initConfigure : Commits .idle [] initConfigure :=
  .current_bind fun _ =>
    (commitsNothing_cfgWrite _ _).then fun _ => (commitsNothing_cfgWrite _ _).then fun _ =>
    commitsNothing_powerCached.then fun _ => (commitsNothing_cfgWrite _ _).then fun _ =>
    (commitsNothing_setTrxState _).then fun _ => commits_commit .idle

theorem commits_init : Commits .idle [] (do update State.pulsedRst; setTrxState .initOff; initConfigure) :=
  commitsNothing_pulsedRst.then fun _ => (commitsNothing_setTrxState _).then fun _ => commits_initConfigure

theorem commits_setTrxState (call : StateCall) (st : OpState) : Commits st [] (do setTrxState call; commit st) :=
  (commitsNothing_setTrxState call).then fun _ => commits_commit st

theorem commits_requestSend (data : List Byte) : Commits .transmittingWaitEnd [] (requestSend data) :=
  (commitsNothing_frameWriteSeq data).then fun _ => commits_commit _

theorem commits_requestArmed (data : List Byte) : Commits .transmittingWaitEnd [] (requestArmed data) :=
  .config_bind fun _ => (commitsNothing_memReadByte _).then fun _ => by
    split
    · exact (commitsNothing_setTrxState _).then fun _ => commits_requestSend data
    · exact commits_requestSend data

theorem Commits.confirmOnError {st : OpState} {m : Seq Unit} (h : Commits st [] m) :
    Commits st [.dataConfirm .error] (confirmOnError m) := fun s₀ st₀ =>
  (h s₀ st₀).confirmOnError fun _ _ hs =>
    ⟨hs.1, hs.2.step (.of_fields ⟨rfl, rfl, rfl⟩ rfl rfl rfl rfl rfl rfl)
      fun hc => ⟨hc.opState, by simp [hc.evq], hc.busy⟩⟩

theorem commits_dataRequest (data : List Byte) : Commits .transmittingWaitEnd [.dataConfirm .error]
    (confirmOnError do
      setTrxState (.requestTransmit data)
      requestArmed data) :=
  Commits.confirmOnError <| (commitsNothing_setTrxState _).then fun _ => commits_requestArmed data

/-! ### How such a command ends -/

/-- From s, a command that commits st ended in t, or was left in a wait there. -/
inductive Committed (st : OpState) (evs : List Event) (s t : State) : Prop where
  | done (result : t.result = 0x00#8) (opState : t.opState = st)
      (delivered : t.delivered = s.delivered ++ [{ result := 0x00#8, retdata := [], events := [] }])
  | failed (e : Err) (err : BusError e) (result : t.result = e.code) (opState : t.opState = s.opState)
      (delivered : t.delivered = s.delivered ++ [{ result := e.code, retdata := [], events := evs }])
  | waiting (busy : t.busy = true) (opState : t.opState = s.opState) (delivered : t.delivered = s.delivered)

theorem Commits.committed {st : OpState} {evs : List Event} {m : Seq Unit} (h : Commits st evs m) {s : State}
    (hbusy : s.busy = true) (hevq : s.evq = []) (hu : s.uncutUntil (endsWith (m s) none)) :
    Committed st evs s (endsWith (m s) none) := by
  have hpost := h s s.opState s ⟨⟨0, .refl s⟩, rfl, hevq, hbusy⟩
  cases hm : m s with
  | ok a t =>
    rw [hm] at hpost
    obtain ⟨⟨n, hbase⟩, hcontrol⟩ := hpost
    exact .done rfl hcontrol.opState (by simp [endsWith, State.answered, hbase.delivered, hcontrol.evq])
  | error e t =>
    rw [hm] at hpost hu
    cases e with
    | raised e =>
      obtain ⟨he, ⟨n, hbase⟩, hcontrol⟩ := hpost
      exact .failed e he rfl hcontrol.opState (by simp [endsWith, State.answered, hbase.delivered, hcontrol.evq])
    | stopped =>
      obtain ⟨u, place, ⟨⟨n, hbase⟩, hcontrol⟩, rfl⟩ := Halted.waiting hpost hu
      exact .waiting hcontrol.busy hcontrol.opState hbase.delivered

/-- An accepted command whose pseudocode is m. -/
theorem Commits.exec {st : OpState} {evs : List Event} {m : Seq Unit} (h : Commits st evs m) {i : Instr} {s t : State}
    (hexec : exec i s = .next (endsWith (m (accept (take i s))) none))
    (ht : Machine.exec i s = .next t) (hu : s.uncutUntil t) : Committed st evs s t := by
  obtain rfl : endsWith (m (accept (take i s))) none = t := by simpa [hexec] using ht
  have hended := h.committed (s := accept (take i s)) rfl rfl hu
  cases hended with
  | done hr hst hd => exact .done hr hst hd
  | failed e he hr hst hd => exact .failed e he hr hst hd
  | waiting hb hst hd => exact .waiting hb hst hd

section
variable {s t : State}

theorem exec_init_accepted (hp : precheck s.cfg .init s.opState = none) :
    exec .init s = .next (endsWith ((do update State.pulsedRst; setTrxState .initOff; initConfigure)
      (accept (take .init s))) none) := by
  rw [exec_accepted (i := .init) rfl (checksOf_bytewise_state rfl rfl rfl) hp, driveRst_driveRst_run,
    ← finish_returning]
  simp only [bind_assoc, update_bind]

theorem exec_init_committed (hp : precheck s.cfg .init s.opState = none) (ht : exec .init s = .next t)
    (hu : s.uncutUntil t) : Committed .idle [] s t :=
  commits_init.exec (exec_init_accepted hp) ht hu

theorem exec_sleep_committed (hp : precheck s.cfg .sleep s.opState = none) (ht : exec .sleep s = .next t)
    (hu : s.uncutUntil t) : Committed .sleep [] s t := by
  have hexec := exec_accepted (s := s) (i := .sleep) rfl (checksOf_bytewise_state rfl rfl rfl) hp
  by_cases hst : s.opState = .sleep
  · have hnoop : exec .sleep s = .next (complete okCode [] none (accept (take .sleep s))) := by
      rw [hexec, current_bind]
      simp [hst]
    obtain rfl : complete okCode [] none (accept (take .sleep s)) = t := by simpa [hnoop] using ht
    exact .done rfl hst rfl
  · refine (commits_setTrxState .sleepOff .sleep).exec ?_ ht hu
    rw [hexec, current_bind, ← finish_returning]
    simp [hst]

theorem exec_wakeup_committed (hp : precheck s.cfg .wakeup s.opState = none) (ht : exec .wakeup s = .next t)
    (hu : s.uncutUntil t) : Committed .idle [] s t := by
  refine (commits_setTrxState .wakeupReceive .idle).exec ?_ ht hu
  rw [exec_accepted (i := .wakeup) rfl (checksOf_bytewise_state rfl rfl rfl) hp, ← finish_returning]
  simp only [bind_assoc]

theorem checksOf_dataRequest (data : List Byte) : ChecksOf (.dataRequest data) (do
    requireBytewise
    requireState (.dataRequest data)
    requireFrameFits data) :=
  ((requireBytewise_checksFor (i := .dataRequest data) rfl).bind ((requireState_checksFor _).bind
    (requireFrameFits_checksFor (i := .dataRequest data) rfl))).congr fun s => by
      simp [precheck_eq_or, argumentError, badArgument]

theorem exec_dataRequest_accepted {data : List Byte} (hp : precheck s.cfg (.dataRequest data) s.opState = none) :
    exec (.dataRequest data) s = .next (endsWith ((confirmOnError do
      setTrxState (.requestTransmit data)
      requestArmed data) (accept (take (.dataRequest data) s))) none) := by
  rw [exec_accepted (i := .dataRequest data) rfl (checksOf_dataRequest data) hp, finish_returning]

theorem exec_dataRequest_committed {data : List Byte} (hp : precheck s.cfg (.dataRequest data) s.opState = none)
    (ht : exec (.dataRequest data) s = .next t) (hu : s.uncutUntil t) :
    Committed .transmittingWaitEnd [.dataConfirm .error] s t :=
  (commits_dataRequest data).exec (exec_dataRequest_accepted hp) ht hu

end

/-! ### DATA_REQUEST (R174) -/

section
variable {s : State} {data : List Byte}

theorem precheck_dataRequest_idle (hb : s.cfg.profile.bytewise = true) (hst : s.opState = .idle)
    (hfit : data.length + 3 ≤ s.cfg.fbLimit) : precheck s.cfg (.dataRequest data) s.opState = none := by
  simp [precheck_eq_or, profileError, hb, argumentError, badArgument, stateError, legality, hst, frameError, frameOf,
    hfit]

/-- The first state change of DATA_REQUEST raises: the error is confirmed and raised again. -/
theorem exec_dataRequest_raised (hp : precheck s.cfg (.dataRequest data) s.opState = none) {e : Err} {u : State}
    (hset : setTrxState (.requestTransmit data) (accept (take (.dataRequest data) s)) = .error (.raised e) u) :
    exec (.dataRequest data) s
      = .next (u.answered e.code [] (some e) (u.evq ++ [.dataConfirm .error])) := by
  rw [exec_dataRequest_accepted hp, confirmOnError, bind_ok (attempt_raised (bind_error hset))]
  rfl

end

/-- Settles O39: every raise of the pseudocode is one of the bus and is confirmed, and only its end commits. -/
theorem failedDataRequestIsConfirmed : Obligations.FailedDataRequestIsConfirmed := by
  unfold Obligations.FailedDataRequestIsConfirmed
  intro data s hb hst hfit
  have hp := precheck_dataRequest_idle hb hst hfit
  refine ⟨fun t ht hu hfree => ?_, fun hv n => ?_⟩
  · cases exec_dataRequest_committed hp ht hu with
    | done hr hstate hd => exact .inl ⟨hr, hstate, hd⟩
    | failed e he hr hstate hd =>
      rw [← hr] at hd
      exact .inr ⟨hr ▸ he, hstate.trans hst, hd⟩
    | waiting hbusy => simp [hbusy] at hfree
  · have l := later_accepted (.dataRequest data) s
    refine ⟨fun hn => ?_, fun hn => ?_⟩
    · exact exec_dataRequest_raised hp (l.setTrxState_neverOff hv hb _ hn)
    · exact exec_dataRequest_raised hp (l.setTrxState_neverReaches (call := .requestTransmit data) hv hb hn)

end Sys2Proof.Machine
end

section
/-! What becomes of the operating state, in every run that SRC reset does not cut (R181). -/

namespace Sys2Proof.Machine

/-! ### The commands that commit an operating state -/

theorem code_ne_zero (e : Err) : e.code ≠ 0x00#8 := by cases e <;> simp [Err.code]

section
variable {s t : State}

theorem not_completedOk_of_delivered {x : Completion} (h : t.delivered = s.delivered ++ [x]) (hx : x.result ≠ 0x00#8) :
    ¬ s.completedOk t := by
  rintro ⟨ret, evs, hd⟩
  obtain rfl : x = { result := 0x00#8, retdata := ret, events := evs } := by simpa [h] using hd
  exact hx rfl

theorem Committed.opState_iff {st : OpState} {evs : List Event} (h : Committed st evs s t) :
    (s.completedOk t → t.opState = st) ∧ (¬ s.completedOk t → t.opState = s.opState) := by
  cases h with
  | done hr hst hd => exact ⟨fun _ => hst, fun hno => absurd ⟨[], [], hd⟩ hno⟩
  | failed e he hr hst hd =>
    exact ⟨fun hok => absurd hok (not_completedOk_of_delivered hd (code_ne_zero e)), fun _ => hst⟩
  | waiting hb hst hd => exact ⟨fun ⟨_, _, hok⟩ => by simp [hd] at hok, fun _ => hst⟩

/-- A command that commits st: an instruction that runs where it is legal, and else is refused (R181, R233). -/
theorem transition_row {i : Instr} {st : OpState} {evs : List Event} {P : Prop} (ht : exec i s = .next t)
    (hlegal : legality i s.opState ≠ .refuse → P)
    (hrun : precheck s.cfg i s.opState = none → Committed st evs s t) :
    (s.completedOk t → P ∧ t.opState = st) ∧ (¬ s.completedOk t → t.opState = s.opState) := by
  cases hp : precheck s.cfg i s.opState with
  | none =>
    obtain ⟨hok, hno⟩ := (hrun hp).opState_iff
    have hne : legality i s.opState ≠ .refuse := by
      intro hrefuse
      simp [precheck_eq_or, stateError, hrefuse] at hp
    exact ⟨fun h => ⟨hlegal hne, hok h⟩, hno⟩
  | some e =>
    obtain rfl : t = s.refused e [] := by simpa [ht] using (exec_isCommand i).refused hp
    exact ⟨fun hok => absurd hok (not_completedOk_of_delivered rfl (code_ne_zero e)), fun _ => rfl⟩

end

section
variable {st : OpState}

theorem init_legal_iff : legality .init st ≠ .refuse ↔ st = .initial := by cases st <;> simp [legality]

theorem sleep_legal_iff : legality .sleep st ≠ .refuse ↔ st = .idle ∨ st = .sleep := by
  cases st <;> simp [legality]

theorem wakeup_legal_iff : legality .wakeup st ≠ .refuse ↔ st = .idle ∨ st = .sleep := by
  cases st <;> simp [legality]

theorem dataRequest_legal_iff {d : List Byte} : legality (.dataRequest d) st ≠ .refuse ↔ st = .idle := by
  cases st <;> simp [legality]

end

/-! ### Commands and pieces that keep the operating state -/

/-- The operating state is as it was. -/
def KeepsState (s t : State) : Prop := t.opState = s.opState

theorem keepsState_closed : FrameClosed KeepsState where
  refl _ := rfl
  trans _ _ _ h h' := h'.trans h
  bus _ _ _ _ := rfl
  polls _ _ := rfl
  retries _ _ := rfl
  txbuf _ _ := rfl
  rxbuf _ _ := rfl
  cache _ _ _ h := h

theorem Ended.keepsState {s t : State} {n : Nat} (h : Ended KeepsState s t n) (hu : s.uncutUntil t) :
    t.opState = s.opState := by
  cases h with
  | ok u ret base rel done => exact done ▸ rel
  | failed u e base rel done => exact done ▸ rel
  | waiting u place base rel unbounded done => exact done ▸ rel
  | cut hcut => exact absurd hu hcut.not_uncutUntil

/-- A command that runs with `KeepsState`. -/
theorem IsCommand.keepsState {i : Instr} (h : IsCommand KeepsState i) {s t : State} (ht : exec i s = .next t)
    (hu : s.uncutUntil t) : t.opState = s.opState := by
  cases hp : precheck s.cfg i s.opState with
  | none =>
    obtain ⟨t', n, hexec, hended⟩ := h.accepted hp
    obtain rfl : t = t' := by simpa [ht] using hexec
    exact hended.keepsState hu
  | some e =>
    obtain rfl : t = s.refused e [] := by simpa [ht] using h.refused hp
    rfl

/-! ### TASK_HANDLER -/

/-- A piece that does not end leaves of what follows it nothing. -/
theorem finish_keepsState {α : Type} {m : Seq α} {f : α → Seq (List Byte)} {s : State} (hm : Runs KeepsState m)
    (hno : ∀ a t, m s ≠ .ok a t) (hu : s.uncutUntil (finish ((m >>= f) s))) :
    (finish ((m >>= f) s)).opState = s.opState := by
  obtain ⟨n, hended⟩ := finish_runs (keepsState_closed.returning (ret := fun _ => []) hm) s
  cases hms : m s with
  | ok a t => exact absurd hms (hno a t)
  | error e t =>
    rw [bind_error hms] at hended hu ⊢
    exact hended.keepsState hu

theorem receivePath_keepsState : Runs KeepsState receivePath :=
  .bind keepsState_closed.trans keepsState_closed.frameRead.attempt fun r => by
    have htrans := keepsState_closed.trans
    cases r with
    | ok f =>
      exact .config_bind fun _ => .bind htrans (keepsState_closed.memReadByte _) fun _ => .current_bind fun _ =>
        .bind htrans (.update (fun _ => rfl) fun _ => .of_fields ⟨rfl, rfl, rfl⟩ rfl rfl rfl rfl rfl rfl) fun _ =>
        keepsState_closed.setTrxState _
    | error e =>
      cases e with
      | frameInvalid l =>
        exact .bind htrans (keepsState_closed.setTrxState _) fun _ => .raise keepsState_closed.refl _
      | _ => exact .raise keepsState_closed.refl _

/-- The transmit-done path begins with the read of the transaction status (R178). -/
theorem transmitDonePath_reads_first (s : State) : ∃ f : Byte → Seq (List Byte),
    (do completionPath .transmittingWaitEnd; pure []) s = (memReadByte s.cfg.map.trxState >>= f) s :=
  ⟨_, by simp only [completionPath, transmitDonePath, bind_assoc, config_bind]; rfl⟩

section
variable {s t : State}

/-- In Idle every piece of TASK_HANDLER keeps the operating state (R177, R180). -/
theorem exec_taskHandler_idle_keeps (hb : s.cfg.profile.bytewise = true) (hst : s.opState = .idle)
    (ht : exec .taskHandler s = .next t) (hu : s.uncutUntil t) : t.opState = s.opState := by
  have htrans := keepsState_closed.trans
  rw [exec_taskHandler_awake hb (.inl hst), hst] at ht
  cases ht
  obtain ⟨n, hended⟩ := finish_runs (.bind htrans (keepsState_closed.memReadByte s.cfg.map.irqStatus) fun irq =>
    show Runs KeepsState (if trxEnd s.cfg irq then do
        completionPath .idle
        pure ([] : List Byte)
      else pure []) by
      split
      · exact keepsState_closed.returning (ret := fun _ => []) receivePath_keepsState
      · exact .pure keepsState_closed.refl _) s.handling
  exact hended.keepsState ((later_handling s).uncutUntil hu)

variable (hv : s.cfg.valid = true) (hb : s.cfg.profile.bytewise = true)
include hv hb

/-- A register read some chunks further on ends only where its chunk goes through. -/
theorem Later.goThrough_of_memReadByte_ok {u : State} {k : Nat} (l : Later s u k) (hgo : s.goThrough k) {a : RegAddr}
    {v : Byte} (h : memReadByte a u = .ok v t) : s.goThrough (k + 1) := by
  obtain ⟨-, hx, -⟩ := valid_limits hv
  have hlast := Machine.goThrough_of_memReadByte_ok (by rwa [l.cfg]) (by rw [l.cfg]; omega) h 0 Nat.one_pos
  rw [l.drawAt, Nat.add_zero] at hlast
  intro j hj
  obtain hj | rfl := Nat.lt_succ_iff_lt_or_eq.1 hj
  · exact hgo j hj
  · exact hlast

variable (hst : s.opState = .transmittingWaitEnd)
  (hno : ¬ (s.goThrough 2 ∧ (s.secondByte 0).getLsbD s.cfg.map.trxEndBit = true))
include hst hno

/-- Where the completion bit or the transaction status is not read, the operating state stays (R178). -/
theorem exec_taskHandler_unconfirmed_keeps (ht : exec .taskHandler s = .next t) (hu : s.uncutUntil t) :
    t.opState = s.opState := by
  by_cases hgo : s.goThrough 1
  · by_cases hend : (s.secondByte 0).getLsbD s.cfg.map.trxEndBit = true
    · obtain ⟨f, hf⟩ := transmitDonePath_reads_first s.ended
      have hexec := exec_taskHandler_ended hv hb (.inr hst) hgo hend
      rw [← State.ended, hst, ← finish_returning, hf] at hexec
      obtain rfl : finish ((memReadByte s.ended.cfg.map.trxState >>= f) s.ended) = t := by simpa [hexec] using ht
      have hkeeps := finish_keepsState (keepsState_closed.memReadByte _) (fun v u hread =>
        hno ⟨(later_ended s).goThrough_of_memReadByte_ok hv hb hgo hread, hend⟩) ((later_ended s).uncutUntil hu)
      exact hkeeps.trans (ended_opState s)
    · have hread := (later_handling s).memReadByte_ok hv hb hgo s.cfg.map.irqStatus
      have hbit : ¬ trxEnd s.cfg (s.secondByte 0) = true := hend
      rw [exec_taskHandler_awake hb (.inr hst), bind_ok hread, if_neg hbit] at ht
      cases ht
      rfl
  · rw [exec_taskHandler_awake hb (.inr hst)] at ht
    cases ht
    exact finish_keepsState (keepsState_closed.memReadByte s.cfg.map.irqStatus) (fun v u hread =>
      hgo ((later_handling s).goThrough_of_memReadByte_ok hv hb (fun _ hk => absurd hk (Nat.not_lt_zero _)) hread))
      ((later_handling s).uncutUntil hu)

end

/-- In Initial and Sleep TASK_HANDLER is a no-op (R176). -/
theorem exec_taskHandler_asleep {s : State} (hb : s.cfg.profile.bytewise = true)
    (hst : s.opState = .initial ∨ s.opState = .sleep) :
    exec .taskHandler s = .next (complete okCode [] none s.handling) := by
  have hbody := exec_accepted (s := s) (i := .taskHandler) rfl (checksOf_bytewise_state rfl rfl rfl)
    (precheck_stateCommand hb rfl rfl (by rcases hst with hst | hst <;> simp [legality, hst]))
  rw [← finish_ok]
  exact hbody.trans (congrArg (fun r => Host.Outcome.next (finish r)) (congrFun (if_pos hst) s.handling))

/-- TASK_HANDLER ends the transmission where it read the completion bit and the transaction status (R178). -/
theorem exec_taskHandler_opState {s t : State} (hv : s.cfg.valid = true) (hb : s.cfg.profile.bytewise = true)
    (ht : exec .taskHandler s = .next t) (hu : s.uncutUntil t) :
    (s.opState = .transmittingWaitEnd ∧ s.goThrough 2 ∧ (s.secondByte 0).getLsbD s.cfg.map.trxEndBit = true →
      t.opState = .idle)
    ∧ (¬ (s.opState = .transmittingWaitEnd ∧ s.goThrough 2
        ∧ (s.secondByte 0).getLsbD s.cfg.map.trxEndBit = true) → t.opState = s.opState) := by
  refine ⟨fun ⟨hst, hgo, hend⟩ => ?_, fun hno => ?_⟩
  · obtain ⟨-, hconfirmed, -⟩ := transmitDoneIsConfirmedOnce s hv hb hst (goThrough_le hgo (by omega)) hend
    exact (hconfirmed hgo t ht hu).1
  · have hasleep : s.opState = .initial ∨ s.opState = .sleep → t.opState = s.opState := fun hst => by
      rw [exec_taskHandler_asleep hb hst] at ht
      cases ht
      rfl
    cases hst : s.opState with
    | initial => exact (hasleep (.inl hst)).trans hst
    | sleep => exact (hasleep (.inr hst)).trans hst
    | idle => exact (exec_taskHandler_idle_keeps hb hst ht hu).trans hst
    | transmittingWaitEnd =>
      exact (exec_taskHandler_unconfirmed_keeps hv hb hst (fun h => hno ⟨hst, h⟩) ht hu).trans hst

/-! ### The table -/

/-- Settles O44: INIT, SLEEP, WAKEUP and DATA_REQUEST commit at their end alone, TASK_HANDLER where it confirms, and
every other command keeps the operating state at each piece. -/
theorem operatingStateTransitions : Obligations.OperatingStateTransitions := by
  unfold Obligations.OperatingStateTransitions
  intro i s t ht hu
  refine ⟨?_, ?_, ?_, ?_, ?_, ?_⟩
  · rintro rfl
    exact transition_row ht init_legal_iff.1 fun hp => exec_init_committed hp ht hu
  · rintro rfl
    exact transition_row ht sleep_legal_iff.1 fun hp => exec_sleep_committed hp ht hu
  · rintro rfl
    exact transition_row ht wakeup_legal_iff.1 fun hp => exec_wakeup_committed hp ht hu
  · rintro d rfl
    exact transition_row ht dataRequest_legal_iff.1 fun hp => exec_dataRequest_committed hp ht hu
  · rintro rfl hv hb
    exact exec_taskHandler_opState hv hb ht hu
  · rintro ⟨hi, hd⟩
    refine (keepsState_closed.isCommand ?_).keepsState ht hu
    cases i with
    | init | sleep | wakeup | taskHandler => simp at hi
    | dataRequest d => exact absurd rfl (hd d)
    | _ => rfl

end Sys2Proof.Machine
end

section
/-! INIT forces the chip off and sees it off before it configures it (R165). -/

namespace Sys2Proof.Machine

/-! ### Pieces that take one predicate on the events to another -/

/-- U holds of the events since the trace was tr. -/
def Traced (tr : List BusEvent) (U : List BusEvent → Prop) (t : State) : Prop := ∃ es, t.trace = tr ++ es ∧ U es

section
variable {c : Config} {tr : List BusEvent} {T T₁ T₂ T₃ U : List BusEvent → Prop} {α β : Type}

theorem On.traced {s : State} (h : On c tr T s) (hT : ∀ es, T es → U es) : Traced tr U s := by
  obtain ⟨-, es, htr, hes⟩ := h
  exact ⟨es, htr, hT es hes⟩

theorem CutOn.traced {t : State} (h : CutOn tr U t) : Traced tr U t := h.2

theorem LeftOn.traced {place : SeqStep} {t : State} (h : LeftOn c tr place T t) (hT : ∀ es, T es → U es) :
    Traced tr U t := by
  obtain ⟨u, hu, rfl⟩ := h
  exact hu.traced hT

/-- The piece takes T to T₁ where it ends; U holds however it ends. -/
def Traces (c : Config) (tr : List BusEvent) (U T : List BusEvent → Prop) (m : Seq α) (T₁ : List BusEvent → Prop) :
    Prop :=
  Triple (On c tr T) m (fun _ => On c tr T₁) (fun _ => Traced tr U) (Traced tr U)

theorem Traces.bind {m : Seq α} {f : α → Seq β} (hm : Traces c tr U T m T₁) (hf : ∀ a, Traces c tr U T₁ (f a) T₂) :
    Traces c tr U T (m >>= f) T₂ := Triple.bind hm hf

theorem Traces.current_bind {f : State → Seq β} (h : ∀ s, s.cfg = c → Traces c tr U T (f s) T₁) :
    Traces c tr U T (current >>= f) T₁ := Triple.current_bind fun s hs => h s hs.1

theorem Traces.update {g : State → State} (hc : ∀ s, (g s).cfg = s.cfg) (ht : ∀ s, (g s).trace = s.trace) :
    Traces c tr U T (update g) T := Triple.update fun s hs => hs.same (hc s) (ht s)

theorem Sends.of_chunk {tx : List Byte} (hT : Steady T) (h : ∀ es rx ok, T es → T₁ (es ++ [.chunk tx rx ok])) :
    Sends T tx T₁ := fun es rx ok hes => by
  simpa using h _ rx ok (hT es (.cs .asserted) rfl hes)

theorem Shows.of_chunk {code : TrxCode} (hT : Steady T) (hT₁ : Steady T₁)
    (h : ∀ es b r, T es → statusField c r = code → T₁ (es ++ [.chunk (regRead c c.map.trxStatus) [b, r] true])) :
    Shows c T code T₁ := fun es b r hes hr => by
  simpa using hT₁ _ (.cs .deasserted) rfl (h _ b r (hT es (.cs .asserted) rfl hes) hr)

/-- A status read that keeps T keeps it whatever it shows. -/
theorem Shows.of_sends {code : TrxCode} (hT : Steady T) (h : Sends T (regRead c c.map.trxStatus) T) :
    Shows c T code T := fun es b r hes _ => by
  simpa using hT _ (.cs .deasserted) rfl (h es [b, r] true hes)

section
variable (hb : c.profile.bytewise = true) (hx : 2 ≤ c.maxXfer) (hU : Steady U)
include hb hx hU

theorem statePhase_traces (call : StateCall) (phase : Phase) {cmd : TrxCmd} (hT : Within U T) (hT₁ : Within U T₁)
    (hsend : Sends T (stateWrite c (cmdCode c cmd)) T₁) (hread : Sends T₁ (regRead c c.map.trxStatus) T₁)
    (hmatch : Shows c T₁ (awaitedIn c call phase) T₂) : Traces c tr U T (statePhase call phase cmd) T₂ := by
  refine (statePhase_on hb hx call phase hU hT hT₁ hsend hread hmatch).mono (fun _ => id) (fun _ _ => id)
    (fun _ _ ht => ht.traced hT₁.le) ?_
  rintro t (hleft | hcut)
  · exact hleft.traced hT₁.le
  · exact hcut.traced

/-- A state change whose forced-off phase takes T to T₂ and whose target phase keeps T₂ (R160). -/
theorem setTrxState_traces (call : StateCall) (hT : Within U T) (hT₁ : Within U T₁) (hT₂ : Within U T₂)
    (hoff : Sends T (stateWrite c (cmdCode c .forceTrxOff)) T₁) (hread : Sends T₁ (regRead c c.map.trxStatus) T₁)
    (hmatch : Shows c T₁ c.map.stTrxOff T₂)
    (htarget : callCmd c call ≠ .forceTrxOff → Sends T₂ (stateWrite c (cmdCode c (callCmd c call))) T₂
      ∧ Sends T₂ (regRead c c.map.trxStatus) T₂) :
    Traces c tr U T (setTrxState call) T₂ := by
  refine .bind (statePhase_traces hb hx hU call .forcedOff hT hT₁ hoff hread hmatch) fun _ => ?_
  refine Triple.config_bind (fun _ hs => hs.1) ?_
  split
  · exact .pure fun _ => id
  · next hne =>
    obtain ⟨hsend, hread₂⟩ := htarget hne
    exact statePhase_traces hb hx hU call .target hT₂ hT₂ hsend hread₂ (.of_sends hT₂.steady hread₂)

theorem cfgWrite_traces {T : Nat → List BusEvent → Prop} {a : RegAddr} {v : Byte}
    (hT : ∀ k ≤ c.cfgRetryMax + 1, Within U (T k)) (hmono : Monotone T)
    (hsend : ∀ k ≤ c.cfgRetryMax, Sends (T k) (regWrite c a v) (T (k + 1))) :
    Traces c tr U (T 0) (cfgWrite a v) (T (c.cfgRetryMax + 1)) :=
  (cfgWrite_on hb hx hU hT hmono hsend).mono (fun _ => id) (fun _ _ => id) (fun _ _ ht => ht.traced (hT _ le_rfl).le)
    fun _ => CutOn.traced

end

/-- INIT's pulse on RST is no chunk. -/
theorem pulsedRst_traces (hT : Steady T) : Traces c tr U T (Machine.update State.pulsedRst) T :=
  Triple.update fun _ hs => hs.append rfl rfl fun _ hes => hT.append hes (by simp [noChunk])

/-- INIT, put together of its five exchanges with the chip (R166). -/
theorem init_traces {T₀ T₁ T₂ T₃ T₄ T₅ : List BusEvent → Prop} (h₀ : Steady T₀)
    (hoff : Traces c tr U T₀ (setTrxState .initOff) T₁)
    (hctrl1 : Traces c tr U T₁ (cfgWrite c.map.trxCtrl1 (trxCtrl1Value c)) T₂)
    (hctrl2 : ∀ s : State, Traces c tr U T₂ (cfgWrite c.map.trxCtrl2 (trxCtrl2Value c s.modulation)) T₃)
    (hpower : Traces c tr U T₃ (cfgWrite c.map.phyTxPwr c.defaultTxPower) T₄)
    (hreceive : Traces c tr U T₄ (setTrxState .initReceive) T₅) :
    Traces c tr U T₀ (do Machine.update State.pulsedRst; setTrxState .initOff; initConfigure) T₅ :=
  .bind (pulsedRst_traces h₀) fun _ => .bind hoff fun _ => .current_bind fun s hs => by
    subst hs
    exact .bind hctrl1 fun _ => .bind (hctrl2 s) fun _ => .bind (.update (fun _ => rfl) fun _ => rfl) fun _ =>
      .bind hpower fun _ => .bind hreceive fun _ => .update (fun _ => rfl) fun _ => rfl

end

/-! ### The order of INIT's chunks (R165) -/

/-- Where a list with one more element is split, the element is the one after the split, or it is the last one. -/
theorem concat_eq_append_cons {α : Type} {xs before after : List α} {x y : α}
    (h : xs ++ [x] = before ++ y :: after) :
    (after = [] ∧ xs = before ∧ x = y) ∨ ∃ after', after = after' ++ [x] ∧ xs = before ++ y :: after' := by
  obtain rfl | ⟨after', z, rfl⟩ := List.eq_nil_or_concat after
  · exact .inl (by simpa using h)
  · rw [List.concat_eq_append, ← List.cons_append, ← List.append_assoc] at h
    obtain ⟨hxs, hz⟩ := List.append_inj' h rfl
    exact .inr ⟨after', by rw [List.concat_eq_append, hz], hxs⟩

section
variable (c : Config)

/-- A status read that went through showed `TRX_OFF`. -/
def SawOff (es : List BusEvent) : Prop :=
  ∃ b r, .chunk (regRead c c.map.trxStatus) [b, r] true ∈ es ∧ statusField c r = c.map.stTrxOff

/-- What R165 asks of a chunk tx that INIT sends after these events. -/
structure InOrder (before : List BusEvent) (tx : List Byte) : Prop where
  first : chunksSent before = [] → tx = stateWrite c c.map.cmdForceTrxOff
  later : ∀ a v, a ∈ [c.map.trxCtrl1, c.map.trxCtrl2, c.map.phyTxPwr] → tx = regWrite c a v → SawOff c before

/-- Every chunk came in the order of R165. -/
def Ordered (es : List BusEvent) : Prop :=
  ∀ before tx rx ok after, es = before ++ .chunk tx rx ok :: after → InOrder c before tx

/-- No chunk was sent. -/
def Unsent (es : List BusEvent) : Prop := ∀ e ∈ es, noChunk e = true

/-- A chunk was sent, in the order of R165. -/
def Begun (es : List BusEvent) : Prop := Ordered c es ∧ chunksSent es ≠ []

/-- The chip was seen off. -/
def OffSeen (es : List BusEvent) : Prop := Begun c es ∧ SawOff c es

end

section
variable {c : Config}

theorem ordered_steady : Steady (Ordered c) := by
  rintro es e he h before tx rx ok after heq
  obtain ⟨-, -, rfl⟩ | ⟨after', -, hes⟩ := concat_eq_append_cons heq
  · cases he
  · exact h before tx rx ok after' hes

theorem Ordered.chunk {es : List BusEvent} (h : Ordered c es) {tx : List Byte} (htx : InOrder c es tx)
    (rx : List Byte) (ok : Bool) : Ordered c (es ++ [.chunk tx rx ok]) := by
  rintro before tx' rx' ok' after heq
  obtain ⟨-, rfl, hlast⟩ | ⟨after', -, hes⟩ := concat_eq_append_cons heq
  · obtain ⟨rfl, -, -⟩ := BusEvent.chunk.inj hlast
    exact htx
  · exact h before tx' rx' ok' after' hes

theorem chunksSent_chunk (es : List BusEvent) (tx rx : List Byte) (ok : Bool) :
    chunksSent (es ++ [.chunk tx rx ok]) = chunksSent es ++ [tx] := by
  simp [chunksSent]

theorem chunksSent_noChunk (es : List BusEvent) {e : BusEvent} (he : noChunk e = true) :
    chunksSent (es ++ [e]) = chunksSent es := by
  cases e with
  | chunk => cases he
  | _ => simp [chunksSent]

theorem unsent_within : Within (Ordered c) Unsent where
  steady es e he h := by
    intro e' he'
    rcases List.mem_append.1 he' with he' | he'
    · exact h e' he'
    · rwa [List.mem_singleton.1 he']
  le es h before tx rx ok after hes := by
    have hchunk := h (.chunk tx rx ok) (by simp [hes])
    cases hchunk

theorem begun_within : Within (Ordered c) (Begun c) where
  steady es e he h := ⟨ordered_steady es e he h.1, by rw [chunksSent_noChunk es he]; exact h.2⟩
  le _ h := h.1

theorem SawOff.append {es : List BusEvent} (h : SawOff c es) (fs : List BusEvent) : SawOff c (es ++ fs) := by
  obtain ⟨b, r, hmem, hr⟩ := h
  exact ⟨b, r, List.mem_append_left _ hmem, hr⟩

theorem offSeen_within : Within (Ordered c) (OffSeen c) where
  steady es e he h := ⟨begun_within.steady es e he h.1, h.2.append [e]⟩
  le _ h := h.1.1

theorem Begun.chunk {es : List BusEvent} (h : Begun c es) {tx : List Byte}
    (htx : ∀ a v, a ∈ [c.map.trxCtrl1, c.map.trxCtrl2, c.map.phyTxPwr] → tx = regWrite c a v → SawOff c es)
    (rx : List Byte) (ok : Bool) : Begun c (es ++ [.chunk tx rx ok]) :=
  ⟨h.1.chunk ⟨fun hnone => absurd hnone h.2, htx⟩ rx ok, by simp [chunksSent_chunk]⟩

/-- Once the chip was seen off, any chunk may come. -/
theorem sends_offSeen (tx : List Byte) : Sends (OffSeen c) tx (OffSeen c) :=
  .of_chunk offSeen_within.steady fun _ rx ok h => ⟨h.1.chunk (fun _ _ _ _ => h.2) rx ok, h.2.append _⟩

section
variable (hv : c.valid = true)
include hv

theorem regRead_ne_regWrite (a b : RegAddr) (v : Byte) : regRead c a ≠ regWrite c b v := by
  obtain ⟨⟨hr, hw, hne, -⟩, -⟩ := (Config.valid_iff c).1 hv
  intro h
  refine hne ?_
  rw [← regByte_highBits hr a, (List.cons.inj h).1, regByte_highBits hw]

theorem regWrite_inj {a b : RegAddr} {v w : Byte} (h : regWrite c a v = regWrite c b w) : a = b := by
  obtain ⟨⟨-, hw, -⟩, -⟩ := (Config.valid_iff c).1 hv
  exact regByte_inj hw (List.cons.inj h).1

theorem statusRead_begun : Sends (Begun c) (regRead c c.map.trxStatus) (Begun c) :=
  .of_chunk begun_within.steady fun _ rx ok h =>
    h.chunk (fun a v _ htx => absurd htx (regRead_ne_regWrite hv _ a v)) rx ok

theorem statusRead_seesOff : Shows c (Begun c) c.map.stTrxOff (OffSeen c) :=
  .of_chunk begun_within.steady offSeen_within.steady fun _ b r h hr =>
    ⟨h.chunk (fun a v _ htx => absurd htx (regRead_ne_regWrite hv _ a v)) [b, r] true,
      b, r, List.mem_append_right _ (List.mem_singleton.2 rfl), hr⟩

variable (hd : c.map.addrsDistinct = true)
include hd

theorem forceOff_begins : Sends Unsent (stateWrite c c.map.cmdForceTrxOff) (Begun c) :=
  .of_chunk (unsent_within (c := c)).steady fun es rx ok h => by
    refine ⟨(unsent_within.le es h).chunk ⟨fun _ => rfl, fun a v ha htx => ?_⟩ rx ok, by simp [chunksSent_chunk]⟩
    have hstate := regWrite_inj hv htx
    have hsub : [c.map.trxCtrl1, c.map.trxCtrl2, c.map.phyTxPwr] ⊆ configRegs c.map := by simp [configRegs]
    exact absurd hstate.symm (configRegs_ne_trxState hd a (hsub ha))

variable (hb : c.profile.bytewise = true)
include hb

/-- INIT keeps to the order from its first chunk to its last. -/
theorem init_ordered (tr : List BusEvent) : Traces c tr (Ordered c) Unsent
    (do update State.pulsedRst; setTrxState .initOff; initConfigure) (OffSeen c) := by
  obtain ⟨-, hx, -⟩ := valid_limits hv
  have hconfig : ∀ a v, Traces c tr (Ordered c) (OffSeen c) (cfgWrite a v) (OffSeen c) := fun a v =>
    cfgWrite_traces (T := fun _ => OffSeen c) hb (by omega) ordered_steady (fun _ _ => offSeen_within) monotone_const
      fun _ _ => sends_offSeen _
  refine init_traces (unsent_within (c := c)).steady ?_ (hconfig _ _) (fun _ => hconfig _ _) (hconfig _ _) ?_
  · exact setTrxState_traces hb (by omega) ordered_steady .initOff unsent_within begun_within offSeen_within
      (forceOff_begins hv hd) (statusRead_begun hv) (statusRead_seesOff hv) fun hne => absurd rfl hne
  · exact setTrxState_traces hb (by omega) ordered_steady .initReceive offSeen_within offSeen_within offSeen_within
      (sends_offSeen _) (sends_offSeen _) (.of_sends offSeen_within.steady (sends_offSeen _))
      fun _ => ⟨sends_offSeen _, sends_offSeen _⟩

end

end

/-! ### A command and what it traces -/

/-- A command that completed OK was not cut. -/
theorem uncutUntil_of_completedOk {i : Instr} {s t : State} (ht : exec i s = .next t) (hok : s.completedOk t) :
    s.uncutUntil t := by
  have hdelivered : t.delivered ≠ s.delivered := by
    obtain ⟨ret, evs, hd⟩ := hok
    simp [hd]
  have hbase : ∀ {u : State} {n : Nat}, Base (accept (take i s)) u n → t.draws = u.draws → s.uncutUntil t := by
    intro u n hbase hdraws k hk
    have hlater : u.draws = s.draws + n := hbase.later.draws
    exact hbase.uncut k (by omega)
  cases hp : precheck s.cfg i s.opState with
  | some e =>
    obtain rfl : t = s.refused e [] := by simpa [ht] using (exec_isCommand i).refused hp
    exact fun k hk => absurd hk (by simp [State.refused])
  | none =>
    obtain ⟨t', n, hexec, hended⟩ := (exec_isCommand i).accepted hp
    obtain rfl : t = t' := by simpa [ht] using hexec
    cases hended with
    | ok u ret base rel done => exact hbase base (done ▸ rfl)
    | failed u e base rel done => exact hbase base (done ▸ rfl)
    | waiting u place base rel unbounded done => exact hbase base (done ▸ rfl)
    | cut hcut =>
      obtain ⟨es, rfl, -⟩ := hcut.state
      exact absurd rfl hdelivered

/-- What holds of a command's last piece decides what holds of what the command leaves. -/
theorem Post.endsWith {Q : Unit → State → Prop} {E : Err → State → Prop} {S G : State → Prop}
    {r : EStateM.Result Abort State Unit} (h : Post Q E S r)
    (hQ : ∀ t, Q () t → G (t.answered 0x00#8 [] none t.evq))
    (hE : ∀ e t, E e t → G (t.answered e.code [] (some e) t.evq)) (hS : ∀ t, S t → G t) : G (endsWith r none) := by
  cases r with
  | ok a t => exact hQ t h
  | error e t =>
    cases e with
    | raised e => exact hE e t h
    | stopped => exact hS t h

/-- What holds of the events of a command's pseudocode holds of the command's. -/
theorem Traces.endsWith {c : Config} {tr : List BusEvent} {T T₁ U : List BusEvent → Prop} {m : Seq Unit}
    (h : Traces c tr U T m T₁) (hT₁ : ∀ es, T₁ es → U es) {s : State} (hs : On c tr T s) :
    Traced tr U (Machine.endsWith (m s) none) :=
  (h s hs).endsWith (fun _ ht => (On.traced ht hT₁ :)) (fun _ _ ht => ht) fun _ ht => ht

theorem precheck_init_initial {s : State} (hb : s.cfg.profile.bytewise = true) (hst : s.opState = .initial) :
    precheck s.cfg .init s.opState = none :=
  precheck_stateCommand hb rfl rfl (by simp [legality, hst])

/-- Settles O35: INIT's trace is followed from its first chunk on, and an INIT that completed OK was not cut and so
committed Idle. -/
theorem initForcesOffBeforeConfiguring : Obligations.InitForcesOffBeforeConfiguring := by
  unfold Obligations.InitForcesOffBeforeConfiguring
  intro s t es hv hb hd hst ht htrace
  have hordered : Ordered s.cfg es := by
    have htraced := (init_ordered hv hd hb s.trace).endsWith offSeen_within.le (s := accept (take .init s))
      ⟨rfl, [], by simp, by simp [Unsent]⟩
    rw [exec_init_accepted (precheck_init_initial hb hst)] at ht
    cases ht
    obtain ⟨es', htrace', hes'⟩ := htraced
    obtain rfl : es = es' := List.append_cancel_left (htrace.symm.trans htrace')
    exact hes'
  refine ⟨fun before tx rx ok after hes => (hordered before tx rx ok after hes).first,
    fun before a v rx ok after ha hes => (hordered before _ rx ok after hes).later a v ha rfl, fun hok => ?_⟩
  obtain ⟨hinit, -⟩ := operatingStateTransitions .init s t ht (uncutUntil_of_completedOk ht hok)
  exact ((hinit rfl).1 hok).2

end Sys2Proof.Machine
end

section
/-! INIT's failures and retries (R166, R218): the next states where its first chunk fails, where the chip is never seen
off and where a configuration write fails at every attempt, and what every run of it sends. -/

namespace Sys2Proof.Machine

/-! ### A configuration write that fails at every attempt (R218) -/

/-- A chunk that fails, in a transaction of its own, looks the same at any answer. -/
theorem brokenTransfer_nil (s t : State) (j k : Nat) (p : List Byte) :
    s.brokenTransfer j [] p = t.brokenTransfer k [] p := rfl

/-- s with this many failed attempts counted. -/
def State.withRetries (s : State) (n : Nat) : State := { s with retryCount := n }

theorem later_withRetries {s u : State} {k : Nat} (l : Later s u k) (n : Nat) : Later s (u.withRetries n) k :=
  ⟨l.chip, l.draws, l.cfg⟩

theorem withRetries_afterBus (s : State) (r n : Nat) (es : List BusEvent) :
    (s.withRetries r).afterBus n es = (s.afterBus n es).withRetries r := rfl

section
variable {s : State} (hb : s.cfg.profile.bytewise = true) (hx : 2 ≤ s.cfg.maxXfer) (a : RegAddr) (v : Byte)
include hb hx

theorem cfgWriteLoop_exhausted (n : Nat) (hfail : ∀ k ≤ n, s.failsAt k) :
    cfgWriteLoop a v n s = .error (.raised (.transferFailed 0 0))
      ((s.afterBus (n + 1) (List.replicate (n + 1) (s.brokenTransfer 0 [] (regWrite s.cfg a v))).flatten).withRetries
        (s.retryCount + (n + 1))) := by
  induction n generalizing s with
  | zero =>
    have hwrite := attempt_raised (memWriteByte_failed hb hx (hfail 0 (Nat.zero_le _)) a v)
    rw [cfgWriteLoop, bind_ok hwrite]
    simp [raise, State.withRetries]
  | succ n ih =>
    have hwrite := attempt_raised (memWriteByte_failed hb hx (hfail 0 (Nat.zero_le _)) a v)
    have l := later_withRetries (later_afterBus s 1 (s.brokenTransfer 0 [] (regWrite s.cfg a v))) (s.retryCount + 1)
    have hrest : cfgWriteLoop a v n
        ((s.afterBus 1 (s.brokenTransfer 0 [] (regWrite s.cfg a v))).withRetries (s.retryCount + 1)) =
          .error (.raised (.transferFailed 0 0)) (((s.afterBus 1 (s.brokenTransfer 0 [] (regWrite s.cfg a v))).afterBus
            (n + 1) (List.replicate (n + 1) (s.brokenTransfer 0 [] (regWrite s.cfg a v))).flatten).withRetries
            (s.retryCount + 1 + (n + 1))) :=
      ih hb hx fun k hk => l.failsAt (hfail (1 + k) (by omega))
    rw [cfgWriteLoop, bind_ok hwrite]
    refine Eq.trans hrest ?_
    rw [afterBus_afterBus, List.replicate_succ (n := n + 1), List.flatten_cons, Nat.add_comm 1 (n + 1),
      Nat.add_assoc s.retryCount, Nat.add_comm 1 (n + 1)]

theorem cfgWrite_exhausted (hfail : ∀ k ≤ s.cfg.cfgRetryMax, s.failsAt k) :
    cfgWrite a v s = .error (.raised (.transferFailed 0 0))
      ((s.afterBus (s.cfg.cfgRetryMax + 1)
        (List.replicate (s.cfg.cfgRetryMax + 1) (s.brokenTransfer 0 [] (regWrite s.cfg a v))).flatten).withRetries
        (s.cfg.cfgRetryMax + 1)) := by
  have hloop := cfgWriteLoop_exhausted (s := s.withRetries 0) hb hx a v s.cfg.cfgRetryMax hfail
  rw [brokenTransfer_nil _ s 0 0, withRetries_afterBus] at hloop
  refine Eq.trans hloop ?_
  simp [State.withRetries]

end

/-! ### INIT where a piece of it fails -/

/-- INIT accepted, and RST pulsed. -/
def State.initBegun (s : State) : State := (accept (take .init s)).pulsedRst

theorem later_initBegun (s : State) : Later s s.initBegun 0 := ⟨rfl, rfl, rfl⟩

/-- What INIT does to the bus comes after the pulse. -/
theorem initBegun_afterBus (s : State) (n : Nat) (es : List BusEvent) :
    s.initBegun.afterBus n es =
      { (accept (take .init s)).afterBus n ([.rst .asserted, .rst .deasserted] ++ es) with rst := .deasserted } := by
  simp [State.initBegun, State.pulsedRst, State.afterBus]
  rfl

section
variable {s : State} (hv : s.cfg.valid = true) (hb : s.cfg.profile.bytewise = true) (hst : s.opState = .initial)
include hb hst

theorem exec_init_begun :
    exec .init s = .next (endsWith ((do setTrxState .initOff; initConfigure) s.initBegun) none) :=
  exec_init_accepted (precheck_init_initial hb hst)

include hv

theorem exec_init_first_failed (hfail : s.failsAt 0) : exec .init s = .next (State.answeredErr
    { s.afterBus 1 ([.rst .asserted, .rst .deasserted]
        ++ s.brokenTransfer 0 [] (stateWrite s.cfg s.cfg.map.cmdForceTrxOff)) with
      rst := .deasserted } (.transferFailed 0 0)) := by
  rw [exec_init_begun hb hst, bind_error ((later_initBegun s).setTrxState_failed hv hb _ hfail), initBegun_afterBus]
  rfl

theorem exec_init_neverOff {n : Nat} (hn : s.neverOff 0 n) : exec .init s = .next (State.answeredErr
    { s.afterNeverOff [.rst .asserted, .rst .deasserted] n with rst := .deasserted } (s.offError 0 n)) := by
  rw [exec_init_begun hb hst, bind_error ((later_initBegun s).setTrxState_neverOff hv hb _ hn), initBegun_afterBus]
  rfl

theorem exec_init_config_failed (hgo : s.goThrough 2) (hm : s.pollsMatch 0 .forceTrxOff)
    (hfail : ∀ k, k ≤ s.cfg.cfgRetryMax → s.failsAt (2 + k)) : exec .init s = .next (State.answeredErr
      { s.afterBus (2 + (s.cfg.cfgRetryMax + 1))
          ([.rst .asserted, .rst .deasserted] ++ s.exchanges 0 (trxExchanges s.cfg .forceTrxOff)
            ++ (List.replicate (s.cfg.cfgRetryMax + 1) (s.brokenTransfer 0 []
              (regWrite s.cfg s.cfg.map.trxCtrl1 (trxCtrl1Value s.cfg)))).flatten) with
        rst := .deasserted
        pollCount := 1
        retryCount := s.cfg.cfgRetryMax + 1 } (.transferFailed 0 0)) := by
  obtain ⟨-, hx, -⟩ := valid_limits hv
  have hset := (later_initBegun s).setTrxState_ok (call := .initOff) hv hb (by simpa [callCmd] using hgo) hm
  have l := later_withPolls ((later_initBegun s).afterBus 2 (s.exchanges 0 (trxExchanges s.cfg .forceTrxOff))) 1
  have hwrite := cfgWrite_exhausted (s := (s.initBegun.afterBus 2
    (s.exchanges 0 (trxExchanges s.cfg .forceTrxOff))).withPolls 1) hb (by rw [l.cfg]; omega) s.cfg.map.trxCtrl1
    (trxCtrl1Value s.cfg) fun k hk => l.failsAt (hfail k hk)
  rw [exec_init_begun hb hst, bind_ok hset]
  refine (congrArg (fun r => Host.Outcome.next (endsWith r none)) (bind_error hwrite)).trans ?_
  rw [withPolls_afterBus, afterBus_afterBus, initBegun_afterBus, List.append_assoc]
  rfl

end

end Sys2Proof.Machine
end

section
/-! What every run of INIT sends (R166, R218): each configuration write at most 1 + `CFG_RETRY_MAX` times, and no chunk
after a failed one that is none of them. -/

namespace Sys2Proof.Machine

/-! ### How often a chunk is sent -/

/-- The chunk w was sent at most k times. -/
def SentAtMost (w : List Byte) (k : Nat) (es : List BusEvent) : Prop := (chunksSent es).count w ≤ k

section
variable {c : Config} {tr : List BusEvent} {w : List Byte} {k n : Nat}

theorem sentAtMost_monotone : Monotone (SentAtMost w) := fun _ _ hkn _ h => Nat.le_trans h hkn

theorem sentAtMost_within (h : k ≤ n) : Within (SentAtMost w n) (SentAtMost w k) where
  steady es e he hes := by rw [SentAtMost, chunksSent_noChunk es he]; exact hes
  le es hes := Nat.le_trans hes h

theorem sentAtMost_steady : Steady (SentAtMost w k) := (sentAtMost_within (le_refl k)).steady

theorem sends_sentAtMost_succ (tx : List Byte) : Sends (SentAtMost w k) tx (SentAtMost w (k + 1)) :=
  .of_chunk sentAtMost_steady fun es rx ok hes => by
    rw [SentAtMost, chunksSent_chunk, List.count_append]
    exact Nat.add_le_add hes List.count_le_length

theorem sends_sentAtMost {tx : List Byte} (h : tx ≠ w) : Sends (SentAtMost w k) tx (SentAtMost w k) :=
  .of_chunk sentAtMost_steady fun es rx ok hes => by
    rw [SentAtMost, chunksSent_chunk, List.count_append, List.count_singleton, beq_eq_false_iff_ne.2 h]
    exact hes

section
variable (hb : c.profile.bytewise = true) (hx : 2 ≤ c.maxXfer)
include hb hx

/-- A configuration write sends it at most 1 + `CFG_RETRY_MAX` times (R218). -/
theorem cfgWrite_sentAtMost (a : RegAddr) (v : Byte) : Traces c tr (SentAtMost w (c.cfgRetryMax + 1)) (SentAtMost w 0)
    (cfgWrite a v) (SentAtMost w (c.cfgRetryMax + 1)) :=
  cfgWrite_traces hb hx sentAtMost_steady (fun _ hk => sentAtMost_within hk) sentAtMost_monotone
    fun _ _ => sends_sentAtMost_succ _

/-- A configuration write of another chunk does not send it. -/
theorem cfgWrite_other (hk : k ≤ n) {a : RegAddr} {v : Byte} (h : regWrite c a v ≠ w) :
    Traces c tr (SentAtMost w n) (SentAtMost w k) (cfgWrite a v) (SentAtMost w k) :=
  cfgWrite_traces (T := fun _ => SentAtMost w k) hb hx sentAtMost_steady (fun _ _ => sentAtMost_within hk)
    monotone_const fun _ _ => sends_sentAtMost h

variable (hv : c.valid = true)
include hv

/-- A state change does not send it, where it is a write to another register. -/
theorem setTrxState_sentAtMost (call : StateCall) (hk : k ≤ n) {a : RegAddr} {v : Byte} (ha : a ≠ c.map.trxState)
    (hw : w = regWrite c a v) :
    Traces c tr (SentAtMost w n) (SentAtMost w k) (setTrxState call) (SentAtMost w k) := by
  have hin := sentAtMost_within (w := w) hk
  have hwrite : ∀ code, Sends (SentAtMost w k) (stateWrite c code) (SentAtMost w k) := fun code =>
    sends_sentAtMost fun h => ha (regWrite_inj hv (hw ▸ h)).symm
  have hread : Sends (SentAtMost w k) (regRead c c.map.trxStatus) (SentAtMost w k) :=
    sends_sentAtMost fun h => regRead_ne_regWrite hv _ _ _ (hw ▸ h)
  exact setTrxState_traces hb hx sentAtMost_steady call hin hin hin (hwrite _) hread (.of_sends hin.steady hread)
    fun _ => ⟨hwrite _, hread⟩

variable (hd : c.map.addrsDistinct = true)
include hd

/-- One of INIT's three configuration writes sends it, and nothing else does. -/
theorem init_sentAtMost {s : State} (hs : s.cfg = c) (hw : w ∈ initWrites s) :
    Traces c tr (SentAtMost w (c.cfgRetryMax + 1)) (SentAtMost w 0)
      (do update State.pulsedRst; setTrxState .initOff; initConfigure) (SentAtMost w (c.cfgRetryMax + 1)) := by
  subst hs
  have hregs : s.cfg.map.trxCtrl1 ≠ s.cfg.map.trxCtrl2 ∧ s.cfg.map.trxCtrl1 ≠ s.cfg.map.phyTxPwr
      ∧ s.cfg.map.phyTxPwr ≠ s.cfg.map.trxCtrl2 := by
    simp only [ChipMap.addrsDistinct, decide_eq_true_eq, List.nodup_cons, List.mem_cons, not_or] at hd
    simp [hd]
  obtain ⟨h12, h1p, hp2⟩ := hregs
  have hother : ∀ {a b : RegAddr} {u v : Byte}, a ≠ b → regWrite s.cfg a u ≠ regWrite s.cfg b v := fun hab h =>
    hab (regWrite_inj hv h)
  have hstate := configRegs_ne_trxState hd
  have hzero : 0 ≤ s.cfg.cfgRetryMax + 1 := Nat.zero_le _
  have hcounts := fun a v => cfgWrite_sentAtMost (tr := tr) (w := w) hb hx a v
  simp only [initWrites, List.mem_cons, List.not_mem_nil, or_false] at hw
  rcases hw with hw | hw | hw
  · have hcall := fun call {k n} (hk : k ≤ n) => setTrxState_sentAtMost (tr := tr) hb hx hv call hk
      (hstate _ (by simp [configRegs])) hw
    exact init_traces sentAtMost_steady (hcall _ hzero) (hcounts _ _)
      (fun _ => cfgWrite_other hb hx le_rfl (hw ▸ hother h12.symm))
      (cfgWrite_other hb hx le_rfl (hw ▸ hother h1p.symm)) (hcall _ le_rfl)
  · have hcall := fun call {k n} (hk : k ≤ n) => setTrxState_sentAtMost (tr := tr) hb hx hv call hk
      (hstate _ (by simp [configRegs])) hw
    exact init_traces sentAtMost_steady (hcall _ hzero) (cfgWrite_other hb hx hzero (hw ▸ hother h12))
      (fun _ => hcounts _ _) (cfgWrite_other hb hx le_rfl (hw ▸ hother hp2)) (hcall _ le_rfl)
  · have hcall := fun call {k n} (hk : k ≤ n) => setTrxState_sentAtMost (tr := tr) hb hx hv call hk
      (hstate _ (by simp [configRegs])) hw
    exact init_traces sentAtMost_steady (hcall _ hzero) (cfgWrite_other hb hx hzero (hw ▸ hother h1p))
      (fun _ => cfgWrite_other hb hx hzero (hw ▸ hother hp2.symm)) (hcounts _ _) (hcall _ le_rfl)

end

end

/-! ### Which chunk may fail and be sent again -/

/-- Every chunk that failed is one of ws. -/
def FailedOnly (ws : List (List Byte)) (es : List BusEvent) : Prop := ∀ tx rx, .chunk tx rx false ∈ es → tx ∈ ws

/-- As there, and one more failed chunk right before the end. -/
def BreaksOff (ws : List (List Byte)) (es : List BusEvent) : Prop :=
  ∃ before tx, es = before ++ [.chunk tx [] false, .cs .deasserted] ∧ FailedOnly ws before

section
variable {ws : List (List Byte)}

theorem FailedOnly.append {es fs : List BusEvent} (h : FailedOnly ws es) (h' : FailedOnly ws fs) :
    FailedOnly ws (es ++ fs) := fun tx rx hmem => (List.mem_append.1 hmem).elim (h tx rx) (h' tx rx)

theorem failedOnly_of_notFailed {es : List BusEvent} (h : ∀ e ∈ es, notFailed e = true) : FailedOnly ws es :=
  fun tx rx hmem => by cases h _ hmem

theorem failedOnly_steady : Steady (FailedOnly ws) := fun es e he h =>
  h.append fun tx rx hmem => by
    rw [← List.mem_singleton.1 hmem] at he
    cases he

theorem sends_failedOnly {tx : List Byte} (htx : tx ∈ ws) : Sends (FailedOnly ws) tx (FailedOnly ws) :=
  .of_chunk failedOnly_steady fun es rx ok h => h.append fun tx' rx' hmem => by
    obtain ⟨rfl, -, -⟩ := BusEvent.chunk.inj (List.mem_singleton.1 hmem)
    exact htx

/-- In a trace that broke off, a failed chunk that is none of ws is the one at the end. -/
theorem BreaksOff.rest_eq {es before rest : List BusEvent} {tx : List Byte} (h : BreaksOff ws es)
    (hes : es = before ++ .chunk tx [] false :: rest) (htx : tx ∉ ws) : rest = [.cs .deasserted] := by
  obtain ⟨before', tx', hes', hfailed⟩ := h
  have hsplit : (before' ++ [.chunk tx' [] false]) ++ [.cs .deasserted] = before ++ .chunk tx [] false :: rest := by
    rw [← hes, hes', List.append_assoc]
    rfl
  obtain ⟨-, -, hlast⟩ | ⟨rest', rfl, hsplit'⟩ := concat_eq_append_cons hsplit
  · cases hlast
  · obtain ⟨rfl, -, -⟩ | ⟨rest'', -, hbefore⟩ := concat_eq_append_cons hsplit'
    · rfl
    · exact absurd (hfailed tx [] (by simp [hbefore])) htx

end

/-! ### INIT's failed chunks -/

section
variable (ws : List (List Byte)) (s₀ : State)

/-- Along a run from s₀ that has kept the cached modulation, only chunks of ws failed. -/
def Retrying (s : State) : Prop :=
  Along s₀ (fun u => u.modulation = s₀.modulation) s ∧ Traced s₀.trace (FailedOnly ws) s

/-- What a raise of e leaves: another failed chunk was the last, and e is `TransferFailed`. -/
def RaisedAfter (e : Err) (t : State) : Prop :=
  Traced s₀.trace (FailedOnly ws) t ∨ Traced s₀.trace (BreaksOff ws) t ∧ e.code = 0x01#8

/-- A wait, or a run that SRC reset cut. -/
def StoppedAfter (t : State) : Prop :=
  Traced s₀.trace (FailedOnly ws) t ∨ t.busy = false ∧ t.delivered = s₀.delivered

/-- The piece goes on after a failed chunk of ws alone. -/
def RetriesOnly {α : Type} (m : Seq α) : Prop :=
  Triple (Retrying ws s₀) m (fun _ => Retrying ws s₀) (RaisedAfter ws s₀) (StoppedAfter ws s₀)

end

section
variable {ws : List (List Byte)} {s₀ : State} {α β : Type}

theorem RetriesOnly.bind {m : Seq α} {f : α → Seq β} (hm : RetriesOnly ws s₀ m) (hf : ∀ a, RetriesOnly ws s₀ (f a)) :
    RetriesOnly ws s₀ (m >>= f) := Triple.bind hm hf

theorem Unfailed.traced {s t : State} (h : Unfailed s t) (hs : Traced s₀.trace (FailedOnly ws) s) :
    Traced s₀.trace (FailedOnly ws) t := by
  obtain ⟨-, fs, htrace, hfs⟩ := h
  obtain ⟨es, hs, hes⟩ := hs
  exact ⟨es ++ fs, by rw [htrace, hs, List.append_assoc], hes.append (failedOnly_of_notFailed hfs)⟩

theorem BrokenOff.traced {s t : State} (h : BrokenOff s t) (hs : Traced s₀.trace (FailedOnly ws) s) :
    Traced s₀.trace (BreaksOff ws) t := by
  obtain ⟨-, before, tx, htrace, hbefore⟩ := h
  obtain ⟨es, hs, hes⟩ := hs
  exact ⟨_, by rw [htrace, hs, List.append_assoc], es ++ before, tx, by rw [List.append_assoc],
    hes.append (failedOnly_of_notFailed hbefore)⟩

/-- The cached modulation is as it was. -/
def KeepsModulation (s t : State) : Prop := t.modulation = s.modulation

theorem keepsModulation_closed : BusClosed KeepsModulation where
  refl _ := rfl
  trans _ _ _ h h' := h'.trans h
  bus _ _ _ _ := rfl

/-- A piece that ends at a failed chunk. -/
theorem StopsAtFailure.retriesOnly {m : Seq α} (h : StopsAtFailure m) (hm : Runs KeepsModulation m) :
    RetriesOnly ws s₀ m := fun s ⟨halong, htraced⟩ => by
  have hends := h s
  have hkeeps := hm.along (P := fun u => u.modulation = s₀.modulation) (fun _ _ h hs => h.trans hs) s₀ s halong
  obtain ⟨⟨n, hbase⟩, -⟩ := halong
  cases hms : m s with
  | ok a t =>
    rw [hms] at hends hkeeps
    exact ⟨hkeeps, hends.traced htraced⟩
  | error e t =>
    rw [hms] at hends
    cases e with
    | raised e => exact hends.imp (·.traced htraced) fun ⟨hbroken, he⟩ => ⟨hbroken.traced htraced, he⟩
    | stopped => exact hends.imp (·.traced htraced) fun ⟨hfree, hd⟩ => ⟨hfree, hd.trans hbase.delivered⟩

theorem setTrxState_retriesOnly (call : StateCall) : RetriesOnly ws s₀ (setTrxState call) :=
  (stops_setTrxState call).retriesOnly (setTrxState_runs keepsModulation_closed (fun _ _ => rfl) call)

theorem update_retriesOnly {g : State → State} (hg : ∀ s, KeepsModulation s (g s)) (hbase : ∀ s, Base s (g s) 0)
    (hunfailed : ∀ s, Unfailed s (g s)) : RetriesOnly ws s₀ (update g) :=
  (StopsAtFailure.update hunfailed).retriesOnly (.update hg hbase)

section
variable (hb : s₀.cfg.profile.bytewise = true) (hx : 2 ≤ s₀.cfg.maxXfer)
include hb hx

theorem cfgWrite_retriesOnly {a : RegAddr} {v : Byte} (hw : regWrite s₀.cfg a v ∈ ws) :
    RetriesOnly ws s₀ (cfgWrite a v) := by
  have hin : Within (FailedOnly ws) (FailedOnly ws) := ⟨failedOnly_steady, fun _ => id⟩
  have hkeeps := (cfgWrite_runs keepsModulation_closed (fun _ _ => rfl) a v).along
    (P := fun u => u.modulation = s₀.modulation) (fun _ _ h hs => h.trans hs) s₀
  have htraces := cfgWrite_traces (tr := s₀.trace) (T := fun _ => FailedOnly ws) hb hx failedOnly_steady
    (fun _ _ => hin) monotone_const fun _ _ => sends_failedOnly hw
  refine (Triple.and hkeeps htraces).mono (fun s hs => ⟨hs.1, ?_⟩) (fun _ t ht => ⟨ht.1, ht.2.traced fun _ => id⟩)
    (fun _ _ ht => .inl ht.2) fun _ ht => .inl ht.2
  obtain ⟨⟨⟨n, hbase⟩, -⟩, htraced⟩ := hs
  exact ⟨hbase.later.cfg, htraced⟩

end

theorem pulsedRst_retriesOnly : RetriesOnly ws s₀ (update State.pulsedRst) :=
  update_retriesOnly (fun _ => rfl) base_pulsedRst fun _ =>
    ⟨rfl, [.rst .asserted, .rst .deasserted], rfl, by simp [notFailed]⟩

theorem powerCached_retriesOnly :
    RetriesOnly ws s₀ (update fun s : State => { s with txPower := s.cfg.defaultTxPower }) :=
  update_retriesOnly (fun _ => rfl) (fun _ => .of_fields ⟨rfl, rfl, rfl⟩ rfl rfl rfl rfl rfl rfl)
    fun _ => .of_same rfl rfl

theorem commit_retriesOnly (st : OpState) : RetriesOnly ws s₀ (commit st) :=
  update_retriesOnly (fun _ => rfl) (fun _ => .of_fields ⟨rfl, rfl, rfl⟩ rfl rfl rfl rfl rfl rfl)
    fun _ => .of_same rfl rfl

/-- INIT goes on after a failed configuration write alone (R166, R218). -/
theorem init_retriesOnly (hb : s₀.cfg.profile.bytewise = true) (hx : 2 ≤ s₀.cfg.maxXfer) :
    RetriesOnly (initWrites s₀) s₀ (do update State.pulsedRst; setTrxState .initOff; initConfigure) := by
  refine pulsedRst_retriesOnly.bind fun _ => (setTrxState_retriesOnly _).bind fun _ =>
    Triple.current_bind fun s hs => ?_
  obtain ⟨⟨⟨n, hbase⟩, hmod⟩, -⟩ := hs
  have hcfg : s.cfg = s₀.cfg := hbase.later.cfg
  rw [hcfg, hmod]
  exact (cfgWrite_retriesOnly hb hx (by simp [initWrites])).bind fun _ =>
    (cfgWrite_retriesOnly hb hx (by simp [initWrites])).bind fun _ => powerCached_retriesOnly.bind fun _ =>
    (cfgWrite_retriesOnly hb hx (by simp [initWrites])).bind fun _ => (setTrxState_retriesOnly _).bind fun _ =>
    commit_retriesOnly _

/-- What a command with such a pseudocode leaves. -/
def EndedRetrying (ws : List (List Byte)) (s₀ t : State) : Prop :=
  (Traced s₀.trace (FailedOnly ws) t ∨ Traced s₀.trace (BreaksOff ws) t ∧ t.result = 0x01#8)
    ∨ t.busy = false ∧ t.delivered = s₀.delivered

theorem RetriesOnly.endedRetrying {m : Seq Unit} (h : RetriesOnly ws s₀ m) {s : State} (hs : Retrying ws s₀ s) :
    EndedRetrying ws s₀ (endsWith (m s) none) :=
  (h s hs).endsWith (fun _ ht => .inl (.inl ht.2)) (fun _ _ ht => .inl ht) fun _ ht => ht.imp_left .inl

end

section
variable {s t : State} (hv : s.cfg.valid = true) (hb : s.cfg.profile.bytewise = true) (hst : s.opState = .initial)
  (ht : exec .init s = .next t)
include hv hb hst ht

/-- INIT's trace after a run that was not cut. -/
theorem exec_init_failedOnly (hu : s.uncutUntil t) : Traced s.trace (FailedOnly (initWrites s)) t
    ∨ Traced s.trace (BreaksOff (initWrites s)) t ∧ t.result = 0x01#8 := by
  obtain ⟨-, hx, -⟩ := valid_limits hv
  have hbegin : Retrying (initWrites s) s (accept (take .init s)) :=
    ⟨⟨⟨0, .of_fields ⟨rfl, rfl, rfl⟩ rfl rfl rfl rfl rfl rfl⟩, rfl⟩, [], by simp, by simp [FailedOnly]⟩
  have hended := (init_retriesOnly hb (by omega)).endedRetrying hbegin
  obtain rfl := Host.Outcome.next.inj ((exec_init_accepted (precheck_init_initial hb hst)).symm.trans ht)
  obtain hended | ⟨hfree, hd⟩ := hended
  · exact hended
  · exact absurd hd (exec_delivers ht hu hfree)

theorem exec_init_sentAtMost (hd : s.cfg.map.addrsDistinct = true) {w : List Byte} (hw : w ∈ initWrites s) :
    Traced s.trace (SentAtMost w (s.cfg.cfgRetryMax + 1)) t := by
  obtain ⟨-, hx, -⟩ := valid_limits hv
  obtain rfl := Host.Outcome.next.inj ((exec_init_accepted (precheck_init_initial hb hst)).symm.trans ht)
  exact (init_sentAtMost hb (by omega) hv hd rfl hw).endsWith (fun _ => id)
    ⟨rfl, [], by simp, by simp [SentAtMost, chunksSent]⟩

end

/-- Settles O59: the runs named are evaluated; of every run the chunks are counted, and the failed ones
followed, along its pieces. -/
theorem initRetriesOnlyItsConfigurationWrites : Obligations.InitRetriesOnlyItsConfigurationWrites := by
  unfold Obligations.InitRetriesOnlyItsConfigurationWrites
  intro s hv hb hst
  refine ⟨exec_init_first_failed hv hb hst, fun n => exec_init_neverOff hv hb hst,
    exec_init_config_failed hv hb hst, fun t es hd ht hu htrace => ⟨fun hfree => ?_, fun w hw => ?_, ?_⟩⟩
  · cases exec_init_committed (precheck_init_initial hb hst) ht hu with
    | done hr hstate => exact .inl ⟨hr, hstate⟩
    | failed e he hr hstate => exact .inr ⟨hr ▸ he, hstate.trans hst⟩
    | waiting hbusy => simp [hbusy] at hfree
  · obtain ⟨es', htrace', hsent⟩ := exec_init_sentAtMost hv hb hst ht hd hw
    obtain rfl : es = es' := List.append_cancel_left (htrace.symm.trans htrace')
    exact Nat.add_comm s.cfg.cfgRetryMax 1 ▸ hsent
  · intro before tx rest hes htx
    obtain ⟨es', htrace', hfailed⟩ | ⟨⟨es', htrace', hbroken⟩, hr⟩ := exec_init_failedOnly hv hb hst ht hu
    · obtain rfl : es = es' := List.append_cancel_left (htrace.symm.trans htrace')
      exact absurd (hfailed tx [] (by simp [hes])) htx
    · obtain rfl : es = es' := List.append_cancel_left (htrace.symm.trans htrace')
      exact ⟨hbroken.rest_eq hes htx, hr⟩

end Sys2Proof.Machine
end

section
/-! RSSI_BASE_VALUE (R216, R217): no check, no bus traffic, and the constant the cached modulation selects. -/

namespace Sys2Proof.Machine

theorem exec_rssiBaseValue (s : State) :
    exec .rssiBaseValue s = .next (s.answeredOk [rssiBaseOf s.cfg s.modulation]) := rfl

/-- The bits of the modulation that select the constant. -/
theorem rssiBits_asR59 {m : ChipMap} (h : m.fieldsAsR59 = true) :
    m.oqpskBit = 3 ∧ m.subModeBit = 2 ∧ m.rcBit = 4 := by
  simp only [ChipMap.fieldsAsR59, Bool.and_eq_true, beq_iff_eq] at h
  simp [h]

/-- Settles O47: the command reads the cache alone, and `rssiBaseOf` is the table of R217 on the bits of R59. -/
theorem rssiBaseValueIsPure : Obligations.RssiBaseValueIsPure := by
  unfold Obligations.RssiBaseValueIsPure
  refine fun s => ⟨exec_rssiBaseValue s, fun hmap => ?_, by decide⟩
  obtain ⟨hoqpsk, hsub, hrc⟩ := rssiBits_asR59 hmap
  rw [exec_rssiBaseValue, rssiBaseOf, hoqpsk, hsub, hrc]
  refine ⟨fun h3 h2 => ?_, fun h3 h2 => ?_, fun h3 h2 => ?_, fun h3 h2 h4 => ?_, fun h3 h2 h4 => ?_⟩
  · rw [h3, h2]
  · rw [h3, h2]
  · rw [h3, h2]
  · rw [h3, h2, h4]
  · rw [h3, h2, h4]

end Sys2Proof.Machine
end

section
/-! Configuration commands (R200 to R214): each passes its checks, writes its cache field, and is then a list of
`CfgWrite`s, whatever the chip answers one after another. -/

namespace Sys2Proof.Machine

/-! ### What a list of configuration writes leaves alone -/

/-- s without what a configuration write changes: the bus, the chip's answers with the IRQ flag they set, and the retry
count. -/
def State.offBus (s : State) : State :=
  { s with cs := .deasserted, irqFlag := false, trace := [], chip := [], draws := 0, retryCount := 0 }

/-- From s to t nothing else was written. -/
def SameOffBus (s t : State) : Prop := t.offBus = s.offBus

theorem sameOffBus_closed : BusClosed SameOffBus where
  refl _ := rfl
  trans _ _ _ h h' := h'.trans h
  bus _ _ _ _ := rfl

/-- `CfgWrite` of these registers and values, in order. -/
def cfgWrites : List (RegAddr × Byte) → Seq Unit
  | [] => pure ()
  | (a, v) :: ws => do
    cfgWrite a v
    cfgWrites ws

theorem cfgWrites_singleton (a : RegAddr) (v : Byte) : cfgWrites [(a, v)] = cfgWrite a v :=
  bind_pure (cfgWrite a v)

/-- A configuration write, and after it writes that the parameters and the cache decide. -/
theorem cfgWrite_then {m : Seq Unit} {f : State → List (RegAddr × Byte)} (hf : ∀ u, f u = f u.offBus)
    (hm : ∀ u, m u = cfgWrites (f u) u) (a : RegAddr) (v : Byte) (t : State) :
    (do cfgWrite a v; m) t = cfgWrites ((a, v) :: f t) t := by
  obtain ⟨n, hn⟩ := cfgWrite_runs sameOffBus_closed (fun _ _ => rfl) a v t
  simp only [cfgWrites, bind_run]
  cases hw : cfgWrite a v t with
  | error e u => rfl
  | ok x u =>
    rw [hw] at hn
    have hsame : f u = f t := by rw [hf u, hf t, hn.2]
    exact (hm u).trans (by rw [hsame])

/-! ### The commands as lists of configuration writes -/

/-- What `WriteChannelRegs()` writes (R204). -/
def channelReg (s : State) : RegAddr × Byte :=
  if s.band = 0#8 then (s.cfg.map.phyCcCca, phyCcCcaValue s.cfg s.channel) else (s.cfg.map.ccCtrl0, s.channel)

/-- What `WriteSeed()` writes (R211). -/
def seedReg (s : State) : RegAddr × Byte := (s.cfg.map.csmaSeed0, seedOf s.shortAddr)

theorem writeChannelRegs_run (s : State) : writeChannelRegs s = cfgWrites [channelReg s] s := by
  simp only [writeChannelRegs, current_bind, channelReg]
  split <;> rw [cfgWrites_singleton]

theorem writeSeed_run (s : State) : writeSeed s = cfgWrites [seedReg s] s := by
  rw [seedReg, cfgWrites_singleton]
  rfl

/-- The two bytes of an address, then the seed (R209, R212). -/
theorem addressWrites_run (a b : RegAddr) (v w : Byte) (s : State) :
    (do cfgWrite a v; cfgWrite b w; writeSeed) s = cfgWrites [(a, v), (b, w), seedReg s] s :=
  cfgWrite_then (f := fun u => [(b, w), seedReg u]) (fun _ => rfl)
    (cfgWrite_then (f := fun u => [seedReg u]) (fun _ => rfl) writeSeed_run b w) a v s

/-- The registers a configuration command writes and their values, in the order its rule lists them, where the cache
of s holds the new value already. -/
def registerWrites (s : State) : Instr → List (RegAddr × Byte)
  | .setChannel _ => [channelReg s]
  | .setBand b => [(s.cfg.map.ccCtrl1, ccCtrl1Value s.cfg b), channelReg s]
  | .setModulation m => [(s.cfg.map.trxCtrl2, trxCtrl2Value s.cfg m)]
  | .setPanId p => [(s.cfg.map.panId0, lowByte p), (s.cfg.map.panId1, highByte p), seedReg s]
  | .setShortAddress a => [(s.cfg.map.shortAddr0, lowByte a), (s.cfg.map.shortAddr1, highByte a), seedReg s]
  | .setTxPower p => [(s.cfg.map.phyTxPwr, p)]
  | _ => []

theorem regWrite_channelReg (s : State) :
    regWrite s.cfg (channelReg s).1 (channelReg s).2 = channelWrite s.cfg s.band s.channel := by
  simp only [channelReg, channelWrite]
  split <;> rfl

/-- The bytes of those writes are `configWrites`. -/
theorem map_registerWrites (s : State) (i : Instr) :
    (registerWrites (withCache s i) i).map (fun w => regWrite s.cfg w.1 w.2) = configWrites s i := by
  cases i with
  | setChannel ch => exact congrArg ([·]) (regWrite_channelReg { s with channel := ch })
  | setBand b => exact congrArg ([_, ·]) (regWrite_channelReg { s with band := b })
  | _ => rfl

/-- s with configuration command i accepted and its cache field written (R202). -/
def State.cached (s : State) (i : Instr) : State := withCache (accept (take i s)) i

theorem cached_eq (s : State) (i : Instr) : s.cached i =
    { withCache s i with busy := true, seq := some { cmd := i, step := .start }, evq := [] } := by
  cases i <;> rfl

theorem cached_opState (s : State) (i : Instr) : (s.cached i).opState = s.opState := by
  cases i <;> rfl

theorem cached_trace (s : State) (i : Instr) : (s.cached i).trace = s.trace := by
  cases i <;> rfl

theorem cached_delivered (s : State) (i : Instr) : (s.cached i).delivered = s.delivered := by
  cases i <;> rfl

theorem later_cached (s : State) (i : Instr) : Later s (s.cached i) 0 := by
  cases i <;> exact ⟨rfl, rfl, rfl⟩

section
variable {i : Instr} {s t : State}

theorem legality_of_isConfiguration (hi : isConfiguration i = true) (st : OpState) :
    legality i st = afterInit st := by
  cases i with
  | setChannel | setBand | setModulation | setPanId | setShortAddress | setTxPower => rfl
  | _ => cases hi

theorem frameOf_of_isConfiguration (hi : isConfiguration i = true) : frameOf i = none := by
  cases i with
  | setChannel | setBand | setModulation | setPanId | setShortAddress | setTxPower => rfl
  | _ => cases hi

theorem precheck_configuration (hi : isConfiguration i = true) (ha : badArgument i = none)
    (hb : s.cfg.profile.bytewise = true) :
    precheck s.cfg i s.opState = if s.opState = .initial then some (.invalidState .initial) else none := by
  by_cases hst : s.opState = .initial <;>
    simp [precheck_eq_or, profileError, hb, argumentError, ha, stateError, legality_of_isConfiguration hi,
      afterInit_eq_refuse_iff, frameError, frameOf_of_isConfiguration hi, hst]

/-- A command that writes its cache field first, and whose pseudocode is then m, these configuration writes. -/
theorem exec_cached {checks : Seq Unit} {body : Seq (List Byte)} {m : Seq Unit} {ws : List (RegAddr × Byte)}
    (hexec : exec i s = command i checks (do update fun u => withCache u i; body) s) (hchecks : ChecksOf i checks)
    (hp : precheck s.cfg i s.opState = none)
    (hbody : body (s.cached i) = (do m; pure ([] : List Byte)) (s.cached i))
    (hm : m (s.cached i) = cfgWrites ws (s.cached i)) :
    exec i s = .next (endsWith (cfgWrites ws (s.cached i)) none) := by
  rw [exec_accepted hexec hchecks hp, update_bind, ← State.cached, hbody, finish_returning, hm]

/-- A configuration command that passes its checks is its cache write and its configuration writes (R202). -/
theorem exec_configuration (hi : isConfiguration i = true) (hp : precheck s.cfg i s.opState = none) :
    exec i s = .next (endsWith (cfgWrites (registerWrites (withCache s i) i) (s.cached i)) none) := by
  cases i with
  | setChannel ch =>
    exact exec_cached rfl (checksOf_bytewise_state rfl rfl rfl) hp rfl (writeChannelRegs_run _)
  | setBand b =>
    exact exec_cached rfl (checksOf_setBand b) hp (by simp only [config_bind, bind_assoc]; rfl)
      (cfgWrite_then (f := fun u => [channelReg u]) (fun _ => rfl) writeChannelRegs_run _ _ _)
  | setPanId p =>
    exact exec_cached rfl (checksOf_bytewise_state rfl rfl rfl) hp (by simp only [config_bind, bind_assoc]; rfl)
      (addressWrites_run _ _ _ _ _)
  | setShortAddress a =>
    exact exec_cached rfl (checksOf_bytewise_state rfl rfl rfl) hp (by simp only [config_bind, bind_assoc]; rfl)
      (addressWrites_run _ _ _ _ _)
  | setModulation m =>
    exact exec_cached rfl (checksOf_bytewise_state rfl rfl rfl) hp rfl
      (by rw [registerWrites, cfgWrites_singleton]; rfl)
  | setTxPower p =>
    exact exec_cached rfl (checksOf_bytewise_state rfl rfl rfl) hp rfl
      (by rw [registerWrites, cfgWrites_singleton]; rfl)
  | _ => cases hi

end

/-! ### How such a list ends, whatever the chip answers -/

/-- SRC reset cut a run from s in t. -/
def CutShort (s t : State) : Prop := ∃ n, CutFrom s t n

/-- A transaction raises `TransferFailed` alone, and only SRC reset stops it. -/
theorem transaction_raised_or_cut {tx : List Byte} (hne : tx ≠ []) (s : State) :
    Post (fun _ _ => True) (fun e _ => e.code = 0x01#8) (CutShort s) (transaction tx s) := by
  obtain hgo | ⟨j, hj, hgo, hstop⟩ := first_stop s (chunksOf s.cfg.maxXfer tx).length
  · rw [transaction_ok hne hgo]
    trivial
  · have hsplit : chunksOf s.cfg.maxXfer tx = (chunksOf s.cfg.maxXfer tx).take j
        ++ (chunksOf s.cfg.maxXfer tx)[j] :: (chunksOf s.cfg.maxXfer tx).drop (j + 1) := by
      rw [List.cons_getElem_drop_succ, List.take_append_drop]
    have hlen : ((chunksOf s.cfg.maxXfer tx).take j).length = j := by rw [List.length_take]; omega
    rw [← hlen] at hgo hstop
    obtain hfail | ⟨c, hcut⟩ := hstop
    · rw [transaction_failed hsplit hgo hfail]
      rfl
    · obtain ⟨t, ht, hct⟩ := transaction_cut hsplit hgo hcut
      rw [ht]
      exact ⟨_, hct⟩

/-- Along a run from s₀ that wrote only the bus, the piece does so too: it raises `TransferFailed` alone, and only SRC
reset stops it. -/
def WritesAlong (s₀ : State) {α : Type} (m : Seq α) : Prop :=
  Triple (Along s₀ (SameOffBus s₀)) m (fun _ => Along s₀ (SameOffBus s₀))
    (fun e t => e.code = 0x01#8 ∧ Along s₀ (SameOffBus s₀) t) (CutShort s₀)

section
variable (s₀ : State)

theorem transaction_writesAlong {tx : List Byte} (hne : tx ≠ []) : WritesAlong s₀ (transaction tx) := fun s hs => by
  have hkeeps := (transaction_runs sameOffBus_closed hne).along (P := SameOffBus s₀) (fun _ _ h hP => h.trans hP)
    s₀ s hs
  have hends := transaction_raised_or_cut hne s
  obtain ⟨⟨k, hbase⟩, -⟩ := hs
  exact (hkeeps.and hends).mono (fun _ _ h => h.1) (fun _ _ h => h.symm) fun _ ⟨_, n, hcut⟩ =>
    ⟨k + n, hbase.cutFrom hcut⟩

theorem WritesAlong.config_bind {α : Type} {f : Config → Seq α} (h : ∀ c, WritesAlong s₀ (f c)) :
    WritesAlong s₀ (config >>= f) := fun s => h s.cfg s

theorem memWriteByte_writesAlong (a : RegAddr) (v : Byte) : WritesAlong s₀ (memWriteByte a v) :=
  .config_bind s₀ fun c => .bind (transaction_writesAlong s₀ (writeExchange_ne_nil c a _)) fun _ => .pure fun _ => id

theorem retries_writesAlong (f : Nat → Nat) :
    WritesAlong s₀ (update fun s => { s with retryCount := f s.retryCount }) :=
  .update fun _ hs => hs.step (.of_fields ⟨rfl, rfl, rfl⟩ rfl rfl rfl rfl rfl rfl) id

theorem cfgWriteLoop_writesAlong (a : RegAddr) (v : Byte) (n : Nat) : WritesAlong s₀ (cfgWriteLoop a v n) := by
  have hwrite := memWriteByte_writesAlong s₀ a v
  induction n with
  | zero =>
    refine Triple.attempt_bind hwrite (fun _ => .pure fun _ => id) fun e => ?_
    exact .bind (.update (Q := fun _ t => e.code = 0x01#8 ∧ Along s₀ (SameOffBus s₀) t) fun _ hs =>
      ⟨hs.1, hs.2.step (.of_fields ⟨rfl, rfl, rfl⟩ rfl rfl rfl rfl rfl rfl) id⟩) fun _ => .raise fun _ => id
  | succ n ih =>
    refine Triple.attempt_bind hwrite (fun _ => .pure fun _ => id) fun e => ?_
    exact .bind ((retries_writesAlong s₀ (· + 1)).pre fun _ hs => hs.2) fun _ => ih

theorem cfgWrite_writesAlong (a : RegAddr) (v : Byte) : WritesAlong s₀ (cfgWrite a v) :=
  Triple.bind (retries_writesAlong s₀ fun _ => 0) fun _ =>
    WritesAlong.config_bind s₀ fun _ => cfgWriteLoop_writesAlong s₀ a v _

theorem cfgWrites_writesAlong (ws : List (RegAddr × Byte)) : WritesAlong s₀ (cfgWrites ws) := by
  induction ws with
  | nil => exact Triple.pure fun _ => id
  | cons w ws ih => exact Triple.bind (cfgWrite_writesAlong s₀ w.1 w.2) fun _ => ih

end

section
variable {i : Instr} {s t : State}

/-- Everything the configuration writes of a command can do. -/
theorem cached_writesAlong (s : State) (i : Instr) (ws : List (RegAddr × Byte)) :
    Post (fun _ => Along (s.cached i) (SameOffBus (s.cached i)))
      (fun e t => e.code = 0x01#8 ∧ Along (s.cached i) (SameOffBus (s.cached i)) t) (CutShort (s.cached i))
      (cfgWrites ws (s.cached i)) :=
  cfgWrites_writesAlong (s.cached i) ws (s.cached i) ⟨⟨0, .refl _⟩, rfl⟩

theorem CutShort.not_uncutUntil (h : CutShort (s.cached i) t) : ¬ s.uncutUntil t := fun hu => by
  obtain ⟨n, hcut⟩ := h
  exact hcut.not_uncutUntil ((later_cached s i).uncutUntil hu)

end

/-- Settles O19: the first two are `precheck`, and a command that runs only writes the cache and the bus. -/
theorem configurationCommandsNeedInit : Obligations.ConfigurationCommandsNeedInit := by
  unfold Obligations.ConfigurationCommandsNeedInit
  intro i s hi ha
  refine ⟨fun hb hst => ⟨[], (exec_isCommand i).refused ?_⟩, fun hb => ⟨[], (exec_isCommand i).refused ?_⟩,
    fun hb hst t ht hu => ?_⟩
  · rw [precheck_configuration hi ha hb, if_pos hst]
  · simp [precheck_eq_or, profileError, needsBytewise_of_isConfiguration hi, hb]
  · have hp := (precheck_configuration hi ha hb).trans (if_neg hst)
    obtain rfl := Host.Outcome.next.inj ((exec_configuration hi hp).symm.trans ht)
    have hkeeps : ∀ u, SameOffBus (s.cached i) u → u.opState = s.opState := fun u hsame =>
      (congrArg State.opState hsame).trans (cached_opState s i)
    refine (cached_writesAlong s i _).endsWith (G := fun t => s.uncutUntil t →
      t.busy = false ∧ (t.result = 0x00#8 ∨ t.result = 0x01#8) ∧ t.opState = s.opState) ?_ ?_ ?_ hu
    · exact fun u ⟨_, hsame⟩ _ => ⟨rfl, .inl rfl, hkeeps u hsame⟩
    · exact fun e u ⟨he, _, hsame⟩ _ => ⟨rfl, .inr he, hkeeps u hsame⟩
    · exact fun u hcut hu => absurd hu hcut.not_uncutUntil

end Sys2Proof.Machine
end

section
/-! Configuration writes that fail and are retried (R218), and the configuration commands of one register write. -/

namespace Sys2Proof.Machine

section
variable {s : State} (hb : s.cfg.profile.bytewise = true) (hx : 2 ≤ s.cfg.maxXfer) (a : RegAddr) (v : Byte)
include hb hx

/-- An attempt that goes through ends the loop, however many are left. -/
theorem cfgWriteLoop_ok (n : Nat) (hgo : s.goThrough 1) :
    cfgWriteLoop a v n s = .ok () (s.afterBus 1 (s.transfer 0 [regWrite s.cfg a v])) := by
  have hwrite := attempt_ok (memWriteByte_ok hb hx hgo a v)
  cases n with
  | zero => rw [cfgWriteLoop, bind_ok hwrite]; rfl
  | succ n => rw [cfgWriteLoop, bind_ok hwrite]; rfl

/-- An attempt that fails is counted, and the loop goes on while attempts are left. -/
theorem cfgWriteLoop_missed (n : Nat) (hfail : s.failsAt 0) :
    cfgWriteLoop a v (n + 1) s = cfgWriteLoop a v n
      ((s.afterBus 1 (s.brokenTransfer 0 [] (regWrite s.cfg a v))).withRetries (s.retryCount + 1)) := by
  rw [cfgWriteLoop, bind_ok (attempt_raised (memWriteByte_failed hb hx hfail a v))]
  rfl

theorem cfgWriteLoop_retried (m n : Nat) (hfail : ∀ k < m, s.failsAt k) (hok : (s.drawAt m).ok = true)
    (hcut : (s.drawAt m).cut = none) :
    cfgWriteLoop a v (m + n) s = .ok () ((s.afterBus (m + 1)
      ((List.replicate m (s.brokenTransfer 0 [] (regWrite s.cfg a v))).flatten
        ++ s.transfer m [regWrite s.cfg a v])).withRetries (s.retryCount + m)) := by
  induction m generalizing s with
  | zero =>
    have hgo : s.goThrough 1 := fun k hk => by
      obtain rfl : k = 0 := by omega
      exact ⟨hok, hcut⟩
    rw [cfgWriteLoop_ok hb hx a v _ hgo]
    rfl
  | succ m ih =>
    obtain ⟨u, hu⟩ : ∃ u, u = (s.afterBus 1 (s.brokenTransfer 0 [] (regWrite s.cfg a v))).withRetries
      (s.retryCount + 1) := ⟨_, rfl⟩
    have l : Later s u 1 := hu ▸ later_withRetries (later_afterBus s 1 _) _
    rw [Nat.add_right_comm, cfgWriteLoop_missed hb hx a v _ (hfail 0 (Nat.succ_pos m)), ← hu,
      ih (by rwa [l.cfg]) (by rwa [l.cfg]) (fun k hk => l.failsAt (hfail (1 + k) (by omega)))
        (by rw [l.drawAt, Nat.add_comm]; exact hok) (by rw [l.drawAt, Nat.add_comm]; exact hcut)]
    rw [l.cfg, l.transfer, brokenTransfer_nil u s 0 0, Nat.add_comm 1 m, hu, withRetries_afterBus, afterBus_afterBus,
      List.replicate_succ, List.flatten_cons, List.append_assoc, Nat.add_comm 1 (m + 1)]
    simp [State.withRetries, Nat.add_assoc, Nat.add_comm 1 m]

/-- m attempts that fail, m at most `CFG_RETRY_MAX`, and one that goes through (R218). -/
theorem cfgWrite_retried {m : Nat} (hm : m ≤ s.cfg.cfgRetryMax) (hfail : ∀ k < m, s.failsAt k)
    (hok : (s.drawAt m).ok = true) (hcut : (s.drawAt m).cut = none) :
    cfgWrite a v s = .ok () ((s.afterBus (m + 1)
      ((List.replicate m (s.brokenTransfer 0 [] (regWrite s.cfg a v))).flatten
        ++ s.transfer m [regWrite s.cfg a v])).withRetries m) := by
  obtain ⟨n, hn⟩ := Nat.exists_eq_add_of_le hm
  have hloop := cfgWriteLoop_retried (s := s.withRetries 0) hb hx a v m n hfail hok hcut
  have hcount : (s.withRetries 0).retryCount + m = m := Nat.zero_add m
  rw [← hn, brokenTransfer_nil _ s 0 0, hcount] at hloop
  exact hloop

end

/-! ### The commands of one register write -/

section
variable {i : Instr} {s : State}

theorem badArgument_none_of_one_write {w : List Byte} (hi : isConfiguration i = true)
    (hw : configWrites s i = [w]) : badArgument i = none := by
  cases i with
  | setBand => cases hw
  | setChannel | setModulation | setPanId | setShortAddress | setTxPower => rfl
  | _ => cases hi

/-- A command of one register write is that configuration write. -/
theorem exec_one_write {w : List Byte} (hb : s.cfg.profile.bytewise = true) (hst : s.opState ≠ .initial)
    (hi : isConfiguration i = true) (hw : configWrites s i = [w]) :
    ∃ a v, w = regWrite s.cfg a v ∧ exec i s = .next (endsWith (cfgWrite a v (s.cached i)) none) := by
  have hp := (precheck_configuration hi (badArgument_none_of_one_write hi hw) hb).trans (if_neg hst)
  rw [← map_registerWrites, List.map_eq_singleton_iff] at hw
  obtain ⟨⟨a, v⟩, hwrites, rfl⟩ := hw
  refine ⟨a, v, rfl, ?_⟩
  rw [exec_configuration hi hp, hwrites, cfgWrites_singleton]

end
end Sys2Proof.Machine
end

section
/-! What the commands without `CfgWrite` leave alone: every relation that the bus and what they write respect is kept,
and so the retry count is as it was (R218). -/

namespace Sys2Proof.Machine

/-- F holds where only the bus, the poll count, a buffer, the operating state, the IRQ flag or the events were
written. -/
structure NoCfgWriteClosed (F : State → State → Prop) : Prop extends BusClosed F where
  polls   : ∀ s n, F s { s with pollCount := n }
  txbuf   : ∀ s m, F s { s with txbuf := m }
  rxbuf   : ∀ s m, F s { s with rxbuf := m }
  opState : ∀ s st, F s { s with opState := st }
  irqFlag : ∀ s f, F s { s with irqFlag := f }
  evq     : ∀ s evs, F s { s with evq := evs }

section
variable {F : State → State → Prop} (hF : NoCfgWriteClosed F)
include hF

/-! ### The shared pieces -/

theorem NoCfgWriteClosed.pure {α : Type} (a : α) : Runs F (Pure.pure a) := .pure hF.refl a

theorem NoCfgWriteClosed.bind {α β : Type} {m : Seq α} {f : α → Seq β} (hm : Runs F m) (hf : ∀ a, Runs F (f a)) :
    Runs F (m >>= f) := .bind hF.trans hm hf

theorem NoCfgWriteClosed.returning {α : Type} {m : Seq α} (hm : Runs F m) (ret : α → List Byte) :
    Runs F (do let a ← m; Pure.pure (ret a)) := hF.bind hm fun _ => hF.pure _

theorem NoCfgWriteClosed.memReadByte (a : RegAddr) : Runs F (memReadByte a) := memReadByte_runs hF.toBusClosed a

theorem NoCfgWriteClosed.setTrxState (call : StateCall) : Runs F (setTrxState call) :=
  setTrxState_runs hF.toBusClosed hF.polls call

theorem NoCfgWriteClosed.frameWriteSeq (f : List Byte) : Runs F (frameWriteSeq f) :=
  frameWriteSeq_runs hF.toBusClosed f fun s => hF.txbuf s _

theorem NoCfgWriteClosed.frameRead : Runs F frameRead :=
  frameRead_runs hF.toBusClosed fun s _ _ _ _ => hF.rxbuf s _

theorem NoCfgWriteClosed.commit (st : OpState) : Runs F (commit st) :=
  .update (fun s => hF.opState s st) fun _ => .of_fields ⟨rfl, rfl, rfl⟩ rfl rfl rfl rfl rfl rfl

theorem NoCfgWriteClosed.emit (e : Event) : Runs F (emit e) :=
  .update (fun s => hF.evq s _) fun _ => .of_fields ⟨rfl, rfl, rfl⟩ rfl rfl rfl rfl rfl rfl

theorem NoCfgWriteClosed.clearIrq : Runs F (update fun s => { s with irqFlag := false }) :=
  .update (fun s => hF.irqFlag s false) fun _ => .of_fields ⟨rfl, rfl, rfl⟩ rfl rfl rfl rfl rfl rfl

theorem NoCfgWriteClosed.requestArmed (data : List Byte) : Runs F (requestArmed data) := by
  have hsend : Runs F (requestSend data) := hF.bind (hF.frameWriteSeq data) fun _ => hF.commit _
  refine .config_bind fun c => hF.bind (hF.memReadByte _) fun _ => ?_
  split
  · exact hF.bind (hF.setTrxState _) fun _ => hsend
  · exact hsend

theorem NoCfgWriteClosed.confirmOnError {α : Type} {m : Seq α} (hm : Runs F m) : Runs F (confirmOnError m) :=
  hF.bind hm.attempt fun r => by
    cases r with
    | ok a => exact hF.pure a
    | error e => exact hF.bind (hF.emit _) fun _ => .raise hF.refl e

theorem NoCfgWriteClosed.receivePath : Runs F receivePath :=
  hF.bind hF.frameRead.attempt fun r => by
    cases r with
    | ok f =>
      exact .config_bind fun _ => hF.bind (hF.memReadByte _) fun _ => .current_bind fun _ =>
        hF.bind (hF.emit _) fun _ => hF.setTrxState _
    | error e =>
      cases e with
      | frameInvalid l => exact hF.bind (hF.setTrxState _) fun _ => .raise hF.refl _
      | _ => exact .raise hF.refl _

theorem NoCfgWriteClosed.transmitDonePath : Runs F transmitDonePath :=
  .config_bind fun _ => hF.bind (hF.memReadByte _) fun _ => hF.bind (hF.commit _) fun _ =>
    hF.bind (hF.emit _) fun _ => hF.setTrxState _

theorem NoCfgWriteClosed.completionPath (st : OpState) : Runs F (completionPath st) := by
  cases st with
  | initial => exact hF.pure ()
  | idle => exact hF.receivePath
  | sleep => exact hF.pure ()
  | transmittingWaitEnd => exact hF.transmitDonePath

theorem NoCfgWriteClosed.registerRead (a : RegAddr) : Runs F (do
    let v ← memRead a
    let c ← config
    Pure.pure (hostValueBytes c v)) :=
  hF.bind (memRead_runs hF.toBusClosed a) fun _ => .config_bind fun _ => hF.pure _

/-! ### The commands -/

theorem NoCfgWriteClosed.isCommand_sleep : IsCommand F .sleep := by
  refine .of_runs (fun _ => rfl) (checksOf_bytewise_state rfl rfl rfl) (.current_bind fun s => ?_)
  split
  · exact hF.pure _
  · exact hF.bind (hF.setTrxState _) fun _ => hF.returning (hF.commit _) fun _ => []

theorem NoCfgWriteClosed.isCommand_taskHandler : IsCommand F .taskHandler := by
  refine .of_runs (fun _ => rfl) (checksOf_bytewise_state rfl rfl rfl)
    (hF.bind hF.clearIrq fun _ => .current_bind fun s => ?_)
  split
  · exact hF.pure _
  · refine hF.bind (hF.memReadByte _) fun irq => ?_
    split
    · exact hF.returning (hF.completionPath _) fun _ => []
    · exact hF.pure _

/-- A `TRX_CMD` row: the profile check and one piece (log 12). -/
theorem NoCfgWriteClosed.isCommand_row {i : Instr} {m : Seq Unit} (hb : needsBytewise i = true)
    (ha : badArgument i = none) (hl : ∀ st, legality i st = .run) (hf : frameOf i = none)
    (hexec : ∀ s, exec i s = command i requireBytewise (do m; Pure.pure []) s) (hm : Runs F m) : IsCommand F i :=
  .of_runs hexec (checksOf_bytewise hb ha hl hf) (hF.returning hm fun _ => [])

theorem NoCfgWriteClosed.isCommand {i : Instr} (hi : usesCfgWrite i = false) : IsCommand F i := by
  cases i with
  | init | setChannel | setBand | setModulation | setPanId | setShortAddress | setTxPower => cases hi
  | sleep => exact hF.isCommand_sleep
  | wakeup =>
    exact .of_runs (fun _ => rfl) (checksOf_bytewise_state rfl rfl rfl) <|
      hF.bind (hF.setTrxState _) fun _ => hF.returning (hF.commit _) fun _ => []
  | dataRequest data =>
    exact .of_runs (fun _ => rfl) (checksOf_dataRequest data) <| hF.returning
      (hF.confirmOnError (hF.bind (hF.setTrxState _) fun _ => hF.requestArmed data)) fun _ => []
  | taskHandler => exact hF.isCommand_taskHandler
  | rssiBaseValue =>
    exact .of_runs (fun _ => rfl) (checksOf_pure fun _ _ => rfl) <| .current_bind fun _ => hF.pure _
  | readRegister a =>
    exact .of_runs (fun _ => rfl) (checksOf_arg rfl (by simp [badArgument, addrLegal_eq]) (fun _ => rfl) rfl)
      (hF.registerRead _)
  | writeRegister a v =>
    exact .of_runs (fun _ => rfl) (checksOf_arg rfl (by simp [badArgument, addrLegal_eq]) (fun _ => rfl) rfl)
      (hF.returning (memWrite_runs hF.toBusClosed _ v) fun _ => [])
  | writeBytes data =>
    refine ⟨_, _, fun _ => rfl, checksOf_arg rfl (by simp [badArgument]) (fun _ => rfl) rfl, fun hlegal => ?_⟩
    have hne : data ≠ [] := by simpa [badArgument] using hlegal
    exact hF.returning (transaction_runs hF.toBusClosed hne) fun _ => []
  | readBytes n =>
    refine ⟨_, _, fun _ => rfl, checksOf_arg rfl (by simp [badArgument]) (fun _ => rfl) rfl, fun hlegal => ?_⟩
    have hne : n ≠ 0#8 := by simpa [badArgument] using hlegal
    exact transaction_runs hF.toBusClosed (by simpa [zeros, ← BitVec.toNat_inj] using hne)
  | writeFrame f =>
    refine .of_runs (fun _ => rfl) ?_ <| hF.bind (hF.setTrxState _) fun _ =>
      hF.returning (hF.frameWriteSeq f) fun _ => []
    refine ((requireBytewise_checksFor (i := .writeFrame f) rfl).bind
      (requireFrameFits_checksFor (i := .writeFrame f) rfl)).congr fun s => ?_
    simp [precheck_eq_or, argumentError, badArgument, stateError, legality]
  | readFrame | spiFbRead =>
    exact .of_runs (fun _ => rfl) (checksOf_pure fun _ _ => rfl) (hF.returning hF.frameRead RxFrame.image)
  | spiRegRead a => exact .of_runs (fun _ => rfl) (checksOf_pure fun _ _ => rfl) (hF.registerRead a)
  | spiRegWrite a v =>
    exact .of_runs (fun _ => rfl) (checksOf_pure fun _ _ => rfl)
      (hF.returning (memWrite_runs hF.toBusClosed a v) fun _ => [])
  | spiFbWrite f =>
    refine .of_runs (fun _ => rfl) ?_
      (hF.returning (frameBufferWrite_runs hF.toBusClosed f fun s => hF.txbuf s _) fun _ => [])
    refine (requireFrameFits_checksFor (i := .spiFbWrite f) rfl).congr fun s => ?_
    simp [precheck_eq_or, profileError, needsBytewise, argumentError, badArgument, stateError, legality]
  | txStart =>
    exact hF.isCommand_row rfl rfl (fun _ => rfl) rfl (fun _ => rfl) (transmitStart_runs hF.toBusClosed)
  | forceTrxOff | rxOn | pllOn | rxAackOn | txAretOn =>
    exact hF.isCommand_row rfl rfl (fun _ => rfl) rfl (fun _ => rfl) (hF.setTrxState _)

end

/-! ### The retry count -/

/-- The retry count is as it was. -/
def KeepsRetries (s t : State) : Prop := t.retryCount = s.retryCount

theorem keepsRetries_closed : NoCfgWriteClosed KeepsRetries where
  refl _ := rfl
  trans _ _ _ h h' := h'.trans h
  bus _ _ _ _ := rfl
  polls _ _ := rfl
  txbuf _ _ := rfl
  rxbuf _ _ := rfl
  opState _ _ := rfl
  irqFlag _ _ := rfl
  evq _ _ := rfl

theorem Ended.keepsRetries {s t : State} {n : Nat} (h : Ended KeepsRetries s t n) (hu : s.uncutUntil t) :
    t.retryCount = s.retryCount := by
  cases h with
  | ok u ret base rel done => exact done ▸ rel
  | failed u e base rel done => exact done ▸ rel
  | waiting u place base rel unbounded done => exact done ▸ rel
  | cut hcut => exact absurd hu hcut.not_uncutUntil

/-- No command outside INIT and the configuration commands counts a retry. -/
theorem exec_keepsRetries {i : Instr} {s t : State} (hi : usesCfgWrite i = false) (ht : exec i s = .next t)
    (hu : s.uncutUntil t) : t.retryCount = s.retryCount := by
  have hcommand := keepsRetries_closed.isCommand hi
  cases hp : precheck s.cfg i s.opState with
  | none =>
    obtain ⟨t', n, hexec, hended⟩ := hcommand.accepted hp
    obtain rfl : t = t' := by simpa [ht] using hexec
    exact hended.keepsRetries hu
  | some e =>
    obtain rfl : t = s.refused e [] := by simpa [ht] using hcommand.refused hp
    rfl

/-! ### The statement -/

/-- s with a configuration command's cache field written, after n chunks and m failed attempts, its command
completed. -/
theorem answered_cached (s : State) (i : Instr) (n m : Nat) (es : List BusEvent) (code : Byte) (info : Option Err) :
    (((s.cached i).afterBus n es).withRetries m).answered code [] info (s.cached i).evq =
      State.answered { (withCache s i).afterBus n es with retryCount := m } code [] info [] := by
  cases i <;> rfl

/-- Settles O54: the attempts of the loop one after another, the loop as the body of the commands of one write, and
no retry counted elsewhere. -/
theorem configurationWriteIsRetried : Obligations.ConfigurationWriteIsRetried := by
  unfold Obligations.ConfigurationWriteIsRetried
  refine ⟨fun a v s hv hb => ?_, fun i w s hv hb hst hi hw => ?_, fun i s t => exec_keepsRetries⟩
  · obtain ⟨-, hx, -⟩ := valid_limits hv
    exact ⟨fun m => cfgWrite_retried hb (by omega) a v, cfgWrite_exhausted hb (by omega) a v⟩
  · obtain ⟨-, hx, -⟩ := valid_limits hv
    obtain ⟨a, v, rfl, hexec⟩ := exec_one_write hb hst hi hw
    have l := later_cached s i
    have hb' : (s.cached i).cfg.profile.bytewise = true := by rwa [l.cfg]
    have hx' : 2 ≤ (s.cached i).cfg.maxXfer := by rw [l.cfg]; omega
    refine ⟨fun m hm hfail hok hcut => ?_, fun hfail => ?_⟩
    · have hwrite := cfgWrite_retried (s := s.cached i) hb' hx' a v (m := m) (by rwa [l.cfg])
        (fun k hk => l.failsAt (by rw [Nat.zero_add]; exact hfail k hk)) (by rwa [l.drawAt, Nat.zero_add])
        (by rwa [l.drawAt, Nat.zero_add])
      rw [l.cfg, l.transfer, Nat.zero_add, brokenTransfer_nil _ s 0 0] at hwrite
      rw [hexec, hwrite]
      exact congrArg Host.Outcome.next (answered_cached s i _ _ _ _ _)
    · have hwrite := cfgWrite_exhausted (s := s.cached i) hb' hx' a v
        fun k hk => l.failsAt (by rw [Nat.zero_add]; exact hfail k (by rwa [l.cfg] at hk))
      rw [l.cfg, brokenTransfer_nil _ s 0 0] at hwrite
      rw [hexec, hwrite]
      exact congrArg Host.Outcome.next (answered_cached s i _ _ _ _ _)

end Sys2Proof.Machine
end

section
/-! Which register writes of a configuration command reach the bus, and how often each (R202, R218). -/

namespace Sys2Proof.Machine

/-! ### The chunks of a list of configuration writes -/

/-- The chunks sent are those of `pre`, and then w k times. -/
def SentTimes (pre : List (List Byte)) (w : List Byte) (k : Nat) (es : List BusEvent) : Prop :=
  chunksSent es = pre ++ List.replicate k w

/-- The chunks sent are those of `pre`, and then the first writes of ws, each as often as ns says: 1 to
1 + `CFG_RETRY_MAX` times. -/
structure SentInOrder (c : Config) (pre ws : List (List Byte)) (ns : List Nat) (es : List BusEvent) : Prop where
  length : ns.length ≤ ws.length
  bounds : ∀ n ∈ ns, 1 ≤ n ∧ n ≤ 1 + c.cfgRetryMax
  chunks : chunksSent es = pre ++ (List.zipWith (fun n w => List.replicate n w) ns ws).flatten

/-- All writes of ws were sent so. -/
def AllSent (c : Config) (pre ws : List (List Byte)) (es : List BusEvent) : Prop :=
  ∃ ns, ns.length = ws.length ∧ SentInOrder c pre ws ns es

/-- The writes of ws were sent so up to one that used up its attempts. -/
def SentUpTo (c : Config) (pre ws : List (List Byte)) (es : List BusEvent) : Prop :=
  ∃ ns, ns.getLast? = some (1 + c.cfgRetryMax) ∧ SentInOrder c pre ws ns es

section
variable {c : Config} {pre ws : List (List Byte)} {w : List Byte} {ns : List Nat} {n k : Nat} {es : List BusEvent}

theorem sentTimes_steady : Steady (SentTimes pre w k) := fun es e he h => by
  rw [SentTimes, chunksSent_noChunk es he]
  exact h

theorem sends_sentTimes : Sends (SentTimes pre w k) w (SentTimes pre w (k + 1)) :=
  .of_chunk sentTimes_steady fun es rx ok h => by
    rw [SentTimes, chunksSent_chunk, h, List.replicate_succ', List.append_assoc]

theorem SentInOrder.cons (hn : 1 ≤ n ∧ n ≤ 1 + c.cfgRetryMax)
    (h : SentInOrder c (pre ++ List.replicate n w) ws ns es) : SentInOrder c pre (w :: ws) (n :: ns) es where
  length := Nat.succ_le_succ h.length
  bounds := List.forall_mem_cons.2 ⟨hn, h.bounds⟩
  chunks := by rw [h.chunks, List.zipWith_cons_cons, List.flatten_cons, List.append_assoc]

theorem AllSent.cons (hn : 1 ≤ n ∧ n ≤ 1 + c.cfgRetryMax) (h : AllSent c (pre ++ List.replicate n w) ws es) :
    AllSent c pre (w :: ws) es := by
  obtain ⟨ns, hlen, h⟩ := h
  exact ⟨n :: ns, congrArg Nat.succ hlen, h.cons hn⟩

theorem SentUpTo.cons (hn : 1 ≤ n ∧ n ≤ 1 + c.cfgRetryMax) (h : SentUpTo c (pre ++ List.replicate n w) ws es) :
    SentUpTo c pre (w :: ws) es := by
  obtain ⟨ns, hlast, h⟩ := h
  exact ⟨n :: ns, by simp [List.getLast?_cons, hlast], h.cons hn⟩

/-- The first write used up its attempts. -/
theorem SentTimes.sentUpTo (h : SentTimes pre w (1 + c.cfgRetryMax) es) : SentUpTo c pre (w :: ws) es :=
  ⟨[1 + c.cfgRetryMax], rfl, by simp, by simp, by simpa [SentTimes] using h⟩

end

section
variable {c : Config} (tr : List BusEvent) (hb : c.profile.bytewise = true) (hx : 2 ≤ c.maxXfer)
include hb hx

/-- With n extra attempts left after k: a loop that ends has made 1 to n + 1 attempts, and one that raises all. -/
theorem cfgWriteLoop_sent (pre : List (List Byte)) (a : RegAddr) (v : Byte) (n k : Nat) :
    Triple (On c tr (SentTimes pre (regWrite c a v) k)) (cfgWriteLoop a v n)
      (fun _ => On c tr fun es => ∃ m, k + 1 ≤ m ∧ m ≤ k + n + 1 ∧ SentTimes pre (regWrite c a v) m es)
      (fun _ => On c tr (SentTimes pre (regWrite c a v) (k + n + 1))) fun _ => True := by
  have hattempt : ∀ k, Triple (On c tr (SentTimes pre (regWrite c a v) k)) (memWriteByte a v)
      (fun _ => On c tr (SentTimes pre (regWrite c a v) (k + 1)))
      (fun _ => On c tr (SentTimes pre (regWrite c a v) (k + 1))) fun _ => True := fun k =>
    (memWriteByte_on (U := fun _ => True) hb hx (fun _ _ _ _ => trivial) ⟨sentTimes_steady, fun _ _ => trivial⟩
      ⟨sentTimes_steady, fun _ _ => trivial⟩ sends_sentTimes).mono (fun _ => id) (fun _ _ => id) (fun _ _ => id)
      fun _ _ => trivial
  induction n generalizing k with
  | zero =>
    refine .attempt_bind (hattempt k) (fun _ => .pure fun _ hs => hs.mono fun es h => ⟨k + 1, le_rfl, le_rfl, h⟩)
      fun e => ?_
    exact .bind (.update (Q := fun _ => On c tr (SentTimes pre (regWrite c a v) (k + 1))) fun _ hs =>
      hs.same rfl rfl) fun _ => .raise fun _ => id
  | succ n ih =>
    refine .attempt_bind (hattempt k)
      (fun _ => .pure fun _ hs => hs.mono fun es h => ⟨k + 1, le_rfl, by omega, h⟩) fun e => ?_
    refine .bind (.update (Q := fun _ => On c tr (SentTimes pre (regWrite c a v) (k + 1))) fun _ hs =>
      hs.same rfl rfl) fun _ => ?_
    rw [show k + (n + 1) + 1 = k + 1 + n + 1 by omega]
    exact (ih (k + 1)).mono (fun _ => id)
      (fun _ _ ht => ht.mono fun es ⟨m, hlow, hhigh, h⟩ => ⟨m, by omega, hhigh, h⟩) (fun _ _ => id) fun _ => id

theorem cfgWrite_sent (pre : List (List Byte)) (a : RegAddr) (v : Byte) :
    Triple (On c tr fun es => chunksSent es = pre) (cfgWrite a v)
      (fun _ => On c tr fun es =>
        ∃ m, (1 ≤ m ∧ m ≤ 1 + c.cfgRetryMax) ∧ SentTimes pre (regWrite c a v) m es)
      (fun _ => On c tr (SentTimes pre (regWrite c a v) (1 + c.cfgRetryMax))) fun _ => True := by
  refine .bind (.update (Q := fun _ => On c tr (SentTimes pre (regWrite c a v) 0)) fun _ hs =>
    (hs.same rfl rfl).mono fun es h => by simpa [SentTimes] using h) fun _ => .config_bind (fun _ hs => hs.1) ?_
  rw [Nat.add_comm 1]
  simpa only [Nat.zero_add, and_assoc] using cfgWriteLoop_sent tr hb hx pre a v c.cfgRetryMax 0

theorem cfgWrites_sent (pre : List (List Byte)) (ws : List (RegAddr × Byte)) :
    Triple (On c tr fun es => chunksSent es = pre) (cfgWrites ws)
      (fun _ => On c tr (AllSent c pre (ws.map fun w => regWrite c w.1 w.2)))
      (fun _ => On c tr (SentUpTo c pre (ws.map fun w => regWrite c w.1 w.2))) fun _ => True := by
  induction ws generalizing pre with
  | nil => exact .pure fun _ hs => hs.mono fun es h => ⟨[], rfl, le_rfl, by simp, by simpa using h⟩
  | cons w ws ih =>
    refine Triple.bind ((cfgWrite_sent tr hb hx pre w.1 w.2).mono (fun _ => id) (fun _ _ => id)
      (fun _ _ ht => ht.mono fun es => SentTimes.sentUpTo) fun _ => id) fun _ s hs => ?_
    obtain ⟨hc, es, htr, m, hm, hes⟩ := hs
    exact (ih _ s ⟨hc, es, htr, hes⟩).mono (fun _ _ ht => ht.mono fun es h => h.cons hm)
      (fun _ _ ht => ht.mono fun es h => h.cons hm) fun _ => id

end

/-! ### The statement -/

section
variable {i : Instr} {s u : State}

/-- The cache is the one with the command's new value (R202). -/
theorem SameOffBus.cache (h : SameOffBus (s.cached i) u) :
    u.channel = (withCache s i).channel ∧ u.band = (withCache s i).band
      ∧ u.modulation = (withCache s i).modulation ∧ u.panId = (withCache s i).panId
      ∧ u.shortAddr = (withCache s i).shortAddr ∧ u.txPower = (withCache s i).txPower := by
  rw [SameOffBus, cached_eq] at h
  exact ⟨(congrArg State.channel h :), (congrArg State.band h :), (congrArg State.modulation h :),
    (congrArg State.panId h :), (congrArg State.shortAddr h :), (congrArg State.txPower h :)⟩

/-- Completed, such a command hands over no event (R33). -/
theorem Along.cached_delivers (h : Along (s.cached i) (SameOffBus (s.cached i)) u) (code : Byte) (info : Option Err) :
    (u.answered code [] info u.evq).delivered = s.delivered ++ [{ result := code, retdata := [], events := [] }] := by
  obtain ⟨⟨n, hbase⟩, hsame⟩ := h
  have hevq : u.evq = [] := by
    rw [SameOffBus, cached_eq] at hsame
    exact (congrArg State.evq hsame :)
  have hdelivered : u.delivered = s.delivered := hbase.delivered.trans (cached_delivered s i)
  rw [State.answered, hevq, hdelivered]

end

/-- Settles O55: the writes of `configWrites` are sent one after another, and nothing but the bus is written after the
cache. -/
theorem configurationIsWrittenThroughInOrder : Obligations.ConfigurationIsWrittenThroughInOrder := by
  unfold Obligations.ConfigurationIsWrittenThroughInOrder
  intro i s t hv hb hst hi ha ht hu
  obtain ⟨-, hx, -⟩ := valid_limits hv
  have hp := (precheck_configuration hi ha hb).trans (if_neg hst)
  obtain rfl := Host.Outcome.next.inj ((exec_configuration hi hp).symm.trans ht)
  have halong := cached_writesAlong s i (registerWrites (withCache s i) i)
  have hsent := cfgWrites_sent s.trace hb (by omega) [] (registerWrites (withCache s i) i) (s.cached i)
    ⟨(later_cached s i).cfg, [], by rw [cached_trace, List.append_nil], rfl⟩
  rw [map_registerWrites] at hsent
  cases hwrites : cfgWrites (registerWrites (withCache s i) i) (s.cached i) with
  | ok x u =>
    rw [hwrites] at halong hsent
    obtain ⟨-, es, htrace, ns, hlen, hes⟩ := hsent
    obtain ⟨hchannel, hband, hmodulation, hpanId, hshortAddr, htxPower⟩ := SameOffBus.cache halong.2
    exact ⟨hchannel, hband, hmodulation, hpanId, hshortAddr, htxPower, ns, es, htrace, hes.length, hes.bounds,
      hes.chunks, .inl ⟨hlen, Along.cached_delivers halong _ _⟩⟩
  | error e u =>
    rw [hwrites] at halong hsent hu
    cases e with
    | stopped => exact absurd hu halong.not_uncutUntil
    | raised e =>
      obtain ⟨hcode, halong⟩ := halong
      obtain ⟨-, es, htrace, ns, hlast, hes⟩ := hsent
      obtain ⟨hchannel, hband, hmodulation, hpanId, hshortAddr, htxPower⟩ := SameOffBus.cache halong.2
      exact ⟨hchannel, hband, hmodulation, hpanId, hshortAddr, htxPower, ns, es, htrace, hes.length, hes.bounds,
        hes.chunks, .inr ⟨hlast, hcode ▸ halong.cached_delivers _ _⟩⟩

end Sys2Proof.Machine
end

section
/-! What every piece of pseudocode does to the IRQ flag, the operating state and the errors it raises: after
TASK_HANDLER cleared the flag only edges set it (R238, R239), nothing returns to Initial, and `InvalidState` is the work
of the checks alone (R233, R234). -/

namespace Sys2Proof.Machine

/-! ### How a command proceeds -/

/-- From s to t nothing but an edge of the chunks between them set the IRQ flag, nothing cleared it, and the operating
state did not return to Initial. -/
structure Proceeds (s t : State) : Prop where
  flag    : ∃ n, Later s t n ∧ t.irqFlag = (s.irqFlag || s.edgeWithin n)
  opState : t.opState = .initial → s.opState = .initial

theorem edgeWithin_zero (s : State) : s.edgeWithin 0 = false := rfl

theorem Proceeds.of_same {s t : State} (l : Later s t 0) (hirq : t.irqFlag = s.irqFlag)
    (hst : t.opState = .initial → s.opState = .initial) : Proceeds s t :=
  ⟨⟨0, l, by rw [edgeWithin_zero, Bool.or_false, hirq]⟩, hst⟩

theorem Proceeds.trans {s t u : State} (h : Proceeds s t) (h' : Proceeds t u) : Proceeds s u := by
  obtain ⟨⟨n, l, hirq⟩, hst⟩ := h
  obtain ⟨⟨m, l', hirq'⟩, hst'⟩ := h'
  exact ⟨⟨n + m, l.trans l', by rw [hirq', hirq, Bool.or_assoc, l.edgeWithin]⟩, hst ∘ hst'⟩

theorem proceeds_closed : BusClosed Proceeds where
  refl _ := .of_same ⟨rfl, rfl, rfl⟩ rfl id
  trans _ _ _ h h' := h.trans h'
  bus s n es _ := ⟨⟨n, later_afterBus s n es, rfl⟩, id⟩

/-- The flag after them is what it was, or 1 where an edge arrived with one of the chunks. -/
theorem Proceeds.irqFlag_eq {s t : State} (h : Proceeds s t) :
    t.irqFlag = (s.irqFlag || s.edgeWithin (t.draws - s.draws)) := by
  obtain ⟨n, l, hirq⟩ := h.flag
  rw [hirq, l.draws, Nat.add_sub_cancel_left]

/-! ### Errors other than `InvalidState` -/

section
variable {α β : Type}

/-- The piece does not raise `InvalidState`. -/
def NoStateError (m : Seq α) : Prop :=
  Triple (fun _ => True) m (fun _ _ => True) (fun e _ => e.code ≠ 0x03#8) fun _ => True

theorem BusError.code_ne {e : Err} (h : BusError e) : e.code ≠ 0x03#8 := by
  rcases h with h | h <;> simp [h]

theorem RaisesBusErrors.noStateError {m : Seq α} (h : RaisesBusErrors m) : NoStateError m :=
  h.mono (fun _ => id) (fun _ _ => id) (fun _ _ he => he.code_ne) fun _ => id

/-- The frame read raises `TransferFailed` or `FrameInvalid` (R145, R146). -/
theorem noStateError_frameRead : NoStateError frameRead := by
  have hseg (tx : List Byte) : NoStateError (seg tx) := fun s =>
    (raisesBusErrors_sendChunks (chunksOf s.cfg.maxXfer tx) 0 0 []).noStateError s
  have hdeassert : NoStateError csDeassert := .update fun _ => id
  refine .bind raisesBusErrors_csAssert.noStateError fun _ s => Triple.bind (hseg _) (fun hdr => ?_) s
  dsimp only
  split
  · exact .bind hdeassert fun _ => .raise fun _ _ => by simp [Err.code]
  · exact .bind (hseg _) fun _ => .bind hdeassert fun _ => .bind (.update fun _ => id) fun _ => .pure fun _ => id

/-! ### Sound pieces -/

/-- Where the piece m ends, raises or waits, its states have proceeded, and it does not raise `InvalidState`. -/
structure Sound (m : Seq α) : Prop where
  runs   : Runs Proceeds m
  raises : NoStateError m

theorem Sound.bind {m : Seq α} {f : α → Seq β} (hm : Sound m) (hf : ∀ a, Sound (f a)) : Sound (m >>= f) :=
  ⟨.bind proceeds_closed.trans hm.runs fun a => (hf a).runs, .bind hm.raises fun a => (hf a).raises⟩

theorem Sound.pure (a : α) : Sound (Pure.pure a) := ⟨.pure proceeds_closed.refl a, .pure fun _ => id⟩

theorem Sound.raise {e : Err} (he : e.code ≠ 0x03#8) : Sound (raise e : Seq α) :=
  ⟨.raise proceeds_closed.refl e, .raise fun _ _ => he⟩

theorem Sound.config_bind {f : Config → Seq β} (h : ∀ c, Sound (f c)) : Sound (config >>= f) :=
  ⟨.config_bind fun c => (h c).runs, fun s => (h s.cfg).raises s⟩

theorem Sound.current_bind {f : State → Seq β} (h : ∀ s, Sound (f s)) : Sound (current >>= f) :=
  ⟨.current_bind fun s => (h s).runs, fun s => (h s).raises s⟩

theorem Sound.update {g : State → State} (hb : ∀ s, Base s (g s) 0) (hirq : ∀ s, (g s).irqFlag = s.irqFlag)
    (hst : ∀ s, (g s).opState = .initial → s.opState = .initial) : Sound (update g) :=
  ⟨.update (fun s => .of_same (hb s).later (hirq s) (hst s)) hb, .update fun _ => id⟩

theorem Sound.returning {m : Seq α} (hm : Sound m) (ret : α → List Byte) :
    Sound (do let a ← m; Pure.pure (ret a)) := hm.bind fun _ => .pure _

/-- A raise that is handled was no `InvalidState`. -/
theorem Sound.attempt_bind {m : Seq α} {f : Except Err α → Seq β} (hm : Sound m) (hok : ∀ a, Sound (f (.ok a)))
    (herr : ∀ e, e.code ≠ 0x03#8 → Sound (f (.error e))) : Sound (attempt m >>= f) where
  runs s := by
    obtain ⟨n, hn⟩ := hm.runs s
    have hlegal := hm.raises s trivial
    cases hms : m s with
    | ok a t =>
      rw [hms] at hn
      rw [bind_ok (attempt_ok hms)]
      exact runsFrom_trans proceeds_closed hn.1 hn.2 ((hok a).runs t)
    | error e t =>
      rw [hms] at hn hlegal
      cases e with
      | raised e =>
        rw [bind_ok (attempt_raised hms)]
        exact runsFrom_trans proceeds_closed hn.1 hn.2 ((herr e hlegal).runs t)
      | stopped => exact ⟨n, by rwa [bind_error (attempt_stopped hms)]⟩
  raises := .attempt_bind hm.raises (fun a => (hok a).raises) fun e s he => (herr e he).raises s trivial

end

/-! ### The shared operations -/

theorem sound_transaction {tx : List Byte} (hne : tx ≠ []) : Sound (transaction tx) :=
  ⟨transaction_runs proceeds_closed hne, (raisesBusErrors_transaction tx).noStateError⟩

theorem sound_memRead (a : RegAddr) : Sound (memRead a) :=
  .config_bind fun _ => (sound_transaction (readExchange_ne_nil _ _)).bind fun _ => .pure _

theorem sound_memWrite (a : RegAddr) (v : Half) : Sound (memWrite a v) :=
  .config_bind fun _ => (sound_transaction (writeExchange_ne_nil _ _ _)).bind fun _ => .pure _

theorem sound_memReadByte (a : RegAddr) : Sound (memReadByte a) := (sound_memRead a).bind fun _ => .pure _

theorem sound_setTrxState (call : StateCall) : Sound (setTrxState call) :=
  ⟨setTrxState_runs proceeds_closed (fun _ _ => .of_same ⟨rfl, rfl, rfl⟩ rfl id) call,
    (raisesBusErrors_setTrxState call).noStateError⟩

theorem sound_cfgWrite (a : RegAddr) (v : Byte) : Sound (cfgWrite a v) :=
  ⟨cfgWrite_runs proceeds_closed (fun _ _ => .of_same ⟨rfl, rfl, rfl⟩ rfl id) a v,
    (raisesBusErrors_cfgWrite a v).noStateError⟩

theorem sound_writeChannelRegs : Sound writeChannelRegs := .current_bind fun _ => by
  split <;> exact sound_cfgWrite _ _

theorem sound_writeSeed : Sound writeSeed := .current_bind fun _ => sound_cfgWrite _ _

/-- A write of the configuration cache or the operating state. -/
theorem sound_cacheWrite {g : State → State} (h : ∀ s, OnlyCacheAndFlags s (g s))
    (hirq : ∀ s, (g s).irqFlag = s.irqFlag) (hst : ∀ s, (g s).opState = .initial → s.opState = .initial) :
    Sound (update g) := .update (fun s => (h s).base) hirq hst

theorem sound_commit {st : OpState} (h : st ≠ .initial) : Sound (commit st) :=
  sound_cacheWrite (fun _ => rfl) (fun _ => rfl) fun _ hst => absurd hst h

theorem sound_emit (e : Event) : Sound (emit e) :=
  .update (fun _ => .of_fields ⟨rfl, rfl, rfl⟩ rfl rfl rfl rfl rfl rfl) (fun _ => rfl) fun _ => id

theorem sound_frameBufferWrite (f : List Byte) : Sound (frameBufferWrite f) :=
  .bind (.update (fun _ => .of_fields ⟨rfl, rfl, rfl⟩ rfl rfl rfl rfl rfl rfl) (fun _ => rfl) fun _ => id) fun _ =>
    .config_bind fun _ => (sound_transaction (by simp)).bind fun _ => .pure ()

theorem sound_transmitStart : Sound transmitStart := .config_bind fun _ => .config_bind fun _ => sound_memWrite _ _

theorem sound_frameWriteSeq (f : List Byte) : Sound (frameWriteSeq f) :=
  (sound_frameBufferWrite f).bind fun _ => sound_transmitStart

theorem sound_frameRead : Sound frameRead :=
  ⟨frameRead_runs proceeds_closed fun _ _ _ _ _ => .of_same ⟨rfl, rfl, rfl⟩ rfl id, noStateError_frameRead⟩

/-! ### The pieces of single commands -/

theorem sound_initConfigure : Sound initConfigure :=
  .current_bind fun _ => (sound_cfgWrite _ _).bind fun _ => (sound_cfgWrite _ _).bind fun _ =>
    .bind (sound_cacheWrite (fun _ => rfl) (fun _ => rfl) fun _ => id) fun _ => (sound_cfgWrite _ _).bind fun _ =>
    (sound_setTrxState _).bind fun _ => sound_commit nofun

/-- INIT's pulse on RST, and a piece after it (R166). -/
theorem sound_rstPulse {α : Type} {m : Seq α} (hm : Sound m) :
    Sound (do driveRst .asserted; driveRst .deasserted; m) := by
  have h : Sound (do update State.pulsedRst; m) :=
    (Sound.update base_pulsedRst (fun _ => rfl) fun _ => id).bind fun _ => hm
  exact ⟨fun s => driveRst_driveRst_run m s ▸ h.runs s, fun s => driveRst_driveRst_run m s ▸ h.raises s⟩

/-- A state change and the commit of its operating state, as in SLEEP and WAKEUP (R169, R171). -/
theorem sound_setTrxStateCommit (call : StateCall) {st : OpState} (h : st ≠ .initial) : Sound (do
    setTrxState call
    commit st
    pure ([] : List Byte)) :=
  (sound_setTrxState call).bind fun _ => (sound_commit h).returning fun _ => []

theorem sound_requestArmed (data : List Byte) : Sound (requestArmed data) := by
  have hsend : Sound (requestSend data) := (sound_frameWriteSeq data).bind fun _ => sound_commit nofun
  refine .config_bind fun _ => (sound_memReadByte _).bind fun _ => ?_
  split
  · exact (sound_setTrxState _).bind fun _ => hsend
  · exact hsend

theorem sound_confirmOnError {α : Type} {m : Seq α} (hm : Sound m) : Sound (confirmOnError m) :=
  hm.attempt_bind (fun a => .pure a) fun _ he => (sound_emit _).bind fun _ => .raise he

theorem sound_receivePath : Sound receivePath :=
  sound_frameRead.attempt_bind
    (fun _ => .config_bind fun _ => (sound_memReadByte _).bind fun _ => .current_bind fun _ =>
      (sound_emit _).bind fun _ => sound_setTrxState _)
    fun e he => by
      cases e with
      | frameInvalid l => exact (sound_setTrxState _).bind fun _ => .raise he
      | _ => exact .raise he

theorem sound_transmitDonePath : Sound transmitDonePath :=
  .config_bind fun _ => (sound_memReadByte _).bind fun _ => .bind (sound_commit nofun) fun _ =>
    (sound_emit _).bind fun _ => sound_setTrxState _

theorem sound_completionPath (st : OpState) : Sound (completionPath st) := by
  cases st with
  | initial => exact .pure ()
  | idle => exact sound_receivePath
  | sleep => exact .pure ()
  | transmittingWaitEnd => exact sound_transmitDonePath

theorem sound_registerRead (a : RegAddr) : Sound (do
    let v ← memRead a
    let c ← config
    pure (hostValueBytes c v)) :=
  (sound_memRead a).bind fun _ => .config_bind fun _ => .pure _

/-- The two bytes of an address, then the seed (R209, R212). -/
theorem sound_addressWrites (a b : RegAddr) (v w : Byte) : Sound (do
    cfgWrite a v
    cfgWrite b w
    writeSeed
    pure ([] : List Byte)) :=
  (sound_cfgWrite a v).bind fun _ => (sound_cfgWrite b w).bind fun _ => sound_writeSeed.returning fun _ => []

/-! ### Every command but TASK_HANDLER -/

/-- exec of i is a command that makes the checks of `precheck` and whose pseudocode, for a legal argument, is sound. -/
def IsSound (i : Instr) : Prop :=
  ∃ checks body, (∀ s, exec i s = command i checks body s) ∧ ChecksOf i checks ∧ (badArgument i = none → Sound body)

theorem IsSound.of_body {i : Instr} {checks : Seq Unit} {body : Seq (List Byte)}
    (hexec : ∀ s, exec i s = command i checks body s) (hchecks : ChecksOf i checks) (hbody : Sound body) : IsSound i :=
  ⟨checks, body, hexec, hchecks, fun _ => hbody⟩

/-- A `TRX_CMD` row: the profile check and one piece (log 12). -/
theorem isSound_row {i : Instr} {m : Seq Unit} (hb : needsBytewise i = true) (ha : badArgument i = none)
    (hl : ∀ st, legality i st = .run) (hf : frameOf i = none)
    (hexec : ∀ s, exec i s = command i requireBytewise (do m; pure []) s) (hm : Sound m) : IsSound i :=
  .of_body hexec (checksOf_bytewise hb ha hl hf) (hm.returning fun _ => [])

/-- A configuration command without reserved bits: its cache write and what follows it (R202). -/
theorem isSound_cached {i : Instr} {g : State → State} {m : Seq (List Byte)} (hb : needsBytewise i = true)
    (ha : badArgument i = none) (hf : frameOf i = none)
    (hexec : ∀ s, exec i s = command i (do requireBytewise; requireState i) (do update g; m) s)
    (hg : ∀ s, OnlyCacheAndFlags s (g s)) (hirq : ∀ s, (g s).irqFlag = s.irqFlag)
    (hst : ∀ s, (g s).opState = .initial → s.opState = .initial) (hm : Sound m) : IsSound i :=
  .of_body hexec (checksOf_bytewise_state hb ha hf) <| (sound_cacheWrite hg hirq hst).bind fun _ => hm

theorem isSound_sleep : IsSound .sleep := by
  refine .of_body (fun _ => rfl) (checksOf_bytewise_state rfl rfl rfl) (.current_bind fun s => ?_)
  split
  · exact .pure _
  · exact sound_setTrxStateCommit _ nofun

theorem checksOf_writeFrame (f : List Byte) : ChecksOf (.writeFrame f) (do
    requireBytewise
    requireFrameFits f) :=
  ((requireBytewise_checksFor (i := .writeFrame f) rfl).bind
    (requireFrameFits_checksFor (i := .writeFrame f) rfl)).congr fun s => by
      simp [precheck_eq_or, argumentError, badArgument, stateError, legality]

theorem checksOf_spiFbWrite (f : List Byte) : ChecksOf (.spiFbWrite f) (requireFrameFits f) :=
  (requireFrameFits_checksFor (i := .spiFbWrite f) rfl).congr fun s => by
    simp [precheck_eq_or, profileError, needsBytewise, argumentError, badArgument, stateError, legality]

theorem isSound {i : Instr} (hi : i ≠ .taskHandler) : IsSound i := by
  cases i with
  | taskHandler => exact absurd rfl hi
  | init =>
    exact .of_body (fun _ => rfl) (checksOf_bytewise_state rfl rfl rfl) <|
      sound_rstPulse <| (sound_setTrxState _).bind fun _ => sound_initConfigure.returning fun _ => []
  | sleep => exact isSound_sleep
  | wakeup =>
    exact .of_body (fun _ => rfl) (checksOf_bytewise_state rfl rfl rfl) <|
      sound_setTrxStateCommit _ nofun
  | dataRequest data =>
    exact .of_body (fun _ => rfl) (checksOf_dataRequest data) <|
      (sound_confirmOnError ((sound_setTrxState _).bind fun _ => sound_requestArmed data)).returning fun _ => []
  | setChannel ch =>
    exact isSound_cached rfl rfl rfl (fun _ => rfl) (fun _ => rfl) (fun _ => rfl) (fun _ => id) <|
      sound_writeChannelRegs.returning fun _ => []
  | setBand b =>
    exact .of_body (fun _ => rfl) (checksOf_setBand b) <|
      .bind (sound_cacheWrite (fun _ => rfl) (fun _ => rfl) fun _ => id) fun _ => .config_bind fun _ =>
        (sound_cfgWrite _ _).bind fun _ => sound_writeChannelRegs.returning fun _ => []
  | setModulation | setTxPower =>
    exact isSound_cached rfl rfl rfl (fun _ => rfl) (fun _ => rfl) (fun _ => rfl) (fun _ => id) <|
      .config_bind fun _ => (sound_cfgWrite _ _).returning fun _ => []
  | setPanId | setShortAddress =>
    exact isSound_cached rfl rfl rfl (fun _ => rfl) (fun _ => rfl) (fun _ => rfl) (fun _ => id) <|
      .config_bind fun _ => sound_addressWrites _ _ _ _
  | rssiBaseValue =>
    exact .of_body (fun _ => rfl) (checksOf_pure fun _ _ => rfl) <| .current_bind fun _ => .pure _
  | readRegister a =>
    exact .of_body (fun _ => rfl) (checksOf_arg rfl (by simp [badArgument, addrLegal_eq]) (fun _ => rfl) rfl)
      (sound_registerRead _)
  | writeRegister a v =>
    exact .of_body (fun _ => rfl) (checksOf_arg rfl (by simp [badArgument, addrLegal_eq]) (fun _ => rfl) rfl)
      ((sound_memWrite _ v).returning fun _ => [])
  | writeBytes data =>
    refine ⟨_, _, fun _ => rfl, checksOf_arg rfl (by simp [badArgument]) (fun _ => rfl) rfl, fun hlegal => ?_⟩
    have hne : data ≠ [] := by simpa [badArgument] using hlegal
    exact (sound_transaction hne).returning fun _ => []
  | readBytes n =>
    refine ⟨_, _, fun _ => rfl, checksOf_arg rfl (by simp [badArgument]) (fun _ => rfl) rfl, fun hlegal => ?_⟩
    have hne : n ≠ 0#8 := by simpa [badArgument] using hlegal
    exact sound_transaction (by simpa [zeros, ← BitVec.toNat_inj] using hne)
  | writeFrame f =>
    exact .of_body (fun _ => rfl) (checksOf_writeFrame f) <|
      (sound_setTrxState _).bind fun _ => (sound_frameWriteSeq f).returning fun _ => []
  | readFrame | spiFbRead =>
    exact .of_body (fun _ => rfl) (checksOf_pure fun _ _ => rfl) (sound_frameRead.returning RxFrame.image)
  | spiRegRead a => exact .of_body (fun _ => rfl) (checksOf_pure fun _ _ => rfl) (sound_registerRead a)
  | spiRegWrite a v =>
    exact .of_body (fun _ => rfl) (checksOf_pure fun _ _ => rfl) ((sound_memWrite a v).returning fun _ => [])
  | spiFbWrite f =>
    exact .of_body (fun _ => rfl) (checksOf_spiFbWrite f) ((sound_frameBufferWrite f).returning fun _ => [])
  | txStart => exact isSound_row rfl rfl (fun _ => rfl) rfl (fun _ => rfl) sound_transmitStart
  | forceTrxOff | rxOn | pllOn | rxAackOn | txAretOn =>
    exact isSound_row rfl rfl (fun _ => rfl) rfl (fun _ => rfl) (sound_setTrxState _)

/-! ### Every command, from where its flag is cleared -/

/-- s with i accepted, and for TASK_HANDLER the IRQ flag cleared, its first step (R239). -/
def State.begun (s : State) (i : Instr) : State := if i = .taskHandler then s.handling else accept (take i s)

section
variable {i : Instr} {s : State}

theorem later_begun (i : Instr) (s : State) : Later s (s.begun i) 0 := by
  unfold State.begun
  split <;> exact ⟨rfl, rfl, rfl⟩

theorem begun_opState (i : Instr) (s : State) : (s.begun i).opState = s.opState := by
  unfold State.begun
  split <;> rfl

theorem begun_delivered (i : Instr) (s : State) : (s.begun i).delivered = s.delivered := by
  unfold State.begun
  split <;> rfl

/-- TASK_HANDLER after it cleared the flag: nothing in Initial and Sleep, else the IRQ status read (R176). -/
theorem exec_taskHandler_handling (hp : precheck s.cfg .taskHandler s.opState = none) :
    ∃ body, Sound body ∧ exec .taskHandler s = .next (finish (body s.handling)) := by
  have hb := needsBytewise_of_precheck hp rfl
  by_cases hst : s.opState = .initial ∨ s.opState = .sleep
  · exact ⟨pure [], .pure _, exec_taskHandler_asleep hb hst⟩
  · have hawake : s.opState = .idle ∨ s.opState = .transmittingWaitEnd := by
      cases h : s.opState <;> simp_all
    refine ⟨_, (sound_memReadByte _).bind fun irq => ?_, exec_taskHandler_awake hb hawake⟩
    split
    · exact (sound_completionPath _).returning fun _ => []
    · exact .pure _

/-- An accepted command is a sound piece from there (R15). -/
theorem exec_begun (hp : precheck s.cfg i s.opState = none) :
    ∃ body, Sound body ∧ exec i s = .next (finish (body (s.begun i))) := by
  by_cases hi : i = .taskHandler
  · subst hi
    exact exec_taskHandler_handling hp
  · obtain ⟨checks, body, hexec, hchecks, hbody⟩ := isSound hi
    exact ⟨body, hbody (badArgument_none hp), by
      rw [exec_accepted (hexec s) hchecks hp, State.begun, if_neg hi]⟩

/-- A command that `precheck` refuses completes with its error (R233). -/
theorem exec_refused {e : Err} (hp : precheck s.cfg i s.opState = some e) : exec i s = .next (s.refused e []) :=
  (exec_isCommand i).refused hp

/-- Every instruction answers a next state. -/
theorem exec_next (i : Instr) (s : State) : ∃ t, exec i s = .next t := by
  cases hp : precheck s.cfg i s.opState with
  | none =>
    obtain ⟨body, -, hexec⟩ := exec_begun hp
    exact ⟨_, hexec⟩
  | some e => exact ⟨_, exec_refused hp⟩

end

/-! ### What a sound piece leaves of a command -/

section
variable {body : Seq (List Byte)} {s : State}

theorem Sound.finish_proceeds (hbody : Sound body) (hu : s.uncutUntil (finish (body s))) :
    Proceeds s (finish (body s)) := by
  obtain ⟨n, hended⟩ := finish_runs hbody.runs s
  cases hended with
  | ok u ret base rel done => exact done ▸ rel.trans (.of_same ⟨rfl, rfl, rfl⟩ rfl id)
  | failed u e base rel done => exact done ▸ rel.trans (.of_same ⟨rfl, rfl, rfl⟩ rfl id)
  | waiting u place base rel unbounded done => exact done ▸ rel.trans (.of_same ⟨rfl, rfl, rfl⟩ rfl id)
  | cut hcut => exact absurd hu hcut.not_uncutUntil

theorem Halted.delivered {s₀ t : State} {P : State → Prop} (h : Halted s₀ P t) : t.delivered = s₀.delivered := by
  obtain ⟨u, place, ⟨⟨n, hbase⟩, -⟩, rfl⟩ | ⟨n, hcut⟩ := h
  · exact hbase.delivered
  · obtain ⟨es, rfl, -⟩ := hcut.state
    rfl

theorem Base.complete_result {u : State} {n : Nat} (h : Base s u n) {code : Byte} {ret : List Byte} {info : Option Err}
    {x : Completion} (hx : (complete code ret info u).delivered = s.delivered ++ [x]) : x.result = code := by
  rw [complete_delivered, h.delivered, List.append_cancel_left_eq, List.singleton_inj] at hx
  exact hx ▸ rfl

/-- A command that runs does not complete with `InvalidState`. -/
theorem Sound.finish_result (hbody : Sound body) {x : Completion}
    (hx : (finish (body s)).delivered = s.delivered ++ [x]) : x.result ≠ 0x03#8 := by
  have hpost := ((hbody.runs.along (P := fun _ => True) (fun _ _ _ => id) s).and hbody.raises) s
    ⟨⟨⟨0, .refl s⟩, trivial⟩, trivial⟩
  refine hpost.finished (G := fun t => t.delivered = s.delivered ++ [x] → x.result ≠ 0x03#8) ?_ ?_ ?_ hx
  · rintro ret u ⟨⟨⟨n, hbase⟩, -⟩, -⟩ hx
    exact hbase.complete_result hx ▸ by decide
  · rintro e u ⟨⟨⟨n, hbase⟩, -⟩, he⟩ hx
    exact hbase.complete_result hx ▸ he
  · rintro u ⟨hhalted, -⟩ hx
    simp [hhalted.delivered] at hx

end

end Sys2Proof.Machine
end

section
/-! A step that takes a word which decodes (R245). -/

namespace Sys2Proof.Machine

section
variable {s : State} {e : Encoded} {i : Instr}

theorem runWord_decoded (hdec : decode s.cfg e = .ok i) : runWord e s = exec i s := by
  simp only [runWord, hdec]

theorem step_wordEdge {rest : List PortInput} (hport : s.port = .wordEdge e :: rest) (hfree : s.busy = false)
    (hdec : decode s.cfg e = .ok i) : step s = thenEdge (exec i { s with port := rest }) := by
  rw [← runWord_decoded (s := { s with port := rest }) hdec]
  simp [step, hport, hfree]

end

/-- Settles O4: a word that decodes is run as its instruction. -/
theorem stepRunsTheDecodedInstruction : Obligations.StepRunsTheDecodedInstruction := by
  unfold Obligations.StepRunsTheDecodedInstruction
  intro s e rest i hport hfree hdec
  rw [step_word hport hfree]
  exact runWord_decoded hdec

end Sys2Proof.Machine
end

section
/-! The IRQ input (R238, R239): an edge sets the flag, and of all commands only TASK_HANDLER clears it. -/

namespace Sys2Proof.Machine

section
variable {i : Instr} {s t : State}

theorem exec_irqFlag (hi : i ≠ .taskHandler) (ht : exec i s = .next t) (hu : s.uncutUntil t) :
    t.irqFlag = (s.irqFlag || s.edgeWithin (t.draws - s.draws)) := by
  refine Proceeds.irqFlag_eq ?_
  cases hp : precheck s.cfg i s.opState with
  | none =>
    obtain ⟨body, hbody, hexec⟩ := exec_begun hp
    rw [State.begun, if_neg hi] at hexec
    obtain rfl := Host.Outcome.next.inj (hexec.symm.trans ht)
    exact .trans (.of_same (later_accepted i s) rfl id) (hbody.finish_proceeds ((later_accepted i s).uncutUntil hu))
  | some err =>
    obtain rfl := Host.Outcome.next.inj ((exec_refused hp).symm.trans ht)
    exact .of_same ⟨rfl, rfl, rfl⟩ rfl id

theorem precheck_taskHandler (hb : s.cfg.profile.bytewise = true) :
    precheck s.cfg .taskHandler s.opState = none :=
  precheck_stateCommand hb rfl rfl (by cases s.opState <;> simp [legality])

theorem exec_taskHandler_irqFlag (hb : s.cfg.profile.bytewise = true) (ht : exec .taskHandler s = .next t)
    (hu : s.uncutUntil t) : t.irqFlag = s.edgeWithin (t.draws - s.draws) := by
  obtain ⟨body, hbody, hexec⟩ := exec_taskHandler_handling (precheck_taskHandler hb)
  obtain rfl := Host.Outcome.next.inj (hexec.symm.trans ht)
  exact (hbody.finish_proceeds ((later_handling s).uncutUntil hu)).irqFlag_eq

end

/-- Settles O8: an edge on `port` or after the last chunk sets the flag, and the pieces of a command add what the edges
of its chunks do (`Proceeds`). -/
theorem onlyTaskHandlerClearsTheIrqFlag : Obligations.OnlyTaskHandlerClearsTheIrqFlag := by
  unfold Obligations.OnlyTaskHandlerClearsTheIrqFlag
  refine ⟨fun s rest hport => ?_, fun i s t hi => exec_irqFlag hi, fun s t hb => exec_taskHandler_irqFlag hb,
    fun s e rest i hport hfree hdec => ?_, fun s e rest hport hfree hb hdec hst => ?_⟩
  · simp only [step, hport]
    rfl
  · obtain ⟨t, ht⟩ := exec_next i { s with port := rest }
    exact ⟨t, ht, by rw [step_wordEdge hport hfree hdec, ht]; rfl⟩
  · rw [step_wordEdge hport hfree hdec, exec_taskHandler_asleep (s := { s with port := rest }) hb hst]
    rfl

end Sys2Proof.Machine
end

section
/-! The legality table (R234), cell by cell. -/

namespace Sys2Proof.Machine

section
variable {i : Instr} {s t : State}

theorem precheck_illegal (hb : s.cfg.profile.bytewise = true) (ha : badArgument i = none)
    (hl : legality i s.opState = .refuse) : precheck s.cfg i s.opState = some (.invalidState s.opState) := by
  simp [precheck_eq_or, profileError, hb, argumentError, ha, stateError, hl]

/-- A legal command is not refused with `InvalidState`. -/
theorem precheck_code_ne (hl : legality i s.opState ≠ .refuse) {e : Err}
    (hp : precheck s.cfg i s.opState = some e) : e.code ≠ 0x03#8 := by
  simp only [precheck_eq_or, stateError, if_neg hl, Option.none_or, Option.or_eq_some_iff] at hp
  obtain hprofile | ⟨-, hargument | ⟨-, hframe⟩⟩ := hp
  · obtain ⟨-, ⟨⟩⟩ := Option.ite_none_right_eq_some.1 hprofile
    simp [Err.code]
  · obtain ⟨arg, -, rfl⟩ := Option.map_eq_some_iff.1 hargument
    simp [Err.code]
  · obtain ⟨f, -, hlong⟩ := Option.bind_eq_some_iff.1 hframe
    obtain ⟨-, ⟨⟩⟩ := Option.ite_none_right_eq_some.1 hlong
    simp [Err.code]

/-- In a cell of the table that runs, or is a no-op, a command does not complete with `InvalidState` (R234). -/
theorem exec_result_ne (hl : legality i s.opState ≠ .refuse) (ht : exec i s = .next t) {x : Completion}
    (hx : t.delivered = s.delivered ++ [x]) : x.result ≠ 0x03#8 := by
  cases hp : precheck s.cfg i s.opState with
  | none =>
    obtain ⟨body, hbody, hexec⟩ := exec_begun hp
    obtain rfl := Host.Outcome.next.inj (hexec.symm.trans ht)
    exact hbody.finish_result (by rw [hx, begun_delivered])
  | some e =>
    obtain rfl := Host.Outcome.next.inj ((exec_refused hp).symm.trans ht)
    rw [refused_delivered, List.append_cancel_left_eq, List.singleton_inj] at hx
    exact hx ▸ precheck_code_ne hl hp

/-- The cells of R234 that refuse are those of these rows. -/
theorem legality_ne_refuse (hinit : i = .init → s.opState = .initial)
    (hsleep : i = .sleep → s.opState = .idle ∨ s.opState = .sleep)
    (hwakeup : i = .wakeup → s.opState = .idle ∨ s.opState = .sleep)
    (hrequest : ∀ d, i = .dataRequest d → s.opState = .idle)
    (hconfig : isConfiguration i = true → s.opState ≠ .initial) : legality i s.opState ≠ .refuse := by
  cases i with
  | init => exact init_legal_iff.2 (hinit rfl)
  | sleep => exact sleep_legal_iff.2 (hsleep rfl)
  | wakeup => exact wakeup_legal_iff.2 (hwakeup rfl)
  | dataRequest d => exact dataRequest_legal_iff.2 (hrequest d rfl)
  | taskHandler => cases s.opState <;> simp [legality]
  | setChannel | setBand | setModulation | setPanId | setShortAddress | setTxPower =>
    exact mt afterInit_eq_refuse_iff.1 (hconfig rfl)
  | _ => simp [legality]

/-- Only SRC reset brings `opState` back to Initial (R167). -/
theorem exec_initial (ht : exec i s = .next t) (hu : s.uncutUntil t) (hst : t.opState = .initial) :
    s.opState = .initial := by
  cases hp : precheck s.cfg i s.opState with
  | none =>
    obtain ⟨body, hbody, hexec⟩ := exec_begun hp
    obtain rfl := Host.Outcome.next.inj (hexec.symm.trans ht)
    rw [← begun_opState i]
    exact (hbody.finish_proceeds ((later_begun i s).uncutUntil hu)).opState hst
  | some e =>
    obtain rfl := Host.Outcome.next.inj ((exec_refused hp).symm.trans ht)
    exact hst

variable (hb : s.cfg.profile.bytewise = true)
include hb

/-- A cell of the table that refuses (R234). -/
theorem exec_illegal (ha : badArgument i = none) (hl : legality i s.opState = .refuse) :
    exec i s = .next (s.refused (.invalidState s.opState) []) := exec_refused (precheck_illegal hb ha hl)

theorem refusedBy_illegal (ha : badArgument i = none) (hl : legality i s.opState = .refuse) :
    refusedBy i s (.invalidState s.opState) := ⟨[], exec_illegal hb ha hl⟩

/-- SLEEP in Sleep is a no-op (R170). -/
theorem exec_sleep_asleep (hst : s.opState = .sleep) : exec .sleep s = .next (s.answeredOk []) := by
  refine exec_of_body_ok (i := .sleep) (t := accept (take .sleep s)) (ret := []) rfl
    (checksOf_bytewise_state rfl rfl rfl) (precheck_stateCommand hb rfl rfl (sleep_legal_iff.2 (.inr hst))) ?_
  rw [current_bind, accept_opState, take_opState, if_pos hst, pure_run]

end

/-- Settles O18: `precheck` refuses where the table does, the two no-ops are their commands' first branches, and a
command that runs is a sound piece. -/
theorem legalityTableOfCommandsAndStates : Obligations.LegalityTableOfCommandsAndStates := by
  unfold Obligations.LegalityTableOfCommandsAndStates
  refine ⟨fun s hb => ⟨fun hst => refusedBy_illegal hb rfl ?_, fun hst => ⟨refusedBy_illegal hb rfl ?_,
      refusedBy_illegal hb rfl ?_⟩, exec_sleep_asleep hb, fun d hst => exec_illegal hb rfl ?_,
      exec_taskHandler_asleep hb, fun hst i hi ha => hst ▸ refusedBy_illegal hb ha ?_⟩,
    fun i s t x ht hx hinit hsleep hwakeup hrequest hconfig =>
      exec_result_ne (legality_ne_refuse hinit hsleep hwakeup hrequest hconfig) ht hx,
    fun i s t => exec_initial⟩
  · exact of_not_not (mt init_legal_iff.1 hst)
  · rcases hst with hst | hst <;> simp [legality, hst]
  · rcases hst with hst | hst <;> simp [legality, hst]
  · exact of_not_not (mt dataRequest_legal_iff.1 hst)
  · rw [legality_of_isConfiguration hi, afterInit_eq_refuse_iff, hst]

end Sys2Proof.Machine
end

section
/-! Pieces that go on (R276): a piece that ran as far as the answers in `chip` reach does the same where more answers
are scripted, and one that a wait without a bound left then does what it has left to do, with the further answers. -/

namespace Sys2Proof.Machine

/-! ### States along a command -/

/-- s with the answers b scripted after its own, and the sequencer position q. -/
def State.extended (s : State) (q : Option SeqPos) (b : List Draw) : State :=
  { s with chip := s.chip ++ b, seq := q }

/-- s with its sequencer at this step of its command, where a model step ends in a wait (R276). -/
def State.leftAt (s : State) (place : SeqStep) : State :=
  { s with seq := s.seq.map fun p => { p with step := place } }

/-- From s to t the answers scripted in s sufficed, or none are added. -/
def Scripted (s t : State) (b : List Draw) : Prop := b = [] ∨ t.draws ≤ s.draws + s.chip.length

/-- t is s some chunks further on, its command still running. -/
structure Lasts (s t : State) : Prop where
  later     : ∃ n, Later s t n
  seq       : t.seq = s.seq
  port      : t.port = s.port
  delivered : t.delivered = s.delivered
  result    : t.result = s.result
  retdata   : t.retdata = s.retdata

section
variable {s t u : State} {b : List Draw}

theorem extended_nil (s : State) (q : Option SeqPos) : s.extended q [] = { s with seq := q } := by
  simp [State.extended]

theorem Lasts.refl (s : State) : Lasts s s := ⟨⟨0, rfl, rfl, rfl⟩, rfl, rfl, rfl, rfl, rfl⟩

theorem Lasts.trans (h : Lasts s t) (h' : Lasts t u) : Lasts s u := by
  obtain ⟨n, l⟩ := h.later
  obtain ⟨m, l'⟩ := h'.later
  exact ⟨⟨n + m, l.trans l'⟩, h'.seq.trans h.seq, h'.port.trans h.port, h'.delivered.trans h.delivered,
    h'.result.trans h.result, h'.retdata.trans h.retdata⟩

theorem Lasts.draws_le (h : Lasts s t) : s.draws ≤ t.draws := by
  obtain ⟨n, l⟩ := h.later
  rw [l.draws]
  exact Nat.le_add_right _ _

theorem Scripted.first (h : Scripted s u b) (h' : Lasts t u) : Scripted s t b :=
  h.imp_right h'.draws_le.trans

theorem Scripted.rest (h : Scripted s u b) (h' : Lasts s t) : Scripted t u b := h.imp_right fun hle => by
  obtain ⟨n, l⟩ := h'.later
  rw [l.draws, l.chip, List.length_drop]
  omega

/-- Where the answers scripted in s are used up exactly, so are those left in between. -/
theorem Lasts.used_up (h : Lasts s t) (h' : Lasts t u) (hu : u.draws = s.draws + s.chip.length) :
    u.draws = t.draws + t.chip.length := by
  obtain ⟨n, l⟩ := h.later
  have hle := h'.draws_le
  rw [l.draws] at hle ⊢
  rw [l.chip, List.length_drop]
  omega

theorem Lasts.chip_nil (h : Lasts s t) (ht : t.draws = s.draws + s.chip.length) : t.chip = [] := by
  obtain ⟨n, l⟩ := h.later
  rw [l.chip, List.drop_eq_nil_iff]
  rw [l.draws] at ht
  omega

theorem extended_drawAt (q : Option SeqPos) (h : b = [] ∨ 1 ≤ s.chip.length) :
    (s.extended q b).drawAt 0 = s.drawAt 0 := by
  obtain rfl | h := h
  · rw [extended_nil]
    rfl
  · simp [State.drawAt, State.extended, List.getElem?_append_left h]

theorem extended_rxAt (q : Option SeqPos) (h : b = [] ∨ 1 ≤ s.chip.length) (n : Nat) :
    (s.extended q b).rxAt 0 n = s.rxAt 0 n := by
  simp only [State.rxAt, extended_drawAt q h]
  rfl

end

/-! ### Pieces that go on -/

section
variable {α β : Type}

/-- What a piece from s answered, r, decides what it answers where the sequencer stands at q and b is scripted too,
`run q b`. G says which calls the piece can be left waiting in, and what it has left to do then. -/
def Goes (G : StateCall → Phase → Seq α → Prop) (s : State) (r : EStateM.Result Abort State α)
    (run : Option SeqPos → List Draw → EStateM.Result Abort State α) : Prop :=
  match r with
  | .ok a u => Lasts s u ∧ ∀ q b, Scripted s u b → run q b = .ok a (u.extended q b)
  | .error (.raised e) u => Lasts s u ∧ ∀ q b, Scripted s u b → run q b = .error (.raised e) (u.extended q b)
  | .error .stopped t =>
    (t.busy = false ∧ t.port = s.port ∧ ∀ q, run q [] = .error .stopped t)
    ∨ ∃ call phase rest u, G call phase rest ∧ Lasts s u ∧ t = u.leftAt (.waiting call phase)
      ∧ (∀ q, run q [] = .error .stopped ((u.extended q []).leftAt (.waiting call phase)))
      ∧ ∀ q b, b ≠ [] → s.cfg.pollLimit = none → u.draws = s.draws + s.chip.length →
        run q b = rest (u.extended q b)

/-- Every run of m goes on so. -/
def GoesOn (G : StateCall → Phase → Seq α → Prop) (m : Seq α) : Prop :=
  ∀ s, Goes G s (m s) fun q b => m (s.extended q b)

/-- A piece that cannot be left waiting. -/
abbrev NeverLeft : StateCall → Phase → Seq α → Prop := fun _ _ _ => False

variable {G : StateCall → Phase → Seq α → Prop} {H : StateCall → Phase → Seq β → Prop} {m : Seq α} {f : α → Seq β}

theorem Goes.mono {G' : StateCall → Phase → Seq α → Prop} {s : State} {r : EStateM.Result Abort State α}
    {run : Option SeqPos → List Draw → EStateM.Result Abort State α} (h : Goes G s r run)
    (hG : ∀ call phase rest, G call phase rest → G' call phase rest) : Goes G' s r run := by
  match r, h with
  | .ok _ _, h => exact h
  | .error (.raised _) _, h => exact h
  | .error .stopped _, .inl h => exact .inl h
  | .error .stopped _, .inr ⟨call, phase, rest, u, hrest, h⟩ => exact .inr ⟨call, phase, rest, u, hG _ _ _ hrest, h⟩

theorem GoesOn.mono {G' : StateCall → Phase → Seq α → Prop} (h : GoesOn G m)
    (hG : ∀ call phase rest, G call phase rest → G' call phase rest) : GoesOn G' m := fun s => (h s).mono hG

/-- A piece from t goes on as the part of a command from s. -/
theorem Goes.after {s t : State} {r : EStateM.Result Abort State α}
    {run run' : Option SeqPos → List Draw → EStateM.Result Abort State α} (hst : Lasts s t) (h : Goes G t r run')
    (hrun : ∀ q b, Scripted s t b → run q b = run' q b) : Goes G s r run := by
  match r, h with
  | .ok a u, ⟨htu, hgo⟩ =>
    exact ⟨hst.trans htu, fun q b hb => (hrun q b (hb.first htu)).trans (hgo q b (hb.rest hst))⟩
  | .error (.raised e) u, ⟨htu, hgo⟩ =>
    exact ⟨hst.trans htu, fun q b hb => (hrun q b (hb.first htu)).trans (hgo q b (hb.rest hst))⟩
  | .error .stopped u, .inl ⟨hbusy, hport, hgo⟩ =>
    exact .inl ⟨hbusy, hport.trans hst.port, fun q => (hrun q [] (.inl rfl)).trans (hgo q)⟩
  | .error .stopped u, .inr ⟨call, phase, rest, v, hrest, htv, hu, hstop, hgo⟩ =>
    obtain ⟨n, l⟩ := hst.later
    refine .inr ⟨call, phase, rest, v, hrest, hst.trans htv, hu, fun q => (hrun q [] (.inl rfl)).trans (hstop q),
      fun q b hb hinf hall => ?_⟩
    exact (hrun q b (.inr (hall ▸ htv.draws_le))).trans
      (hgo q b hb (l.cfg ▸ hinf) (hst.used_up htv hall))

theorem bind_congr_run {m' : Seq α} {s s' : State} (h : m s = m' s') : (m >>= f) s = (m' >>= f) s' := by
  rw [bind_run, bind_run, h]

theorem attempt_congr_run {m' : Seq α} {s s' : State} (h : m s = m' s') : attempt m s = attempt m' s' := by
  simp only [attempt, h]

theorem GoesOn.bind (hm : GoesOn G m) (hf : ∀ a, GoesOn H (f a))
    (hGH : ∀ call phase rest, G call phase rest → H call phase (rest >>= f)) : GoesOn H (m >>= f) := by
  intro s
  have h := hm s
  match hms : m s, h with
  | .ok a u, ⟨hsu, hgo⟩ =>
    rw [bind_ok hms]
    exact .after hsu (hf a u) fun q b hb => bind_ok (hgo q b hb)
  | .error (.raised e) u, ⟨hsu, hgo⟩ =>
    rw [bind_error hms]
    exact ⟨hsu, fun q b hb => bind_error (hgo q b hb)⟩
  | .error .stopped t, .inl ⟨hbusy, hport, hgo⟩ =>
    rw [bind_error hms]
    exact .inl ⟨hbusy, hport, fun q => bind_error (hgo q)⟩
  | .error .stopped t, .inr ⟨call, phase, rest, u, hrest, hsu, ht, hstop, hgo⟩ =>
    rw [bind_error hms]
    exact .inr ⟨call, phase, rest >>= f, u, hGH _ _ _ hrest, hsu, ht, fun q => bind_error (hstop q),
      fun q b hb hinf hall => bind_congr_run (hgo q b hb hinf hall)⟩

/-- A piece that cannot be left waiting, and one after it. -/
theorem GoesOn.then (hm : GoesOn NeverLeft m) (hf : ∀ a, GoesOn H (f a)) : GoesOn H (m >>= f) :=
  hm.bind hf fun _ _ _ => False.elim

theorem GoesOn.pure (a : α) : GoesOn G (Pure.pure a) := fun s => ⟨.refl s, fun _ _ _ => rfl⟩

theorem GoesOn.raise (e : Err) : GoesOn G (raise e : Seq α) := fun s => ⟨.refl s, fun _ _ _ => rfl⟩

theorem GoesOn.config_bind {f : Config → Seq β} (h : ∀ c, GoesOn H (f c)) : GoesOn H (config >>= f) :=
  fun s => h s.cfg s

/-- The step reads of the state neither the answers nor the sequencer position. -/
theorem GoesOn.current_bind {f : State → Seq β} (h : ∀ s, GoesOn H (f s))
    (hf : ∀ s q b, f (s.extended q b) = f s) : GoesOn H (current >>= f) := fun s => by
  simpa only [Machine.current_bind, hf] using h s s

theorem GoesOn.update {G : StateCall → Phase → Seq Unit → Prop} {g : State → State} (hg : ∀ s, Lasts s (g s))
    (hext : ∀ s q b, g (s.extended q b) = (g s).extended q b) : GoesOn G (update g) :=
  fun s => ⟨hg s, fun q b _ => congrArg (EStateM.Result.ok ()) (hext s q b)⟩

theorem GoesOn.attempt {H : StateCall → Phase → Seq (Except Err α) → Prop} (hm : GoesOn G m)
    (hGH : ∀ call phase rest, G call phase rest → H call phase (attempt rest)) : GoesOn H (attempt m) := by
  intro s
  have h := hm s
  match hms : m s, h with
  | .ok a u, ⟨hsu, hgo⟩ =>
    rw [attempt_ok hms]
    exact ⟨hsu, fun q b hb => attempt_ok (hgo q b hb)⟩
  | .error (.raised e) u, ⟨hsu, hgo⟩ =>
    rw [attempt_raised hms]
    exact ⟨hsu, fun q b hb => attempt_raised (hgo q b hb)⟩
  | .error .stopped t, .inl ⟨hbusy, hport, hgo⟩ =>
    rw [attempt_stopped hms]
    exact .inl ⟨hbusy, hport, fun q => attempt_stopped (hgo q)⟩
  | .error .stopped t, .inr ⟨call, phase, rest, u, hrest, hsu, ht, hstop, hgo⟩ =>
    rw [attempt_stopped hms]
    exact .inr ⟨call, phase, Machine.attempt rest, u, hGH _ _ _ hrest, hsu, ht, fun q => attempt_stopped (hstop q),
      fun q b hb hinf hall => attempt_congr_run (hgo q b hb hinf hall)⟩

end

/-! ### The chunk engine -/

section
variable {α : Type} {G : StateCall → Phase → Seq α → Prop}

theorem lasts_afterChunk (s : State) (tx : List Byte) : Lasts s (s.afterChunk tx) :=
  ⟨⟨1, rfl, rfl, rfl⟩, rfl, rfl, rfl, rfl, rfl⟩

theorem Scripted.of_draw {s t : State} {b : List Draw} (h : Scripted s t b) (ht : t.draws = s.draws + 1) :
    b = [] ∨ 1 ≤ s.chip.length := h.imp_right fun hle => by omega

theorem extended_afterChunk {s : State} {b : List Draw} (q : Option SeqPos) (h : b = [] ∨ 1 ≤ s.chip.length)
    (tx : List Byte) : (s.extended q b).afterChunk tx = (s.afterChunk tx).extended q b := by
  have hchip : (s.chip ++ b).drop 1 = s.chip.drop 1 ++ b := by
    obtain rfl | h := h
    · simp
    · exact List.drop_append_of_le_length h
  simp only [State.afterChunk, extended_drawAt q h, extended_rxAt q h]
  simp only [State.extended, State.takeDraw, hchip]

/-- Where SRC reset falls, the sequencer position does not matter. -/
theorem srcReset_cutAbout_extended (s : State) (q : Option SeqPos) (tx : List Byte) (c : Cut) :
    srcReset ((s.extended q []).cutAbout tx c) = srcReset (s.cutAbout tx c) := by
  rw [extended_nil]
  cases c <;> rfl

theorem goesOn_xfer (tx : List Byte) {G : StateCall → Phase → Seq (Bool × List Byte) → Prop} :
    GoesOn G (xfer tx) := by
  intro s
  cases hcut : (s.drawAt 0).cut with
  | none =>
    rw [show xfer tx s = .ok ((s.drawAt 0).ok, s.rxAt 0 tx.length) (s.afterChunk tx) by simp [xfer, hcut]]
    refine ⟨lasts_afterChunk s tx, fun q b hb => ?_⟩
    have hdraw := hb.of_draw rfl
    simp [xfer, extended_drawAt q hdraw, hcut, extended_rxAt q hdraw, extended_afterChunk q hdraw]
  | some c =>
    rw [show xfer tx s = .error .stopped (srcReset (s.cutAbout tx c)) by simp [xfer, hcut]]
    refine .inl ⟨rfl, (cutAbout_facts s tx c).2.2.1, fun q => ?_⟩
    have hdraw : (s.extended q []).drawAt 0 = s.drawAt 0 := extended_drawAt q (.inl rfl)
    simp [xfer, hdraw, hcut, srcReset_cutAbout_extended]

/-- A chunk that is not cut takes one answer. -/
theorem xfer_takes_one (tx : List Byte) (s : State) :
    Post (fun _ u => u.draws = s.draws + 1) (fun _ _ => False) (fun _ => True) (xfer tx s) := by
  simp only [xfer]
  split <;> simp only [Post, State.afterChunk, State.takeDraw]

/-- s with chip-select asserted. -/
def State.selected (s : State) : State := { s with cs := .asserted }.log (.cs .asserted)

theorem selected_extended (s : State) (q : Option SeqPos) (b : List Draw) :
    (s.extended q b).selected = s.selected.extended q b := rfl

theorem lasts_selected (s : State) : Lasts s s.selected := ⟨⟨0, rfl, rfl, rfl⟩, rfl, rfl, rfl, rfl, rfl⟩

theorem csAssert_bind {f : Unit → Seq α} {s : State} (h : (s.drawAt 0).cut ≠ some .beforeSelect) :
    (csAssert >>= f) s = f () s.selected := bind_ok (by simp [csAssert, h, State.selected])

theorem csAssert_bind_cut {f : Unit → Seq α} {s : State} (h : (s.drawAt 0).cut = some .beforeSelect) :
    (csAssert >>= f) s = .error .stopped (srcReset s.takeDraw) := bind_error (by simp [csAssert, h])

/-- Chip-select and the first chunk: SRC reset before chip-select comes with the answer of that chunk (log 18). -/
theorem goesOn_opening (tx : List Byte) {G : StateCall → Phase → Seq (Bool × List Byte) → Prop} :
    GoesOn G (do csAssert; xfer tx) := by
  intro s
  by_cases hsel : (s.drawAt 0).cut = some .beforeSelect
  · rw [csAssert_bind_cut hsel]
    refine .inl ⟨rfl, rfl, fun q => ?_⟩
    have hdraw : ((s.extended q []).drawAt 0).cut = some .beforeSelect := by rw [extended_drawAt q (.inl rfl), hsel]
    exact (csAssert_bind_cut hdraw).trans (by rw [extended_nil]; rfl)
  · rw [csAssert_bind hsel]
    have hrun : ∀ q b, (b = [] ∨ 1 ≤ s.chip.length) → (do csAssert; xfer tx : Seq _) (s.extended q b)
        = xfer tx (s.selected.extended q b) := fun q b hb => by
      rw [csAssert_bind (by rwa [extended_drawAt q hb]), selected_extended]
    have hchunk := goesOn_xfer tx (G := NeverLeft) s.selected
    have hdraws := xfer_takes_one tx s.selected
    match hx : xfer tx s.selected, hchunk with
    | .ok a u, ⟨hu, hgo⟩ =>
      rw [hx] at hdraws
      exact ⟨(lasts_selected s).trans hu, fun q b hb => (hrun q b (hb.of_draw hdraws)).trans
        (hgo q b (hb.rest (lasts_selected s)))⟩
    | .error .stopped t, .inl ⟨hbusy, hport, hgo⟩ =>
      exact .inl ⟨hbusy, hport, fun q => (hrun q [] (.inl rfl)).trans (hgo q)⟩
    | .error .stopped t, .inr ⟨_, _, _, _, hleft, _⟩ => exact hleft.elim
    | .error (.raised e) u, _ =>
      rw [hx] at hdraws
      exact hdraws.elim

theorem goesOn_csDeassert {G : StateCall → Phase → Seq Unit → Prop} : GoesOn G csDeassert :=
  .update (fun _ => ⟨⟨0, rfl, rfl, rfl⟩, rfl, rfl, rfl, rfl, rfl⟩) fun _ _ _ => rfl

/-- What follows a chunk in the loop of `Seg`. -/
theorem goesOn_answered {rest : Seq α} (h : GoesOn G rest) (ok : Bool) (e : Err) :
    GoesOn G (if ok then rest else do csDeassert; raise e) := by
  cases ok with
  | true => exact h
  | false => exact goesOn_csDeassert.then fun _ => .raise e

/-- The loop of `Seg`. -/
theorem goesOn_sendChunks (ps : List (List Byte)) (k i : Nat) (rx : List Byte)
    {G : StateCall → Phase → Seq (List Byte) → Prop} : GoesOn G (sendChunks ps k i rx) := by
  induction ps generalizing k i rx with
  | nil => exact .pure rx
  | cons p ps ih => exact (goesOn_xfer p).then fun _ => goesOn_answered (ih _ _ _) _ _

theorem goesOn_seg (tx : List Byte) {G : StateCall → Phase → Seq (List Byte) → Prop} : GoesOn G (seg tx) :=
  .config_bind fun _ => goesOn_sendChunks _ _ _ _

theorem csAssert_config_bind (f : Config → Seq α) :
    (do csAssert; let c ← config; f c) = (do let c ← config; csAssert; f c) := by
  funext s
  rw [config_bind]
  by_cases h : (s.drawAt 0).cut = some .beforeSelect
  · rw [csAssert_bind_cut h, csAssert_bind_cut h]
  · rw [csAssert_bind h, csAssert_bind h]
    rfl

/-- Chip-select and a first segment. -/
theorem goesOn_openSeg {tx : List Byte} (hne : tx ≠ []) {G : StateCall → Phase → Seq (List Byte) → Prop} :
    GoesOn G (do csAssert; seg tx) := by
  simp only [seg, csAssert_config_bind]
  refine .config_bind fun c => ?_
  obtain ⟨p, ps, hc⟩ := List.exists_cons_of_ne_nil (chunksOf_ne_nil (m := c.maxXfer) hne)
  rw [hc, sendChunks, ← bind_assoc]
  exact (goesOn_opening p).then fun _ => goesOn_answered (goesOn_sendChunks _ _ _ _) _ _

theorem goesOn_transaction {tx : List Byte} (hne : tx ≠ []) {G : StateCall → Phase → Seq (List Byte) → Prop} :
    GoesOn G (transaction tx) := by
  rw [transaction, ← bind_assoc]
  exact (goesOn_openSeg hne).then fun _ => goesOn_csDeassert.then fun _ => .pure _

theorem goesOn_frameReadRest (c : Config) (l : Byte) {G : StateCall → Phase → Seq RxFrame → Prop} :
    GoesOn G (frameReadRest c l) := by
  unfold frameReadRest
  split
  · exact goesOn_csDeassert.then fun _ => .raise _
  · exact (goesOn_seg _).then fun body => goesOn_csDeassert.then fun _ => GoesOn.then
      (m := update fun s => { s with rxbuf := s.rxbuf.writeRange 0 (RxFrame.image { len := l, body := body }) })
      (.update (fun _ => ⟨⟨0, rfl, rfl, rfl⟩, rfl, rfl, rfl, rfl, rfl⟩) fun _ _ _ => rfl) fun _ => .pure _

theorem frameRead_eq : frameRead = (do
    let c ← config
    let hdr ← (do csAssert; seg [c.profile.fbReadCmd, 0x00#8])
    frameReadRest c (byteAt hdr 1)) := by
  simp only [frameRead, csAssert_config_bind, bind_assoc]
  rfl

theorem goesOn_frameRead {G : StateCall → Phase → Seq RxFrame → Prop} : GoesOn G frameRead := by
  rw [frameRead_eq]
  exact .config_bind fun _ => (goesOn_openSeg (by simp)).then fun _ => goesOn_frameReadRest _ _

end

end Sys2Proof.Machine
end

section
/-! Whole transactions (R52, R260): between its pieces a command has no transaction open, and where SRC reset or a wait
without a bound stops it chip-select is released. -/

namespace Sys2Proof.Machine

/-! ### Where the bus line stands -/

/-- The bus events since the trace was tr leave the line at l, and chip-select is asserted unless that is released. -/
def AtLine (tr : List BusEvent) (l : BusLine) (s : State) : Prop :=
  (s.cs = .asserted ↔ l ≠ .released) ∧ ∃ es, s.trace = tr ++ es ∧ framed .released es = some l

/-- No transaction is open. -/
abbrev Whole (tr : List BusEvent) : State → Prop := AtLine tr .released

/-- A transaction is open, in which no chunk has failed. -/
def Selected (tr : List BusEvent) (s : State) : Prop := AtLine tr .opened s ∨ AtLine tr .sending s

section
variable {tr : List BusEvent} {l l' : BusLine} {s t : State}

theorem AtLine.same (h : AtLine tr l s) (hcs : t.cs = s.cs) (htr : t.trace = s.trace) : AtLine tr l t := by
  rwa [AtLine, hcs, htr]

theorem AtLine.append (h : AtLine tr l s) {es : List BusEvent} (hcs : t.cs = .asserted ↔ l' ≠ .released)
    (htr : t.trace = s.trace ++ es) (hes : framed l es = some l') : AtLine tr l' t := by
  obtain ⟨-, fs, hfs, hl⟩ := h
  exact ⟨hcs, fs ++ es, by rw [htr, hfs, List.append_assoc], by rw [framed_append, hl]; exact hes⟩

/-- SRC reset releases the line. -/
theorem AtLine.srcReset (h : AtLine tr l s) : Whole tr (srcReset s) := by
  refine h.append (by simp [Machine.srcReset, State.boot]) rfl ?_
  have hrst : ∀ es, es = (if s.rst = .asserted then [.rst .deasserted] else []) →
      framed .released es = some .released := by
    rintro es rfl
    split <;> rfl
  rw [resetEdges, framed_append]
  by_cases hcs : s.cs = .asserted
  · rw [if_pos hcs]
    cases l with
    | released => exact absurd rfl (h.1.1 hcs)
    | opened | sending | broken => exact hrst _ rfl
  · rw [if_neg hcs, of_not_not (mt h.1.2 hcs)]
    exact hrst _ rfl

end

/-! ### The chunk engine -/

section
variable {tr : List BusEvent} {E : Err → State → Prop}

theorem csAssert_whole : Triple (Whole tr) csAssert (fun _ => Selected tr) E (Whole tr) := fun s hs => by
  simp only [csAssert]
  split
  · exact (hs.same (t := s.takeDraw) rfl rfl).srcReset
  · exact .inl (hs.append (es := [.cs .asserted]) (by simp [State.log]) rfl rfl)

theorem csDeassert_whole {S : State → Prop} {s : State} (h : Selected tr s ∨ AtLine tr .broken s) :
    Post (fun _ => Whole tr) E S (csDeassert s) := by
  obtain (h | h) | h := h <;> exact h.append (es := [.cs .deasserted]) (by simp [State.log]) rfl rfl

/-- A chunk that SRC reset cuts, or one that it does not and that fails or goes through. -/
theorem xfer_whole (p : List Byte) : Triple (Selected tr) (xfer p)
    (fun answer t => if answer.1 then Selected tr t else AtLine tr .broken t) E (Whole tr) := fun s hs => by
  have hopen : ∃ l, (l = .opened ∨ l = .sending) ∧ AtLine tr l s :=
    hs.elim (fun h => ⟨_, .inl rfl, h⟩) fun h => ⟨_, .inr rfl, h⟩
  obtain ⟨l, hl, hline⟩ := hopen
  have hcs : s.cs = .asserted := hline.1.2 (by rcases hl with rfl | rfl <;> simp)
  cases hcut : (s.drawAt 0).cut with
  | some c =>
    obtain ⟨-, -, -, hcs', -, htrace⟩ := cutAbout_facts s p c
    have hcutLine : ∃ l', l' ≠ .released ∧ framed l (s.cutEvents 0 p c) = some l' := by
      rcases hl with rfl | rfl <;> cases c <;> simp [State.cutEvents, framed, framedEvent] <;> split <;> simp
    obtain ⟨l', hne, hframed⟩ := hcutLine
    rw [show xfer p s = .error .stopped (srcReset (s.cutAbout p c)) by simp [xfer, hcut]]
    exact (hline.append (by simp [hcs', hcs, hne]) htrace hframed).srcReset
  | none =>
    rw [show xfer p s = .ok ((s.drawAt 0).ok, s.rxAt 0 p.length) (s.afterChunk p) by simp [xfer, hcut]]
    cases hok : (s.drawAt 0).ok with
    | true =>
      exact .inr (hline.append (by simp [hcs]) rfl (by rcases hl with rfl | rfl <;> simp [framed, framedEvent, hok]))
    | false => exact hline.append (by simp [hcs]) rfl (by rcases hl with rfl | rfl <;> simp [framed, framedEvent, hok])

theorem sendChunks_whole (ps : List (List Byte)) (k i : Nat) (rx : List Byte) :
    Triple (Selected tr) (sendChunks ps k i rx) (fun _ => Selected tr) (fun _ => Whole tr) (Whole tr) := by
  induction ps generalizing k i rx with
  | nil => exact .pure fun _ => id
  | cons p ps ih =>
    refine .bind (xfer_whole p) fun answer => ?_
    cases answer.1 with
    | true => exact ih _ _ _
    | false => exact .bind (fun _ h => csDeassert_whole (.inr h)) fun _ => .raise fun _ => id

theorem seg_whole (tx : List Byte) :
    Triple (Selected tr) (seg tx) (fun _ => Selected tr) (fun _ => Whole tr) (Whole tr) :=
  fun s => sendChunks_whole (chunksOf s.cfg.maxXfer tx) 0 0 [] s

/-- The piece begins and ends with no transaction open, also where it is stopped. -/
def KeepsWhole {α : Type} (m : Seq α) : Prop :=
  ∀ tr, Triple (Whole tr) m (fun _ => Whole tr) (fun _ => Whole tr) (Whole tr)

theorem transaction_whole (tx : List Byte) : KeepsWhole (transaction tx) := fun _ =>
  .bind csAssert_whole fun _ => .bind (seg_whole tx) fun _ =>
    .bind (fun _ h => csDeassert_whole (.inl h)) fun _ => .pure fun _ => id

theorem frameRead_whole : KeepsWhole frameRead := fun tr => by
  have hrest : ∀ c l, Triple (Selected tr) (frameReadRest c l) (fun _ => Whole tr) (fun _ => Whole tr) (Whole tr) := by
    intro c l
    have hrelease : Triple (Selected tr) csDeassert (fun _ => Whole tr) (fun _ => Whole tr) (Whole tr) :=
      fun _ h => csDeassert_whole (.inl h)
    unfold frameReadRest
    split
    · exact .bind hrelease fun _ => .raise fun _ => id
    · exact .bind (seg_whole _) fun _ => .bind hrelease fun _ =>
        .bind (.update (Q := fun _ => Whole tr) fun _ h => h.same rfl rfl) fun _ => .pure fun _ => id
  rw [frameRead_eq]
  exact fun s => Triple.bind (.bind csAssert_whole fun _ => seg_whole _) (fun _ => hrest _ _) s

end

end Sys2Proof.Machine
end

section
/-! Resumable pieces: those that go on and keep to whole transactions, which every command is made of; and the wait
(R161), which a command can be left in. -/

namespace Sys2Proof.Machine

/-! ### How they compose -/

/-- The piece goes on, and begins and ends with no transaction open. G says which calls it can be left waiting in, and
what it has left to do then. -/
structure Resumable {α : Type} (G : StateCall → Phase → Seq α → Prop) (m : Seq α) : Prop where
  goesOn : GoesOn G m
  whole  : KeepsWhole m

/-- t is s but for the operating state, the cache, the buffers, the IRQ flag, the events and the counts. -/
def Writes (s t : State) : Prop :=
  t = { s with
    opState := t.opState, channel := t.channel, band := t.band, modulation := t.modulation, panId := t.panId
    shortAddr := t.shortAddr, txPower := t.txPower, txbuf := t.txbuf, rxbuf := t.rxbuf, irqFlag := t.irqFlag
    evq := t.evq, pollCount := t.pollCount, retryCount := t.retryCount }

theorem Writes.lasts {s t : State} (h : Writes s t) : Lasts s t := by
  unfold Writes at h
  exact ⟨⟨0, (congrArg State.chip h :), (congrArg State.draws h :), (congrArg State.cfg h :)⟩,
    (congrArg State.seq h :), (congrArg State.port h :), (congrArg State.delivered h :), (congrArg State.result h :),
    (congrArg State.retdata h :)⟩

section
variable {α β : Type} {G : StateCall → Phase → Seq α → Prop} {H : StateCall → Phase → Seq β → Prop} {m : Seq α}
  {f : α → Seq β}

theorem Resumable.mono {G' : StateCall → Phase → Seq α → Prop} (h : Resumable G m)
    (hG : ∀ call phase rest, G call phase rest → G' call phase rest) : Resumable G' m := ⟨h.goesOn.mono hG, h.whole⟩

theorem Resumable.bind (hm : Resumable G m) (hf : ∀ a, Resumable H (f a))
    (hGH : ∀ call phase rest, G call phase rest → H call phase (rest >>= f)) : Resumable H (m >>= f) :=
  ⟨hm.goesOn.bind (fun a => (hf a).goesOn) hGH, fun tr => .bind (hm.whole tr) fun a => (hf a).whole tr⟩

/-- A piece that cannot be left waiting, and one after it. -/
theorem Resumable.then (hm : Resumable NeverLeft m) (hf : ∀ a, Resumable H (f a)) : Resumable H (m >>= f) :=
  hm.bind hf fun _ _ _ => False.elim

theorem Resumable.pure (a : α) : Resumable G (Pure.pure a) := ⟨.pure a, fun _ => .pure fun _ => id⟩

theorem Resumable.raise (e : Err) : Resumable G (raise e : Seq α) := ⟨.raise e, fun _ => .raise fun _ => id⟩

theorem Resumable.config_bind {f : Config → Seq β} (h : ∀ c, Resumable H (f c)) : Resumable H (config >>= f) :=
  ⟨.config_bind fun c => (h c).goesOn, fun tr s => (h s.cfg).whole tr s⟩

theorem Resumable.current_bind {f : State → Seq β} (h : ∀ s, Resumable H (f s))
    (hf : ∀ s q b, f (s.extended q b) = f s) : Resumable H (current >>= f) :=
  ⟨.current_bind (fun s => (h s).goesOn) hf, fun tr s => (h s).whole tr s⟩

theorem Resumable.update {G : StateCall → Phase → Seq Unit → Prop} {g : State → State} (hg : ∀ s, Writes s (g s))
    (hext : ∀ s q b, g (s.extended q b) = (g s).extended q b) : Resumable G (update g) :=
  ⟨.update (fun s => (hg s).lasts) hext, fun _ => .update fun s h =>
    h.same (congrArg State.cs (hg s) :) (congrArg State.trace (hg s) :)⟩

theorem Resumable.attempt {H : StateCall → Phase → Seq (Except Err α) → Prop} (hm : Resumable G m)
    (hGH : ∀ call phase rest, G call phase rest → H call phase (attempt rest)) : Resumable H (attempt m) :=
  ⟨hm.goesOn.attempt hGH, fun tr s hs => by
    have h := hm.whole tr s hs
    cases hms : m s with
    | ok a t =>
      rw [hms] at h
      rwa [attempt_ok hms]
    | error e t =>
      rw [hms] at h
      cases e with
      | raised e => rwa [attempt_raised hms]
      | stopped => rwa [attempt_stopped hms]⟩

theorem Resumable.returning (hm : Resumable NeverLeft m) (ret : α → List Byte)
    {H : StateCall → Phase → Seq (List Byte) → Prop} : Resumable H (do let a ← m; Pure.pure (ret a)) :=
  hm.then fun _ => .pure _

end

/-! ### Register accesses, configuration writes and frames: none can be left waiting -/

section
variable {α : Type} {G : StateCall → Phase → Seq α → Prop}

theorem resumable_transaction {tx : List Byte} (hne : tx ≠ []) {G : StateCall → Phase → Seq (List Byte) → Prop} :
    Resumable G (transaction tx) := ⟨goesOn_transaction hne, transaction_whole tx⟩

theorem resumable_memRead (a : RegAddr) {G : StateCall → Phase → Seq Half → Prop} : Resumable G (memRead a) :=
  .config_bind fun _ => (resumable_transaction (readExchange_ne_nil _ _)).then fun _ => .pure _

theorem resumable_memWrite (a : RegAddr) (v : Half) {G : StateCall → Phase → Seq Unit → Prop} :
    Resumable G (memWrite a v) :=
  .config_bind fun _ => (resumable_transaction (writeExchange_ne_nil _ _ _)).then fun _ => .pure _

theorem resumable_memReadByte (a : RegAddr) {G : StateCall → Phase → Seq Byte → Prop} : Resumable G (memReadByte a) :=
  (resumable_memRead a).then fun _ => .pure _

theorem resumable_writeTrxState (code : TrxCode) {G : StateCall → Phase → Seq Unit → Prop} :
    Resumable G (writeTrxState code) := .config_bind fun _ => resumable_memWrite _ _

theorem resumable_commit (st : OpState) {G : StateCall → Phase → Seq Unit → Prop} : Resumable G (commit st) :=
  .update (fun _ => rfl) fun _ _ _ => rfl

theorem resumable_emit (e : Event) {G : StateCall → Phase → Seq Unit → Prop} : Resumable G (emit e) :=
  .update (fun _ => rfl) fun _ _ _ => rfl

theorem resumable_cfgWriteLoop (a : RegAddr) (v : Byte) (n : Nat) {G : StateCall → Phase → Seq Unit → Prop} :
    Resumable G (cfgWriteLoop a v n) := by
  have hwrite : Resumable NeverLeft (attempt (memWriteByte a v)) :=
    (resumable_memWrite a _).attempt fun _ _ _ => id (α := False)
  have hcount : Resumable NeverLeft (update fun s => { s with retryCount := s.retryCount + 1 }) :=
    .update (fun _ => rfl) fun _ _ _ => rfl
  induction n with
  | zero =>
    exact hwrite.then fun r => by
      cases r with
      | ok _ => exact .pure ()
      | error e => exact hcount.then fun _ => .raise e
  | succ n ih =>
    exact hwrite.then fun r => by
      cases r with
      | ok _ => exact .pure ()
      | error e => exact hcount.then fun _ => ih

theorem resumable_cfgWrite (a : RegAddr) (v : Byte) {G : StateCall → Phase → Seq Unit → Prop} :
    Resumable G (cfgWrite a v) :=
  .then (.update (fun _ => rfl) fun _ _ _ => rfl) fun _ => .config_bind fun _ => resumable_cfgWriteLoop _ _ _

theorem resumable_writeChannelRegs {G : StateCall → Phase → Seq Unit → Prop} : Resumable G writeChannelRegs :=
  .current_bind (fun _ => by split <;> exact resumable_cfgWrite _ _) fun _ _ _ => rfl

theorem resumable_writeSeed {G : StateCall → Phase → Seq Unit → Prop} : Resumable G writeSeed :=
  .current_bind (fun _ => resumable_cfgWrite _ _) fun _ _ _ => rfl

theorem resumable_frameBufferWrite (f : List Byte) {G : StateCall → Phase → Seq Unit → Prop} :
    Resumable G (frameBufferWrite f) :=
  .then (.update (fun _ => rfl) fun _ _ _ => rfl) fun _ => .config_bind fun _ =>
    (resumable_transaction (by simp)).then fun _ => .pure ()

theorem resumable_transmitStart {G : StateCall → Phase → Seq Unit → Prop} : Resumable G transmitStart :=
  .config_bind fun _ => resumable_writeTrxState _

theorem resumable_frameWriteSeq (f : List Byte) {G : StateCall → Phase → Seq Unit → Prop} :
    Resumable G (frameWriteSeq f) := (resumable_frameBufferWrite f).then fun _ => resumable_transmitStart

theorem resumable_frameRead {G : StateCall → Phase → Seq RxFrame → Prop} : Resumable G frameRead :=
  ⟨goesOn_frameRead, frameRead_whole⟩

end

end Sys2Proof.Machine
end

section
/-! The wait (R161, R276) as a resumable piece, and the state changes, which are what a command can be left waiting
in. -/

namespace Sys2Proof.Machine

/-! ### A read of a wait -/

section
variable {s u : State}

theorem lt_draws_of_transaction_ok {tx rx : List Byte} (hne : tx ≠ []) (h : transaction tx s = .ok rx u) :
    s.draws < u.draws := by
  obtain hgo | ⟨j, hj, hgo, hstop⟩ := first_stop s (chunksOf s.cfg.maxXfer tx).length
  · rw [transaction_ok hne hgo] at h
    cases h
    exact Nat.lt_add_of_pos_right (List.length_pos_iff.2 (chunksOf_ne_nil hne))
  · obtain ⟨sent, p, unsent, hc, rfl⟩ := split_at_index hj
    obtain hfail | ⟨c, hcut⟩ := hstop
    · rw [transaction_failed hc hgo hfail] at h
      cases h
    · obtain ⟨t, ht, -⟩ := transaction_cut hc hgo hcut
      rw [ht] at h
      cases h

theorem lt_draws_of_memReadByte_ok {a : RegAddr} {v : Byte} (h : memReadByte a s = .ok v u) : s.draws < u.draws := by
  cases htr : transaction (readExchange s.cfg a) s with
  | ok rx t =>
    have hread : memReadByte a s = .ok (lowByte (assemble s.cfg rx)) t := by
      rw [memReadByte, memRead, bind_assoc, config_bind, bind_assoc, bind_ok htr]
      rfl
    rw [hread] at h
    cases h
    exact lt_draws_of_transaction_ok (readExchange_ne_nil _ _) htr
  | error e t =>
    have hread : memReadByte a s = .error e t := by
      rw [memReadByte, memRead, bind_assoc, config_bind, bind_assoc, bind_error htr]
    rw [hread] at h
    cases h

variable {place : SeqStep} {awaited : TrxCode} {n : Nat}

theorem pollLoop_zero_run (place : SeqStep) (awaited : TrxCode) (s : State) :
    pollLoop place awaited 0 s = .error .stopped (s.leftAt place) := rfl

/-- A read that goes through: the wait ends, gives up, or goes on. -/
theorem pollLoop_read {v : Byte} (h : memReadByte s.cfg.map.trxStatus s = .ok v u) :
    pollLoop place awaited (n + 1) s =
      if statusField s.cfg v = awaited then .ok () (u.withPolls (u.pollCount + 1))
      else if pollLimitReached s.cfg (u.pollCount + 1) = true then
        .error (.raised (.chipUnresponsive awaited (statusField s.cfg v))) (u.withPolls (u.pollCount + 1))
      else pollLoop place awaited n (u.withPolls (u.pollCount + 1)) := by
  rw [pollLoop, config_bind, bind_ok h, update_bind, current_bind]
  split
  · rfl
  · split <;> rfl

theorem pollLoop_read_error {e : Abort} (h : memReadByte s.cfg.map.trxStatus s = .error e u) :
    pollLoop place awaited (n + 1) s = .error e u := by
  rw [pollLoop, config_bind, bind_error h]

theorem lasts_withPolls (s : State) (n : Nat) : Lasts s (s.withPolls n) :=
  ⟨⟨0, rfl, rfl, rfl⟩, rfl, rfl, rfl, rfl, rfl⟩

/-! ### The wait -/

/-- What n reads of a wait did decides what n + l reads do, also with more answers scripted: the same, or, where n reads
left the wait unfinished, what the further l reads do. -/
def Polls (place : SeqStep) (awaited : TrxCode) (n : Nat) (s : State) : Prop :=
  match pollLoop place awaited n s with
  | .ok _ u => Lasts s u
    ∧ ∀ q b l, Scripted s u b → pollLoop place awaited (n + l) (s.extended q b) = .ok () (u.extended q b)
  | .error (.raised e) u => Lasts s u
    ∧ ∀ q b l, Scripted s u b → pollLoop place awaited (n + l) (s.extended q b) = .error (.raised e) (u.extended q b)
  | .error .stopped t =>
    (t.busy = false ∧ t.port = s.port ∧ ∀ q l, pollLoop place awaited (n + l) (s.extended q []) = .error .stopped t)
    ∨ ∃ u, Lasts s u ∧ (n ≠ 0 → s.draws < u.draws) ∧ t = u.leftAt place ∧ ∀ q b l, Scripted s u b →
      pollLoop place awaited (n + l) (s.extended q b) = pollLoop place awaited l (u.extended q b)

/-- A wait that goes on after a read. -/
theorem Polls.after {t : State} (hst : Lasts s t) (hlt : s.draws < t.draws) (h : Polls place awaited n t)
    (hmiss : pollLoop place awaited (n + 1) s = pollLoop place awaited n t)
    (hrun : ∀ q b l, Scripted s t b →
      pollLoop place awaited (n + 1 + l) (s.extended q b) = pollLoop place awaited (n + l) (t.extended q b)) :
    Polls place awaited (n + 1) s := by
  unfold Polls at h ⊢
  rw [hmiss]
  match pollLoop place awaited n t, h with
  | .ok a u, ⟨htu, hgo⟩ =>
    exact ⟨hst.trans htu, fun q b l hb => (hrun q b l (hb.first htu)).trans (hgo q b l (hb.rest hst))⟩
  | .error (.raised e) u, ⟨htu, hgo⟩ =>
    exact ⟨hst.trans htu, fun q b l hb => (hrun q b l (hb.first htu)).trans (hgo q b l (hb.rest hst))⟩
  | .error .stopped u, .inl ⟨hbusy, hport, hgo⟩ =>
    exact .inl ⟨hbusy, hport.trans hst.port, fun q l => (hrun q [] l (.inl rfl)).trans (hgo q l)⟩
  | .error .stopped u, .inr ⟨v, htv, _, hu, hgo⟩ =>
    exact .inr ⟨v, hst.trans htv, fun _ => hlt.trans_le htv.draws_le, hu,
      fun q b l hb => (hrun q b l (hb.first htv)).trans (hgo q b l (hb.rest hst))⟩

theorem polls (place : SeqStep) (awaited : TrxCode) (n : Nat) (s : State) : Polls place awaited n s := by
  induction n generalizing s with
  | zero =>
    exact .inr ⟨s, .refl s, fun h => absurd rfl h, rfl, fun q b l _ => by rw [Nat.zero_add]⟩
  | succ n ih =>
    have hread := (resumable_memReadByte s.cfg.map.trxStatus (G := NeverLeft)).goesOn s
    match hm : memReadByte s.cfg.map.trxStatus s, hread with
    | .ok v u, ⟨hsu, hgo⟩ =>
      have hlast := hsu.trans (lasts_withPolls u (u.pollCount + 1))
      have hmore : ∀ q b l, Scripted s u b → _ := fun q b l hb =>
        pollLoop_read (place := place) (awaited := awaited) (n := n + l) (s := s.extended q b) (hgo q b hb)
      by_cases hmatch : statusField s.cfg v = awaited
      · unfold Polls
        rw [pollLoop_read hm, if_pos hmatch]
        refine ⟨hlast, fun q b l hb => ?_⟩
        rw [Nat.add_right_comm]
        exact (hmore q b l hb).trans (if_pos hmatch)
      · by_cases hlimit : pollLimitReached s.cfg (u.pollCount + 1) = true
        · unfold Polls
          rw [pollLoop_read hm, if_neg hmatch, if_pos hlimit]
          refine ⟨hlast, fun q b l hb => ?_⟩
          rw [Nat.add_right_comm]
          exact (hmore q b l hb).trans ((if_neg hmatch).trans (if_pos hlimit))
        · have hlt : s.draws < (u.withPolls (u.pollCount + 1)).draws := lt_draws_of_memReadByte_ok (u := u) hm
          refine .after hlast hlt (ih (u.withPolls (u.pollCount + 1)))
            (by rw [pollLoop_read hm, if_neg hmatch, if_neg hlimit]) fun q b l hb => ?_
          rw [Nat.add_right_comm]
          exact (hmore q b l hb).trans ((if_neg hmatch).trans (if_neg hlimit))
    | .error (.raised e) u, ⟨hsu, hgo⟩ =>
      unfold Polls
      rw [pollLoop_read_error hm]
      refine ⟨hsu, fun q b l hb => ?_⟩
      rw [Nat.add_right_comm]
      exact pollLoop_read_error (s := s.extended q b) (hgo q b hb)
    | .error .stopped t, .inl ⟨hbusy, hport, hgo⟩ =>
      unfold Polls
      rw [pollLoop_read_error hm]
      refine .inl ⟨hbusy, hport, fun q l => ?_⟩
      rw [Nat.add_right_comm]
      exact pollLoop_read_error (s := s.extended q []) (hgo q)
    | .error .stopped t, .inr ⟨_, _, _, _, hleft, _⟩ => exact hleft.elim

/-- The wait of a phase, from here on in this model step (R161). -/
def pollWait (call : StateCall) (phase : Phase) : Seq Unit := do
  let s ← current
  pollLoop (.waiting call phase) (awaitedIn s.cfg call phase) (pollBudget s)

theorem pollWait_run (call : StateCall) (phase : Phase) (s : State) :
    pollWait call phase s = pollLoop (.waiting call phase) (awaitedIn s.cfg call phase) (pollBudget s) s := rfl

/-- More answers allow no fewer reads. -/
theorem pollBudget_le_extended (s : State) (q : Option SeqPos) (b : List Draw) :
    pollBudget s ≤ pollBudget (s.extended q b) := by
  cases h : s.cfg.pollLimit with
  | some n => simp [pollBudget, State.extended, h]
  | none =>
    simp only [pollBudget, State.extended, h, List.length_append]
    omega

theorem pollBudget_extended_nil (s : State) (q : Option SeqPos) : pollBudget (s.extended q []) = pollBudget s := by
  simp [pollBudget, State.extended]

/-- Without a bound, where answers are scripted, each further one allows a further read (log 6). -/
theorem pollBudget_extended {q : Option SeqPos} {b : List Draw} (hinf : s.cfg.pollLimit = none) (hchip : s.chip ≠ []) :
    pollBudget (s.extended q b) = pollBudget s + b.length := by
  have hpos := List.length_pos_iff.2 hchip
  simp only [pollBudget, State.extended, hinf, List.length_append]
  omega

theorem pollBudget_scripted (hinf : s.cfg.pollLimit = none) (hchip : s.chip ≠ []) : pollBudget s = s.chip.length := by
  have hpos := List.length_pos_iff.2 hchip
  simp only [pollBudget, hinf]
  omega

theorem goesOn_pollWait (call : StateCall) (phase : Phase) :
    GoesOn (fun c p rest => c = call ∧ p = phase ∧ rest = pollWait call phase) (pollWait call phase) := by
  intro s
  have hrun : ∀ q b, pollWait call phase (s.extended q b) = pollLoop (.waiting call phase) (awaitedIn s.cfg call phase)
      (pollBudget s + (pollBudget (s.extended q b) - pollBudget s)) (s.extended q b) := fun q b => by
    rw [Nat.add_sub_cancel' (pollBudget_le_extended s q b)]
    rfl
  have h := polls (.waiting call phase) (awaitedIn s.cfg call phase) (pollBudget s) s
  unfold Polls at h
  rw [pollWait_run]
  match pollLoop (.waiting call phase) (awaitedIn s.cfg call phase) (pollBudget s) s, h with
  | .ok a u, ⟨hsu, hgo⟩ => exact ⟨hsu, fun q b hb => (hrun q b).trans (hgo q b _ hb)⟩
  | .error (.raised e) u, ⟨hsu, hgo⟩ => exact ⟨hsu, fun q b hb => (hrun q b).trans (hgo q b _ hb)⟩
  | .error .stopped t, .inl ⟨hbusy, hport, hgo⟩ => exact .inl ⟨hbusy, hport, fun q => (hrun q []).trans (hgo q _)⟩
  | .error .stopped t, .inr ⟨u, hsu, hlt, ht, hgo⟩ =>
    refine .inr ⟨call, phase, pollWait call phase, u, ⟨rfl, rfl, rfl⟩, hsu, ht, fun q => ?_, fun q b hb hinf hall => ?_⟩
    · refine (hrun q []).trans ((hgo q [] _ (.inl rfl)).trans ?_)
      rw [pollBudget_extended_nil, Nat.sub_self, pollLoop_zero_run]
    · have hpos : pollBudget s ≠ 0 := Nat.ne_of_gt (pollBudget_pos (by simp [hinf]))
      have hchip : s.chip ≠ [] := by
        have hmore := hlt hpos
        intro hnil
        simp [hall, hnil] at hmore
      obtain ⟨n, l⟩ := hsu.later
      have hrest : pollBudget (u.extended q b) = b.length :=
        pollBudget_scripted (s := u.extended q b) (l.cfg ▸ hinf) (by simp [State.extended, hb]) |>.trans
          (by simp [State.extended, hsu.chip_nil hall])
      refine (hrun q b).trans ((hgo q b _ (.inr hall.le)).trans ?_)
      rw [pollBudget_extended hinf hchip, Nat.add_sub_cancel_left, pollWait_run, hrest]
      exact congrArg (fun c => pollLoop _ (awaitedIn c call phase) _ _) l.cfg.symm

theorem pollLoop_whole (place : SeqStep) (awaited : TrxCode) (n : Nat) : KeepsWhole (pollLoop place awaited n) := by
  induction n with
  | zero => exact fun tr s hs => hs.same rfl rfl
  | succ n ih =>
    intro tr s hs
    have hread := (resumable_memReadByte s.cfg.map.trxStatus (G := NeverLeft)).whole tr s hs
    cases hm : memReadByte s.cfg.map.trxStatus s with
    | ok v u =>
      rw [hm] at hread
      have hcounted : Whole tr (u.withPolls (u.pollCount + 1)) := hread.same rfl rfl
      rw [pollLoop_read hm]
      split
      · exact hcounted
      · split
        · exact hcounted
        · exact ih tr _ hcounted
    | error e u =>
      rw [hm] at hread
      rw [pollLoop_read_error hm]
      cases e <;> exact hread

theorem resumable_pollWait (call : StateCall) (phase : Phase) :
    Resumable (fun c p rest => c = call ∧ p = phase ∧ rest = pollWait call phase) (pollWait call phase) :=
  ⟨goesOn_pollWait call phase, fun tr s => pollLoop_whole _ _ _ tr s⟩

end

/-! ### State changes (R160) -/

/-- The phase's command, then its wait. -/
theorem statePhase_eq (call : StateCall) (phase : Phase) (cmd : TrxCmd) : statePhase call phase cmd = (do
    let c ← config
    writeTrxState (cmdCode c cmd)
    update fun s => s.withPolls 0
    pollWait call phase) := by
  funext s
  rw [statePhase, config_bind, config_bind]
  have hwrite := (resumable_writeTrxState (cmdCode s.cfg cmd) (G := NeverLeft)).goesOn s
  match hw : writeTrxState (cmdCode s.cfg cmd) s, hwrite with
  | .ok a u, ⟨hsu, _⟩ =>
    obtain ⟨n, l⟩ := hsu.later
    rw [bind_ok hw, bind_ok hw, update_bind, pollWait_run, withPolls_cfg, l.cfg]
    rfl
  | .error e u, _ => rw [bind_error hw, bind_error hw]

theorem resumable_statePhase (call : StateCall) (phase : Phase) (cmd : TrxCmd) :
    Resumable (fun c p rest => c = call ∧ p = phase ∧ rest = pollWait call phase) (statePhase call phase cmd) := by
  rw [statePhase_eq]
  exact .config_bind fun _ => (resumable_writeTrxState _).then fun _ =>
    .then (.update (fun _ => rfl) fun _ _ _ => rfl) fun _ => resumable_pollWait call phase

theorem resumeCall_forcedOff (call : StateCall) :
    resumeCall call .forcedOff = (do pollWait call .forcedOff; targetPhase call) := rfl

theorem resumeCall_target (call : StateCall) : resumeCall call .target = pollWait call .target := by
  rw [← bind_pure_unit (x := pollWait call .target)]
  rfl

/-- A piece that can only be left waiting in this call, and then has to go on with it. -/
abbrev LeftIn (call : StateCall) : StateCall → Phase → Seq Unit → Prop :=
  fun c phase rest => c = call ∧ rest = resumeCall call phase

theorem resumable_targetPhase (call : StateCall) : Resumable (LeftIn call) (targetPhase call) :=
  .config_bind fun c => by
    split
    · exact .pure ()
    · refine (resumable_statePhase call .target _).mono ?_
      rintro c p rest ⟨rfl, rfl, rfl⟩
      exact ⟨rfl, (resumeCall_target c).symm⟩

theorem resumable_forcedOff {call : StateCall} {m : Seq Unit} (hm : Resumable (fun c p rest =>
    c = call ∧ p = .forcedOff ∧ rest = pollWait call .forcedOff) m) :
    Resumable (LeftIn call) (do m; targetPhase call) :=
  hm.bind (fun _ => resumable_targetPhase call) (by
    rintro c p rest ⟨rfl, rfl, rfl⟩
    exact ⟨rfl, (resumeCall_forcedOff c).symm⟩)

theorem resumable_setTrxState (call : StateCall) : Resumable (LeftIn call) (setTrxState call) :=
  resumable_forcedOff (resumable_statePhase call .forcedOff .forceTrxOff)

/-- A state change taken up again can be left again (R276). -/
theorem resumable_resumeCall (call : StateCall) (phase : Phase) : Resumable (LeftIn call) (resumeCall call phase) := by
  cases phase with
  | forcedOff => exact resumable_forcedOff (resumable_pollWait call .forcedOff)
  | target =>
    rw [resumeCall_target]
    refine (resumable_pollWait call .target).mono ?_
    rintro c p rest ⟨rfl, rfl, rfl⟩
    exact ⟨rfl, (resumeCall_target c).symm⟩

end Sys2Proof.Machine
end

section
/-! Every command, and every command that a wait without a bound left (R276), as a resumable piece: where it is left,
what it has left to do is what `resume` does from that place. -/

namespace Sys2Proof.Machine

/-! ### What a command has left to do -/

/-- The piece can only be left waiting in a call of the command i, and then has to do the rest of the command. -/
abbrev RestOf (i : Instr) : StateCall → Phase → Seq Unit → Prop :=
  fun call phase rest => call.command = i ∧ rest = restOfCommand call phase

/-- The same of the whole pseudocode of i. -/
abbrev ResumeOf (i : Instr) : StateCall → Phase → Seq (List Byte) → Prop :=
  fun call phase rest => call.command = i ∧ rest = resume call phase

theorem resume_of_ne_dataRequest {call : StateCall} (phase : Phase) (h : ∀ d, call.command ≠ .dataRequest d) :
    resume call phase = (do restOfCommand call phase; pure []) := by
  cases call with
  | requestTransmit d | requestPll d => exact absurd rfl (h d)
  | _ => rfl

theorem resume_of_dataRequest {call : StateCall} (phase : Phase) {d : List Byte} (h : call.command = .dataRequest d) :
    resume call phase = (do confirmOnError (restOfCommand call phase); pure []) := by
  cases call with
  | requestTransmit | requestPll => rfl
  | row cmd => cases cmd <;> cases h
  | _ => cases h

section
variable {i : Instr} {m : Seq Unit}

theorem resumable_returning (hi : ∀ d, i ≠ .dataRequest d) (hm : Resumable (RestOf i) m) :
    Resumable (ResumeOf i) (do m; pure []) :=
  hm.bind (fun _ => .pure []) (by
    rintro call phase rest ⟨rfl, rfl⟩
    exact ⟨rfl, (resume_of_ne_dataRequest phase hi).symm⟩)

theorem resumable_confirming {d : List Byte} (hm : Resumable (RestOf (.dataRequest d)) m) :
    Resumable (ResumeOf (.dataRequest d)) (do confirmOnError m; pure []) := by
  have hconfirm : Resumable (fun call phase rest =>
      call.command = .dataRequest d ∧ rest = confirmOnError (restOfCommand call phase)) (confirmOnError m) := by
    refine (hm.attempt (H := fun call phase rest =>
        call.command = .dataRequest d ∧ rest = attempt (restOfCommand call phase)) ?_).bind (fun r => ?_) ?_
    · rintro call phase rest ⟨hcall, rfl⟩
      exact ⟨hcall, rfl⟩
    · cases r with
      | ok a => exact .pure a
      | error e => exact (resumable_emit _).then fun _ => .raise e
    · rintro call phase rest ⟨hcall, rfl⟩
      exact ⟨hcall, rfl⟩
  refine hconfirm.bind (fun _ => .pure []) ?_
  rintro call phase rest ⟨hcall, rfl⟩
  exact ⟨hcall, (resume_of_dataRequest phase hcall).symm⟩

/-- A state change and what follows it in its command. -/
theorem resumable_call {call : StateCall} (h : Resumable (RestOf call.command) (afterCall call)) :
    Resumable (RestOf call.command) (do setTrxState call; afterCall call) :=
  (resumable_setTrxState call).bind (fun _ => h) (by
    rintro c phase rest ⟨rfl, rfl⟩
    exact ⟨rfl, rfl⟩)

/-- A state change that ends its command. -/
theorem resumable_lastCall {call : StateCall} (h : afterCall call = pure ()) :
    Resumable (RestOf call.command) (setTrxState call) := by
  have hcall := resumable_call (call := call) (h ▸ .pure ())
  rwa [h, bind_pure_unit] at hcall

end

theorem resumable_initConfigure : Resumable (RestOf .init) initConfigure :=
  .current_bind (fun _ => (resumable_cfgWrite _ _).then fun _ => (resumable_cfgWrite _ _).then fun _ =>
    .then (.update (fun _ => rfl) fun _ _ _ => rfl) fun _ => (resumable_cfgWrite _ _).then fun _ =>
    resumable_call (call := .initReceive) (resumable_commit .idle)) fun _ _ _ => rfl

theorem resumable_requestSend (data : List Byte) {G : StateCall → Phase → Seq Unit → Prop} :
    Resumable G (requestSend data) := (resumable_frameWriteSeq data).then fun _ => resumable_commit _

theorem resumable_requestArmed (data : List Byte) : Resumable (RestOf (.dataRequest data)) (requestArmed data) :=
  .config_bind fun _ => (resumable_memReadByte _).then fun _ => by
    split
    · exact resumable_call (call := .requestPll data) (resumable_requestSend data)
    · exact resumable_requestSend data

theorem resumable_afterCall (call : StateCall) : Resumable (RestOf call.command) (afterCall call) := by
  cases call with
  | initOff => exact resumable_initConfigure
  | initReceive => exact resumable_commit .idle
  | sleepOff => exact resumable_commit .sleep
  | wakeupReceive => exact resumable_commit .idle
  | requestTransmit data => exact resumable_requestArmed data
  | requestPll data => exact resumable_requestSend data
  | writeFramePll frame => exact resumable_frameWriteSeq frame
  | received => exact .pure ()
  | receivedInvalid len => exact .raise _
  | transmitted => exact .pure ()
  | row cmd => exact .pure ()

/-- The pseudocode of a command that is one state change and what follows it, or its end. -/
theorem resumable_callAndRest (call : StateCall) (hi : ∀ d, call.command ≠ .dataRequest d) :
    Resumable (ResumeOf call.command) (do
      setTrxState call
      afterCall call
      pure []) := by
  have hcall := resumable_returning hi (resumable_call (resumable_afterCall call))
  rwa [bind_assoc] at hcall

theorem resumable_restOfCommand (call : StateCall) (phase : Phase) :
    Resumable (RestOf call.command) (restOfCommand call phase) :=
  (resumable_resumeCall call phase).bind (fun _ => resumable_afterCall call) (by
    rintro c p rest ⟨rfl, rfl⟩
    exact ⟨rfl, rfl⟩)

/-- A command that goes on can be left again. -/
theorem resumable_resume (call : StateCall) (phase : Phase) :
    Resumable (ResumeOf call.command) (resume call phase) := by
  have hrest := resumable_restOfCommand call phase
  by_cases h : ∃ d, call.command = .dataRequest d
  · obtain ⟨d, hd⟩ := h
    rw [resume_of_dataRequest phase hd]
    rw [hd] at hrest ⊢
    exact resumable_confirming hrest
  · have hne : ∀ d, call.command ≠ .dataRequest d := fun d hd => h ⟨d, hd⟩
    rw [resume_of_ne_dataRequest phase hne]
    exact resumable_returning hne hrest

/-! ### The pieces of single commands -/

/-- INIT's pulse on RST, and a piece after it (R166). -/
theorem resumable_rstPulse {α : Type} {G : StateCall → Phase → Seq α → Prop} {m : Seq α} (hm : Resumable G m) :
    Resumable G (do driveRst .asserted; driveRst .deasserted; m) := by
  have hpulse : Resumable NeverLeft (update State.pulsedRst) :=
    ⟨.update (fun _ => ⟨⟨0, rfl, rfl, rfl⟩, rfl, rfl, rfl, rfl, rfl⟩) fun _ _ _ => rfl,
      fun _ => .update fun _ hs => hs.append (es := [.rst .asserted, .rst .deasserted]) hs.1 rfl rfl⟩
  have heq : (do driveRst .asserted; driveRst .deasserted; m) = (do update State.pulsedRst; m) :=
    funext fun s => driveRst_driveRst_run m s
  rw [heq]
  exact hpulse.then fun _ => hm

theorem resumable_receivePath : Resumable (RestOf .taskHandler) receivePath :=
  (resumable_frameRead.attempt fun _ _ _ => id (α := False)).then fun r => by
    cases r with
    | ok f =>
      exact .config_bind fun _ => (resumable_memReadByte _).then fun _ => .current_bind
        (fun _ => (resumable_emit _).then fun _ => resumable_lastCall (call := .received) rfl) fun _ _ _ => rfl
    | error e =>
      cases e with
      | frameInvalid l => exact resumable_call (call := .receivedInvalid l) (.raise _)
      | _ => exact .raise _

theorem resumable_transmitDonePath : Resumable (RestOf .taskHandler) transmitDonePath :=
  .config_bind fun _ => (resumable_memReadByte _).then fun _ => (resumable_commit _).then fun _ =>
    (resumable_emit _).then fun _ => resumable_lastCall (call := .transmitted) rfl

theorem resumable_completionPath (st : OpState) : Resumable (RestOf .taskHandler) (completionPath st) := by
  cases st with
  | initial => exact .pure ()
  | idle => exact resumable_receivePath
  | sleep => exact .pure ()
  | transmittingWaitEnd => exact resumable_transmitDonePath

theorem resumable_registerRead (a : RegAddr) {G : StateCall → Phase → Seq (List Byte) → Prop} : Resumable G (do
    let v ← memRead a
    let c ← config
    pure (hostValueBytes c v)) :=
  (resumable_memRead a).then fun _ => .config_bind fun _ => .pure _

/-- The two bytes of an address, then the seed (R209, R212). -/
theorem resumable_addressWrites (a b : RegAddr) (v w : Byte) {G : StateCall → Phase → Seq (List Byte) → Prop} :
    Resumable G (do
      cfgWrite a v
      cfgWrite b w
      writeSeed
      pure ([] : List Byte)) :=
  (resumable_cfgWrite a v).then fun _ => (resumable_cfgWrite b w).then fun _ =>
    resumable_writeSeed.returning fun _ => []

/-! ### Every instruction -/

/-- exec of i is a command that makes the checks of `precheck` and whose pseudocode, for a legal argument, is
resumable. -/
def IsResumable (i : Instr) : Prop :=
  ∃ checks body, (∀ s, exec i s = command i checks body s) ∧ ChecksOf i checks
    ∧ (badArgument i = none → Resumable (ResumeOf i) body)

theorem IsResumable.of_body {i : Instr} {checks : Seq Unit} {body : Seq (List Byte)}
    (hexec : ∀ s, exec i s = command i checks body s) (hchecks : ChecksOf i checks)
    (hbody : Resumable (ResumeOf i) body) : IsResumable i :=
  ⟨checks, body, hexec, hchecks, fun _ => hbody⟩

/-- A `TRX_CMD` row: the profile check and one piece (log 12). -/
theorem isResumable_row {i : Instr} {m : Seq Unit} (hb : needsBytewise i = true) (ha : badArgument i = none)
    (hl : ∀ st, legality i st = .run) (hf : frameOf i = none)
    (hexec : ∀ s, exec i s = command i requireBytewise (do m; pure []) s) (hi : ∀ d, i ≠ .dataRequest d)
    (hm : Resumable (RestOf i) m) : IsResumable i :=
  .of_body hexec (checksOf_bytewise hb ha hl hf) (resumable_returning hi hm)

/-- A configuration command without reserved bits: its cache write and what follows it (R202). -/
theorem isResumable_cached {i : Instr} {g : State → State} {m : Seq (List Byte)} (hb : needsBytewise i = true)
    (ha : badArgument i = none) (hf : frameOf i = none)
    (hexec : ∀ s, exec i s = command i (do requireBytewise; requireState i) (do update g; m) s)
    (hg : ∀ s, Writes s (g s)) (hext : ∀ s q b, g (s.extended q b) = (g s).extended q b)
    (hm : Resumable (ResumeOf i) m) : IsResumable i :=
  .of_body hexec (checksOf_bytewise_state hb ha hf) <| .then (.update hg hext) fun _ => hm

theorem isResumable_sleep : IsResumable .sleep :=
  .of_body (fun _ => rfl) (checksOf_bytewise_state rfl rfl rfl) <| .current_bind (fun s => by
    split
    · exact .pure _
    · exact resumable_callAndRest .sleepOff nofun) fun _ _ _ => rfl

theorem isResumable_taskHandler : IsResumable .taskHandler :=
  .of_body (fun _ => rfl) (checksOf_bytewise_state rfl rfl rfl) <|
    .then (.update (fun _ => rfl) fun _ _ _ => rfl) fun _ => .current_bind (fun s => by
      split
      · exact .pure _
      · refine (resumable_memReadByte _).then fun irq => ?_
        split
        · exact resumable_returning nofun (resumable_completionPath _)
        · exact .pure _) fun _ _ _ => rfl

theorem isResumable (i : Instr) : IsResumable i := by
  cases i with
  | init =>
    exact .of_body (fun _ => rfl) (checksOf_bytewise_state rfl rfl rfl) <|
      resumable_rstPulse (resumable_callAndRest .initOff nofun)
  | sleep => exact isResumable_sleep
  | wakeup =>
    exact .of_body (fun _ => rfl) (checksOf_bytewise_state rfl rfl rfl) (resumable_callAndRest .wakeupReceive nofun)
  | dataRequest data =>
    exact .of_body (fun _ => rfl) (checksOf_dataRequest data) <|
      resumable_confirming (resumable_call (call := .requestTransmit data) (resumable_requestArmed data))
  | taskHandler => exact isResumable_taskHandler
  | setChannel ch =>
    exact isResumable_cached rfl rfl rfl (fun _ => rfl) (fun _ => rfl) (fun _ _ _ => rfl) <|
      resumable_writeChannelRegs.returning fun _ => []
  | setBand b =>
    exact .of_body (fun _ => rfl) (checksOf_setBand b) <|
      .then (.update (fun _ => rfl) fun _ _ _ => rfl) fun _ => .config_bind fun _ =>
        (resumable_cfgWrite _ _).then fun _ => resumable_writeChannelRegs.returning fun _ => []
  | setModulation | setTxPower =>
    exact isResumable_cached rfl rfl rfl (fun _ => rfl) (fun _ => rfl) (fun _ _ _ => rfl) <|
      .config_bind fun _ => (resumable_cfgWrite _ _).returning fun _ => []
  | setPanId | setShortAddress =>
    exact isResumable_cached rfl rfl rfl (fun _ => rfl) (fun _ => rfl) (fun _ _ _ => rfl) <|
      .config_bind fun _ => resumable_addressWrites _ _ _ _
  | rssiBaseValue =>
    refine .of_body (fun _ => rfl) (checksOf_pure fun _ _ => rfl) ?_
    exact .current_bind (fun _ => .pure _) fun _ _ _ => rfl
  | readRegister a =>
    exact .of_body (fun _ => rfl) (checksOf_arg rfl (by simp [badArgument, addrLegal_eq]) (fun _ => rfl) rfl)
      (resumable_registerRead _)
  | writeRegister a v =>
    exact .of_body (fun _ => rfl) (checksOf_arg rfl (by simp [badArgument, addrLegal_eq]) (fun _ => rfl) rfl)
      ((resumable_memWrite _ v).returning fun _ => [])
  | writeBytes data =>
    refine ⟨_, _, fun _ => rfl, checksOf_arg rfl (by simp [badArgument]) (fun _ => rfl) rfl, fun hlegal => ?_⟩
    have hne : data ≠ [] := by simpa [badArgument] using hlegal
    exact (resumable_transaction hne).returning fun _ => []
  | readBytes n =>
    refine ⟨_, _, fun _ => rfl, checksOf_arg rfl (by simp [badArgument]) (fun _ => rfl) rfl, fun hlegal => ?_⟩
    have hne : n ≠ 0#8 := by simpa [badArgument] using hlegal
    exact resumable_transaction (by simpa [zeros, ← BitVec.toNat_inj] using hne)
  | writeFrame f =>
    exact .of_body (fun _ => rfl) (checksOf_writeFrame f) (resumable_callAndRest (.writeFramePll f) nofun)
  | readFrame | spiFbRead =>
    exact .of_body (fun _ => rfl) (checksOf_pure fun _ _ => rfl) (resumable_frameRead.returning RxFrame.image)
  | spiRegRead a => exact .of_body (fun _ => rfl) (checksOf_pure fun _ _ => rfl) (resumable_registerRead a)
  | spiRegWrite a v =>
    exact .of_body (fun _ => rfl) (checksOf_pure fun _ _ => rfl) ((resumable_memWrite a v).returning fun _ => [])
  | spiFbWrite f =>
    exact .of_body (fun _ => rfl) (checksOf_spiFbWrite f) ((resumable_frameBufferWrite f).returning fun _ => [])
  | txStart => exact isResumable_row rfl rfl (fun _ => rfl) rfl (fun _ => rfl) nofun resumable_transmitStart
  | forceTrxOff =>
    exact isResumable_row rfl rfl (fun _ => rfl) rfl (fun _ => rfl) nofun
      (resumable_lastCall (call := .row .forceTrxOff) rfl)
  | rxOn =>
    exact isResumable_row rfl rfl (fun _ => rfl) rfl (fun _ => rfl) nofun (resumable_lastCall (call := .row .rxOn) rfl)
  | pllOn =>
    exact isResumable_row rfl rfl (fun _ => rfl) rfl (fun _ => rfl) nofun (resumable_lastCall (call := .row .pllOn) rfl)
  | rxAackOn =>
    exact isResumable_row rfl rfl (fun _ => rfl) rfl (fun _ => rfl) nofun
      (resumable_lastCall (call := .row .rxAackOn) rfl)
  | txAretOn =>
    exact isResumable_row rfl rfl (fun _ => rfl) rfl (fun _ => rfl) nofun
      (resumable_lastCall (call := .row .txAretOn) rfl)

end Sys2Proof.Machine
end

section
/-! Commands that stop (R260, R276): what a wait without a bound, or SRC reset, leaves of one. -/

namespace Sys2Proof.Machine

/-! ### What a resumable pseudocode leaves of its command -/

section
variable {i : Instr} {body : Seq (List Byte)} {s t : State}

/-- Whether it is left waiting or not, it takes nothing from `port`. -/
theorem GoesOn.finish_port {G : StateCall → Phase → Seq (List Byte) → Prop} (h : GoesOn G body) (s : State) :
    (finish (body s)).port = s.port := by
  have hgoes := h s
  match body s, hgoes with
  | .ok ret u, ⟨hsu, _⟩ => exact hsu.port
  | .error (.raised e) u, ⟨hsu, _⟩ => exact hsu.port
  | .error .stopped t, .inl ⟨_, hport, _⟩ => exact hport
  | .error .stopped t, .inr ⟨call, phase, rest, u, _, hsu, ht, _⟩ => exact (congrArg State.port ht).trans hsu.port

/-- Of the sequencer position only the command matters to what it leaves. -/
theorem Goes.finish_seq {G : StateCall → Phase → Seq (List Byte) → Prop}
    {r : EStateM.Result Abort State (List Byte)}
    {run : Option SeqPos → List Draw → EStateM.Result Abort State (List Byte)} (h : Goes G s r run)
    {q q' : Option SeqPos} (hq : q.map SeqPos.cmd = q'.map SeqPos.cmd) : finish (run q []) = finish (run q' []) := by
  match r, h with
  | .ok ret u, ⟨_, hgo⟩ =>
    rw [hgo q [] (.inl rfl), hgo q' [] (.inl rfl)]
    rfl
  | .error (.raised e) u, ⟨_, hgo⟩ =>
    rw [hgo q [] (.inl rfl), hgo q' [] (.inl rfl)]
    rfl
  | .error .stopped t, .inl ⟨_, _, hgo⟩ => rw [hgo q, hgo q']
  | .error .stopped t, .inr ⟨call, phase, rest, u, _, _, _, hstop, _⟩ =>
    have hplace : ∀ r : Option SeqPos, r.map (fun p => { p with step := SeqStep.waiting call phase })
        = (r.map SeqPos.cmd).map fun cmd => { cmd, step := .waiting call phase } := fun r => by cases r <;> rfl
    rw [hstop q, hstop q', finish_stopped, finish_stopped]
    simp only [State.leftAt, State.extended, hplace, hq]

/-- t is what a wait without a bound left of s, accepted as the command i: the command stands in one of its own calls,
and where answers were scripted after its own it went on there with them. -/
structure LeftWaiting (i : Instr) (run : Option SeqPos → List Draw → EStateM.Result Abort State (List Byte))
    (s t : State) (call : StateCall) (phase : Phase) (u : State) : Prop where
  command : call.command = i
  lasts   : Lasts s u
  left    : t = u.leftAt (.waiting call phase)
  goesOn  : ∀ q b, b ≠ [] → s.cfg.pollLimit = none → u.draws = s.draws + s.chip.length →
    run q b = resume call phase (u.extended q b)

/-- A command that keeps the sequencer busy was left waiting. -/
theorem Goes.leftWaiting {r : EStateM.Result Abort State (List Byte)}
    {run : Option SeqPos → List Draw → EStateM.Result Abort State (List Byte)} (h : Goes (ResumeOf i) s r run)
    (hbusy : (finish r).busy = true) : ∃ call phase u, LeftWaiting i run s (finish r) call phase u := by
  match r, h with
  | .ok ret u, _ => cases hbusy
  | .error (.raised e) u, _ => cases hbusy
  | .error .stopped t, .inl ⟨hfree, _⟩ => exact absurd (hfree.symm.trans hbusy) Bool.false_ne_true
  | .error .stopped t, .inr ⟨call, phase, rest, u, ⟨hcall, hrest⟩, hsu, ht, _, hgo⟩ =>
    exact ⟨call, phase, u, hcall, hsu, ht, fun q b hb hinf hall => hrest ▸ hgo q b hb hinf hall⟩

/-- Where no transaction was open, the command leaves none open (R52, R260). -/
theorem Resumable.finish_whole {tr : List BusEvent} {G : StateCall → Phase → Seq (List Byte) → Prop}
    (h : Resumable G body) (hs : Whole tr s) : Whole tr (finish (body s)) :=
  (h.whole tr s hs).finished (fun _ _ hu => hu.same rfl rfl) (fun _ _ hu => hu.same rfl rfl) fun _ => id

end

/-! ### Commands -/

section
variable {i : Instr} {s t : State}

/-- A command that passes its checks runs one resumable pseudocode, whatever is presented and scripted. -/
theorem exec_resumable (hp : precheck s.cfg i s.opState = none) :
    ∃ body, Resumable (ResumeOf i) body ∧
      ∀ a, exec i { s with chip := a } = .next (finish (body (accept (take i { s with chip := a })))) := by
  obtain ⟨checks, body, hexec, hchecks, hbody⟩ := isResumable i
  exact ⟨body, hbody (badArgument_none hp), fun a => exec_accepted (hexec _) hchecks hp⟩

/-- A command takes nothing from `port`. -/
theorem exec_port (ht : exec i s = .next t) : t.port = s.port := by
  cases hp : precheck s.cfg i s.opState with
  | none =>
    obtain ⟨body, hbody, hexec⟩ := exec_resumable hp
    obtain rfl := Host.Outcome.next.inj ((hexec s.chip).symm.trans ht)
    exact hbody.goesOn.finish_port _
  | some e =>
    obtain rfl := Host.Outcome.next.inj ((exec_refused hp).symm.trans ht)
    rfl

/-- A command that is left busy was accepted and left waiting (R276). -/
theorem exec_leftWaiting (ht : exec i s = .next t) (hbusy : t.busy = true) :
    ∃ (body : Seq (List Byte)) (call : StateCall) (phase : Phase) (u : State),
      LeftWaiting i (fun q b => body ((accept (take i s)).extended q b)) (accept (take i s)) t call phase u
      ∧ ∀ a, exec i { s with chip := a } = .next (finish (body (accept (take i { s with chip := a })))) := by
  cases hp : precheck s.cfg i s.opState with
  | none =>
    obtain ⟨body, hbody, hexec⟩ := exec_resumable hp
    obtain rfl := Host.Outcome.next.inj ((hexec s.chip).symm.trans ht)
    obtain ⟨call, phase, u, hleft⟩ := (hbody.goesOn _).leftWaiting hbusy
    exact ⟨body, call, phase, u, hleft, hexec⟩
  | some e =>
    obtain rfl := Host.Outcome.next.inj ((exec_refused hp).symm.trans ht)
    cases hbusy

/-- Whatever the chip answers, an accepted command ends in one of the four ways of `Ended`. -/
theorem exec_ended (hp : precheck s.cfg i s.opState = none) (ht : exec i s = .next t) :
    ∃ n, Ended (Emits (eventBound i)) (accept (take i s)) t n := by
  obtain ⟨t', n, hexec, hended⟩ := (exec_isCommand i).accepted hp
  obtain rfl := Host.Outcome.next.inj (hexec.symm.trans ht)
  exact ⟨n, hended⟩

end

end Sys2Proof.Machine
end

section
/-! How every command ends (R230, R276). -/

namespace Sys2Proof.Machine

theorem code_le_eight (e : Err) : e.code.toNat ≤ 8 := by cases e <;> simp [Err.code]

/-- From s to t one command completed, the host getting these events: with a code of R230 that matches what was
recorded, nothing returned with an error, and the sequencer free. -/
def CompletedOnce (s t : State) (evs : List Event) : Prop :=
  t.delivered = s.delivered ++ [⟨t.result, t.retdata, evs⟩]
  ∧ t.seq = none ∧ t.result.toNat ≤ 8 ∧ (t.result ≠ 0x00#8 → t.retdata = [])
  ∧ (t.info = none → t.result = 0x00#8) ∧ ∀ e, t.info = some e → t.result = e.code ∧ t.result ≠ 0x00#8

section
variable {i : Instr} {s t u : State}

theorem completedOnce_refused (s : State) (e : Err) : CompletedOnce s (s.refused e []) [] :=
  ⟨rfl, rfl, code_le_eight e, fun _ => rfl, nofun, by rintro _ ⟨⟩; exact ⟨rfl, code_ne_zero e⟩⟩

theorem completedOnce_ok (h : u.delivered = s.delivered) (ret : List Byte) :
    CompletedOnce s (complete okCode ret none u) u.evq :=
  ⟨congrArg (· ++ _) h, rfl, Nat.zero_le 8, fun hne => absurd rfl hne, fun _ => rfl, nofun⟩

theorem completedOnce_failed (h : u.delivered = s.delivered) (e : Err) :
    CompletedOnce s (complete e.code [] (some e) u) u.evq :=
  ⟨congrArg (· ++ _) h, rfl, code_le_eight e, fun _ => rfl, nofun, by rintro _ ⟨⟩; exact ⟨rfl, code_ne_zero e⟩⟩

/-- An uncut command that leaves the sequencer free completed once. -/
theorem exec_completedOnce (ht : exec i s = .next t) (hu : s.uncutUntil t) (hfree : t.busy = false) :
    CompletedOnce s t (if precheck s.cfg i s.opState = none then t.evq else []) := by
  cases hp : precheck s.cfg i s.opState with
  | none =>
    rw [if_pos rfl]
    obtain ⟨n, hended⟩ := exec_ended hp ht
    cases hended with
    | ok u ret base rel done => exact done ▸ completedOnce_ok base.delivered ret
    | failed u e base rel done => exact done ▸ completedOnce_failed base.delivered e
    | waiting u place base rel unbounded done =>
      subst done
      exact absurd (rel.1.symm.trans hfree) (by simp)
    | cut hcut => exact absurd hu hcut.not_uncutUntil
  | some e =>
    obtain rfl := Host.Outcome.next.inj ((exec_refused hp).symm.trans ht)
    exact completedOnce_refused s e

/-- A wait with a bound ends (R161). -/
theorem exec_free_of_pollLimit (hv : s.cfg.valid = true) (hl : s.cfg.pollLimit ≠ none) (ht : exec i s = .next t) :
    t.busy = false := by
  cases hp : precheck s.cfg i s.opState with
  | none =>
    obtain ⟨n, hended⟩ := exec_ended hp ht
    cases hended with
    | ok u ret base rel done => exact done ▸ rfl
    | failed u e base rel done => exact done ▸ rfl
    | waiting u place base rel unbounded done =>
      obtain ⟨-, -, -, -, -, -, hpos, -⟩ := valid_limits hv
      exact absurd unbounded (not_or.2 ⟨hl, hpos⟩)
    | cut hcut =>
      obtain ⟨es, rfl, -⟩ := hcut.state
      rfl
  | some e =>
    obtain rfl := Host.Outcome.next.inj ((exec_refused hp).symm.trans ht)
    rfl

theorem pollLimit_of_busy (hv : s.cfg.valid = true) (ht : exec i s = .next t) (hbusy : t.busy = true) :
    s.cfg.pollLimit = none := by
  by_contra hl
  exact absurd ((exec_free_of_pollLimit hv hl ht).symm.trans hbusy) Bool.false_ne_true

/-- A command left busy has delivered nothing and stands at the poll of one of its own calls. -/
theorem exec_busy (ht : exec i s = .next t) (hbusy : t.busy = true) :
    t.delivered = s.delivered ∧ t.result = s.result ∧ t.retdata = s.retdata
    ∧ ∃ call phase, t.seq = some { cmd := i, step := .waiting call phase } ∧ call.command = i := by
  obtain ⟨body, call, phase, u, hleft, -⟩ := exec_leftWaiting ht hbusy
  obtain rfl := hleft.left
  have hlasts := hleft.lasts
  refine ⟨hlasts.delivered, hlasts.result, hlasts.retdata, call, phase, ?_, hleft.command⟩
  simp [State.leftAt, hlasts.seq]

end

/-- Settles O56: an accepted command ends in one of four ways, of which only a wait without a bound leaves the sequencer
busy and only SRC reset frees it without a completion. -/
theorem everyCommandCompletesOnce : Obligations.EveryCommandCompletesOnce := by
  unfold Obligations.EveryCommandCompletesOnce
  intro i s
  obtain ⟨t, ht⟩ := exec_next i s
  exact ⟨t, ht, fun hv hl => exec_free_of_pollLimit hv hl ht, fun hu hfree => exec_completedOnce ht hu hfree,
    fun _ hbusy => exec_busy ht hbusy⟩

end Sys2Proof.Machine
end

section
/-! A step while a command waits without a bound (R276, R16), and after SRC reset (R262). -/

namespace Sys2Proof.Machine

/-- A command that goes on takes nothing from `port`. -/
theorem continueCommand_port (s : State) : ∃ t, continueCommand s = .next t ∧ t.port = s.port := by
  cases hseq : s.seq with
  | none => exact ⟨s, by simp only [continueCommand, hseq], rfl⟩
  | some p =>
    cases hstep : p.step with
    | start =>
      obtain ⟨t, ht⟩ := exec_next p.cmd s
      exact ⟨t, by simpa only [continueCommand, hseq, hstep] using ht, exec_port ht⟩
    | waiting call phase =>
      exact ⟨_, by simp only [continueCommand, hseq, hstep], (resumable_resume call phase).goesOn.finish_port s⟩

/-- Settles O6: while busy, all but an edge and a reset leave the running command to go on, and that keeps `port`. -/
theorem busySequencerAcceptsNoCommand : Obligations.BusySequencerAcceptsNoCommand := by
  unfold Obligations.BusySequencerAcceptsNoCommand
  intro s rest hbusy
  have hheld : ∀ p, s.port = p → ∃ t, continueCommand s = .next t ∧ t.port = p := by
    rintro _ rfl
    exact continueCommand_port s
  exact ⟨fun e hport => ⟨by simp [step, hport, hbusy], hheld _ hport⟩,
    fun e hport => ⟨by simp [step, hport, hbusy], hheld _ hport⟩,
    fun e hport => ⟨by simp [step, hport, hbusy], hheld _ hport⟩,
    fun hport => by simp [step, hport, irqEdge],
    fun hport => ⟨srcReset { s with port := rest }, by simp [step, hport], rfl, rfl⟩,
    fun hport => ⟨by simp [step, hport, hbusy], hheld _ hport⟩⟩

/-- Settles O5: the reset values, and a free sequencer's steps from them. -/
theorem waitsForACommandAfterReset : Obligations.WaitsForACommandAfterReset := by
  unfold Obligations.WaitsForACommandAfterReset
  exact fun c => ⟨rfl, rfl, rfl, fun _ => rfl, fun e rest i hdec =>
    stepRunsTheDecodedInstruction _ e rest i rfl rfl hdec⟩

end Sys2Proof.Machine
end

section
/-! A wait goes on where it stood (R276). -/

namespace Sys2Proof.Machine

section
variable {s t : State} {call : StateCall} {phase : Phase}

theorem continueCommand_waiting {i : Instr} (hseq : s.seq = some { cmd := i, step := .waiting call phase }) :
    continueCommand s = .next (finish (resume call phase s)) := by
  simp only [continueCommand, hseq]

/-- The command goes on with further answers b as it would have with a and b at once. -/
theorem continueCommand_of_all_used {i : Instr} {a b : List Draw} (hv : s.cfg.valid = true)
    (ht : exec i { s with chip := a } = .next t) (hbusy : t.busy = true) (hall : t.draws = s.draws + a.length)
    (hb : b ≠ []) : continueCommand { t with chip := b } = exec i { s with chip := a ++ b } := by
  have hinf := pollLimit_of_busy (s := { s with chip := a }) hv ht hbusy
  obtain ⟨body, call, phase, u, hleft, hexec⟩ := exec_leftWaiting ht hbusy
  have hlasts := hleft.lasts
  obtain rfl := hleft.left
  have hchip : u.chip = [] := hlasts.chip_nil hall
  have hstood : { u.leftAt (.waiting call phase) with chip := b }
      = State.extended { u with chip := b } (some { cmd := i, step := .waiting call phase }) [] := by
    simp [State.leftAt, State.extended, hlasts.seq]
  have hbegun : u.extended (some { cmd := i, step := .start }) b
      = State.extended { u with chip := b } (some { cmd := i, step := .start }) [] := by
    simp [State.extended, hchip]
  calc continueCommand { u.leftAt (.waiting call phase) with chip := b }
    _ = .next (finish (resume call phase
          (State.extended { u with chip := b } (some { cmd := i, step := .waiting call phase }) []))) := by
      rw [hstood]
      exact continueCommand_waiting rfl
    _ = .next (finish (resume call phase (u.extended (some { cmd := i, step := .start }) b))) := by
      rw [hbegun]
      exact congrArg _ (((resumable_resume call phase).goesOn _).finish_seq rfl)
    _ = .next (finish (body (accept (take i { s with chip := a ++ b })))) := by
      rw [← hleft.goesOn _ _ hb hinf hall]
      rfl
    _ = exec i { s with chip := a ++ b } := (hexec _).symm

/-- A step while a command waits, no edge or reset being presented next. -/
theorem step_waiting {i : Instr} (hbusy : s.busy = true) (hport : s.port = [] ∨ ∃ e rest, s.port = .word e :: rest)
    (hseq : s.seq = some { cmd := i, step := .waiting call phase }) :
    step s = .next (finish (resume call phase s)) := by
  rw [← continueCommand_waiting hseq]
  obtain hport | ⟨e, rest, hport⟩ := hport <;> simp [step, hport, hbusy]

theorem resumeCall_stopped (h : pollWait call phase s = .error .stopped t) :
    resumeCall call phase s = .error .stopped t := by
  cases phase with
  | forcedOff => exact resumeCall_forcedOff call ▸ bind_error h
  | target => exact resumeCall_target call ▸ h

/-- A wait that is not over leaves the command where it stood. -/
theorem resume_stopped (h : pollWait call phase s = .error .stopped t) : resume call phase s = .error .stopped t := by
  have hrest : restOfCommand call phase s = .error .stopped t := bind_error (resumeCall_stopped h)
  by_cases hdata : ∃ d, call.command = .dataRequest d
  · obtain ⟨d, hd⟩ := hdata
    rw [resume_of_dataRequest phase hd]
    exact bind_error (bind_error (attempt_stopped hrest))
  · rw [resume_of_ne_dataRequest phase fun d hd => hdata ⟨d, hd⟩]
    exact bind_error hrest

/-- SLEEP, forced off, commits its state (R169). -/
theorem resume_sleepOff (h : pollWait .sleepOff .forcedOff s = .ok () t) :
    resume .sleepOff .forcedOff s = .ok [] { t with opState := .sleep } := by
  have hcall : resumeCall .sleepOff .forcedOff s = .ok () t := by
    rw [resumeCall_forcedOff, bind_ok h]
    rfl
  have hrest : restOfCommand .sleepOff .forcedOff s = .ok () { t with opState := .sleep } := bind_ok hcall
  exact bind_ok hrest

variable (hv : s.cfg.valid = true) (hb : s.cfg.profile.bytewise = true) (hinf : s.cfg.pollLimit = none)
include hv hb hinf

/-- Every read this model step makes shows another state. -/
theorem pollWait_misses {m : Nat} (hm : pollBudget s = m) (h : s.goThrough m)
    (hmiss : ∀ k, k < m → s.polled k ≠ awaitedIn s.cfg call phase) :
    pollWait call phase s = .error .stopped (((s.afterBus m (s.exchanges 0
      (List.replicate m (regRead s.cfg s.cfg.map.trxStatus)))).withPolls (s.pollCount + m)).leftAt
        (.waiting call phase)) := by
  obtain ⟨-, hx, -⟩ := valid_limits hv
  have hpos : pollBudget s ≠ 0 := Nat.ne_of_gt (pollBudget_pos (by simp [hinf]))
  rw [pollWait_run, hm, ← Nat.add_zero m, pollLoop_misses hb (by omega) m 0 h hmiss
    (fun _ _ => by simp [pollLimitReached, hinf]), if_neg (hm ▸ hpos), pollLoop_zero_run, Nat.add_zero]

/-- The p-th read of this model step is the first that shows the awaited state. -/
theorem pollWait_match {p : Nat} (hp : 1 ≤ p) (hle : p ≤ pollBudget s) (h : s.goThrough p)
    (hmiss : ∀ k, k + 1 < p → s.polled k ≠ awaitedIn s.cfg call phase)
    (hmatch : s.polled (p - 1) = awaitedIn s.cfg call phase) :
    pollWait call phase s = .ok () ((s.afterBus p (s.exchanges 0
      (List.replicate p (regRead s.cfg s.cfg.map.trxStatus)))).withPolls (s.pollCount + p)) := by
  obtain ⟨-, hx, -⟩ := valid_limits hv
  have hx2 : 2 ≤ s.cfg.maxXfer := by omega
  obtain ⟨m, rfl⟩ : ∃ m, p = m + 1 := ⟨p - 1, by omega⟩
  obtain ⟨n, hn⟩ : ∃ n, pollBudget s = m + (n + 1) := ⟨pollBudget s - m - 1, by omega⟩
  have hlater := later_withPolls (later_afterMisses s m) (s.pollCount + m)
  have hmisses : (if m = 0 then s else (s.afterBus m (s.exchanges 0 (List.replicate m
      (regRead s.cfg s.cfg.map.trxStatus)))).withPolls (s.pollCount + m))
      = (s.afterMisses m).withPolls (s.pollCount + m) := by
    unfold State.afterMisses
    split
    · next h0 => exact h0 ▸ rfl
    · rfl
  have hlast := pollLoop_match (place := .waiting call phase) (awaited := awaitedIn s.cfg call phase)
    (s := (s.afterMisses m).withPolls (s.pollCount + m)) (by rwa [hlater.cfg]) (by rwa [hlater.cfg])
    (hlater.goThrough h) (by rw [hlater.polled]; exact hmatch) n
  rw [hlater.exchanges, hlater.cfg, withPolls_afterBus, afterMisses_afterBus, withPolls_withPolls,
    withPolls_withPolls] at hlast
  rw [pollWait_run, hn, pollLoop_misses hb hx2 m (n + 1) (goThrough_le h (by omega)) (fun k hk => hmiss k (by omega))
    (fun _ _ => by simp [pollLimitReached, hinf]), hmisses, hlast, List.replicate_succ', exchanges_append,
    List.length_replicate, Nat.zero_add]
  rfl

end

/-- Settles O60: a command left waiting goes on in its call, of which the position alone is kept, and the reads of one
step of the wait miss or match. -/
theorem waitGoesOnWhereItStood : Obligations.WaitGoesOnWhereItStood := by
  unfold Obligations.WaitGoesOnWhereItStood
  refine ⟨fun i s t a b hv ht hbusy hall hb => continueCommand_of_all_used hv ht hbusy hall hb,
    fun s hv hb hinf hbusy hport => ⟨fun i call phase hseq h hmiss => ?_, fun p hseq hp hle h hmiss hmatch => ?_⟩⟩
  · have hbudget : pollBudget s = max s.chip.length 1 := by simp only [pollBudget, hinf]
    rw [step_waiting hbusy hport hseq, resume_stopped (pollWait_misses hv hb hinf hbudget h hmiss), finish_stopped]
    simp [State.leftAt, hseq, State.withPolls]
  · have hbudget : p ≤ pollBudget s := by simpa only [pollBudget, hinf] using hle
    have hwait := pollWait_match (call := .sleepOff) (phase := .forcedOff) hv hb hinf hp hbudget h hmiss hmatch
    rw [step_waiting hbusy hport hseq, resume_sleepOff hwait]
    rfl

end Sys2Proof.Machine
end

section
/-! SRC reset (R260, R261): as a step, and where it cuts a command. -/

namespace Sys2Proof.Machine

section
variable {s t : State}

/-- SRC reset with both pins released. -/
theorem srcReset_of_released (hcs : s.cs = .deasserted) (hrst : s.rst = .deasserted) :
    srcReset s = s.afterReset 0 [] := by
  simp [srcReset, State.afterReset, resetEdges, hcs, hrst]

theorem selected_cutEvents (s : State) (tx : List Byte) (c : Cut) :
    s.selected.cutEvents 0 tx c = s.cutEvents 0 tx c := by cases c <;> rfl

/-- A transaction of one chunk about which SRC reset falls. -/
theorem transaction_one_cut {tx : List Byte} {c : Cut} (hne : 1 ≤ tx.length) (hfits : tx.length ≤ s.cfg.maxXfer)
    (hcs : s.cs = .deasserted) (hrst : s.rst = .deasserted) (hcut : (s.drawAt 0).cut = some c) :
    transaction tx s = .error .stopped (s.afterReset 1 (if c = .beforeSelect then []
      else .cs .asserted :: (s.cutEvents 0 tx c ++ [.cs .deasserted]))) := by
  by_cases hsel : c = .beforeSelect
  · rw [if_pos hsel, transaction, csAssert_bind_cut (hsel ▸ hcut), srcReset_of_released (s := s.takeDraw) hcs hrst]
    simp [State.afterReset, State.takeDraw]
  · obtain ⟨hlater, hdelivered, hport, hcs', hrst', htrace⟩ := cutAbout_facts s.selected tx c
    have hreset : srcReset (s.selected.cutAbout tx c)
        = s.afterReset 1 (.cs .asserted :: (s.cutEvents 0 tx c ++ [.cs .deasserted])) := by
      simp only [srcReset, resetEdges, hlater.cfg, hdelivered, hport, hcs', hrst', htrace, hlater.chip,
        hlater.draws, selected_cutEvents]
      simp [State.afterReset, State.selected, State.log, hrst]
    have hchunk : xfer tx s.selected = .error .stopped (srcReset (s.selected.cutAbout tx c)) := by
      have hsame : (s.selected.drawAt 0).cut = some c := hcut
      simp only [xfer, hsame]
    have hseg : seg tx s.selected = .error .stopped (srcReset (s.selected.cutAbout tx c)) := by
      have hone : chunksOf s.selected.cfg.maxXfer tx = [tx] := chunksOf_one hne hfits
      rw [seg, config_bind, hone]
      exact bind_error hchunk
    rw [if_neg hsel, transaction, csAssert_bind (by simpa [hcut] using hsel), bind_error hseg, hreset]

theorem writeExchange_length_le {c : Config} (hv : c.valid = true) (a : RegAddr) (v : Half) :
    (writeExchange c a v).length ≤ c.maxXfer := by
  obtain ⟨-, hx, -⟩ := valid_limits hv
  rw [writeExchange_length]
  refine le_trans ?_ hx
  cases c.profile.cmdBytes <;> cases c.profile.valBytes <;> decide

/-- SRC reset in WRITE_REGISTER. -/
theorem exec_writeRegister_cut {addr : Byte} {c : Cut} (hv : s.cfg.valid = true) (haddr : addr.toNat < 64)
    (hcs : s.cs = .deasserted) (hrst : s.rst = .deasserted) (hcut : (s.drawAt 0).cut = some c) (v : Half) :
    exec (.writeRegister addr v) s = .next (s.afterReset 1 (if c = .beforeSelect then []
      else .cs .asserted :: (s.cutEvents 0 (writeExchange s.cfg (addr.setWidth 6) v) c ++ [.cs .deasserted]))) := by
  have hcutWrite := transaction_one_cut (s := accept (take (.writeRegister addr v) s))
    (tx := writeExchange s.cfg (addr.setWidth 6) v) (List.length_pos_iff.2 (writeExchange_ne_nil _ _ _))
    (writeExchange_length_le hv _ _) hcs hrst hcut
  rw [exec_accepted (i := .writeRegister addr v) rfl 
    (checksOf_arg rfl (by simp [badArgument, addrLegal_eq]) (fun _ => rfl) rfl)
    (by simp [precheck_eq_or, profileError, needsBytewise, argumentError, badArgument, haddr, stateError, legality,
      frameError, frameOf])]
  exact congrArg (fun r => Host.Outcome.next (finish r)) (bind_error (bind_error hcutWrite))

variable {i : Instr}

/-- A command that is not uncut was accepted and cut. -/
theorem exec_cut (ht : exec i s = .next t) (hcut : ¬ s.uncutUntil t) :
    ∃ n, CutFrom (accept (take i s)) t n := by
  cases hp : precheck s.cfg i s.opState with
  | none =>
    obtain ⟨n, hended⟩ := exec_ended hp ht
    have huncut : ∀ u, Base (accept (take i s)) u n → u.draws = t.draws → s.uncutUntil t := by
      intro u hbase hdraws k hk
      refine hbase.uncut k ?_
      have hu := hbase.later.draws
      simp only [accept, take] at hu
      omega
    refine ⟨n, ?_⟩
    cases hended with
    | ok u ret base rel done => exact absurd (huncut u base (done ▸ rfl)) hcut
    | failed u e base rel done => exact absurd (huncut u base (done ▸ rfl)) hcut
    | waiting u place base rel unbounded done => exact absurd (huncut u base (done ▸ rfl)) hcut
    | cut h => exact h
  | some e =>
    obtain rfl := Host.Outcome.next.inj ((exec_refused hp).symm.trans ht)
    exact absurd (fun k hk => by simp at hk) hcut

/-- A command leaves no transaction open. -/
theorem exec_whole (ht : exec i s = .next t) (hcs : s.cs = .deasserted) : Whole s.trace t := by
  have hs : Whole s.trace s := ⟨by simp [hcs], [], by simp, rfl⟩
  cases hp : precheck s.cfg i s.opState with
  | none =>
    obtain ⟨body, hbody, hexec⟩ := exec_resumable hp
    obtain rfl := Host.Outcome.next.inj ((hexec s.chip).symm.trans ht)
    exact hbody.finish_whole (hs.same rfl rfl)
  | some e =>
    obtain rfl := Host.Outcome.next.inj ((exec_refused hp).symm.trans ht)
    exact hs.same rfl rfl

theorem exec_cut_resets (ht : exec i s = .next t) (hcut : ¬ s.uncutUntil t) :
    (∀ k, k + 1 < t.draws - s.draws → (s.drawAt k).cut = none)
    ∧ (∃ es, t.trace = s.trace ++ es ∧ (s.cs = .deasserted → framed .released es = some .released))
    ∧ t = { State.boot s.cfg with
        trace := t.trace, delivered := s.delivered, port := s.port, chip := s.chip.drop (t.draws - s.draws)
        draws := t.draws } := by
  obtain ⟨n, h⟩ := exec_cut ht hcut
  obtain ⟨es, hstate, -⟩ := h.state
  have hn : t.draws - s.draws = n := by simp [hstate]
  have htrace : t.trace = s.trace ++ es := congrArg State.trace hstate
  refine ⟨fun k hk => h.uncut k (hn ▸ hk), ⟨es, htrace, fun hcs => ?_⟩, ?_⟩
  · obtain ⟨-, es', htrace', hframed⟩ := exec_whole ht hcs
    rwa [List.append_cancel_left (htrace.symm.trans htrace')]
  · rw [hn]
    simp [hstate]

end

/-- A word that SRC reset is to abandon, presented to a free sequencer. -/
theorem step_wordCut {s : State} {e : Encoded} {rest : List PortInput} (hport : s.port = .wordCut e :: rest)
    (hfree : s.busy = false) : step s = abandoned e { s with port := rest } := by
  simp [step, hport, hfree]

theorem abandoned_decoded {s : State} {e : Encoded} {i : Instr} (hdec : decode s.cfg e = .ok i) :
    abandoned e s = .next (srcReset (take i s)) := by
  simp only [abandoned, hdec]

/-- Settles O7: SRC reset about a chunk ends the transaction and the command, whose state it replaces. -/
theorem resetAbandonsTheCommand : Obligations.ResetAbandonsTheCommand := by
  unfold Obligations.ResetAbandonsTheCommand
  refine ⟨fun s rest hport => ?_, fun s e rest i hport hfree hcs hrst hdec => ?_,
    fun addr v s c hv haddr hcs hrst hcut => exec_writeRegister_cut hv haddr hcs hrst hcut v,
    fun i s t ht hcut => exec_cut_resets ht hcut⟩
  · simp [step, hport, srcReset, resetEdges]
  · rw [step_wordCut hport hfree, abandoned_decoded (s := { s with port := rest }) hdec]
    exact congrArg Host.Outcome.next (srcReset_of_released (s := take i { s with port := rest }) hcs hrst)

end Sys2Proof.Machine
end

section
/-! Encoding (R80 to R97): each piece of a word decodes to what it was encoded from, and encodes back to the bytes it
was decoded from. -/

namespace Sys2Proof

/-! ### 16-bit values and register values (R12, R56, R91 (3), (4)) -/

theorem ofBytes_lowByte_highByte (v : Half) : ofBytes (lowByte v) (highByte v) = v := by
  ext i hlt
  simp only [ofBytes, lowByte, highByte, BitVec.getElem_or, BitVec.getElem_shiftLeft, BitVec.getElem_setWidth,
    BitVec.getLsbD_setWidth, BitVec.getLsbD_ushiftRight]
  by_cases h : i < 8
  · simp [h, BitVec.getLsbD_eq_getElem hlt]
  · simp [h, show i - 8 < 8 by omega, show 8 + (i - 8) = i by omega, BitVec.getLsbD_eq_getElem hlt]

theorem lowByte_setWidth (b : Byte) : lowByte (b.setWidth 16) = b := by simp [lowByte]

/-- A byte is the 16-bit value of 8 bits whose low byte it is. -/
theorem setWidth_eq_iff {b : Byte} {v : Half} : b.setWidth 16 = v ↔ v.toNat < 256 ∧ b = lowByte v := by
  simp only [lowByte, ← BitVec.toNat_inj, BitVec.toNat_setWidth]
  omega

theorem ofBytes_eq_iff {lo hi : Byte} {v : Half} : ofBytes lo hi = v ↔ lo = lowByte v ∧ hi = highByte v := by
  constructor
  · rintro rfl
    exact ⟨(Machine.lowByte_ofBytes lo hi).symm, (Machine.highByte_ofBytes lo hi).symm⟩
  · rintro ⟨rfl, rfl⟩
    exact ofBytes_lowByte_highByte v

section
variable {c : Config} {v : Half} {bs : List Byte}

/-- The wire bytes that hold a register value are those it is sent as (R56, R84). -/
theorem valueOfBytes_eq_some : valueOfBytes c bs = some v ↔ valueFits c v = true ∧ bs = valueBytes c v := by
  unfold valueOfBytes valueFits valueBytes
  cases c.profile.valBytes with
  | one =>
    match bs with
    | [] => simp
    | [b] => simp [setWidth_eq_iff]
    | _ :: _ :: _ => simp
  | two =>
    cases c.profile.val16Order <;>
      match bs with
      | [] => simp
      | [_] => simp
      | [_, _] => simp [ofBytes_eq_iff, and_comm]
      | _ :: _ :: _ :: _ => simp

/-! ### The frame buffer image (R92) -/

theorem frameOfImage_frameImage {f : List Byte} (h : prefixFits f = true) : frameOfImage (frameImage f) = some f := by
  have hlt : f.length + 2 < 256 := by simpa [prefixFits] using h
  simp [frameImage, frameOfImage, zeros, Nat.mod_eq_of_lt hlt]

/-- An image that carries a frame is the image of that frame. -/
theorem frameOfImage_eq_some {f : List Byte} (h : frameOfImage bs = some f) :
    prefixFits f = true ∧ bs = frameImage f := by
  cases bs with
  | nil => cases h
  | cons p rest =>
    simp only [frameOfImage, Option.ite_none_right_eq_some, Option.some.injEq] at h
    obtain ⟨⟨htwo, hlen, htail⟩, rfl⟩ := h
    have hp := p.isLt
    have htake : (rest.take (p.toNat - 2)).length + 2 = p.toNat := by
      rw [List.length_take]
      omega
    refine ⟨by simp only [prefixFits, htake, decide_eq_true_eq]; exact hp, ?_⟩
    rw [frameImage, htake, ← htail, List.take_append_drop, BitVec.ofNat_toNat, BitVec.setWidth_eq]

/-! ### Host frames (R95) -/

theorem noArgs_eq_ok {i j : Instr} : noArgs i bs = .ok j ↔ bs = [] ∧ i = j := by
  cases bs <;> simp [noArgs]

theorem byteArg_eq_ok {mk : Byte → Instr} {j : Instr} : byteArg mk bs = .ok j ↔ ∃ b, bs = [b] ∧ mk b = j := by
  match bs with
  | [] => simp [byteArg]
  | [b] => simp [byteArg]
  | _ :: _ :: _ => simp [byteArg]

theorem halfArg_eq_ok {mk : Half → Instr} {j : Instr} :
    halfArg mk bs = .ok j ↔ ∃ w, bs = [lowByte w, highByte w] ∧ mk w = j := by
  match bs with
  | [] => simp [halfArg]
  | [_] => simp [halfArg]
  | [lo, hi] =>
    simp only [halfArg, Except.ok.injEq, List.cons.injEq, and_true, ← ofBytes_eq_iff]
    simp
  | _ :: _ :: _ :: _ => simp [halfArg]

theorem sizedArg_eq_ok {mk : List Byte → Instr} {j : Instr} :
    sizedArg mk bs = .ok j ↔ ∃ data, sizeFits data = true ∧ bs = sized data ∧ mk data = j := by
  cases bs with
  | nil => simp [sizedArg, sized]
  | cons n data =>
    have hn := n.isLt
    have hsize : data.length = n.toNat ↔ sizeFits data = true ∧ n = BitVec.ofNat 8 data.length := by
      simp only [sizeFits, decide_eq_true_eq, ← BitVec.toNat_inj, BitVec.toNat_ofNat]
      omega
    simp only [sizedArg, sized, List.cons.injEq]
    by_cases h : data.length = n.toNat
    · rw [if_pos h]
      obtain ⟨hfits, hlen⟩ := hsize.1 h
      constructor
      · rintro h
        exact ⟨data, hfits, ⟨hlen, rfl⟩, Except.ok.inj h⟩
      · rintro ⟨data', -, ⟨-, rfl⟩, rfl⟩
        rfl
    · rw [if_neg h]
      constructor
      · intro h
        cases h
      · rintro ⟨data', hfits, ⟨hlen, rfl⟩, -⟩
        exact absurd (hsize.2 ⟨hfits, hlen⟩) h

theorem writeRegisterArgs_eq_ok {j : Instr} : writeRegisterArgs c bs = .ok j ↔
    ∃ a v, valueFits c v = true ∧ bs = a :: hostValueBytes c v ∧ Instr.writeRegister a v = j := by
  unfold valueFits hostValueBytes
  match bs with
  | [] => simp [writeRegisterArgs]
  | [_] => cases c.profile.valBytes <;> simp [writeRegisterArgs]
  | [a, lo] =>
    cases h : c.profile.valBytes with
    | one =>
      simp only [writeRegisterArgs, h, if_true, Except.ok.injEq, List.cons.injEq, and_true, decide_eq_true_eq]
      constructor
      · rintro rfl
        obtain ⟨hv, hlo⟩ := setWidth_eq_iff.1 (Eq.refl (lo.setWidth 16))
        exact ⟨a, _, hv, ⟨rfl, hlo⟩, rfl⟩
      · rintro ⟨_, v, hv, ⟨rfl, rfl⟩, rfl⟩
        rw [setWidth_eq_iff.2 ⟨hv, rfl⟩]
    | two => simp [writeRegisterArgs, h]
  | [a, lo, hi] =>
    cases h : c.profile.valBytes with
    | one => simp [writeRegisterArgs, h]
    | two =>
      simp [writeRegisterArgs, h, ← ofBytes_eq_iff]
  | _ :: _ :: _ :: _ :: _ => cases c.profile.valBytes <;> simp [writeRegisterArgs]

/-- A host frame that decodes to i is the encoding of i, and i fits it. -/
theorem encode_of_decodeHost {i : Instr} (h : decodeHost c bs = .ok i) :
    encode c i = .hostFrame bs ∧ i.wf c = true := by
  cases bs with
  | nil => cases h
  | cons op args =>
    rcases opcode_forms op with hop | hop | hop | rfl | hop | hop
    · fin_cases hop <;> (obtain ⟨rfl, rfl⟩ := noArgs_eq_ok.1 h; exact ⟨rfl, rfl⟩)
    · fin_cases hop <;> (obtain ⟨b, rfl, rfl⟩ := byteArg_eq_ok.1 h; exact ⟨rfl, rfl⟩)
    · fin_cases hop <;> (obtain ⟨w, rfl, rfl⟩ := halfArg_eq_ok.1 h; exact ⟨rfl, rfl⟩)
    · obtain ⟨a, v, hfits, rfl, rfl⟩ := writeRegisterArgs_eq_ok.1 h
      exact ⟨rfl, hfits⟩
    · fin_cases hop <;> (obtain ⟨data, hfits, rfl, rfl⟩ := sizedArg_eq_ok.1 h; exact ⟨rfl, hfits⟩)
    · rw [decodeHost_unassigned c hop] at h
      cases h

/-! ### SPI transactions (R82 to R86) -/

/-- The first byte of a transaction with this command, where that byte is known (R85). -/
def SpiCommand.byte (c : Config) : SpiCommand → Byte
  | .regRead a => c.profile.readFlag ||| a.setWidth 8
  | .regWrite a => c.profile.writeFlag ||| a.setWidth 8
  | .fbRead => c.profile.fbReadCmd
  | .fbWrite => c.profile.fbWriteCmd

/-- The command is a register access, whose word is one byte. -/
def SpiCommand.known (c : Config) : SpiCommand → Bool
  | .regRead _ | .regWrite _ => commandWordKnown c
  | .fbRead | .fbWrite => true

theorem regByte_address {flag : Byte} (h : flag &&& 0x3F#8 = 0x00#8) (a : RegAddr) :
    (flag ||| a.setWidth 8).setWidth 6 = a := by
  have hflag : flag &&& 0x3F#8 = 0x00#8 → flag.setWidth 6 = 0x00#6 := by decide +revert
  rw [BitVec.setWidth_or, hflag h, BitVec.zero_or, BitVec.setWidth_setWidth_of_le _ (by decide), BitVec.setWidth_eq]

/-- A byte whose bits 7:6 are the flag is that flag with its address. -/
theorem eq_regByte {flag b : Byte} (h : b &&& 0xC0#8 = flag) : flag ||| (b.setWidth 6 : RegAddr).setWidth 8 = b := by
  rw [← h, highBits_or_address]

theorem commandWordKnown_iff : commandWordKnown c = true ↔ c.profile.cmdBytes ≠ .two := by
  cases h : c.profile.cmdBytes <;> simp [commandWordKnown, h]

/-- Under a profile that meets R82 the command byte of a register access is no frame command, and says its flag and
its address. -/
theorem spiCommandOf_regByte (hv : c.profile.valid = true) (hknown : commandWordKnown c = true) {flag : Byte}
    (hflag : flag ∈ [c.profile.readFlag, c.profile.writeFlag]) (a : RegAddr) :
    spiCommandOf c (flag ||| a.setWidth 8)
      = if flag = c.profile.readFlag then some (.regRead a) else some (.regWrite a) := by
  obtain ⟨hr, hw, -, -, hne⟩ := (Profile.valid_iff_meetsR82 _).1 hv
  have hread := (hne a flag c.profile.fbReadCmd hflag (by simp)).symm
  have hwrite := (hne a flag c.profile.fbWriteCmd hflag (by simp)).symm
  obtain rfl | rfl : flag = c.profile.readFlag ∨ flag = c.profile.writeFlag := by simpa using hflag
  · simp [spiCommandOf, hread, hwrite, commandWordKnown_iff.1 hknown, regByte_highBits hr, regByte_address hr]
  · simp [spiCommandOf, hread, hwrite, commandWordKnown_iff.1 hknown, regByte_highBits hw, regByte_address hw]

theorem spiCommandOf_byte (hv : c.profile.valid = true) {k : SpiCommand} (hk : k.known c = true) :
    spiCommandOf c (k.byte c) = some k := by
  obtain ⟨-, -, hrw, hfb, -⟩ := (Profile.valid_iff_meetsR82 _).1 hv
  cases k with
  | regRead a => exact (spiCommandOf_regByte hv hk (by simp) a).trans (if_pos rfl)
  | regWrite a => exact (spiCommandOf_regByte hv hk (by simp) a).trans (if_neg hrw.symm)
  | fbRead => simp [spiCommandOf, SpiCommand.byte]
  | fbWrite => simp [spiCommandOf, SpiCommand.byte, hfb.symm]

theorem byte_of_spiCommandOf {b : Byte} {k : SpiCommand} (h : spiCommandOf c b = some k) :
    b = k.byte c ∧ k.known c = true := by
  unfold spiCommandOf at h
  split_ifs at h with hfr hfw htwo hr hw <;> obtain rfl := Option.some.inj h
  · exact ⟨hfr, rfl⟩
  · exact ⟨hfw, rfl⟩
  · exact ⟨(eq_regByte hr).symm, commandWordKnown_iff.2 htwo⟩
  · exact ⟨(eq_regByte hw).symm, commandWordKnown_iff.2 htwo⟩

theorem commandWord_of_known (h : commandWordKnown c = true) (a : RegAddr) (flag : Byte) :
    commandWord c a flag = [flag ||| a.setWidth 8] := by
  have hone : c.profile.cmdBytes = .one := by simpa [commandWordKnown] using h
  simp [commandWord, hone]

/-- What follows the command byte of a transaction that decodes to i (R84, R86). -/
theorem encode_of_decodeSpiFollow {k : SpiCommand} {i : Instr} (hk : k.known c = true)
    (h : decodeSpiFollow c bs k = .ok i) : encode c i = .spiTransfer (k.byte c :: bs) ∧ i.wf c = true := by
  cases k with
  | regRead a =>
    simp only [decodeSpiFollow] at h
    split_ifs at h with hfill
    obtain ⟨rfl, rfl⟩ := And.intro hfill (Except.ok.inj h)
    exact ⟨by rw [encode, commandWord_of_known hk]; rfl, hk⟩
  | regWrite a =>
    cases hval : valueOfBytes c bs with
    | none => simp [decodeSpiFollow, hval] at h
    | some v =>
      obtain rfl : Instr.spiRegWrite a v = i := by simpa [decodeSpiFollow, hval] using h
      obtain ⟨hfits, rfl⟩ := valueOfBytes_eq_some.1 hval
      exact ⟨by rw [encode, commandWord_of_known hk]; rfl, by simp_all [Instr.wf, SpiCommand.known]⟩
  | fbRead =>
    simp only [decodeSpiFollow] at h
    split_ifs at h with hfill
    obtain ⟨rfl, rfl⟩ := And.intro hfill (Except.ok.inj h)
    exact ⟨rfl, rfl⟩
  | fbWrite =>
    cases hframe : frameOfImage bs with
    | none => simp [decodeSpiFollow, hframe] at h
    | some f =>
      obtain rfl : Instr.spiFbWrite f = i := by simpa [decodeSpiFollow, hframe] using h
      obtain ⟨hfits, rfl⟩ := frameOfImage_eq_some hframe
      exact ⟨rfl, hfits⟩

theorem encode_of_decodeSpi {i : Instr} (h : decodeSpi c bs = .ok i) :
    encode c i = .spiTransfer bs ∧ i.wf c = true := by
  cases bs with
  | nil => cases h
  | cons b follow =>
    cases hb : spiCommandOf c b with
    | none => simp [decodeSpi, hb] at h
    | some k =>
      obtain ⟨rfl, hk⟩ := byte_of_spiCommandOf hb
      exact encode_of_decodeSpiFollow hk (by simpa [decodeSpi, hb] using h)

theorem decodeSpi_byte (hv : c.profile.valid = true) {k : SpiCommand} (hk : k.known c = true) (follow : List Byte) :
    decodeSpi c (k.byte c :: follow) = decodeSpiFollow c follow k := by
  simp only [decodeSpi, spiCommandOf_byte hv hk]

/-! ### `TRX_STATE` bytes (R87) -/

/-- A code that starts at bit 3 or below is not cut (R59, log 21). -/
theorem trxByte_inj (h : c.map.trxCmdLo ≤ 3) {x y : TrxCode} : trxByte c x = trxByte c y ↔ x = y := by
  refine ⟨fun heq => ?_, congrArg _⟩
  have hx := x.isLt
  have hy := y.isLt
  have hnat := congrArg BitVec.toNat heq
  simp only [trxByte, BitVec.toNat_shiftLeft, BitVec.toNat_setWidth] at hnat
  apply BitVec.eq_of_toNat_eq
  interval_cases c.map.trxCmdLo <;> simp only [Nat.shiftLeft_eq] at hnat <;> omega

theorem encode_of_decodeTrx {b : Byte} {i : Instr} (h : decodeTrx c b = .ok i) :
    encode c i = .trxCommand b ∧ i.wf c = true := by
  unfold decodeTrx at h
  split_ifs at h <;> obtain rfl := Except.ok.inj h <;> exact ⟨congrArg Encoded.trxCommand (Eq.symm ‹_›), rfl⟩

end

namespace Machine

/-- Settles O9: each word is decoded by its own bits. -/
theorem writtenOutWordsDecode : Obligations.WrittenOutWordsDecode := by
  unfold Obligations.WrittenOutWordsDecode
  exact ⟨rfl, rfl, rfl, rfl, rfl, rfl, rfl, rfl, rfl, rfl, rfl⟩

/-- Settles O11: in each space what decodes is the encoding of its instruction. -/
theorem encodeOfDecodeIsTheWord : Obligations.EncodeOfDecodeIsTheWord := by
  unfold Obligations.EncodeOfDecodeIsTheWord
  intro c e i _ h
  cases e with
  | hostFrame bs => exact encode_of_decodeHost h
  | spiTransfer mosi => exact encode_of_decodeSpi h
  | trxCommand b => exact encode_of_decodeTrx h

/-- Settles O10: the decoder takes apart what the encoder put together, in each space. -/
theorem decodeOfEncodeIsTheInstruction : Obligations.DecodeOfEncodeIsTheInstruction := by
  unfold Obligations.DecodeOfEncodeIsTheInstruction
  intro c i hv hcodes hwf
  obtain ⟨hprofile, -⟩ := valid_limits hv
  obtain ⟨hlo, hcodes⟩ : c.map.trxCmdLo ≤ 3 ∧ _ := by simpa [ChipMap.codesDistinct] using hcodes
  cases i with
  | init | sleep | wakeup | taskHandler | rssiBaseValue | readFrame => rfl
  | setChannel | setBand | setModulation | setTxPower | readRegister | readBytes => rfl
  | setPanId w | setShortAddress w => exact halfArg_eq_ok.2 ⟨w, rfl, rfl⟩
  | dataRequest data | writeBytes data | writeFrame data => exact sizedArg_eq_ok.2 ⟨data, hwf, rfl, rfl⟩
  | writeRegister a v => exact writeRegisterArgs_eq_ok.2 ⟨a, v, hwf, rfl, rfl⟩
  | spiRegRead a =>
    rw [encode, commandWord_of_known hwf]
    exact (decodeSpi_byte hprofile (k := .regRead a) hwf _).trans (if_pos rfl)
  | spiRegWrite a v =>
    obtain ⟨hknown, hfits⟩ : commandWordKnown c = true ∧ valueFits c v = true := by simpa [Instr.wf] using hwf
    rw [encode, commandWord_of_known hknown]
    refine (decodeSpi_byte hprofile (k := .regWrite a) hknown (valueBytes c v)).trans ?_
    simp only [decodeSpiFollow, valueOfBytes_eq_some.2 ⟨hfits, rfl⟩]
  | spiFbRead => exact decodeSpi_byte hprofile (k := .fbRead) rfl [0x00#8]
  | spiFbWrite f =>
    refine (decodeSpi_byte hprofile (k := .fbWrite) rfl _).trans ?_
    simp only [decodeSpiFollow, frameOfImage_frameImage hwf]
  | txStart | forceTrxOff | rxOn | pllOn | rxAackOn | txAretOn =>
    simp only [encode, decode, decodeTrx, trxByte_inj hlo]
    grind

/-! ### Register fields (R59) -/

theorem extractLsb'_zero_five (v : Byte) : (v >>> 0).setWidth 5 = v.extractLsb' 0 5 := by decide +revert

theorem extractLsb'_five_three (v : Byte) : (v >>> 5).setWidth 3 = v.extractLsb' 5 3 := by decide +revert

/-- Settles O49: the positions of R59 put into each field. -/
theorem registerFieldsOfTheChipMap : Obligations.RegisterFieldsOfTheChipMap := by
  unfold Obligations.RegisterFieldsOfTheChipMap
  intro c v h
  simp only [ChipMap.fieldsAsR59, Bool.and_eq_true, beq_iff_eq] at h
  obtain ⟨⟨⟨⟨⟨⟨⟨⟨⟨⟨⟨⟨hstatus, hcmd⟩, hchannel⟩, hband⟩, htrac⟩, hcrc⟩, hmode⟩, hsafe⟩, -⟩, -⟩, -⟩, hend⟩, hcca⟩ := h
  refine ⟨?_, ?_, ?_, fun code => ?_, ?_, ?_, ?_, ?_⟩
  · rw [trxCtrl1Value, hcrc, hmode]
    rfl
  · rw [trxCtrl2Value, hsafe]
    rfl
  · rw [phyCcCcaValue, hcca, hchannel, BitVec.shiftLeft_zero]
  · rw [trxByte, hcmd, BitVec.shiftLeft_zero]
  · rw [ccCtrl1Value, hband, BitVec.shiftLeft_zero]
  · rw [statusField, hstatus, extractLsb'_zero_five]
  · rw [tracField, htrac, extractLsb'_five_three]
  · rw [trxEnd, hend]

end Machine
end Sys2Proof
end

section
/-! Commands in the run where the chip answers at once: the whole next state of the rows of the SPI spaces, the
configuration commands, INIT, DATA_REQUEST, WRITE_FRAME and TASK_HANDLER with nothing completed. -/

namespace Sys2Proof.Machine

/-! ### The order of the checks (R233) -/

/-- Settles O16: `precheck` is what the checks of every command decide. -/
theorem checksComeInOrderBeforeBusTraffic : Obligations.ChecksComeInOrderBeforeBusTraffic :=
  fun _ _ _ hp => exec_refused hp

/-! ### The rows of the SPI spaces -/

theorem spiRegRead_isTransaction (a : RegAddr) (s : State) :
    IsTransaction (.spiRegRead a) s (readExchange s.cfg a) fun rx => hostValueBytes s.cfg (assemble s.cfg rx) :=
  .of_legal_argument (legal := true) (arg := 0#8) rfl rfl (readExchange_ne_nil _ _) (registerRead_run _ _)

theorem spiRegWrite_isTransaction (a : RegAddr) (v : Half) (s : State) :
    IsTransaction (.spiRegWrite a v) s (writeExchange s.cfg a v) fun _ => [] :=
  .of_legal_argument (legal := true) (arg := 0#8) rfl rfl (writeExchange_ne_nil _ _ _) (by simp [memWrite])

/-- Settles O22: each row is one transaction, of one chunk. -/
theorem spiRegisterRowsAreTheExchanges : Obligations.SpiRegisterRowsAreTheExchanges := by
  unfold Obligations.SpiRegisterRowsAreTheExchanges
  refine fun a v s hv hgo => ⟨?_, ?_⟩
  · have hread := (spiRegRead_isTransaction a s).ok (isChunking_exchange hv (readExchange_length s.cfg a)) hgo
    simpa [State.received, hostValueBytes_assemble] using hread
  · exact (spiRegWrite_isTransaction a v s).ok (isChunking_exchange hv (writeExchange_length s.cfg a v)) hgo

/-- Settles O29: the row is one frame read. -/
theorem spiFrameReadRowIsTheFrameRead : Obligations.SpiFrameReadRowIsTheFrameRead := by
  unfold Obligations.SpiFrameReadRowIsTheFrameRead
  have h : IsFrameRead .spiFbRead := fun _ => rfl
  exact fun s hv => ⟨h.invalid hv, fun ps hlen hps => h.ok hv hlen hps⟩

/-! ### Configuration commands -/

/-- A list of configuration writes, each going through at the first attempt. -/
theorem cfgWrites_configured {s : State} (hb : s.cfg.profile.bytewise = true) (hx : 2 ≤ s.cfg.maxXfer)
    (w : RegAddr × Byte) (ws : List (RegAddr × Byte)) (hgo : s.goThrough (ws.length + 1)) :
    cfgWrites (w :: ws) s = .ok () (s.configured ((w :: ws).map fun w => regWrite s.cfg w.1 w.2)) := by
  induction ws generalizing w s with
  | nil =>
    rw [cfgWrites_singleton]
    exact cfgWrite_configured hb hx hgo _ _
  | cons w' ws ih =>
    have hfirst := cfgWrite_configured hb hx (goThrough_le hgo (by omega)) w.1 w.2
    have l := later_configured s [regWrite s.cfg w.1 w.2]
    have hrest := ih (s := s.configured [regWrite s.cfg w.1 w.2]) (by rwa [l.cfg]) (by rwa [l.cfg]) w'
      (l.goThrough (goThrough_le hgo (by simp; omega)))
    rw [cfgWrites, bind_ok hfirst, hrest, l.cfg, configured_configured]
    rfl

section
variable {i : Instr} {s : State}

/-- A configuration command whose writes all go through at the first attempt (R202). -/
theorem exec_configuration_ok (hv : s.cfg.valid = true) (hb : s.cfg.profile.bytewise = true)
    (hst : s.opState ≠ .initial) (hi : isConfiguration i = true) (ha : badArgument i = none)
    (hgo : s.goThrough (configWrites s i).length) :
    exec i s = .next (State.answeredOk
      { (withCache s i).afterBus (configWrites s i).length (s.exchanges 0 (configWrites s i)) with
        retryCount := 0 } []) := by
  obtain ⟨-, hx, -⟩ := valid_limits hv
  have l := later_cached s i
  have hp := (precheck_configuration hi ha hb).trans (if_neg hst)
  obtain ⟨w, ws, hws⟩ : ∃ w ws, registerWrites (withCache s i) i = w :: ws := by
    cases i with
    | setChannel | setBand | setModulation | setPanId | setShortAddress | setTxPower => exact ⟨_, _, rfl⟩
    | _ => cases hi
  have hmap := map_registerWrites s i
  rw [hws] at hmap
  have hlen : ws.length + 1 = (configWrites s i).length := by simp [← hmap]
  have hwrites := cfgWrites_configured (s := s.cached i) (by rwa [l.cfg]) (by rw [l.cfg]; omega) w ws
    (l.goThrough (by rwa [hlen, Nat.zero_add]))
  rw [l.cfg, hmap, State.configured, l.exchanges] at hwrites
  rw [exec_configuration hi hp, hws, hwrites]
  exact congrArg Host.Outcome.next (answered_cached s i _ 0 _ _ none)

/-- One of a single write. -/
theorem exec_one_write_ok {w : List Byte} (hv : s.cfg.valid = true) (hb : s.cfg.profile.bytewise = true)
    (hst : s.opState ≠ .initial) (hi : isConfiguration i = true) (hw : configWrites s i = [w])
    (hgo : s.goThrough 1) :
    exec i s = .next (State.answeredOk
      { (withCache s i).afterBus 1 (s.transfer 0 [w]) with retryCount := 0 } []) := by
  have hexec := exec_configuration_ok hv hb hst hi (badArgument_none_of_one_write hi hw) (by rwa [hw])
  simpa [hw, State.exchanges] using hexec

end

/-- Settles O50: its one write is the channel write of the current band. -/
theorem setChannelWritesTheBandsRegister : Obligations.SetChannelWritesTheBandsRegister := by
  unfold Obligations.SetChannelWritesTheBandsRegister
  refine fun ch s hv hb hst hgo => ⟨fun hband => ?_, fun hband => ?_⟩
  · exact exec_one_write_ok hv hb hst rfl (by rw [configWrites, channelWrite, if_pos hband]) hgo
  · exact exec_one_write_ok hv hb hst rfl (by rw [configWrites, channelWrite, if_neg hband]) hgo

/-- Settles O52: both are commands of one write. -/
theorem setModulationAndPowerWriteThrough : Obligations.SetModulationAndPowerWriteThrough := by
  unfold Obligations.SetModulationAndPowerWriteThrough
  exact fun v s hv hb hst hgo =>
    ⟨exec_one_write_ok hv hb hst rfl rfl hgo, exec_one_write_ok hv hb hst rfl rfl hgo⟩

/-- The seed is the sum of the two bytes of the short address modulo 256 (R211). -/
theorem lowByte_add_highByte (v : Half) :
    lowByte v + highByte v = BitVec.ofNat 8 ((v.toNat % 256 + v.toNat / 256) % 256) := by
  have hlow : (lowByte v).toNat = v.toNat % 256 := by simp [lowByte]
  have hhigh : (highByte v).toNat = v.toNat / 256 := by
    have hlt := v.isLt
    simp [highByte, Nat.shiftRight_eq_div_pow]
    omega
  apply BitVec.eq_of_toNat_eq
  rw [BitVec.toNat_add, hlow, hhigh, BitVec.toNat_ofNat]
  omega

/-- Settles O53: the three writes of `configWrites`, the last of which is the seed. -/
theorem addressCommandsWriteTheSeed : Obligations.AddressCommandsWriteTheSeed := by
  unfold Obligations.AddressCommandsWriteTheSeed
  intro v s hv hb hst hgo
  rw [← lowByte_add_highByte, ← lowByte_add_highByte]
  exact ⟨exec_configuration_ok hv hb hst rfl rfl hgo, exec_configuration_ok hv hb hst rfl rfl hgo⟩

/-! ### TASK_HANDLER with nothing completed -/

/-- Settles O40: the IRQ status read, and the end where it shows no completion or fails. -/
theorem taskHandlerWithNothingCompleted : Obligations.TaskHandlerWithNothingCompleted := by
  unfold Obligations.TaskHandlerWithNothingCompleted
  refine fun s hv hb hst => ⟨fun hgo hend => ?_, exec_taskHandler_failed hv hb hst⟩
  have hread := (later_handling s).memReadByte_ok hv hb hgo s.cfg.map.irqStatus
  have hbit : ¬ trxEnd s.cfg (s.secondByte 0) = true := Bool.not_eq_true _ ▸ hend
  rw [exec_taskHandler_awake hb hst, bind_ok hread, if_neg hbit, pure_run, finish_ok]
  rfl

/-! ### Commands that send a frame -/

section
variable {s u : State} {k : Nat} (l : Later s u k) (hv : s.cfg.valid = true)
include l

/-- The frame transaction, some chunks further on (R141). -/
theorem Later.frameBufferWrite_ok {f : List Byte} {ps : List (List Byte)}
    (hps : IsChunking s.cfg.maxXfer (s.cfg.profile.fbWriteCmd :: frameImage f) ps)
    (hgo : s.goThrough (k + ps.length)) :
    frameBufferWrite f u = .ok ()
      { u.afterBus ps.length (s.transfer k ps) with txbuf := u.txbuf.writeRange 0 (frameImage f) } := by
  obtain rfl := isChunking_unique hps
  have hwrite := Machine.frameBufferWrite_ok (s := u) (f := f) (l.goThrough (by rwa [l.cfg]))
  rwa [l.cfg, l.transfer] at hwrite

include hv

theorem Later.writeTrxState_ok (hb : s.cfg.profile.bytewise = true) (hgo : s.goThrough (k + 1)) (code : TrxCode) :
    writeTrxState code u = .ok () (u.afterBus 1 (s.transfer k [stateWrite s.cfg code])) := by
  obtain ⟨-, hx, -⟩ := valid_limits hv
  have hwrite := Machine.writeTrxState_ok (s := u) (by rwa [l.cfg]) (by rw [l.cfg]; omega) (l.goThrough hgo) code
  rwa [l.cfg, l.transfer] at hwrite

/-- The frame transaction, and the start of the transmission (R141, R142). -/
theorem Later.frameWriteSeq_ok (hb : s.cfg.profile.bytewise = true) {f : List Byte} {ps : List (List Byte)}
    (hps : IsChunking s.cfg.maxXfer (s.cfg.profile.fbWriteCmd :: frameImage f) ps)
    (hgo : s.goThrough (k + ps.length + 1)) :
    frameWriteSeq f u = .ok ()
      { u.afterBus (ps.length + 1)
          (s.transfer k ps ++ s.transfer (k + ps.length) [stateWrite s.cfg s.cfg.map.cmdTxStart]) with
        txbuf := u.txbuf.writeRange 0 (frameImage f) } := by
  have hframe := l.frameBufferWrite_ok hps (goThrough_le hgo (by omega))
  have l' : Later s { u.afterBus ps.length (s.transfer k ps) with txbuf := u.txbuf.writeRange 0 (frameImage f) }
      (k + ps.length) :=
    have h := l.afterBus ps.length (s.transfer k ps)
    ⟨h.chip, h.draws, h.cfg⟩
  rw [frameWriteSeq, bind_ok hframe, transmitStart, config_bind, l'.cfg, l'.writeTrxState_ok hv hb hgo,
    ← afterBus_afterBus]
  rfl

end

section
variable {f : List Byte} {ps : List (List Byte)} {s : State} (hv : s.cfg.valid = true)
  (hfit : f.length + 3 ≤ s.cfg.fbLimit)
include hfit

theorem precheck_writeFrame_none (hb : s.cfg.profile.bytewise = true) :
    precheck s.cfg (.writeFrame f) s.opState = none := by
  simp [precheck_eq_or, profileError, hb, argumentError, badArgument, stateError, legality, frameError, frameOf, hfit]

theorem precheck_spiFbWrite_none : precheck s.cfg (.spiFbWrite f) s.opState = none := by
  simp [precheck_eq_or, profileError, needsBytewise, argumentError, badArgument, stateError, legality, frameError,
    frameOf, hfit]

theorem exec_writeFrame (hb : s.cfg.profile.bytewise = true) :
    exec (.writeFrame f) s = .next (endsWith ((do
      setTrxState (.writeFramePll f)
      frameWriteSeq f) (accept (take (.writeFrame f) s))) none) := by
  rw [exec_accepted (i := .writeFrame f) rfl (checksOf_writeFrame f) (precheck_writeFrame_none hfit hb),
    ← finish_returning, bind_assoc]

theorem exec_spiFbWrite_ok (hps : IsChunking s.cfg.maxXfer (s.cfg.profile.fbWriteCmd :: frameImage f) ps)
    (hgo : s.goThrough ps.length) :
    exec (.spiFbWrite f) s = .next (State.answeredOk
      { s.afterBus ps.length (s.transfer 0 ps) with txbuf := s.txbuf.writeRange 0 (frameImage f) } []) := by
  have hframe := (later_accepted (.spiFbWrite f) s).frameBufferWrite_ok hps (by rwa [Nat.zero_add])
  rw [exec_accepted (i := .spiFbWrite f) rfl (checksOf_spiFbWrite f) (precheck_spiFbWrite_none hfit), bind_ok hframe]
  rfl

include hv

theorem exec_writeFrame_ok (hb : s.cfg.profile.bytewise = true)
    (hps : IsChunking s.cfg.maxXfer (s.cfg.profile.fbWriteCmd :: frameImage f) ps)
    (hgo : s.goThrough (5 + ps.length)) (hm : s.pollsMatch 0 .pllOn) :
    exec (.writeFrame f) s = .next (State.answeredOk
      { s.afterBus (5 + ps.length)
          (s.exchanges 0 (trxExchanges s.cfg .pllOn) ++ s.transfer 4 ps
            ++ s.transfer (4 + ps.length) [stateWrite s.cfg s.cfg.map.cmdTxStart]) with
        txbuf := s.txbuf.writeRange 0 (frameImage f)
        pollCount := 1 } []) := by
  have l := later_accepted (.writeFrame f) s
  have hset := l.setTrxState_ok (call := .writeFramePll f) hv hb (goThrough_le hgo (by simp [callCmd]; omega)) hm
  have l' := later_withPolls (l.afterBus 4 (s.exchanges 0 (trxExchanges s.cfg .pllOn))) 1
  have hframe := l'.frameWriteSeq_ok hv hb hps (goThrough_le hgo (by omega))
  rw [exec_writeFrame hfit hb, bind_ok hset]
  refine (congrArg (fun r => Host.Outcome.next (endsWith r none)) hframe).trans ?_
  rw [withPolls_afterBus, afterBus_afterBus, Nat.add_comm ps.length 1, ← Nat.add_assoc, List.append_assoc]
  rfl

end

/-- Settles O27: the state change and the frame write of WRITE_FRAME, either phase of that change where it fails, and
the frame transaction alone. -/
theorem writeFrameSendsTheImage : Obligations.WriteFrameSendsTheImage := by
  unfold Obligations.WriteFrameSendsTheImage
  refine fun f ps s hv hfit hps => ⟨fun hb => exec_writeFrame_ok hv hfit hb hps,
    fun hb n => ⟨fun hn => ?_, fun hn => ?_⟩, exec_spiFbWrite_ok hfit hps⟩
  · have hset := (later_accepted (.writeFrame f) s).setTrxState_neverOff hv hb (.writeFramePll f) hn
    rw [exec_writeFrame hfit hb, bind_error hset]
    rfl
  · have hset := (later_accepted (.writeFrame f) s).setTrxState_neverReaches (call := .writeFramePll f) hv hb hn
    rw [exec_writeFrame hfit hb, bind_error hset]
    rfl

/-! ### DATA_REQUEST (R173) -/

/-- s with the frame f sent by DATA_REQUEST. -/
def State.sent (s : State) (f : List Byte) : State :=
  { s with opState := .transmittingWaitEnd, txbuf := s.txbuf.writeRange 0 (frameImage f) }

/-- What DATA_REQUEST does once the chip is ready to take the frame, some chunks further on. -/
theorem Later.requestSend_ok {s u : State} {k : Nat} (l : Later s u k) (hv : s.cfg.valid = true)
    (hb : s.cfg.profile.bytewise = true) {f : List Byte} {ps : List (List Byte)}
    (hps : IsChunking s.cfg.maxXfer (s.cfg.profile.fbWriteCmd :: frameImage f) ps)
    (hgo : s.goThrough (k + ps.length + 1)) :
    requestSend f u = .ok () ((u.afterBus (ps.length + 1)
      (s.transfer k ps ++ s.transfer (k + ps.length) [stateWrite s.cfg s.cfg.map.cmdTxStart])).sent f) := by
  rw [requestSend, bind_ok (l.frameWriteSeq_ok hv hb hps hgo)]
  rfl

/-- s with DATA_REQUEST accepted, `TX_ARET_ON` reached and the IRQ status read. -/
def State.armed (s : State) (data : List Byte) : State :=
  ((accept (take (.dataRequest data) s)).afterBus 5
    (s.exchanges 0 (trxExchanges s.cfg .txAretOn ++ [regRead s.cfg s.cfg.map.irqStatus]))).withPolls 1

theorem armed_afterBus (s : State) (data : List Byte) (n : Nat) (es : List BusEvent) :
    (s.armed data).afterBus n es = ((accept (take (.dataRequest data) s)).afterBus (5 + n)
      (s.exchanges 0 (trxExchanges s.cfg .txAretOn ++ [regRead s.cfg s.cfg.map.irqStatus]) ++ es)).withPolls 1 := by
  rw [State.armed, withPolls_afterBus, afterBus_afterBus]

theorem later_armed (s : State) (data : List Byte) : Later s (s.armed data) 5 :=
  later_withPolls ((later_accepted (.dataRequest data) s).afterBus 5 _) 1

section
variable {s : State} {data : List Byte}

/-- The pseudocode ends without an error. -/
theorem exec_dataRequest_ok (hp : precheck s.cfg (.dataRequest data) s.opState = none) {v : State} (hrun : (do
      setTrxState (.requestTransmit data)
      requestArmed data) (accept (take (.dataRequest data) s)) = .ok () v) :
    exec (.dataRequest data) s = .next (v.answered 0x00#8 [] none v.evq) := by
  rw [exec_dataRequest_accepted hp, confirmOnError, bind_ok (attempt_ok hrun)]
  rfl

/-- `TX_ARET_ON` is reached and the IRQ status read. -/
theorem dataRequest_armed (hv : s.cfg.valid = true) (hb : s.cfg.profile.bytewise = true) (hgo : s.goThrough 5)
    (hm : s.pollsMatch 0 .txAretOn) :
    (do
      setTrxState (.requestTransmit data)
      requestArmed data) (accept (take (.dataRequest data) s)) = (do
      if s.cfg.dataReqForcesPllOn then setTrxState (.requestPll data) else pure ()
      requestSend data) (s.armed data) := by
  have l := later_accepted (.dataRequest data) s
  have hset := l.setTrxState_ok (call := .requestTransmit data) hv hb (goThrough_le hgo (by simp [callCmd])) hm
  have l' := later_withPolls (l.afterBus 4 (s.exchanges 0 (trxExchanges s.cfg .txAretOn))) 1
  have hread := l'.memReadByte_ok hv hb hgo s.cfg.map.irqStatus
  have harmed : ((((accept (take (.dataRequest data) s)).afterBus 4 (s.exchanges 0 (trxExchanges s.cfg .txAretOn))
      ).withPolls 1).afterBus 1 (s.exchanges 4 [regRead s.cfg s.cfg.map.irqStatus])) = s.armed data := by
    rw [withPolls_afterBus, afterBus_afterBus, State.armed, exchanges_append]
    rfl
  rw [harmed] at hread
  rw [bind_ok hset]
  exact bind_ok hread

end

/-- An accepted DATA_REQUEST that sent its frame, completed. -/
theorem answered_sent (s : State) (data : List Byte) (n : Nat) (es : List BusEvent) :
    (((accept (take (.dataRequest data) s)).afterBus n es).withPolls 1 |>.sent data).answered 0x00#8 [] none [] =
      State.answeredOk { s.afterBus n es with
        opState := .transmittingWaitEnd
        txbuf := s.txbuf.writeRange 0 (frameImage data)
        pollCount := 1 } [] := rfl

/-- Settles O38: from the armed state on, the state change that the parameter asks for, and the frame. -/
theorem dataRequestHandsTheFrameOver : Obligations.DataRequestHandsTheFrameOver := by
  unfold Obligations.DataRequestHandsTheFrameOver
  intro data ps s hv hb hst hfit hps
  have hp := precheck_dataRequest_idle hb hst hfit
  have l := later_armed s data
  refine ⟨fun hpll hgo hm => ?_, fun hpll hgo hm hm' => ?_⟩
  · have hsend := l.requestSend_ok hv hb hps (goThrough_le hgo (by omega))
    have hrun := dataRequest_armed (data := data) hv hb (goThrough_le hgo (by omega)) hm
    rw [hpll] at hrun
    rw [exec_dataRequest_ok hp (hrun.trans hsend), armed_afterBus, ← List.append_assoc,
      show 5 + (ps.length + 1) = 6 + ps.length by omega, ← answered_sent]
    rfl
  · have hset := l.setTrxState_ok (call := .requestPll data) hv hb (goThrough_le hgo (by simp [callCmd]; omega)) hm'
    have l' : Later s (((s.armed data).afterBus 4 (s.exchanges 5 (trxExchanges s.cfg .pllOn))).withPolls 1) 9 :=
      later_withPolls (l.afterBus 4 _) 1
    have hsend := l'.requestSend_ok hv hb hps (goThrough_le hgo (by omega))
    have hrun := dataRequest_armed (data := data) hv hb (goThrough_le hgo (by omega)) hm
    have hexchanges := exchanges_append s 0 (trxExchanges s.cfg .txAretOn ++ [regRead s.cfg s.cfg.map.irqStatus])
      (trxExchanges s.cfg .pllOn)
    rw [show 0 + (trxExchanges s.cfg .txAretOn ++ [regRead s.cfg s.cfg.map.irqStatus]).length = 5 from rfl]
      at hexchanges
    rw [hpll] at hrun
    rw [exec_dataRequest_ok hp (hrun.trans ((bind_ok hset).trans hsend)), hexchanges, withPolls_afterBus,
      afterBus_afterBus, armed_afterBus, withPolls_withPolls, ← List.append_assoc, ← List.append_assoc,
      show 5 + (4 + (ps.length + 1)) = 10 + ps.length by omega, ← answered_sent]
    rfl

/-! ### INIT (R166) -/

/-- s with the transmit power cached. -/
def State.withPower (s : State) (p : Byte) : State := { s with txPower := p }

theorem withPower_configured (s : State) (p : Byte) (txs : List (List Byte)) :
    (s.withPower p).configured txs = (s.configured txs).withPower p := by
  have l : Later s (s.withPower p) 0 := ⟨rfl, rfl, rfl⟩
  rw [State.configured, l.exchanges, Nat.zero_add]
  rfl

/-- The three configuration writes of INIT (R166). -/
def initTxs (s : State) : List (List Byte) :=
  [regWrite s.cfg s.cfg.map.trxCtrl1 (trxCtrl1Value s.cfg),
    regWrite s.cfg s.cfg.map.trxCtrl2 (trxCtrl2Value s.cfg s.modulation),
    regWrite s.cfg s.cfg.map.phyTxPwr s.cfg.defaultTxPower]

/-- s with those writes through, each at the first attempt. -/
def State.initConfigured (s : State) : State := (s.configured (initTxs s)).withPower s.cfg.defaultTxPower

theorem later_initConfigured (s : State) : Later s s.initConfigured 3 := ⟨rfl, rfl, rfl⟩

theorem initConfigure_configured {s : State} (hb : s.cfg.profile.bytewise = true) (hx : 2 ≤ s.cfg.maxXfer)
    (hgo : s.goThrough 3) :
    initConfigure s = (do setTrxState .initReceive; commit .idle) s.initConfigured := by
  obtain ⟨w₁, hw₁⟩ : ∃ w, w = regWrite s.cfg s.cfg.map.trxCtrl1 (trxCtrl1Value s.cfg) := ⟨_, rfl⟩
  obtain ⟨w₂, hw₂⟩ : ∃ w, w = regWrite s.cfg s.cfg.map.trxCtrl2 (trxCtrl2Value s.cfg s.modulation) := ⟨_, rfl⟩
  obtain ⟨w₃, hw₃⟩ : ∃ w, w = regWrite s.cfg s.cfg.map.phyTxPwr s.cfg.defaultTxPower := ⟨_, rfl⟩
  have l₁ := later_configured s [w₁]
  have l₂ := later_configured s [w₁, w₂]
  have h₁ := cfgWrite_configured hb hx (goThrough_le hgo (by omega)) s.cfg.map.trxCtrl1 (trxCtrl1Value s.cfg)
  have h₂ := cfgWrite_configured (s := s.configured [w₁]) hb hx (l₁.goThrough (m := 1) (goThrough_le hgo (by simp)))
    s.cfg.map.trxCtrl2 (trxCtrl2Value s.cfg s.modulation)
  have h₃ := cfgWrite_configured (s := (s.configured [w₁, w₂]).withPower s.cfg.defaultTxPower) hb hx
    (l₂.goThrough (m := 1) hgo) s.cfg.map.phyTxPwr s.cfg.defaultTxPower
  rw [← hw₁] at h₁
  rw [l₁.cfg, ← hw₂, configured_configured] at h₂
  rw [withPower_configured, show State.cfg ((s.configured [w₁, w₂]).withPower s.cfg.defaultTxPower) = s.cfg from rfl,
    ← hw₃, configured_configured] at h₃
  rw [initConfigure, current_bind, bind_ok h₁, bind_ok h₂, update_bind, State.initConfigured, initTxs, ← hw₁, ← hw₂,
    ← hw₃]
  exact bind_ok h₃

/-- Those writes, some chunks further on. -/
theorem Later.initConfigured {s u : State} {k : Nat} (l : Later s u k) (hm : u.modulation = s.modulation) :
    u.initConfigured =
      ((u.afterBus 3 (s.exchanges k (initTxs s))).withRetries 0).withPower s.cfg.defaultTxPower := by
  have htxs : initTxs u = initTxs s := by simp only [initTxs, l.cfg, hm]
  rw [State.initConfigured, htxs, State.configured, l.exchanges, l.cfg]
  rfl

theorem withPower_afterBus (s : State) (p : Byte) (n : Nat) (es : List BusEvent) :
    (s.withPower p).afterBus n es = (s.afterBus n es).withPower p := rfl

/-- s with INIT accepted and done, n chunks after the pulse. -/
def State.initDone (s : State) (n : Nat) (es : List BusEvent) : State :=
  { (accept (take .init s)).afterBus n ([.rst .asserted, .rst .deasserted] ++ es) with
    opState := .idle, txPower := s.cfg.defaultTxPower, rst := .deasserted, pollCount := 1, retryCount := 0 }

theorem commit_initDone (s : State) (n : Nat) (es : List BusEvent) :
    commit .idle
        (((((s.initBegun.afterBus n es).withPolls 1).withRetries 0).withPower s.cfg.defaultTxPower).withPolls 1)
      = .ok () (s.initDone n es) :=
  (congrArg
    (fun u : State => commit .idle ((((u.withPolls 1).withRetries 0).withPower s.cfg.defaultTxPower).withPolls 1))
    (initBegun_afterBus s n es)).trans rfl

/-- Settles O34: the forced-off phase, the configuration writes, the receive-state, one after another. -/
theorem initBringsTheChipToTheReceiveState : Obligations.InitBringsTheChipToTheReceiveState := by
  unfold Obligations.InitBringsTheChipToTheReceiveState
  intro s hv hb hst hgo hoff hrx
  obtain ⟨-, hx, -⟩ := valid_limits hv
  have l := later_initBegun s
  have hset := l.setTrxState_ok (call := .initOff) hv hb (goThrough_le hgo (by simp [callCmd])) hoff
  rw [callCmd, if_pos rfl] at hset
  have l₂ : Later s ((s.initBegun.afterBus 2 (s.exchanges 0 (trxExchanges s.cfg .forceTrxOff))).withPolls 1) 2 :=
    later_withPolls (l.afterBus 2 _) 1
  have hconf := initConfigure_configured (by rwa [l₂.cfg]) (by rw [l₂.cfg]; omega)
    (l₂.goThrough (m := 3) (goThrough_le hgo (by omega)))
  have hset' := (l₂.trans (later_initConfigured _)).setTrxState_ok (call := .initReceive) hv hb
    (by simpa [callCmd, rxStateCmd_ne_forceTrxOff] using hgo) hrx
  rw [callCmd, if_neg (rxStateCmd_ne_forceTrxOff s.cfg)] at hset'
  rw [l₂.initConfigured rfl, withPolls_afterBus, afterBus_afterBus] at hconf hset'
  rw [withPower_afterBus, withRetries_afterBus, withPolls_afterBus, afterBus_afterBus, List.append_assoc] at hset'
  have hexchanges :
      s.exchanges 0 (trxExchanges s.cfg .forceTrxOff ++ initTxs s ++ trxExchanges s.cfg (rxStateCmd s.cfg)) =
        s.exchanges 0 (trxExchanges s.cfg .forceTrxOff) ++ (s.exchanges 2 (initTxs s)
        ++ s.exchanges (2 + 3) (trxExchanges s.cfg (rxStateCmd s.cfg))) := by
    rw [exchanges_append, exchanges_append, List.append_assoc]
    rfl
  rw [← hexchanges] at hset'
  have hrun : (do setTrxState .initOff; initConfigure) s.initBegun = .ok () (s.initDone 9 (s.exchanges 0
      (trxExchanges s.cfg .forceTrxOff ++ initTxs s ++ trxExchanges s.cfg (rxStateCmd s.cfg)))) :=
    (bind_ok (f := fun _ => initConfigure) hset).trans (hconf.trans ((bind_ok hset').trans (commit_initDone s 9 _)))
  exact (exec_init_begun hb hst).trans (congrArg (fun r => Host.Outcome.next (endsWith r none)) hrun)

end Sys2Proof.Machine
end

section
/-! What the bus keeps, chunk by chunk: a family of predicates, one for each place the bus line can stand at, that
selecting the chip, a chunk, releasing it and SRC reset respect holds along every transaction and every frame read
(R52, R53, R260). -/

namespace Sys2Proof.Machine

/-- Where P held before m, it holds after it, and S where m was stopped. -/
abbrev Keeps {α : Type} (P S : State → Prop) (m : Seq α) : Prop := Triple P m (fun _ => P) (fun _ => P) S

/-- p is no more than a chunk takes, and not empty (R53). -/
def Fits (c : Config) (p : List Byte) : Prop := 1 ≤ c.maxXfer → 1 ≤ p.length ∧ p.length ≤ c.maxXfer

/-- The bus line after a chunk. -/
def BusLine.after (ok : Bool) : BusLine := if ok then .sending else .broken

/-- A transaction is open, in which no chunk has failed. -/
def BusLine.isOpen (l : BusLine) : Prop := l = .opened ∨ l = .sending

/-- s with chip-select deasserted. -/
def State.deselected (s : State) : State := { s with cs := .deasserted }.log (.cs .deasserted)

/-- Where the bus line stands at l, A l holds; and S where SRC reset falls. -/
structure BusKept (A : BusLine → State → Prop) (S : State → Prop) : Prop where
  opens    : ∀ s, A .released s → A .opened s.selected
  chunk    : ∀ l s p, l.isOpen → A l s → (s.drawAt 0).cut = none → Fits s.cfg p →
    A (.after (s.drawAt 0).ok) (s.afterChunk p)
  closes   : ∀ ok s, A (.after ok) s → A .released s.deselected
  unopened : ∀ s, A .released s → (s.drawAt 0).cut = some .beforeSelect → S (srcReset s.takeDraw)
  cut      : ∀ l s p c, l.isOpen → A l s → (s.drawAt 0).cut = some c → Fits s.cfg p → S (srcReset (s.cutAbout p c))

/-- Where P held, W holds of a frame that was read once `rxbuf` holds it (R145). -/
def StoresFrames (P : State → Prop) (W : RxFrame → State → Prop) : Prop :=
  ∀ s f, P s → f.len.toNat ≤ s.cfg.maxPhr → (1 ≤ s.cfg.maxXfer → f.body.length = f.len.toNat + 1) →
    W f { s with rxbuf := s.rxbuf.writeRange 0 (RxFrame.image f) }

section
variable {A : BusLine → State → Prop} {S : State → Prop} {c : Config} {E : Err → State → Prop} {p : List Byte}
  {ps : List (List Byte)} {rx : List Byte}

/-- Under c, the line stands at l. -/
def Stands (A : BusLine → State → Prop) (c : Config) (l : BusLine) (s : State) : Prop := s.cfg = c ∧ A l s

/-- Under c, a transaction is open. -/
def StandsOpen (A : BusLine → State → Prop) (c : Config) (s : State) : Prop := ∃ l : BusLine, l.isOpen ∧ Stands A c l s

theorem StandsOpen.of {l : BusLine} {s : State} (hl : l.isOpen) (h : Stands A c l s) : StandsOpen A c s := ⟨l, hl, h⟩

section
variable (h : BusKept A S)
include h

theorem BusKept.csAssert : Triple (Stands A c .released) csAssert (fun _ => Stands A c .opened) E S := by
  rintro s ⟨hc, hs⟩
  simp only [Machine.csAssert]
  split
  · next hcut => exact h.unopened s hs hcut
  · exact ⟨hc, h.opens s hs⟩

theorem BusKept.csDeassert (ok : Bool) :
    Triple (Stands A c (.after ok)) csDeassert (fun _ => Stands A c .released) E S :=
  .update fun s ⟨hc, hs⟩ => ⟨hc, h.closes ok s hs⟩

theorem BusKept.xfer (hp : Fits c p) :
    Triple (StandsOpen A c) (xfer p)
      (fun answer t => Stands A c (.after answer.1) t ∧ answer.2.length = p.length) E S := by
  rintro s ⟨l, hl, rfl, hs⟩
  cases hcut : (s.drawAt 0).cut with
  | some cut =>
    rw [show Machine.xfer p s = .error .stopped (srcReset (s.cutAbout p cut)) by simp [Machine.xfer, hcut]]
    exact h.cut l s p cut hl hs hcut hp
  | none =>
    rw [show Machine.xfer p s = .ok ((s.drawAt 0).ok, s.rxAt 0 p.length) (s.afterChunk p) by
      simp [Machine.xfer, hcut]]
    exact ⟨⟨rfl, h.chunk l s p hl hs hcut hp⟩, by simp [State.rxAt]⟩

/-- A chunk, and the loop of `Seg` from the next on. -/
theorem BusKept.sendChunks_cons {k i : Nat} (hp : Fits c p)
    (hps : ∀ rx, Triple (Stands A c .sending) (sendChunks ps (k + 1) (i + p.length) rx)
      (fun rx' t => Stands A c .sending t ∧ rx'.length = rx.length + ps.flatten.length)
      (fun _ => Stands A c .released) S) :
    Triple (StandsOpen A c) (sendChunks (p :: ps) k i rx)
      (fun rx' t => Stands A c .sending t ∧ rx'.length = rx.length + (p :: ps).flatten.length)
      (fun _ => Stands A c .released) S := by
  refine .bind (h.xfer hp) fun answer s ⟨hs, hlen⟩ => ?_
  cases hok : answer.1 with
  | true =>
    rw [hok] at hs
    refine (hps _ s hs).mono (fun rx' t ht => ⟨ht.1, ht.2.trans ?_⟩) (fun _ _ => id) fun _ => id
    simp [hlen, Nat.add_assoc]
  | false =>
    rw [hok] at hs
    exact Triple.bind (h.csDeassert false) (fun _ => .raise fun _ => id) s hs

theorem BusKept.sendChunks (hps : ∀ p ∈ ps, Fits c p) (k i : Nat) (rx : List Byte) :
    Triple (Stands A c .sending) (sendChunks ps k i rx)
      (fun rx' t => Stands A c .sending t ∧ rx'.length = rx.length + ps.flatten.length)
      (fun _ => Stands A c .released) S := by
  induction ps generalizing k i rx with
  | nil => exact .pure fun _ hs => ⟨hs, rfl⟩
  | cons p ps ih =>
    obtain ⟨hp, hps⟩ := List.forall_mem_cons.1 hps
    exact (h.sendChunks_cons hp fun _ => ih hps _ _ _).pre fun _ => .of (.inr rfl)

/-- A segment inside a transaction, after its first chunk or with it. -/
theorem BusKept.seg {tx : List Byte} (hne : tx ≠ []) :
    Triple (StandsOpen A c) (seg tx)
      (fun rx t => Stands A c .sending t ∧ (1 ≤ c.maxXfer → rx.length = tx.length))
      (fun _ => Stands A c .released) S := by
  have hfits : ∀ p ∈ chunksOf c.maxXfer tx, Fits c p := fun p hp hx => (chunksOf_isChunking hx tx).2.2 p hp
  have hflat : 1 ≤ c.maxXfer → (chunksOf c.maxXfer tx).flatten = tx := fun hx => (chunksOf_isChunking hx tx).1
  intro s hs
  obtain ⟨p, ps, hc⟩ := List.exists_cons_of_ne_nil (chunksOf_ne_nil (m := c.maxXfer) hne)
  rw [hc] at hfits hflat
  obtain ⟨hp, hps⟩ := List.forall_mem_cons.1 hfits
  obtain ⟨-, -, rfl, -⟩ := id hs
  rw [Machine.seg, config_bind, hc]
  refine ((h.sendChunks_cons hp fun _ => h.sendChunks hps _ _ _) s hs).mono (fun rx t ht => ⟨ht.1, fun hx => ?_⟩)
    (fun _ _ => id) fun _ => id
  rw [ht.2, hflat hx, List.length_nil, Nat.zero_add]

theorem BusKept.transaction {tx : List Byte} (hne : tx ≠ []) : Keeps (A .released) S (transaction tx) := by
  intro s hs
  have hrun : Triple (Stands A s.cfg .released) (Machine.transaction tx) (fun _ => Stands A s.cfg .released)
      (fun _ => Stands A s.cfg .released) S :=
    .bind h.csAssert fun _ => .bind ((h.seg hne).pre fun _ => .of (.inl rfl)) fun _ =>
      .bind ((h.csDeassert true).pre fun _ ht => ht.1) fun _ => .pure fun _ => id
  exact (hrun s ⟨rfl, hs⟩).mono (fun _ _ ht => ht.2) (fun _ _ ht => ht.2) fun _ => id

variable {W : RxFrame → State → Prop} (hf : StoresFrames (A .released) W)
include hf

/-- `FrameRead` from its length byte on. -/
theorem BusKept.frameReadRest (l : Byte) :
    Triple (Stands A c .sending) (frameReadRest c l) W (fun _ => A .released) S := by
  unfold Machine.frameReadRest
  split
  · exact .bind (h.csDeassert true) fun _ => .raise fun _ hs => hs.2
  · next hlen =>
    refine .bind (((h.seg (by simp [zeros])).pre fun _ => .of (.inr rfl)).mono (fun _ => id) (fun _ _ => id)
      (fun _ _ ht => ht.2) fun _ => id) fun body => ?_
    refine .bind (Q := fun _ t => Stands A c .released t ∧ (1 ≤ c.maxXfer → body.length = l.toNat + 1))
      (fun t ⟨ht, hbody⟩ => ⟨⟨ht.1, h.closes true t ht.2⟩, by simpa [zeros] using hbody⟩) fun _ => ?_
    refine .bind (.update (Q := fun _ => W { len := l, body := body }) ?_) fun _ => .pure fun _ => id
    rintro t ⟨⟨rfl, ht⟩, hbody⟩
    exact hf t _ ht (Nat.not_lt.1 hlen) hbody

theorem BusKept.frameRead : Triple (A .released) frameRead W (fun _ => A .released) S := by
  intro s hs
  have hrun : Triple (Stands A s.cfg .released) (do
      let hdr ← (do Machine.csAssert; Machine.seg [s.cfg.profile.fbReadCmd, 0x00#8])
      Machine.frameReadRest s.cfg (byteAt hdr 1)) W (fun _ => A .released) S :=
    .bind ((Triple.bind h.csAssert fun _ => (h.seg (by simp)).pre fun _ => .of (.inl rfl)).mono (fun _ => id)
      (fun _ _ => id) (fun _ _ ht => ht.2) fun _ => id) fun _ => (h.frameReadRest hf _).pre fun _ ht => ht.1
  rw [frameRead_eq]
  exact hrun s ⟨rfl, hs⟩

end
end
/-! ### The answers that were taken -/

/-- From s₀ to s answers of the chip were taken, in order. -/
structure Moved (s₀ s : State) : Prop where
  cfg   : s.cfg = s₀.cfg
  draws : s₀.draws ≤ s.draws
  chip  : s.chip = s₀.chip.drop (s.draws - s₀.draws)

section
variable {s₀ s t : State}

theorem Moved.refl (s : State) : Moved s s := ⟨rfl, Nat.le_refl _, by simp⟩

theorem Moved.later (h : Moved s₀ s) : Later s₀ s (s.draws - s₀.draws) :=
  ⟨h.chip, (Nat.add_sub_cancel' h.draws).symm, h.cfg⟩

theorem Moved.trans (h : Moved s₀ s) {n : Nat} (l : Later s t n) : Moved s₀ t := by
  have hchip : t.chip = s₀.chip.drop (s.draws + n - s₀.draws) := by
    rw [l.chip, h.chip, List.drop_drop, Nat.sub_add_comm h.draws]
  exact ⟨l.cfg.trans h.cfg, l.draws ▸ Nat.le_add_right_of_le h.draws, l.draws ▸ hchip⟩

theorem Moved.afterChunk (h : Moved s₀ s) (p : List Byte) : Moved s₀ (s.afterChunk p) :=
  h.trans (n := 1) ⟨rfl, rfl, rfl⟩

/-- SRC reset fell while the answers of the chip were taken. -/
theorem Later.not_uncutUntil {n : Nat} (l : Later s₀ s n) (hcut : (s.drawAt 0).cut ≠ none)
    (ht : t.draws = s.draws + 1) : ¬ s₀.uncutUntil t := fun hu => by
  have hdraws := l.draws
  exact hcut ((congrArg Draw.cut (l.drawAt 0)).trans (hu n (by omega)))

end

end Sys2Proof.Machine
end

section
/-! What a command keeps, whatever the chip answers: a predicate on states that its transactions, its frame reads and
its writes of the state keep holds along the whole command, and along the rest of one that a wait without a bound left
(R276). -/

namespace Sys2Proof.Machine

/-! ### What a command is made of -/

/-- The commands that read a frame (R145). -/
def readsFrame : Instr → Bool
  | .readFrame | .spiFbRead | .taskHandler => true
  | _ => false

/-- P is kept by every transaction, and S holds where one is stopped. -/
structure BusSteps (P S : State → Prop) : Prop where
  transaction : ∀ tx, tx ≠ [] → Keeps P S (transaction tx)

/-- So by the waits of command i. -/
structure WaitSteps (i : Instr) (P S : State → Prop) : Prop extends BusSteps P S where
  waiting : ∀ s call phase, call.command = i → P s → S (s.leftAt (.waiting call phase))
  polls   : usesWaitState i = true → ∀ s n, P s → P { s with pollCount := n }

/-- P is kept by everything that command i does but its last commit and its events, and S holds where i is stopped. -/
structure Steps (i : Instr) (P S : State → Prop) : Prop extends WaitSteps i P S where
  frameRead : readsFrame i = true → Keeps P S frameRead
  retries   : usesCfgWrite i = true → ∀ s n, P s → P { s with retryCount := n }
  txbuf     : ∀ f, frameOf i = some f → ∀ s, P s → P { s with txbuf := s.txbuf.writeRange 0 (frameImage f) }
  cache     : isConfiguration i = true → ∀ s, P s → P (withCache s i)
  power     : i = .init → ∀ s, P s → P { s with txPower := s.cfg.defaultTxPower }
  pulse     : i = .init → ∀ s, P s → P s.pulsedRst
  handled   : i = .taskHandler → ∀ s, P s → P { s with irqFlag := false }

/-- TASK_HANDLER keeps P up to its event, R from it on, and ends with Q. -/
structure Emitting (P R Q S : State → Prop) : Prop where
  before : WaitSteps .taskHandler P S
  after  : WaitSteps .taskHandler R S
  ends   : ∀ s, P s → Q s
  ended  : ∀ s, R s → Q s
  idle   : ∀ s, P s → P { s with opState := .idle }
  emits  : ∀ s e, P s → R { s with evq := s.evq ++ [e] }

/-- What keeps P along command i, and ends with Q: at its last commit, and at DATA_REQUEST's event. -/
structure Closing (i : Instr) (P Q S : State → Prop) : Prop where
  steps    : Steps i P S
  ends     : ∀ s, P s → Q s
  commits  : isStateMachine i = true → ∀ s st, P s → Q { s with opState := st }
  confirms : (∃ d, i = .dataRequest d) → ∀ s, P s → Q { s with evq := s.evq ++ [.dataConfirm .error] }

/-- So a command from its start, TASK_HANDLER keeping R from its event on. -/
structure Kept (i : Instr) (P R Q S : State → Prop) : Prop extends Closing i P Q S where
  emitting : i = .taskHandler → Emitting P R Q S

section
variable {i : Instr} {P R Q S : State → Prop}

/-- One predicate all along. -/
theorem Steps.kept (h : Steps i P S) (hst : ∀ s st, P s → P { s with opState := st })
    (hevq : 0 < eventBound i → ∀ s e, P s → P { s with evq := s.evq ++ [e] }) : Kept i P P P S where
  steps := h
  ends _ := id
  commits _ := hst
  confirms := fun ⟨_, hi⟩ s => hevq (hi ▸ Nat.one_pos) s _
  emitting := by
    rintro rfl
    exact
      { before := h.toWaitSteps
        after := h.toWaitSteps
        ends := fun _ => id
        ended := fun _ => id
        idle := fun s => hst s _
        emits := hevq Nat.one_pos }

theorem usesWaitState_command (call : StateCall) : usesWaitState call.command = true := by
  cases call with
  | row cmd => cases cmd <;> rfl
  | _ => rfl

/-! ### The shared operations -/

section
variable (h : BusSteps P S)
include h

theorem BusSteps.memRead (a : RegAddr) : Keeps P S (memRead a) := fun s =>
  Triple.bind (h.transaction _ (readExchange_ne_nil s.cfg a)) (fun _ => .pure fun _ => id) s

theorem BusSteps.memWrite (a : RegAddr) (v : Half) : Keeps P S (memWrite a v) := fun s =>
  Triple.bind (h.transaction _ (writeExchange_ne_nil s.cfg a v)) (fun _ => .pure fun _ => id) s

theorem BusSteps.memReadByte (a : RegAddr) : Keeps P S (memReadByte a) := .bind (h.memRead a) fun _ => .pure fun _ => id

theorem BusSteps.writeTrxState (code : TrxCode) : Keeps P S (writeTrxState code) := fun s =>
  h.memWrite s.cfg.map.trxState _ s

end

section
variable (h : WaitSteps i P S)
include h

theorem WaitSteps.pollLoop {call : StateCall} (hcall : call.command = i) (phase : Phase) (awaited : TrxCode) (n : Nat) :
    Keeps P S (pollLoop (.waiting call phase) awaited n) := by
  have hcount : Keeps P S (update fun s => { s with pollCount := s.pollCount + 1 }) :=
    .update fun s hs => h.polls (hcall ▸ usesWaitState_command call) s _ hs
  induction n with
  | zero => exact fun s => h.waiting s call phase hcall
  | succ n ih =>
    refine fun s => Triple.bind (h.memReadByte s.cfg.map.trxStatus) (fun v => ?_) s
    refine .bind hcount fun _ => .current_bind fun u _ => ?_
    split
    · exact .pure fun _ => id
    · split
      · exact .raise fun _ => id
      · exact ih

theorem WaitSteps.statePhase {call : StateCall} (hcall : call.command = i) (phase : Phase) (cmd : TrxCmd) :
    Keeps P S (statePhase call phase cmd) := by
  have hzero : Keeps P S (update fun s => { s with pollCount := 0 }) :=
    .update fun s hs => h.polls (hcall ▸ usesWaitState_command call) s _ hs
  exact fun s => Triple.bind (h.writeTrxState (cmdCode s.cfg cmd)) (fun _ =>
    .bind hzero fun _ => .current_bind fun u _ => h.pollLoop hcall phase _ _) s

theorem WaitSteps.targetPhase {call : StateCall} (hcall : call.command = i) : Keeps P S (targetPhase call) := by
  intro s
  simp only [Machine.targetPhase, config_bind]
  split
  · exact Triple.pure (Q := fun _ => P) (fun _ => id) s
  · exact h.statePhase hcall .target _ s

theorem WaitSteps.setTrxState {call : StateCall} (hcall : call.command = i) : Keeps P S (setTrxState call) :=
  .bind (h.statePhase hcall .forcedOff _) fun _ => h.targetPhase hcall

theorem WaitSteps.resumeCall {call : StateCall} (hcall : call.command = i) (phase : Phase) :
    Keeps P S (resumeCall call phase) :=
  .current_bind fun s _ => .bind (h.pollLoop hcall phase _ _) fun _ => by
    cases phase with
    | forcedOff => exact h.targetPhase hcall
    | target => exact .pure fun _ => id

end

section
variable (h : Steps i P S)
include h

theorem Steps.cfgWriteLoop (hi : usesCfgWrite i = true) (a : RegAddr) (v : Byte) (n : Nat) :
    Keeps P S (cfgWriteLoop a v n) := by
  have hwrite : Keeps P S (memWriteByte a v) := h.memWrite a _
  have hcount : Keeps P S (update fun s => { s with retryCount := s.retryCount + 1 }) :=
    .update fun s hs => h.retries hi s _ hs
  induction n with
  | zero => exact hwrite.attempt_bind (fun _ => .pure fun _ => id) fun e => .bind hcount fun _ => .raise fun _ => id
  | succ n ih => exact hwrite.attempt_bind (fun _ => .pure fun _ => id) fun e => .bind hcount fun _ => ih

theorem Steps.cfgWrite (hi : usesCfgWrite i = true) (a : RegAddr) (v : Byte) : Keeps P S (cfgWrite a v) :=
  .bind (.update fun s hs => h.retries hi s 0 hs) fun _ s => h.cfgWriteLoop hi a v s.cfg.cfgRetryMax s

theorem Steps.writeChannelRegs (hi : usesCfgWrite i = true) : Keeps P S writeChannelRegs :=
  .current_bind fun s _ => by
    split
    · exact h.cfgWrite hi _ _
    · exact h.cfgWrite hi _ _

theorem Steps.writeSeed (hi : usesCfgWrite i = true) : Keeps P S writeSeed := .current_bind fun _ _ => h.cfgWrite hi _ _

theorem Steps.frameBufferWrite {f : List Byte} (hf : frameOf i = some f) : Keeps P S (frameBufferWrite f) :=
  .bind (.update (h.txbuf f hf)) fun _ s =>
    Triple.bind (h.transaction (s.cfg.profile.fbWriteCmd :: frameImage f) (by simp)) (fun _ => .pure fun _ => id) s

theorem Steps.transmitStart : Keeps P S transmitStart := fun s => h.writeTrxState s.cfg.map.cmdTxStart s

theorem Steps.frameWriteSeq {f : List Byte} (hf : frameOf i = some f) : Keeps P S (frameWriteSeq f) :=
  .bind (h.frameBufferWrite hf) fun _ => h.transmitStart

/-- The two bytes of an address, then the seed (R209, R212). -/
theorem Steps.addressWrites (hi : usesCfgWrite i = true) (a b : RegAddr) (v w : Byte) : Keeps P S (do
    Machine.cfgWrite a v
    Machine.cfgWrite b w
    Machine.writeSeed
    pure ([] : List Byte)) :=
  .bind (h.cfgWrite hi a v) fun _ => .bind (h.cfgWrite hi b w) fun _ =>
    .bind (h.writeSeed hi) fun _ => .pure fun _ => id

theorem Steps.registerRead (a : RegAddr) : Keeps P S (do
    let v ← Machine.memRead a
    let c ← config
    pure (hostValueBytes c v)) :=
  .bind (h.memRead a) fun _ _ => id

theorem Steps.cacheWrite (hi : isConfiguration i = true) : Keeps P S (update fun s => withCache s i) :=
  .update (h.cache hi)

end

/-! ### The pieces of single commands -/

/-- m, which keeps P where it raises, ends its command with Q. -/
abbrev Closes {α : Type} (P Q S : State → Prop) (m : Seq α) : Prop := Triple P m (fun _ => Q) (fun _ => P) S

/-- What a raise leaves, the command ends with. -/
theorem Keeps.ends {α : Type} {m : Seq α} (hm : Keeps P S m) (hPQ : ∀ s, P s → Q s) :
    Triple P m (fun _ => P) (fun _ => Q) S := hm.mono (fun _ => id) (fun _ _ => id) (fun _ => hPQ) fun _ => id

section
variable (h : Closing i P Q S)
include h

theorem Closing.pure {α : Type} (a : α) : Triple P (Pure.pure a : Seq α) (fun _ => Q) (fun _ => Q) S := .pure h.ends

theorem Closing.commit (hi : isStateMachine i = true) (st : OpState) : Closes P Q S (commit st) :=
  .update fun s => h.commits hi s st

/-- A piece that commits at its end, or commits nothing, and the return bytes. -/
theorem Closing.closing {m : Seq Unit} (hm : Closes P Q S m) :
    Triple P (do m; Pure.pure ([] : List Byte)) (fun _ => Q) (fun _ => Q) S :=
  (hm.mono (fun _ => id) (fun _ _ => id) (fun _ => h.ends) fun _ => id).bind fun _ => .pure fun _ => id

/-- A piece that only keeps P, and the return bytes. -/
theorem Closing.returning {α : Type} {m : Seq α} (hm : Keeps P S m) (ret : α → List Byte) :
    Triple P (do let a ← m; Pure.pure (ret a)) (fun _ => Q) (fun _ => Q) S :=
  .bind (hm.ends h.ends) fun _ => h.pure _

theorem Closing.initConfigure (hi : i = .init) : Closes P Q S initConfigure := by
  have hpower : Keeps P S (update fun s => { s with txPower := s.cfg.defaultTxPower }) := .update (h.steps.power hi)
  subst hi
  exact .current_bind fun s _ => .bind (h.steps.cfgWrite rfl _ _) fun _ => .bind (h.steps.cfgWrite rfl _ _) fun _ =>
    .bind hpower fun _ => .bind (h.steps.cfgWrite rfl _ _) fun _ => .bind (h.steps.setTrxState rfl) fun _ =>
    h.commit rfl _

theorem Closing.requestSend {d : List Byte} (hi : i = .dataRequest d) : Closes P Q S (requestSend d) := by
  subst hi
  exact .bind (h.steps.frameWriteSeq rfl) fun _ => h.commit rfl _

theorem Closing.requestArmed {d : List Byte} (hi : i = .dataRequest d) : Closes P Q S (requestArmed d) := fun s => by
  have hpll : Keeps P S (setTrxState (.requestPll d)) := h.steps.setTrxState hi.symm
  refine Triple.bind (h.steps.memReadByte s.cfg.map.irqStatus) (fun _ => ?_) s
  split
  · exact .bind hpll fun _ => h.requestSend hi
  · exact h.requestSend hi

theorem Closing.confirmOnError {d : List Byte} (hi : i = .dataRequest d) {m : Seq Unit} (hm : Closes P Q S m) :
    Triple P (do confirmOnError m; Pure.pure ([] : List Byte)) (fun _ => Q) (fun _ => Q) S :=
  .bind (hm.confirmOnError (E' := fun _ => Q) fun _ => h.confirms ⟨d, hi⟩) fun _ => .pure fun _ => id

end

/-! ### The rest of a command (R276) -/

theorem Closing.afterCall {call : StateCall} (h : Closing call.command P Q S) : Closes P Q S (afterCall call) := by
  cases call with
  | initOff => exact h.initConfigure rfl
  | initReceive | sleepOff | wakeupReceive => exact h.commit rfl _
  | requestTransmit d => exact h.requestArmed rfl
  | requestPll d => exact h.requestSend rfl
  | writeFramePll f =>
    exact (h.steps.frameWriteSeq rfl).mono (fun _ => id) (fun _ => h.ends) (fun _ _ => id) fun _ => id
  | receivedInvalid l => exact .raise fun _ => id
  | received | transmitted | row => exact .pure h.ends

theorem Closing.restOfCommand {call : StateCall} (h : Closing call.command P Q S) (phase : Phase) :
    Closes P Q S (restOfCommand call phase) :=
  .bind (h.steps.resumeCall rfl phase) fun _ => h.afterCall

theorem Closing.resume {call : StateCall} (h : Closing call.command P Q S) (phase : Phase) :
    Triple P (resume call phase) (fun _ => Q) (fun _ => Q) S := by
  by_cases hd : ∃ d, call.command = .dataRequest d
  · obtain ⟨d, hd⟩ := hd
    rw [resume_of_dataRequest phase hd]
    exact h.confirmOnError hd (h.restOfCommand phase)
  · rw [resume_of_ne_dataRequest phase fun d hd' => hd ⟨d, hd'⟩]
    exact h.closing (h.restOfCommand phase)

/-! ### TASK_HANDLER's paths -/

section
variable (h : Emitting P R Q S)
include h

/-- Its event, and the re-apply of the receive-state after it (R177, R178). -/
theorem Emitting.emitThenApply (e : Event) {call : StateCall} (hcall : call.command = .taskHandler) :
    Triple P (do emit e; setTrxState call) (fun _ => Q) (fun _ => Q) S :=
  .bind (.update (Q := fun _ => R) fun s => h.emits s e) fun _ =>
    (h.after.setTrxState hcall).mono (fun _ => id) (fun _ => h.ended) (fun _ => h.ended) fun _ => id

theorem Emitting.receivePath {P₀ : State → Prop} (hread : Triple P₀ frameRead (fun _ => P) (fun _ => P) S) :
    Triple P₀ receivePath (fun _ => Q) (fun _ => Q) S := by
  refine hread.attempt_bind (fun f s => ?_) fun e => ?_
  · exact Triple.bind ((h.before.memReadByte s.cfg.map.phyEdLevel).ends h.ends) (fun ed =>
      .current_bind fun u _ => h.emitThenApply _ rfl) s
  · cases e with
    | frameInvalid l =>
      exact .bind ((h.before.setTrxState (call := .receivedInvalid l) rfl).ends h.ends) fun _ => .raise h.ends
    | _ => exact .raise h.ends

theorem Emitting.transmitDonePath : Triple P transmitDonePath (fun _ => Q) (fun _ => Q) S := fun s => by
  have hidle : Keeps P S (Machine.commit .idle) := .update h.idle
  exact Triple.bind ((h.before.memReadByte s.cfg.map.trxState).ends h.ends) (fun st =>
    .bind (hidle.ends h.ends) fun _ => h.emitThenApply _ rfl) s

end

theorem Kept.completionPath (h : Kept .taskHandler P R Q S) (st : OpState) :
    Triple P (completionPath st) (fun _ => Q) (fun _ => Q) S := by
  cases st with
  | idle => exact (h.emitting rfl).receivePath (h.steps.frameRead rfl)
  | transmittingWaitEnd => exact (h.emitting rfl).transmitDonePath
  | initial | sleep => exact h.pure ()

/-! ### Every instruction -/

/-- exec of i is a command that makes the checks of `precheck` and whose pseudocode, for a legal argument, takes P to
Q. -/
def CommandKeeps (i : Instr) (P Q S : State → Prop) : Prop :=
  ∃ checks body, (∀ s, exec i s = command i checks body s) ∧ ChecksOf i checks
    ∧ (badArgument i = none → Triple P body (fun _ => Q) (fun _ => Q) S)

theorem CommandKeeps.of_body {checks : Seq Unit} {body : Seq (List Byte)}
    (hexec : ∀ s, exec i s = command i checks body s) (hchecks : ChecksOf i checks)
    (hbody : Triple P body (fun _ => Q) (fun _ => Q) S) : CommandKeeps i P Q S :=
  ⟨checks, body, hexec, hchecks, fun _ => hbody⟩

section
variable (h : Kept i P R Q S)
include h

/-- A `TRX_CMD` row: the profile check and one piece (log 12). -/
theorem Kept.row {m : Seq Unit} (hb : needsBytewise i = true) (ha : badArgument i = none)
    (hl : ∀ st, legality i st = .run) (hf : frameOf i = none)
    (hexec : ∀ s, exec i s = command i requireBytewise (do m; Pure.pure []) s) (hm : Keeps P S m) :
    CommandKeeps i P Q S :=
  .of_body hexec (checksOf_bytewise hb ha hl hf) (h.returning hm fun _ => [])

/-- A configuration command without reserved bits: its cache write and what follows it (R202). -/
theorem Kept.cached {m : Seq (List Byte)} (hi : isConfiguration i = true) (hb : needsBytewise i = true)
    (ha : badArgument i = none) (hf : frameOf i = none)
    (hexec : ∀ s, exec i s = command i (do requireBytewise; requireState i) (do update fun s => withCache s i; m) s)
    (hm : Keeps P S m) : CommandKeeps i P Q S := by
  refine .of_body hexec (checksOf_bytewise_state hb ha hf) ?_
  exact .bind ((h.steps.cacheWrite hi).ends h.ends) fun _ =>
    hm.mono (fun _ => id) (fun _ => h.ends) (fun _ => h.ends) fun _ => id

end

theorem Kept.sleep (h : Kept .sleep P R Q S) : CommandKeeps .sleep P Q S := by
  refine .of_body (fun _ => rfl) (checksOf_bytewise_state rfl rfl rfl) (.current_bind fun s _ => ?_)
  split
  · exact h.pure _
  · exact .bind ((h.steps.setTrxState rfl).ends h.ends) fun _ => h.closing (h.commit rfl _)

theorem Kept.taskHandler (h : Kept .taskHandler P R Q S) : CommandKeeps .taskHandler P Q S := by
  have hflag : Keeps P S (update fun s => { s with irqFlag := false }) := .update (h.steps.handled rfl)
  refine .of_body (fun _ => rfl) (checksOf_bytewise_state rfl rfl rfl)
    (.bind (hflag.ends h.ends) fun _ => .current_bind fun s _ => ?_)
  split
  · exact h.pure _
  · refine .bind ((h.steps.memReadByte _).ends h.ends) fun irq => ?_
    split
    · exact .bind (h.completionPath _) fun _ => .pure fun _ => id
    · exact h.pure _

theorem Kept.command (h : Kept i P R Q S) : CommandKeeps i P Q S := by
  have hs := h.steps
  cases i with
  | init =>
    refine .of_body (fun _ => rfl) (checksOf_bytewise_state rfl rfl rfl) fun s hP => ?_
    rw [driveRst_driveRst_run]
    exact Triple.bind ((hs.setTrxState rfl).ends h.ends) (fun _ => h.closing (h.initConfigure rfl)) _
      (hs.pulse rfl s hP)
  | sleep => exact h.sleep
  | wakeup =>
    exact .of_body (fun _ => rfl) (checksOf_bytewise_state rfl rfl rfl) <|
      .bind ((hs.setTrxState rfl).ends h.ends) fun _ => h.closing (h.commit rfl _)
  | dataRequest d =>
    exact .of_body (fun _ => rfl) (checksOf_dataRequest d) <| h.confirmOnError rfl <|
      .bind (hs.setTrxState rfl) fun _ => h.requestArmed rfl
  | taskHandler => exact h.taskHandler
  | setChannel ch =>
    exact h.cached rfl rfl rfl rfl (fun _ => rfl) <| .bind (hs.writeChannelRegs rfl) fun _ => .pure fun _ => id
  | setBand b =>
    refine .of_body (fun _ => rfl) (checksOf_setBand b) <| .bind ((hs.cacheWrite rfl).ends h.ends) fun _ s => ?_
    exact Triple.bind ((hs.cfgWrite rfl s.cfg.map.ccCtrl1 _).ends h.ends)
      (fun _ => h.returning (hs.writeChannelRegs rfl) fun _ => []) s
  | setModulation m =>
    exact h.cached rfl rfl rfl rfl (fun _ => rfl) fun s =>
      Triple.bind (hs.cfgWrite rfl s.cfg.map.trxCtrl2 _) (fun _ => .pure fun _ => id) s
  | setPanId p => exact h.cached rfl rfl rfl rfl (fun _ => rfl) fun s => hs.addressWrites rfl _ _ _ _ s
  | setShortAddress a => exact h.cached rfl rfl rfl rfl (fun _ => rfl) fun s => hs.addressWrites rfl _ _ _ _ s
  | setTxPower p =>
    exact h.cached rfl rfl rfl rfl (fun _ => rfl) fun s =>
      Triple.bind (hs.cfgWrite rfl s.cfg.map.phyTxPwr _) (fun _ => .pure fun _ => id) s
  | rssiBaseValue =>
    exact .of_body (fun _ => rfl) (checksOf_pure fun _ _ => rfl) <| .current_bind fun _ _ => h.pure _
  | readRegister a =>
    exact .of_body (fun _ => rfl) (checksOf_arg rfl (by simp [badArgument, addrLegal_eq]) (fun _ => rfl) rfl) <|
      (hs.registerRead _).mono (fun _ => id) (fun _ => h.ends) (fun _ => h.ends) fun _ => id
  | writeRegister a v =>
    exact .of_body (fun _ => rfl) (checksOf_arg rfl (by simp [badArgument, addrLegal_eq]) (fun _ => rfl) rfl)
      (h.returning (hs.memWrite _ v) fun _ => [])
  | writeBytes data =>
    refine ⟨_, _, fun _ => rfl, checksOf_arg rfl (by simp [badArgument]) (fun _ => rfl) rfl, fun hlegal => ?_⟩
    exact h.returning (hs.transaction data (by simpa [badArgument] using hlegal)) fun _ => []
  | readBytes n =>
    refine ⟨_, _, fun _ => rfl, checksOf_arg rfl (by simp [badArgument]) (fun _ => rfl) rfl, fun hlegal => ?_⟩
    have hne : n ≠ 0#8 := by simpa [badArgument] using hlegal
    exact (hs.transaction _ (by simpa [zeros, ← BitVec.toNat_inj] using hne)).mono (fun _ => id) (fun _ => h.ends)
      (fun _ => h.ends) fun _ => id
  | writeFrame f =>
    exact .of_body (fun _ => rfl) (checksOf_writeFrame f) <|
      .bind ((hs.setTrxState rfl).ends h.ends) fun _ => h.returning (hs.frameWriteSeq rfl) fun _ => []
  | readFrame | spiFbRead =>
    exact .of_body (fun _ => rfl) (checksOf_pure fun _ _ => rfl) (h.returning (hs.frameRead rfl) RxFrame.image)
  | spiRegRead a =>
    exact .of_body (fun _ => rfl) (checksOf_pure fun _ _ => rfl) <|
      (hs.registerRead a).mono (fun _ => id) (fun _ => h.ends) (fun _ => h.ends) fun _ => id
  | spiRegWrite a v =>
    exact .of_body (fun _ => rfl) (checksOf_pure fun _ _ => rfl) (h.returning (hs.memWrite a v) fun _ => [])
  | spiFbWrite f =>
    exact .of_body (fun _ => rfl) (checksOf_spiFbWrite f) (h.returning (hs.frameBufferWrite rfl) fun _ => [])
  | txStart => exact h.row rfl rfl (fun _ => rfl) rfl (fun _ => rfl) hs.transmitStart
  | forceTrxOff | rxOn | pllOn | rxAackOn | txAretOn =>
    exact h.row rfl rfl (fun _ => rfl) rfl (fun _ => rfl) (hs.setTrxState rfl)

/-- What holds of an accepted command's pseudocode decides what holds of the command. -/
theorem CommandKeeps.exec {G : State → Prop} {s t : State} (h : CommandKeeps i P Q S)
    (hp : precheck s.cfg i s.opState = none) (ht : exec i s = .next t) (hs : P (accept (take i s)))
    (hok : ∀ ret u, Q u → G (complete okCode ret none u))
    (herr : ∀ e u, Q u → G (complete e.code [] (some e) u)) (hstop : ∀ u, S u → G u) : G t := by
  obtain ⟨checks, body, hexec, hchecks, hbody⟩ := h
  obtain rfl := Host.Outcome.next.inj ((exec_accepted (hexec s) hchecks hp).symm.trans ht)
  exact ((hbody (badArgument_none hp)) _ hs).finished hok herr hstop

end
end Sys2Proof.Machine
end

section
/-! What an instruction leaves unchanged, whatever the chip answers: the cache, the pins, the counts, the bytes of the
two buffers. -/

namespace Sys2Proof.Machine

/-- From s₀ to s only what instruction i may change was changed: its cache field, the bus and the answers taken from it,
the counts and the buffers of the operations it uses. -/
structure Untouched (i : Instr) (s₀ s : State) : Prop extends Moved s₀ s where
  channel    : (∀ ch, i ≠ .setChannel ch) → s.channel = s₀.channel
  band       : (∀ b, i ≠ .setBand b) → s.band = s₀.band
  modulation : (∀ m, i ≠ .setModulation m) → s.modulation = s₀.modulation
  panId      : (∀ p, i ≠ .setPanId p) → s.panId = s₀.panId
  shortAddr  : (∀ a, i ≠ .setShortAddress a) → s.shortAddr = s₀.shortAddr
  txPower    : (∀ p, i ≠ .setTxPower p) → i ≠ .init → s.txPower = s₀.txPower
  port       : s.port = s₀.port
  slpTr      : s.slpTr = s₀.slpTr
  rst        : i ≠ .init → s.rst = s₀.rst
  rstIdle    : s.rst = s₀.rst ∨ s.rst = .deasserted
  polls      : usesWaitState i = false → s.pollCount = s₀.pollCount
  retries    : usesCfgWrite i = false → s.retryCount = s₀.retryCount
  trace      : ∃ es, s.trace = s₀.trace ++ es ∧ ∀ l, .rst l ∈ es → i = .init
  txbuf      : (∀ k, s.txbuf.read k = s₀.txbuf.read k) ∨ ∃ f, frameOf i = some f ∧
    ∀ k, s.txbuf.read k = (s₀.txbuf.writeRange 0 (frameImage f)).read k
  rxbuf      : readsFrame i = false → s.rxbuf = s₀.rxbuf

theorem Untouched.refl (i : Instr) (s : State) : Untouched i s s where
  channel _ := rfl
  band _ := rfl
  modulation _ := rfl
  panId _ := rfl
  shortAddr _ := rfl
  txPower _ _ := rfl
  port := rfl
  slpTr := rfl
  rst _ := rfl
  rstIdle := .inl rfl
  polls _ := rfl
  retries _ := rfl
  toMoved := .refl s
  trace := ⟨[], by simp, by simp⟩
  txbuf := .inl fun _ => rfl
  rxbuf _ := rfl

section
variable {i : Instr} {s₀ s t : State}

theorem Untouched.logged (h : Untouched i s₀ s) {e : BusEvent} (he : ∀ l, e ≠ .rst l)
    {t : State} (ht : t = { s with cs := t.cs, trace := s.trace ++ [e] }) : Untouched i s₀ t := by
  obtain ⟨es, htrace, hes⟩ := h.trace
  rw [ht]
  refine { h with
    trace := ⟨es ++ [e], by rw [htrace, List.append_assoc], fun l hl => ?_⟩ }
  rcases List.mem_append.1 hl with hl | hl
  · exact hes l hl
  · exact absurd (List.mem_singleton.1 hl).symm (he l)

theorem Untouched.afterChunk (h : Untouched i s₀ s) (p : List Byte) : Untouched i s₀ (s.afterChunk p) := by
  obtain ⟨es, htrace, hes⟩ := h.trace
  refine { h with
    toMoved := h.toMoved.afterChunk p
    trace := ⟨es ++ [_], by rw [← List.append_assoc, ← htrace]; rfl, fun l hl => ?_⟩ }
  rcases List.mem_append.1 hl with hl | hl
  · exact hes l hl
  · cases List.mem_singleton.1 hl

/-- What an uncut run of i keeps, or SRC reset fell. -/
abbrev UntouchedOrCut (i : Instr) (s₀ t : State) : Prop := Untouched i s₀ t ∨ ¬ s₀.uncutUntil t

theorem busKept_untouched (i : Instr) (s₀ : State) :
    BusKept (fun _ => Untouched i s₀) (UntouchedOrCut i s₀) where
  opens s h := h.logged (e := .cs .asserted) nofun rfl
  chunk l s p _ h _ _ := h.afterChunk p
  closes _ s h := h.logged (e := .cs .deasserted) nofun rfl
  unopened _ h hcut := .inr (h.later.not_uncutUntil (by simp [hcut]) rfl)
  cut _ s p c _ h hcut _ := .inr (h.later.not_uncutUntil (by simp [hcut]) (cutAbout_facts s p c).1.draws)

theorem Untouched.withCache (h : Untouched i s₀ s) : Untouched i s₀ (withCache s i) := by
  cases i with
  | setChannel ch => exact { h with channel := fun hne => absurd rfl (hne ch) }
  | setBand b => exact { h with band := fun hne => absurd rfl (hne b) }
  | setModulation m => exact { h with modulation := fun hne => absurd rfl (hne m) }
  | setPanId p => exact { h with panId := fun hne => absurd rfl (hne p) }
  | setShortAddress a => exact { h with shortAddr := fun hne => absurd rfl (hne a) }
  | setTxPower p => exact { h with txPower := fun hne => absurd rfl (hne p) }
  | _ => exact h

theorem Untouched.sent (h : Untouched i s₀ s) {f : List Byte} (hf : frameOf i = some f) :
    Untouched i s₀ { s with txbuf := s.txbuf.writeRange 0 (frameImage f) } := by
  refine { h with txbuf := .inr ⟨f, hf, fun k => ?_⟩ }
  obtain hsame | ⟨f', hf', himage⟩ := h.txbuf
  · simp only [Memory.read_writeRange, hsame]
  · obtain rfl : f = f' := Option.some.inj (hf.symm.trans hf')
    simp only [Memory.read_writeRange, himage]
    split <;> rfl

theorem Untouched.pulsedRst (h : Untouched .init s₀ s) : Untouched .init s₀ s.pulsedRst := by
  obtain ⟨es, htrace, -⟩ := h.trace
  exact { h with
    rst := fun hne => absurd rfl hne
    rstIdle := .inr rfl
    trace := ⟨es ++ _, by rw [← List.append_assoc, ← htrace]; rfl, fun _ _ => rfl⟩ }

theorem steps_untouched (i : Instr) (s₀ : State) : Steps i (Untouched i s₀) (UntouchedOrCut i s₀) where
  transaction _ hne := (busKept_untouched i s₀).transaction hne
  frameRead hi := (busKept_untouched i s₀).frameRead fun s f h _ _ =>
    { h with rxbuf := fun hr => by simp [hi] at hr }
  waiting s _ _ _ h := .inl { h with cfg := h.cfg }
  polls hi s _ h := { h with polls := fun hn => by simp [hi] at hn }
  retries hi s _ h := { h with retries := fun hn => by simp [hi] at hn }
  txbuf f hf s h := h.sent hf
  cache _ s h := h.withCache
  power hi s h := { h with txPower := fun _ hn => absurd hi hn }
  pulse hi s h := by
    subst hi
    exact h.pulsedRst
  handled _ s h := { h with cfg := h.cfg }

theorem kept_untouched (i : Instr) (s₀ : State) :
    Kept i (Untouched i s₀) (Untouched i s₀) (Untouched i s₀) (UntouchedOrCut i s₀) :=
  (steps_untouched i s₀).kept (fun _ _ h => { h with cfg := h.cfg }) fun _ _ _ h => { h with cfg := h.cfg }

/-- In every run that SRC reset does not cut. -/
theorem exec_untouched (ht : exec i s = .next t) (hu : s.uncutUntil t) : Untouched i s t := by
  cases hp : precheck s.cfg i s.opState with
  | none =>
    have hstart : Untouched i s (accept (take i s)) := { Untouched.refl i s with cfg := rfl }
    have h : UntouchedOrCut i s t := (kept_untouched i s).command.exec hp ht hstart
      (fun _ u h => .inl { h with cfg := h.cfg }) (fun _ u h => .inl { h with cfg := h.cfg }) fun _ => id
    exact h.resolve_right (not_not_intro hu)
  | some e =>
    obtain rfl := Host.Outcome.next.inj ((exec_refused hp).symm.trans ht)
    exact { Untouched.refl i s with cfg := rfl }

end

/-- Settles O58: its clauses are those of `Untouched`. -/
theorem cacheAndPinsFrame : Obligations.CacheAndPinsFrame := by
  unfold Obligations.CacheAndPinsFrame
  intro i s t ht hu
  have h := exec_untouched ht hu
  exact ⟨h.channel, h.band, h.modulation, h.panId, h.shortAddr, h.txPower, h.cfg, h.port, h.slpTr, h.rst, h.rstIdle,
    h.polls, h.retries, h.draws, h.chip, h.trace⟩

/-- Settles O30: `txbuf` reads as before, or as with the image written at 0. -/
theorem transmitBufferFrame : Obligations.TransmitBufferFrame := by
  unfold Obligations.TransmitBufferFrame
  intro i s t ht hu
  obtain hsame | ⟨f, hf, himage⟩ := (exec_untouched ht hu).txbuf
  · exact ⟨fun _ => hsame, fun f _ => ⟨fun k _ => hsame k, .inl hsame⟩⟩
  · refine ⟨fun hnone => by simp [hf] at hnone, fun f' hf' => ?_⟩
    obtain rfl : f = f' := Option.some.inj (hf.symm.trans hf')
    simp only [Memory.read_writeRange, frameImage_length, Nat.zero_add, Nat.zero_le, true_and, Nat.sub_zero] at himage
    exact ⟨fun k hk => by rw [himage, if_neg (Nat.not_lt.2 hk)], .inr fun k hk => by rw [himage, if_pos hk]⟩

end Sys2Proof.Machine
end

section
/-! Which bytes of `rxbuf` an instruction can change (R145): what a frame read that ends has received, and the commands
around it. -/

namespace Sys2Proof.Machine

/-! ### A frame read that ends -/

section
variable {s t : State}

/-- The loop of `Seg` ends only where its chunks all went through. -/
theorem goThrough_of_sendChunks_ok {ps : List (List Byte)} {k i : Nat} {rx rx' : List Byte}
    (h : sendChunks ps k i rx s = .ok rx' t) : s.goThrough ps.length := by
  obtain hgo | ⟨j, hj, hgo, hstop⟩ := first_stop s ps.length
  · exact hgo
  · obtain ⟨sent, p, unsent, rfl, rfl⟩ := split_at_index hj
    obtain hfail | ⟨c, hcut⟩ := hstop
    · rw [sendChunks_failed sent p unsent k i rx hgo hfail] at h
      cases h
    · obtain ⟨u, hu, -⟩ := sendChunks_cut sent p unsent k i rx hgo hcut
      rw [hu] at h
      cases h

theorem goThrough_of_seg_ok {tx rx : List Byte} (h : seg tx s = .ok rx t) :
    s.goThrough (chunksOf s.cfg.maxXfer tx).length := goThrough_of_sendChunks_ok h

/-- A piece after another ends only where that one ended. -/
theorem ok_of_bind_ok {α β : Type} {m : Seq α} {f : α → Seq β} {b : β} (h : (m >>= f) s = .ok b t) :
    ∃ a u, m s = .ok a u ∧ f a u = .ok b t := by
  cases hm : m s with
  | ok a u => exact ⟨a, u, rfl, (bind_ok hm).symm.trans h⟩
  | error e u => cases (bind_error hm).symm.trans h

theorem later_selected (s : State) : Later s s.selected 0 := ⟨rfl, rfl, rfl⟩

theorem Later.goThrough_add {u : State} {n m : Nat} (l : Later s u n) (hs : s.goThrough n) (hu : u.goThrough m) :
    s.goThrough (n + m) := fun k hk => by
  by_cases hn : k < n
  · exact hs k hn
  · have hlast := hu (k - n) (by omega)
    rwa [l.drawAt, Nat.add_sub_cancel' (by omega)] at hlast

variable (hx : 2 ≤ s.cfg.maxXfer)
include hx

/-- A frame read ends only where its header went through. -/
theorem goThrough_of_frameRead_ok {f : RxFrame} (h : frameRead s = .ok f t) : s.goThrough 1 := by
  by_cases hsel : (s.drawAt 0).cut = some .beforeSelect
  · rw [frameRead, csAssert_bind_cut hsel] at h
    cases h
  · rw [frameRead, csAssert_bind hsel, config_bind] at h
    obtain ⟨hdr, u, hseg, -⟩ := ok_of_bind_ok h
    have hgo := goThrough_of_seg_ok hseg
    rw [(later_selected s).cfg, chunksOf_header hx] at hgo
    exact fun k hk => by simpa [(later_selected s).drawAt] using hgo k hk

/-- A frame read that ends has received an accepted length byte and as many bytes as that says (R145). -/
theorem frameRead_eq_ok {f : RxFrame} (h : frameRead s = .ok f t) :
    f = { len := s.secondByte 0
          body := s.received 1 (chunksOf s.cfg.maxXfer (zeros ((s.secondByte 0).toNat + 1))) }
    ∧ t.rxbuf = s.rxbuf.writeRange 0 f.image := by
  obtain ⟨u, hinside, hrest⟩ := frameRead_header hx (goThrough_of_frameRead_ok hx h)
  have hok := h
  rw [hrest, frameReadRest] at h
  split at h
  · cases h
  · next hlen =>
    obtain ⟨body, v, hseg, -⟩ := ok_of_bind_ok h
    have hbody := goThrough_of_seg_ok hseg
    rw [hinside.later.cfg] at hbody
    have hread := frameRead_ok hx (Nat.not_lt.1 hlen) (hinside.later.goThrough_add hinside.through hbody)
    obtain ⟨rfl, rfl⟩ := EStateM.Result.ok.inj (hread.symm.trans hok)
    exact ⟨rfl, rfl⟩

end

/-! ### What `rxbuf` can hold then -/

/-- u is s₀ some chunks further on, and `rxbuf` is one that M allows. -/
def RxIn (s₀ : State) (M : Memory → Prop) (u : State) : Prop := (∃ n, Later s₀ u n) ∧ M u.rxbuf

/-- `rxbuf` is one that M allows, or SRC reset fell. -/
def RxInOrCut (s₀ : State) (M : Memory → Prop) (t : State) : Prop := M t.rxbuf ∨ ¬ s₀.uncutUntil t

/-- `rxbuf` as before, or with the frame at its start that the frame read from the h-th chunk on received. -/
def RxTaken (s₀ : State) (h : Nat) (m : Memory) : Prop :=
  m = s₀.rxbuf ∨ m = s₀.rxbuf.writeRange 0 (s₀.secondByte h
    :: s₀.received (h + 1) (chunksOf s₀.cfg.maxXfer (zeros ((s₀.secondByte h).toNat + 1))))

section
variable (s₀ : State) (M : Memory → Prop)

theorem busKept_rxIn : BusKept (fun _ => RxIn s₀ M) (RxInOrCut s₀ M) where
  opens s := fun ⟨⟨n, l⟩, hrx⟩ => ⟨⟨n, l.trans (later_selected s)⟩, hrx⟩
  chunk _ s p _ := fun ⟨⟨n, l⟩, hrx⟩ _ _ => ⟨⟨n + 1, l.trans ⟨rfl, rfl, rfl⟩⟩, hrx⟩
  closes _ s := fun ⟨⟨n, l⟩, hrx⟩ => ⟨⟨n, l.chip, l.draws, l.cfg⟩, hrx⟩
  unopened _ := fun ⟨⟨_, l⟩, _⟩ hcut => .inr (l.not_uncutUntil (by simp [hcut]) rfl)
  cut _ s p c _ := fun ⟨⟨_, l⟩, _⟩ hcut _ => .inr (l.not_uncutUntil (by simp [hcut]) (cutAbout_facts s p c).1.draws)

theorem waitSteps_rxIn : WaitSteps .taskHandler (RxIn s₀ M) (RxInOrCut s₀ M) where
  transaction _ hne := (busKept_rxIn s₀ M).transaction hne
  waiting _ _ _ _ h := .inl h.2
  polls _ _ _ := fun ⟨⟨n, l⟩, hrx⟩ => ⟨⟨n, l.chip, l.draws, l.cfg⟩, hrx⟩

theorem emitting_rxIn : Emitting (RxIn s₀ M) (RxIn s₀ M) (RxIn s₀ M) (RxInOrCut s₀ M) where
  before := waitSteps_rxIn s₀ M
  after := waitSteps_rxIn s₀ M
  ends _ := id
  ended _ := id
  idle _ := fun ⟨⟨n, l⟩, hrx⟩ => ⟨⟨n, l.chip, l.draws, l.cfg⟩, hrx⟩
  emits _ _ := fun ⟨⟨n, l⟩, hrx⟩ => ⟨⟨n, l.chip, l.draws, l.cfg⟩, hrx⟩

end

section
variable {s₀ t : State} {i : Instr}

/-- u is s₀ after n chunks, `rxbuf` as it was. -/
def RxUnread (s₀ : State) (n : Nat) (u : State) : Prop := Later s₀ u n ∧ u.rxbuf = s₀.rxbuf

/-- A frame read that begins with the h-th chunk. -/
theorem frameRead_rxTaken (hx : 2 ≤ s₀.cfg.maxXfer) (h : Nat) :
    Triple (RxUnread s₀ h) frameRead (fun _ => RxIn s₀ (RxTaken s₀ h)) (fun _ => RxIn s₀ (RxTaken s₀ h))
      (RxInOrCut s₀ (RxTaken s₀ h)) := by
  have hframe := (busKept_rxIn s₀ (· = s₀.rxbuf)).frameRead (W := fun _ t => ∃ n, Later s₀ t n)
    fun s f ⟨⟨n, l⟩, _⟩ _ _ => ⟨n, l.chip, l.draws, l.cfg⟩
  have hread : Triple (RxUnread s₀ h) frameRead (fun _ t => (∃ n, Later s₀ t n) ∧ RxTaken s₀ h t.rxbuf)
      (fun _ => RxIn s₀ (· = s₀.rxbuf)) (RxInOrCut s₀ (· = s₀.rxbuf)) :=
    (hframe.pre fun _ ⟨l, hrx⟩ => ⟨⟨h, l⟩, hrx⟩).and_ok fun u f t ⟨l, hrx⟩ hok => by
      obtain ⟨rfl, ht⟩ := frameRead_eq_ok (by rwa [l.cfg]) hok
      rw [hrx, RxFrame.image, l.secondByte, l.received, l.cfg, Nat.add_zero] at ht
      exact .inr ht
  exact hread.mono (fun _ => id) (fun _ _ => id) (fun _ _ ht => ⟨ht.1, .inl ht.2⟩) fun _ => Or.imp_left .inl

/-- READ_FRAME and SPI_FB_READ. -/
theorem IsFrameRead.rxTaken (h : IsFrameRead i) (hv : s₀.cfg.valid = true) (ht : exec i s₀ = .next t)
    (hu : s₀.uncutUntil t) : RxTaken s₀ 0 t.rxbuf := by
  obtain ⟨-, hx, -⟩ := valid_limits hv
  rw [h, command_accepted (pure_run () _)] at ht
  obtain rfl := Host.Outcome.next.inj ht
  have hbody : Triple (RxUnread s₀ 0) (do let f ← frameRead; pure f.image) (fun _ => RxIn s₀ (RxTaken s₀ 0))
      (fun _ => RxIn s₀ (RxTaken s₀ 0)) (RxInOrCut s₀ (RxTaken s₀ 0)) :=
    .bind (frameRead_rxTaken (by omega) 0) fun _ => .pure fun _ => id
  have hrx : RxInOrCut s₀ (RxTaken s₀ 0) _ := (hbody _ ⟨later_accepted i s₀, rfl⟩).finished (fun _ _ hQ => .inl hQ.2)
    (fun _ _ hQ => .inl hQ.2) fun _ => id
  exact hrx.resolve_right (not_not_intro hu)

/-- TASK_HANDLER where something may have been completed: its first chunk reads the IRQ status. -/
theorem exec_taskHandler_rxIn {M : Memory → Prop} (hv : s₀.cfg.valid = true)
    (hb : s₀.cfg.profile.bytewise = true) (hst : s₀.opState = .idle ∨ s₀.opState = .transmittingWaitEnd)
    (hM : M s₀.rxbuf)
    (hpath : Triple (RxUnread s₀ 1) (completionPath s₀.opState) (fun _ => RxIn s₀ M) (fun _ => RxIn s₀ M)
      (RxInOrCut s₀ M))
    (ht : exec .taskHandler s₀ = .next t) (hu : s₀.uncutUntil t) : M t.rxbuf := by
  obtain ⟨-, hx, -⟩ := valid_limits hv
  have hsame : ∀ u, RxIn s₀ (· = s₀.rxbuf) u → RxIn s₀ M u := fun _ h => ⟨h.1, h.2 ▸ hM⟩
  have hread : Triple (RxUnread s₀ 0) (memReadByte s₀.cfg.map.irqStatus) (fun _ => RxUnread s₀ 1)
      (fun _ => RxIn s₀ M) (RxInOrCut s₀ M) :=
    ((((waitSteps_rxIn s₀ (· = s₀.rxbuf)).memReadByte _).pre fun _ ⟨l, hrx⟩ => ⟨⟨0, l⟩, hrx⟩).and_ok
      fun u _ v ⟨l, _⟩ hok => by
        obtain ⟨-, rfl⟩ := memReadByte_eq_ok (by rwa [l.cfg]) (by rw [l.cfg]; omega) hok
        exact (Nat.zero_add 1 ▸ l.afterBus 1 _ : Later s₀ _ 1)).mono (fun _ => id)
      (fun _ _ ⟨hin, l⟩ => ⟨l, hin.2⟩) (fun _ => hsame) fun _ => Or.imp_left fun hrx => hrx ▸ hM
  rw [exec_taskHandler_awake hb hst] at ht
  obtain rfl := Host.Outcome.next.inj ht
  have hrest : Triple (RxUnread s₀ 0) (do
      let irq ← memReadByte s₀.cfg.map.irqStatus
      if trxEnd s₀.cfg irq then do
        completionPath s₀.opState
        pure ([] : List Byte)
      else pure []) (fun _ => RxIn s₀ M) (fun _ => RxIn s₀ M) (RxInOrCut s₀ M) := by
    refine .bind hread fun irq => ?_
    split
    · exact .bind hpath fun _ => .pure fun _ => id
    · exact .pure fun _ ⟨l, hrx⟩ => hsame _ ⟨⟨1, l⟩, hrx⟩
  have hrx : RxInOrCut s₀ M _ := (hrest _ ⟨later_handling s₀, rfl⟩).finished (fun _ _ hQ => .inl hQ.2)
    (fun _ _ hQ => .inl hQ.2) fun _ => id
  exact hrx.resolve_right (not_not_intro hu)

end

section
variable {s t : State}

theorem exec_taskHandler_idle_rxTaken (hv : s.cfg.valid = true) (hb : s.cfg.profile.bytewise = true)
    (hst : s.opState = .idle) (ht : exec .taskHandler s = .next t) (hu : s.uncutUntil t) : RxTaken s 1 t.rxbuf := by
  obtain ⟨-, hx, -⟩ := valid_limits hv
  refine exec_taskHandler_rxIn hv hb (.inl hst) (.inl rfl) ?_ ht hu
  rw [hst]
  exact (emitting_rxIn s _).receivePath (frameRead_rxTaken (by omega) 1)

/-- Elsewhere it reads no frame. -/
theorem exec_taskHandler_rxbuf (hv : s.cfg.valid = true) (hst : s.opState ≠ .idle)
    (ht : exec .taskHandler s = .next t) (hu : s.uncutUntil t) : t.rxbuf = s.rxbuf := by
  cases hp : precheck s.cfg .taskHandler s.opState with
  | some e =>
    obtain rfl := Host.Outcome.next.inj ((exec_refused hp).symm.trans ht)
    rfl
  | none =>
    have hb : s.cfg.profile.bytewise = true := needsBytewise_of_precheck hp rfl
    cases hstate : s.opState with
    | idle => exact absurd hstate hst
    | initial | sleep =>
      obtain rfl := Host.Outcome.next.inj ((exec_taskHandler_asleep hb (by simp [hstate])).symm.trans ht)
      rfl
    | transmittingWaitEnd =>
      refine exec_taskHandler_rxIn (M := (· = s.rxbuf)) hv hb (.inr hstate) rfl ?_ ht hu
      rw [hstate]
      exact (emitting_rxIn s _).transmitDonePath.pre fun _ ⟨l, hrx⟩ => ⟨⟨1, l⟩, hrx⟩

/-- What `rxbuf` reads as then. -/
theorem RxTaken.read {h : Nat} {m : Memory} (hm : RxTaken s h m) (hv : s.cfg.valid = true) :
    (∀ k, (s.secondByte h).toNat + 2 ≤ k → m.read k = s.rxbuf.read k)
    ∧ ((∀ k, m.read k = s.rxbuf.read k)
       ∨ ∀ ps, IsChunking s.cfg.maxXfer (List.replicate ((s.secondByte h).toNat + 1) 0x00#8) ps →
          ∀ k, k < (s.secondByte h).toNat + 2 → m.read k = (s.secondByte h :: s.received (h + 1) ps)[k]?) := by
  obtain ⟨-, hx, -⟩ := valid_limits hv
  obtain rfl | rfl := hm
  · exact ⟨fun _ _ => rfl, .inl fun _ => rfl⟩
  · have hchunks := chunksOf_isChunking (m := s.cfg.maxXfer) (by omega) (zeros ((s.secondByte h).toNat + 1))
    have hlen : (s.received (h + 1) (chunksOf s.cfg.maxXfer (zeros ((s.secondByte h).toNat + 1)))).length
        = (s.secondByte h).toNat + 1 := by
      rw [received_length, hchunks.1, zeros, List.length_replicate]
    refine ⟨fun k hk => ?_, .inr fun ps hps k hk => ?_⟩
    · rw [Memory.read_writeRange, if_neg (by simp only [List.length_cons, hlen]; omega)]
    · obtain rfl := isChunking_unique hps
      rw [Memory.read_writeRange, if_pos (by simp only [List.length_cons, hlen]; omega)]
      rfl

/-- With the length byte at the place where the instruction that reads the frame has it. -/
theorem exec_rxTaken {i : Instr} {h : Nat} (hv : s.cfg.valid = true) (ht : exec i s = .next t) (hu : s.uncutUntil t)
    (hi : (i ∈ [.readFrame, .spiFbRead] ∧ h = 0) ∨ (i = .taskHandler ∧ h = 1)) : RxTaken s h t.rxbuf := by
  obtain ⟨hi, rfl⟩ | ⟨rfl, rfl⟩ := hi
  · have hread : IsFrameRead i := by
      obtain rfl | rfl : i = .readFrame ∨ i = .spiFbRead := by simpa using hi
      · exact readFrame_isFrameRead
      · exact fun _ => rfl
    exact hread.rxTaken hv ht hu
  · by_cases hst : s.opState = .idle
    · cases hp : precheck s.cfg .taskHandler s.opState with
      | some e =>
        obtain rfl := Host.Outcome.next.inj ((exec_refused hp).symm.trans ht)
        exact .inl rfl
      | none => exact exec_taskHandler_idle_rxTaken hv (needsBytewise_of_precheck hp rfl) hst ht hu
    · exact .inl (exec_taskHandler_rxbuf hv hst ht hu)

end

/-- Settles O31: no other instruction reads a frame, TASK_HANDLER reads one in Idle only, and a frame read that does not
end leaves `rxbuf` alone. -/
theorem receiveBufferFrame : Obligations.ReceiveBufferFrame := by
  unfold Obligations.ReceiveBufferFrame
  refine fun i s t hv ht hu => ⟨fun hread hidle k => ?_, fun h hi => (exec_rxTaken hv ht hu hi).read hv⟩
  by_cases htask : i = .taskHandler
  · subst htask
    rw [exec_taskHandler_rxbuf hv (fun hst => hidle ⟨rfl, hst⟩) ht hu]
  · have hno : readsFrame i = false := by
      cases i with
      | readFrame | spiFbRead => simp at hread
      | taskHandler => exact absurd rfl htask
      | _ => rfl
    rw [(exec_untouched ht hu).rxbuf hno]

end Sys2Proof.Machine
end

section
/-! What a step can do (R245, R262). -/

namespace Sys2Proof.Machine

/-- From s a step makes t: nothing, an IRQ edge, SRC reset, an instruction, a word that is refused, a late edge, or the
rest of the command that is running. -/
inductive Stepped (s : State) : State → Prop
  | waits : Stepped s s
  | edge (rest : List PortInput) : Stepped s (irqEdge { s with port := rest })
  | reset (rest : List PortInput) : Stepped s (srcReset { s with port := rest })
  | runs (rest : List PortInput) {i : Instr} {t : State} :
    s.busy = false → exec i { s with port := rest } = .next t → Stepped s t
  | refuses (rest : List PortInput) (e : Err) : Stepped s (refuse e { s with port := rest })
  | late {t : State} : Stepped s t → Stepped s (irqEdge t)
  | continues {t : State} : s.busy = true → continueCommand s = .next t → Stepped s t

section
variable {s t : State} {e : Encoded} {rest : List PortInput}

theorem stepped_runWord (hfree : s.busy = false) (ht : runWord e { s with port := rest } = .next t) : Stepped s t := by
  unfold runWord at ht
  split at ht
  · exact .runs rest hfree ht
  · unfold undecodable at ht
    split at ht
    · cases ht
      exact .refuses rest _
    · cases ht
    · cases ht

theorem stepped_abandoned (ht : abandoned e { s with port := rest } = .next t) : Stepped s t := by
  unfold abandoned at ht
  split at ht
  · cases ht
    exact .reset rest
  · split at ht
    · cases ht
      exact .reset rest
    · cases ht
    · cases ht

/-- A running command goes on before what is presented is taken. -/
theorem stepped_of_ite {o : Host.Outcome State Fault Refusal} (ht : (if s.busy then continueCommand s else o) = .next t)
    (ho : s.busy = false → o = .next t → Stepped s t) : Stepped s t := by
  split at ht
  · next hbusy => exact .continues hbusy ht
  · next hbusy => exact ho (Bool.not_eq_true _ ▸ hbusy) ht

theorem stepped_of_step (ht : step s = .next t) : Stepped s t := by
  unfold step at ht
  split at ht
  · refine stepped_of_ite ht fun _ hnext => ?_
    cases hnext
    exact .waits
  · cases ht
    exact .edge _
  · cases ht
    exact .reset _
  · exact stepped_of_ite ht stepped_runWord
  · exact stepped_of_ite ht fun _ => stepped_abandoned
  · refine stepped_of_ite ht fun hfree hnext => ?_
    obtain ⟨u, hu, rfl⟩ := thenEdge_eq_next.1 hnext
    exact .late (stepped_runWord hfree hu)

end
end Sys2Proof.Machine
end

section
/-! Every step keeps the invariant (O3): between its pieces a command is running, and its state would meet the invariant
if the command completed there. -/

namespace Sys2Proof.Machine

/-! ### A running command -/

/-- What the invariant says of s, leaving the sequencer, the bus and the cache but `band` aside. -/
def State.atRest (s : State) : State :=
  { State.boot s.cfg with
    txbuf := s.txbuf, rxbuf := s.rxbuf, band := s.band, rst := s.rst, slpTr := s.slpTr
    result := s.result, retdata := s.retdata, evq := s.evq }

/-- Command i is running under c, having passed its checks. Where `quiet`, it has emitted nothing. -/
structure Running (i : Instr) (quiet : Prop) (c : Config) (s : State) : Prop where
  inv    : s.atRest.Inv
  busy   : s.busy = true
  seq    : ∃ place, s.seq = some { cmd := i, step := place }
  passed : precheck s.cfg i s.opState = none
  silent : quiet → s.evq = []
  cfg    : s.cfg = c

/-- So with the bus line at l. -/
def RunningAt (i : Instr) (quiet : Prop) (c : Config) (l : BusLine) (s : State) : Prop :=
  Running i quiet c s ∧ (l = .released → s.cs = .deasserted)

/-- The command can complete. -/
def Rested (s : State) : Prop := s.atRest.Inv ∧ s.cs = .deasserted

/-- The invariant holds of t, as far as a command may be left running under c. -/
def InvUnder (c : Config) (t : State) : Prop := (t.busy = true → c.pollLimit = none) → t.Inv

section
variable {i : Instr} {quiet : Prop} {c : Config} {s t : State}

theorem State.Inv.atRest (h : s.Inv) : s.atRest.Inv :=
  { h with
    cs_idle := rfl
    seq_busy := rfl
    seq_place := nofun
    busy_unbounded := nofun }

/-- A completion (R29, R30). -/
theorem Rested.complete (h : Rested s) {code : Byte} {ret : List Byte} {info : Option Err} (hcode : code.toNat ≤ 8)
    (hret : code ≠ 0x00#8 → ret = []) : (complete code ret info s).Inv :=
  { h.1 with
    cs_idle := h.2
    seq_busy := rfl
    seq_place := nofun
    busy_unbounded := nofun
    result_code := hcode
    error_no_data := hret }

theorem srcReset_inv (hv : s.cfg.valid = true) : (srcReset s).Inv := { boot_inv hv with cfg_valid := hv }

theorem RunningAt.rested (h : RunningAt i quiet c .released s) : Rested s := ⟨h.1.inv, h.2 rfl⟩

/-! ### The bus and the waits -/

theorem after_ne_released (ok : Bool) : BusLine.after ok ≠ .released := by cases ok <;> simp [BusLine.after]

theorem busKept_running (i : Instr) (quiet : Prop) (c : Config) : BusKept (RunningAt i quiet c) (InvUnder c) where
  opens _ h := ⟨{ h.1 with cfg := h.1.cfg }, nofun⟩
  chunk _ s _ _ h _ _ := ⟨{ h.1 with cfg := h.1.cfg }, fun hl => absurd hl (after_ne_released _)⟩
  closes _ _ h := ⟨{ h.1 with cfg := h.1.cfg }, fun _ => rfl⟩
  unopened _ h _ _ := srcReset_inv h.1.inv.cfg_valid
  cut _ s p cut _ h _ _ _ := srcReset_inv (by
    rw [(cutAbout_facts s p cut).1.cfg]
    exact h.1.inv.cfg_valid)

/-- A command left at the poll of one of its calls (R276). -/
theorem placeOk_leftAt {call : StateCall} (hcall : call.command = i) (h : Running i quiet c s)
    (hquiet : (∃ d, i = .dataRequest d) → quiet) (phase : Phase) :
    placeOk (s.leftAt (.waiting call phase)) { cmd := i, step := .waiting call phase } = true := by
  refine Bool.and_eq_true_iff.2 ⟨Bool.and_eq_true_iff.2 ⟨beq_iff_eq.2 hcall, beq_iff_eq.2 h.passed⟩, ?_⟩
  cases i with
  | dataRequest d => exact beq_iff_eq.2 (h.silent (hquiet ⟨d, rfl⟩))
  | _ => rfl

theorem RunningAt.leftAt {call : StateCall} (h : RunningAt i quiet c .released s)
    (hquiet : (∃ d, i = .dataRequest d) → quiet) (phase : Phase) (hcall : call.command = i) :
    InvUnder c (s.leftAt (.waiting call phase)) := fun hunbounded => by
  obtain ⟨h, hcs⟩ := h
  obtain ⟨place, hseq⟩ := h.seq
  have hleft : (s.leftAt (.waiting call phase)).seq = some { cmd := i, step := .waiting call phase } := by
    simp [State.leftAt, hseq]
  exact
    { h.inv with
      cs_idle := hcs rfl
      seq_busy := by rw [hleft]; exact h.busy.symm
      seq_place := fun p hp => by
        obtain rfl := Option.some.inj (hleft.symm.trans hp)
        exact placeOk_leftAt hcall h hquiet phase
      busy_unbounded := fun hbusy => h.cfg ▸ hunbounded hbusy }

theorem waitSteps_running (hquiet : (∃ d, i = .dataRequest d) → quiet) :
    WaitSteps i (RunningAt i quiet c .released) (InvUnder c) where
  transaction _ hne := (busKept_running i quiet c).transaction hne
  waiting _ _ phase hcall h := h.leftAt hquiet phase hcall
  polls _ _ _ h := ⟨{ h.1 with cfg := h.1.cfg }, h.2⟩

/-! ### What a command writes -/

theorem frameOf_fits {f : List Byte} {st : OpState} (hp : precheck c i st = none) (hf : frameOf i = some f) :
    f.length + 3 ≤ c.fbLimit := by
  simp only [precheck_eq_or, Option.or_eq_none_iff, frameError, hf, Option.bind_some, ite_eq_right_iff] at hp
  by_contra hlong
  exact absurd (hp.2.2.2 (by omega)) (by simp)

theorem RunningAt.txbuf {l : BusLine} (h : RunningAt i quiet c l s) {f : List Byte} (hf : frameOf i = some f) :
    RunningAt i quiet c l { s with txbuf := s.txbuf.writeRange 0 (frameImage f) } := by
  have hfits := frameOf_fits h.1.passed hf
  refine ⟨{ h.1 with inv := { h.1.inv with txbuf_wf := ?_, txbuf_below := ?_ } }, h.2⟩
  · exact Memory.writeRange_wf h.1.inv.txbuf_wf 0 (frameImage f)
  · exact Memory.writeRange_below h.1.inv.txbuf_below (by rwa [frameImage_length, Nat.zero_add])

theorem storesFrames_running : StoresFrames (RunningAt i quiet c .released) fun _ => RunningAt i quiet c .released := by
  intro s f h hlen hbody
  have hv : s.cfg.valid = true := h.1.inv.cfg_valid
  obtain ⟨-, hx, -, -, -, hcap, -⟩ := valid_limits hv
  have himage : 0 + f.image.length ≤ s.cfg.rxbufCap := by
    have hbody := hbody (le_trans (by decide) hx)
    simp only [RxFrame.image, List.length_cons, hbody]
    omega
  refine ⟨{ h.1 with inv := { h.1.inv with rxbuf_wf := ?_, rxbuf_below := ?_ } }, h.2⟩
  · exact Memory.writeRange_wf h.1.inv.rxbuf_wf 0 f.image
  · exact Memory.writeRange_below h.1.inv.rxbuf_below himage

theorem RunningAt.withCache {l : BusLine} (h : RunningAt i quiet c l s) :
    RunningAt i quiet c l (withCache s i) := by
  cases i with
  | setBand b =>
    have hband : b.toNat < 8 := by simpa [badArgument] using badArgument_none h.1.passed
    exact ⟨{ h.1 with inv := { h.1.inv with band_low := hband } }, h.2⟩
  | setChannel | setModulation | setPanId | setShortAddress | setTxPower => exact ⟨{ h.1 with cfg := h.1.cfg }, h.2⟩
  | _ => exact h

theorem steps_running (hquiet : (∃ d, i = .dataRequest d) → quiet) :
    Steps i (RunningAt i quiet c .released) (InvUnder c) where
  toWaitSteps := waitSteps_running hquiet
  frameRead _ := (busKept_running i quiet c).frameRead storesFrames_running
  retries _ _ _ h := ⟨{ h.1 with cfg := h.1.cfg }, h.2⟩
  txbuf _ hf _ h := h.txbuf hf
  cache _ _ h := h.withCache
  power _ _ h := ⟨{ h.1 with cfg := h.1.cfg }, h.2⟩
  pulse _ _ h := ⟨{ h.1 with inv := { h.1.inv with rst_idle := rfl } }, h.2⟩
  handled _ _ h := ⟨{ h.1 with cfg := h.1.cfg }, h.2⟩

/-- What is left of a command, its own events included. -/
theorem closing_running (hquiet : (∃ d, i = .dataRequest d) → quiet) :
    Closing i (RunningAt i quiet c .released) Rested (InvUnder c) where
  steps := steps_running hquiet
  ends _ h := h.rested
  commits _ _ _ h := h.rested
  confirms hi s h := by
    have hevq : s.evq = [] := h.1.silent (hquiet hi)
    exact ⟨{ h.1.inv with evq_short := by simp [State.atRest, hevq], seq_place := nofun }, h.2 rfl⟩

theorem emitting_running :
    Emitting (RunningAt .taskHandler True c .released) (RunningAt .taskHandler False c .released) Rested
      (InvUnder c) where
  before := waitSteps_running fun ⟨_, h⟩ => nomatch h
  after := waitSteps_running fun ⟨_, h⟩ => nomatch h
  ends _ h := h.rested
  ended _ h := h.rested
  idle s h := by
    have hb : s.cfg.profile.bytewise = true := needsBytewise_of_precheck h.1.passed rfl
    exact ⟨{ h.1 with passed := precheck_taskHandler (s := { s with opState := .idle }) hb }, h.2⟩
  emits s e h := by
    have hevq : s.evq = [] := h.1.silent trivial
    refine ⟨{ h.1 with inv := { h.1.inv with evq_short := ?_, seq_place := nofun }, silent := False.elim }, h.2⟩
    simp [State.atRest, hevq]

theorem kept_running :
    Kept i (RunningAt i True c .released) (RunningAt .taskHandler False c .released) Rested (InvUnder c) where
  toClosing := closing_running fun _ => trivial
  emitting := by
    rintro rfl
    exact emitting_running

theorem Rested.ok (h : Rested s) (ret : List Byte) : InvUnder c (Machine.complete okCode ret none s) := fun _ =>
  h.complete (by decide) fun hne => absurd rfl hne

theorem Rested.raised (h : Rested s) (e : Err) : InvUnder c (Machine.complete e.code [] (some e) s) := fun _ =>
  h.complete (code_le_eight e) fun _ => rfl

/-! ### Instructions and steps -/

theorem refuse_inv (h : s.Inv) (e : Err) : (refuse e s).Inv :=
  { h with
    seq_busy := rfl
    seq_place := nofun
    busy_unbounded := nofun
    result_code := code_le_eight e
    error_no_data := fun _ => rfl }

theorem exec_inv (h : s.Inv) (ht : exec i s = .next t) : t.Inv := by
  cases hp : precheck s.cfg i s.opState with
  | some e =>
    obtain rfl := Host.Outcome.next.inj ((exec_refused hp).symm.trans ht)
    exact refuse_inv h e
  | none =>
    have hstart : Running i True s.cfg (accept (take i s)) :=
      { inv := { h.atRest with evq_short := Nat.zero_le 1, seq_place := nofun }
        busy := rfl
        seq := ⟨.start, rfl⟩
        passed := hp
        silent := fun _ => rfl
        cfg := rfl }
    have hinv : InvUnder s.cfg t := kept_running.command.exec hp ht ⟨hstart, fun _ => h.cs_idle⟩
      (fun ret _ hu => hu.ok ret) (fun e _ hu => hu.raised e) fun _ => id
    exact hinv (pollLimit_of_busy h.cfg_valid ht)

/-- A command that is running stands at the poll of one of its calls, and goes on there (R276). -/
theorem continueCommand_inv (h : s.Inv) (hbusy : s.busy = true) (ht : continueCommand s = .next t) : t.Inv := by
  obtain ⟨⟨cmd, place⟩, hseq⟩ := Option.isSome_iff_exists.1 (h.seq_busy.trans hbusy)
  have hplace := h.seq_place _ hseq
  cases place with
  | start => simp [placeOk] at hplace
  | waiting call phase =>
    simp only [placeOk, Bool.and_eq_true, beq_iff_eq] at hplace
    obtain ⟨⟨rfl, hpassed⟩, hsilent⟩ := hplace
    have hrun : Running call.command (∃ d, call.command = .dataRequest d) s.cfg s :=
      { inv := h.atRest
        busy := hbusy
        seq := ⟨_, hseq⟩
        passed := hpassed
        silent := fun ⟨d, hd⟩ => by simpa [hd] using hsilent
        cfg := rfl }
    rw [continueCommand_waiting hseq] at ht
    obtain rfl := Host.Outcome.next.inj ht
    have hinv : InvUnder s.cfg _ := ((closing_running id).resume phase s ⟨hrun, fun _ => h.cs_idle⟩).finished
      (fun ret _ hu => hu.ok ret) (fun e _ hu => hu.raised e) fun _ => id
    exact hinv fun _ => h.busy_unbounded hbusy

theorem Stepped.inv (h : s.Inv) (hstep : Stepped s t) : t.Inv := by
  have hport : ∀ rest, State.Inv { s with port := rest } := fun _ => { h with cfg_valid := h.cfg_valid }
  induction hstep with
  | waits => exact h
  | edge rest => exact { hport rest with cfg_valid := h.cfg_valid }
  | reset rest => exact srcReset_inv (s := { s with port := rest }) h.cfg_valid
  | runs rest _ hexec => exact exec_inv (hport rest) hexec
  | refuses rest e => exact refuse_inv (hport rest) e
  | late _ ih => exact { ih with cfg_valid := ih.cfg_valid }
  | continues hbusy hcont => exact continueCommand_inv h hbusy hcont

end

/-- Settles O3: a command keeps `Running` along its pseudocode (`kept_running`), also the rest of one that a wait left,
and SRC reset gives the reset state. -/
theorem everyStepKeepsTheInvariant : Obligations.EveryStepKeepsTheInvariant := by
  unfold Obligations.EveryStepKeepsTheInvariant
  exact fun s t h ht => (stepped_of_step ht).inv h

end Sys2Proof.Machine
end

section
/-! Everything any instruction or step puts on the bus is framed by chip-select (O25): of the transactions that `framed`
allows, only SRC reset makes one without a chunk. -/

namespace Sys2Proof.Machine

/-! ### Transactions with a chunk -/

/-- As `framedEvent`, where chip-select is not released before a chunk was sent. -/
def tidyEvent : BusLine → BusEvent → Option BusLine
  | .opened, .cs .deasserted => none
  | l, e => framedEvent l e

/-- The bus line after a list of events. -/
def tidy : BusLine → List BusEvent → Option BusLine
  | l, [] => some l
  | l, e :: es => (tidyEvent l e).bind fun l' => tidy l' es

theorem tidy_append (l : BusLine) (es fs : List BusEvent) :
    tidy l (es ++ fs) = (tidy l es).bind fun l' => tidy l' fs := by
  induction es generalizing l with
  | nil => rfl
  | cons e es ih => simp only [List.cons_append, tidy, ih, Option.bind_assoc]

theorem framedEvent_of_tidyEvent {l l' : BusLine} {e : BusEvent} (h : tidyEvent l e = some l') :
    framedEvent l e = some l' := by
  unfold tidyEvent at h
  split at h
  · cases h
  · exact h

theorem framed_of_tidy {l l' : BusLine} {es : List BusEvent} (h : tidy l es = some l') : framed l es = some l' := by
  induction es generalizing l with
  | nil => exact h
  | cons e es ih =>
    obtain ⟨l₁, he, hes⟩ := Option.bind_eq_some_iff.1 h
    exact Option.bind_eq_some_iff.2 ⟨l₁, framedEvent_of_tidyEvent he, ih hes⟩

/-- Chip-select is nowhere released right after it was asserted. -/
theorem not_tidy_pair (l : BusLine) (before after : List BusEvent) :
    tidy l (before ++ .cs .asserted :: .cs .deasserted :: after) = none := by
  rw [tidy_append]
  cases tidy l before with
  | none => rfl
  | some l' => cases l' <;> rfl

/-- After events that are tidy and one more, such a pair ends with that one at the earliest. -/
theorem mem_of_pair {l l' : BusLine} {es fs before after : List BusEvent} {e : BusEvent} (h : tidy l es = some l')
    (hpair : es ++ e :: fs = before ++ .cs .asserted :: .cs .deasserted :: after) : ∀ x ∈ after, x ∈ fs := by
  have hsplit : es ++ e :: fs = (before ++ [.cs .asserted, .cs .deasserted]) ++ after := by simpa using hpair
  have hnot : ∀ gs, es ≠ (before ++ [.cs .asserted, .cs .deasserted]) ++ gs := by
    rintro gs rfl
    rw [List.append_assoc] at h
    cases (not_tidy_pair l before gs).symm.trans h
  obtain ⟨gs, hbefore, hafter⟩ | ⟨gs, hes, -⟩ := List.append_eq_append_iff.1 hsplit
  · cases gs with
    | nil => exact absurd (by simpa using hbefore.symm) (hnot [])
    | cons g gs =>
      obtain ⟨-, rfl⟩ := List.cons.inj hafter
      exact fun x hx => List.mem_append_right gs hx
  · exact absurd hes (hnot gs)

/-! ### Where the bus line stands -/

/-- Since s₀ the bus line has come to l, all transactions with a chunk, and every chunk fits. -/
structure TidyAt (s₀ : State) (l : BusLine) (s : State) : Prop extends Moved s₀ s where
  cs    : s.cs = .asserted ↔ l ≠ .released
  trace : ∃ es, s.trace = s₀.trace ++ es ∧ tidy .released es = some l ∧ ∀ e ∈ es, chunkFits s₀.cfg e = true

/-- What a run from s₀ adds to the bus is framed, and a transaction without a chunk is the work of SRC reset. -/
def AddsFramed (s₀ t : State) : Prop :=
  t.cs = .deasserted ∧ ∃ es, t.trace = s₀.trace ++ es ∧ framed .released es = some .released
    ∧ (∀ e ∈ es, chunkFits s₀.cfg e = true)
    ∧ ∀ before after, es = before ++ .cs .asserted :: .cs .deasserted :: after →
      ¬ s₀.uncutUntil t ∧ ∀ e ∈ after, e = .rst .deasserted

section
variable {s₀ s t : State} {l l' : BusLine}

/-- Where events were added to the trace. -/
theorem TidyAt.append (h : TidyAt s₀ l s) (hmoved : Moved s₀ t) {es : List BusEvent} (htrace : t.trace = s.trace ++ es)
    (hcs : t.cs = .asserted ↔ l' ≠ .released) (hes : tidy l es = some l')
    (hfits : ∀ e ∈ es, chunkFits s₀.cfg e = true) :
    TidyAt s₀ l' t := by
  obtain ⟨fs, hfs, htidy, hfit⟩ := h.trace
  refine { toMoved := hmoved, cs := hcs, trace := ⟨fs ++ es, ?_, ?_, ?_⟩ }
  · rw [htrace, hfs, List.append_assoc]
  · rw [tidy_append, htidy]
    exact hes
  · exact List.forall_mem_append.2 ⟨hfit, hfits⟩

theorem deasserted_of_ne {v : Level} (h : ¬ v = .asserted) : v = .deasserted := by
  cases v with
  | asserted => exact absurd rfl h
  | deasserted => rfl

theorem TidyAt.addsFramed (h : TidyAt s₀ .released s) : AddsFramed s₀ s := by
  obtain ⟨es, htrace, htidy, hfits⟩ := h.trace
  refine ⟨deasserted_of_ne fun hcs => h.cs.1 hcs rfl, es, htrace, framed_of_tidy htidy, hfits,
    fun before after hes => ?_⟩
  rw [hes, not_tidy_pair] at htidy
  cases htidy

/-- What SRC reset does to RST. -/
def rstEdges (s : State) : List BusEvent := if s.rst = .asserted then [.rst .deasserted] else []

theorem mem_rstEdges {e : BusEvent} (h : e ∈ rstEdges s) : e = .rst .deasserted := by
  unfold rstEdges at h
  split at h
  · exact List.mem_singleton.1 h
  · cases h

theorem tidy_rstEdges (s : State) : tidy .released (rstEdges s) = some .released := by
  unfold rstEdges
  split <;> rfl

theorem chunkFits_rstEdges (s : State) (c : Config) : ∀ e ∈ rstEdges s, chunkFits c e = true := fun e he => by
  rw [mem_rstEdges he]
  rfl

theorem resetEdges_released (h : s.cs = .deasserted) : resetEdges s = rstEdges s := by simp [resetEdges, rstEdges, h]

theorem resetEdges_selected (h : s.cs = .asserted) : resetEdges s = .cs .deasserted :: rstEdges s := by
  simp [resetEdges, rstEdges, h]

/-- SRC reset with no transaction open. -/
theorem TidyAt.srcReset_released (h : TidyAt s₀ .released s) : AddsFramed s₀ (srcReset s) := by
  have hcs : s.cs = .deasserted := deasserted_of_ne fun hcs => h.cs.1 hcs rfl
  have hmoved : Moved s₀ (srcReset s) := ⟨h.cfg, h.draws, h.chip⟩
  refine (h.append (l' := .released) hmoved (es := rstEdges s) ?_ ?_ (tidy_rstEdges s)
    (chunkFits_rstEdges s _)).addsFramed
  · rw [← resetEdges_released hcs]
    rfl
  · simp [srcReset, State.boot]

/-- SRC reset in a transaction: chip-select is released (R260). -/
theorem TidyAt.srcReset_open (h : TidyAt s₀ l s) (hl : l ≠ .released) (hcut : ¬ s₀.uncutUntil (srcReset s)) :
    AddsFramed s₀ (srcReset s) := by
  obtain ⟨es, htrace, htidy, hfits⟩ := h.trace
  have hframed : framed l (.cs .deasserted :: rstEdges s) = some .released := by
    have hrst := framed_of_tidy (tidy_rstEdges s)
    cases l with
    | released => exact absurd rfl hl
    | opened | sending | broken => exact hrst
  refine ⟨rfl, es ++ .cs .deasserted :: rstEdges s, ?_, ?_, ?_, fun before after hes => ⟨hcut, fun e he => ?_⟩⟩
  · rw [← resetEdges_selected (h.cs.2 hl), ← List.append_assoc, ← htrace]
    rfl
  · rw [framed_append, framed_of_tidy htidy]
    exact hframed
  · exact List.forall_mem_append.2 ⟨hfits, List.forall_mem_cons.2 ⟨rfl, chunkFits_rstEdges s _⟩⟩
  · exact mem_rstEdges (mem_of_pair htidy hes e he)

theorem TidyAt.cs_of_isOpen (h : TidyAt s₀ l s) (hl : l.isOpen) : s.cs = .asserted :=
  h.cs.2 (by obtain rfl | rfl := hl <;> simp)

/-- The events of a chunk that SRC reset cuts. -/
theorem tidy_cutEvents (s : State) (p : List Byte) (c : Cut) (hl : l.isOpen) :
    ∃ l', l' ≠ .released ∧ tidy l (s.cutEvents 0 p c) = some l' := by
  obtain rfl | rfl := hl <;> cases c <;> simp [State.cutEvents, tidy, tidyEvent, framedEvent] <;> split <;> simp

theorem busKept_tidyAt (hx : 1 ≤ s₀.cfg.maxXfer) : BusKept (TidyAt s₀) (AddsFramed s₀) where
  opens s h := h.append { h.toMoved with cfg := h.cfg } (es := [.cs .asserted]) rfl
    (by simp [State.selected, State.log]) rfl (by simp [chunkFits])
  chunk l s p hl h _ hp := by
    have hcs := h.cs_of_isOpen hl
    have hlen := h.cfg ▸ hp (h.cfg ▸ hx)
    refine h.append (h.toMoved.afterChunk p) rfl ?_ ?_ ?_
    · cases hok : (s.drawAt 0).ok <;> simp [BusLine.after, hcs]
    · obtain rfl | rfl := hl <;> rfl
    · cases hok : (s.drawAt 0).ok <;> simp [chunkFits, hlen, State.rxAt]
  closes ok s h := h.append { h.toMoved with cfg := h.cfg } (es := [.cs .deasserted]) rfl
    (by simp [State.deselected, State.log]) (by cases ok <;> rfl) (by simp [chunkFits])
  unopened s h _ := TidyAt.srcReset_released (s := s.takeDraw)
    { h with toMoved := h.toMoved.trans (n := 1) ⟨rfl, rfl, rfl⟩ }
  cut l s p c hl h hcut hp := by
    obtain ⟨l₁, -, -, hcs, -, htrace⟩ := cutAbout_facts s p c
    obtain ⟨l', hne, hl'⟩ := tidy_cutEvents s p c hl
    have hlen := h.cfg ▸ hp (h.cfg ▸ hx)
    refine (h.append (h.toMoved.trans l₁) htrace (by simp [hcs, h.cs_of_isOpen hl, hne]) hl' ?_).srcReset_open hne ?_
    · exact fits_cutEvents s 0 c hlen
    · exact h.toMoved.later.not_uncutUntil (by simp [hcut]) l₁.draws

/-! ### Every instruction and every step -/

theorem TidyAt.withCache (h : TidyAt s₀ l s) (i : Instr) : TidyAt s₀ l (withCache s i) := by
  cases i with
  | setChannel | setBand | setModulation | setPanId | setShortAddress | setTxPower => exact { h with cfg := h.cfg }
  | _ => exact h

theorem TidyAt.pulsedRst (h : TidyAt s₀ .released s) : TidyAt s₀ .released s.pulsedRst :=
  h.append { h.toMoved with cfg := h.cfg } (es := [.rst .asserted, .rst .deasserted]) rfl h.cs rfl (by simp [chunkFits])

theorem steps_tidyAt (i : Instr) (hx : 1 ≤ s₀.cfg.maxXfer) : Steps i (TidyAt s₀ .released) (AddsFramed s₀) where
  transaction _ hne := (busKept_tidyAt hx).transaction hne
  waiting s call phase _ h :=
    TidyAt.addsFramed (s := s.leftAt (.waiting call phase)) { h with cfg := h.cfg }
  polls _ _ _ h := { h with cfg := h.cfg }
  frameRead _ := (busKept_tidyAt hx).frameRead fun _ _ h _ _ => { h with cfg := h.cfg }
  retries _ _ _ h := { h with cfg := h.cfg }
  txbuf _ _ _ h := { h with cfg := h.cfg }
  cache _ _ h := h.withCache i
  power _ _ h := { h with cfg := h.cfg }
  pulse _ _ h := h.pulsedRst
  handled _ _ h := { h with cfg := h.cfg }

theorem kept_tidyAt (i : Instr) (hx : 1 ≤ s₀.cfg.maxXfer) :
    Kept i (TidyAt s₀ .released) (TidyAt s₀ .released) (TidyAt s₀ .released) (AddsFramed s₀) :=
  (steps_tidyAt i hx).kept (fun _ _ h => { h with cfg := h.cfg }) fun _ _ _ h => { h with cfg := h.cfg }

theorem tidyAt_refl (h : s.cs = .deasserted) : TidyAt s .released s where
  toMoved := .refl s
  cs := by simp [h]
  trace := ⟨[], by simp, rfl, by simp⟩

theorem TidyAt.complete (h : TidyAt s₀ .released s) (code : Byte) (ret : List Byte) (info : Option Err) :
    AddsFramed s₀ (complete code ret info s) :=
  TidyAt.addsFramed (s := Machine.complete code ret info s) { h with cfg := h.cfg }

section
variable {i : Instr} (hv : s.cfg.valid = true) (hcs : s.cs = .deasserted)
include hcs

theorem refuse_addsFramed (e : Err) : AddsFramed s (refuse e s) :=
  TidyAt.addsFramed (s := refuse e s) { tidyAt_refl hcs with cfg := rfl }

include hv

theorem exec_addsFramed (ht : exec i s = .next t) : AddsFramed s t := by
  obtain ⟨-, hx, -⟩ := valid_limits hv
  cases hp : precheck s.cfg i s.opState with
  | some e =>
    obtain rfl := Host.Outcome.next.inj ((exec_refused hp).symm.trans ht)
    exact refuse_addsFramed hcs e
  | none =>
    exact (kept_tidyAt (s₀ := s) i (by omega)).command.exec hp ht { tidyAt_refl hcs with cfg := rfl }
      (fun _ _ h => h.complete _ _ _) (fun _ _ h => h.complete _ _ _) fun _ => id

theorem continueCommand_addsFramed (ht : continueCommand s = .next t) : AddsFramed s t := by
  obtain ⟨-, hx, -⟩ := valid_limits hv
  unfold continueCommand at ht
  split at ht
  · cases ht
    exact (tidyAt_refl hcs).addsFramed
  · split at ht
    · exact exec_addsFramed hv hcs ht
    · next call phase _ =>
      obtain rfl := Host.Outcome.next.inj ht
      have hclose := (kept_tidyAt (s₀ := s) call.command (by omega)).toClosing
      exact (hclose.resume phase s (tidyAt_refl hcs)).finished (fun _ _ h => h.complete _ _ _)
        (fun _ _ h => h.complete _ _ _) fun _ => id

theorem Stepped.addsFramed (hstep : Stepped s t) : AddsFramed s t := by
  induction hstep with
  | waits => exact (tidyAt_refl hcs).addsFramed
  | edge rest => exact (tidyAt_refl hcs).addsFramed
  | reset rest =>
    exact TidyAt.srcReset_released (s₀ := s) (s := { s with port := rest }) { tidyAt_refl hcs with cfg := rfl }
  | runs rest _ hexec => exact exec_addsFramed (s := { s with port := rest }) hv hcs hexec
  | refuses rest e => exact refuse_addsFramed (s := { s with port := rest }) hcs e
  | late _ ih => exact ih
  | continues _ hcont => exact continueCommand_addsFramed hv hcs hcont

end
end

/-- Settles O25: every command and every step keeps `TidyAt` between its transactions, and SRC reset releases
chip-select at the end of what is on the bus. -/
theorem everyTransactionIsFramed : Obligations.EveryTransactionIsFramed := by
  unfold Obligations.EveryTransactionIsFramed
  exact fun i s t hv hcs h => h.elim (exec_addsFramed hv hcs) fun ht => (stepped_of_step ht).addsFramed hv hcs

end Sys2Proof.Machine
end
